-- ==== Sys2Proof/Word.lean ====
section
/-! DEFINITION. Words of the KJ4820: the plain number types of the reference (spec/00_scope.md, CONVENTIONS). -/

namespace Sys2Proof

/-- A byte of telephony memory. -/
abbrev Byte := BitVec 8

/-- A beat: eight bytes, byte 0 in the low bits (little-endian). -/
abbrev Beat := BitVec 64

/-- A 32-bit byte address. -/
abbrev Addr := BitVec 32

/-- A value of the millisecond time base (R8). -/
abbrev Time := BitVec 32

/-- A 40-bit handset identity; 0 marks a vacant slot. -/
abbrev Identity := BitVec 40

/-- A handset slot, 0 to 1023. -/
abbrev Slot := Fin 1024

/-- A radio head, 0 to 63. -/
abbrev Head := Fin 64

/-- A traffic channel, 0 to 11. -/
abbrev Chan := Fin 12

/-- An entry of the Handover Transaction Table, 0 to 31 (R146). -/
abbrev EntryNo := Fin 32

end Sys2Proof
end

