-- ==== Sys2Proof/Syntax.lean ====
section
/-! DEFINITION. Syntax: the commands of the KJ4820, one constructor for each row of spec/opcode_table.json, and their
operands. -/

namespace Sys2Proof

/-- The two initiators of the board memory link (R1). -/
inductive Initiator where
  | cp | rlc
deriving DecidableEq, Repr

/-- The kind of a transaction with what that kind carries (R1). A write has 8 bytes per beat; a byte whose enable is
clear is `none`, since only the enabled bytes count. -/
inductive Access where
  | read (beats : Nat)
  | write (bytes : List (Option Byte))
deriving DecidableEq, Repr

/-- One transaction at the upstream port (R1). -/
structure Transaction where
  initiator : Initiator
  addr : Addr
  access : Access
deriving DecidableEq, Repr

/-- The two intake rings (R39). -/
inductive IntakeRing where
  | uplink | request
deriving DecidableEq, Repr

/-- The two output rings (R191). -/
inductive OutRing where
  | directive | event
deriving DecidableEq, Repr

/-- The commands. A transaction row carries the transaction; a dispatch row carries nothing, since it takes the oldest
entry of its intake queue (R48); a deadline row names whose deadline passes. -/
inductive Instr where
  /-- POWER_UP (R9) -/
  | powerUp
  /-- RSTIN_ASSERTED (R9) -/
  | rstinAsserted
  /-- RESET_RELEASE (R9) -/
  | resetRelease
  /-- DESCRIPTOR_READ (R12) -/
  | descriptorRead
  /-- SCAN_RECORD_READ (R13) -/
  | scanRecordRead
  /-- TIME_BASE_TICK (R8) -/
  | timeBaseTick
  /-- UPSTREAM_TRANSACTION (R5) -/
  | upstreamTransaction (t : Transaction)
  /-- DESCRIPTOR_WRITE (R6) -/
  | descriptorWrite (t : Transaction)
  /-- CLASS_OR_PARAMETER_WRITE (R17) -/
  | classOrParameterWrite (t : Transaction)
  /-- REGION_MAP_WRITE (R19) -/
  | regionMapWrite (t : Transaction)
  /-- BEGIN (R16) -/
  | beginStaging (t : Transaction)
  /-- APPLY (R18) -/
  | applyStaging (t : Transaction)
  /-- RESTART (R15) -/
  | restart (t : Transaction)
  /-- DIRECTIVE_CONSUMER_WRITE (R193) -/
  | directiveConsumerWrite (t : Transaction)
  /-- EVENT_CONSUMER_WRITE (R193) -/
  | eventConsumerWrite (t : Transaction)
  /-- RING_SLOT_WRITTEN (R192) -/
  | ringSlotWritten (r : OutRing)
  /-- PRODUCER_WORD_WRITTEN (R192) -/
  | producerWordWritten (r : OutRing)
  /-- HANDSET_RECORD_READ (R23) -/
  | handsetRecordRead (t : Transaction)
  /-- HANDSET_RECORD_WRITE (R27) -/
  | handsetRecordWrite (t : Transaction)
  /-- MERGE_READ_DONE (R31) -/
  | mergeReadDone
  /-- MEDIA_HEAD_WRITE (R35) -/
  | mediaHeadWrite (t : Transaction)
  /-- HEAD_RECORD_READ (R26) -/
  | headRecordRead (t : Transaction)
  /-- HEAD_RECORD_WRITE (R36) -/
  | headRecordWrite (t : Transaction)
  /-- HEAD_MERGE_READ_DONE (R36) -/
  | headMergeReadDone
  /-- UPLINK_RING_WRITE (R40) -/
  | uplinkRingWrite (t : Transaction)
  /-- REQUEST_RING_WRITE (R40) -/
  | requestRingWrite (t : Transaction)
  /-- HELD_WRITE_TAKEN (R46) -/
  | heldWriteTaken (r : IntakeRing)
  /-- INTAKE_HOLD_DEADLINE (R46) -/
  | intakeHoldDeadline (r : IntakeRing)
  /-- ATTACH (R70) -/
  | attach
  /-- ATTACH_CONFIRM (R77) -/
  | attachConfirm
  /-- DETACH (R84) -/
  | detach
  /-- KEEPALIVE (R92) -/
  | keepalive
  /-- DOZE_REQUEST (R102) -/
  | dozeRequest
  /-- CALL_REQUEST (R80) -/
  | callRequest
  /-- CALL_RELEASE (R81) -/
  | callRelease
  /-- MEASUREMENT (R107) -/
  | measurement
  /-- ACCESS (R167) -/
  | access
  /-- REVERT (R154) -/
  | revert
  /-- CHANNEL_REFUSED (R155) -/
  | channelRefused
  /-- HEAD_STATUS (R126) -/
  | headStatus
  /-- PAGE (R83) -/
  | page
  /-- RELEASE_CALL (R81) -/
  | releaseCall
  /-- FORCE_HANDOVER (R121) -/
  | forceHandover
  /-- UNPIN (R169) -/
  | unpin
  /-- DETACH_HANDSET (R85) -/
  | detachHandset
  /-- DRAIN_HEAD (R132) -/
  | drainHead
  /-- RESTORE_HEAD (R134) -/
  | restoreHead
  /-- CLEAR_FAULT_LIST (R183) -/
  | clearFaultList
  /-- ACK_FATAL (R188) -/
  | ackFatal
  /-- OFFER_DEADLINE (R78) -/
  | offerDeadline (slot : Slot)
  /-- AGE_LIMIT (R76) -/
  | ageLimit (slot : Slot)
  /-- REGAIN_DEADLINE (R74) -/
  | regainDeadline (head : Head)
  /-- WINDOW_DEADLINE (R95) -/
  | windowDeadline (slot : Slot)
  /-- CALL_PRESENCE_DEADLINE (R98) -/
  | callPresenceDeadline (slot : Slot)
  /-- GRACE_DEADLINE (R101) -/
  | graceDeadline (slot : Slot)
  /-- HOLDOFF_DEADLINE (R120) -/
  | holdoffDeadline (slot : Slot)
  /-- LIVENESS_DEADLINE (R127) -/
  | livenessDeadline (head : Head)
  /-- RESERVING_DEADLINE (R152) -/
  | reservingDeadline (entry : EntryNo)
  /-- COMMANDED_DEADLINE (R153) -/
  | commandedDeadline (entry : EntryNo)
  /-- MEDIA_HOLD_DEADLINE (R159) -/
  | mediaHoldDeadline (entry : EntryNo)
  /-- ORPHANED_DEADLINE (R166) -/
  | orphanedDeadline (entry : EntryNo)
  /-- SCRUB_DEADLINE (R180) -/
  | scrubDeadline
  /-- SCRUB_READ_DONE (R180) -/
  | scrubReadDone
  /-- REBUILD_READ_DONE (R185) -/
  | rebuildReadDone (slot : Slot)
  /-- RECORD_WRITE_TAKEN (R30) -/
  | recordWriteTaken
deriving DecidableEq, Repr

end Sys2Proof
end

