-- ==== Sys2Proof/Config.lean ====
section
/-! DEFINITION. Config: what the KJ4820 fixes (durations, capacities) and the one value its reference leaves open. -/

namespace Sys2Proof.Config

/-- Intake queue capacities (R44). -/
def uplinkQueueSize : Nat := 32
def requestQueueSize : Nat := 8

/-- The hold limit of a held intake write, 2 ms (R45). -/
def holdLimit : Time := 2

/-- The offer deadline, 500 ms (R73). -/
def offerTime : Time := 500

/-- The age limit of an Attach Queue entry, 4000 ms (R76). -/
def ageLimit : Time := 4000

/-- The credit regain time, 25 ms (R74). -/
def regainTime : Time := 25

/-- Attach credits of a head (R74) and places of an Attach Queue (R75). -/
def maxCredits : Nat := 4
def attachQueueSize : Nat := 8

/-- Back-offs of RETRY_LATER: full queue or age limit, and CONTAINED (R72, R76). -/
def backoffFull : Nat := 250
def backoffContained : Nat := 1000

/-- Call presence, 5000 ms, and the grace period, 120000 ms (R89). -/
def callPresenceTime : Time := 5000
def graceTime : Time := 120000

/-- The holdoff after a counted failure, 1000 ms (R120). -/
def holdoffTime : Time := 1000

/-- Head liveness, 3000 ms (R126). -/
def livenessTime : Time := 3000

/-- Phase deadlines of a handover transaction (R147). -/
def reservingTime : Time := 2000
def commandedTime : Time := 300
def mediaHoldTime : Time := 500
def orphanedTime : Time := 3000

/-- Places of the Candidate List (R111). -/
def maxCandidates : Nat := 4

/-- DRAIN transactions open at once from one head (R116). -/
def maxDrains : Nat := 4

/-- Places of the Record Fault List (R176) and of the Directive Backlog (R195). -/
def faultListSize : Nat := 16
def backlogSize : Nat := 16

/-- The value at which the 16-bit counters saturate (R53, R119, R176, R195, R196). -/
def counterMax : Nat := 65535

/-- What a byte of telephony memory that nothing has written reads as: DESIGN CHOICE 0x00, unsafe (log entry 1). -/
def unwrittenByte : Byte := 0

/-- FREE VALUE (log entry 3): whether memory had already taken a downstream write that the part had sent, when RSTIN or
the entry to HALTED ends the operation before its completion reaches the part (R9, R20, R32). The n-th such question
of a run is answered by the value at n; nothing constrains it. -/
opaque memoryHadTaken : Nat → Bool

end Sys2Proof.Config
end

