-- ==== Sys2Proof/Machine/State.lean ====
section
/-! DEFINITION. State: everything the reference gives the KJ4820, as plain data, and the state after a power-on reset. -/

namespace Sys2Proof.Machine

/-- Why the model stops with a fault. -/
inductive Fault where
  /-- Raised by a transaction row whose operand is no transaction of the board memory link (R1: address a multiple of
  8, 1 to 8 beats, 8 bytes per beat) or whose direction is not the row's. The reference gives no such transaction.
  Safe. -/
  | illFormedTransaction
  /-- Raised by a transaction row when its initiator already has a transaction outstanding, which R1 rules out. Safe. -/
  | transactionOutstanding
deriving DecidableEq, Repr

/-- Why the model gives a command no meaning. -/
inductive Refusal where
  /-- Raised by exec for a command that has no meaning yet. Safe. -/
  | notModelled (mnemonic : String)
deriving DecidableEq, Repr

/-- Telephony memory: address and byte pairs in the canonical form of Memory.wf. -/
abbrev Memory := List Host.Cell

/-! ### Memory Path -/

/-- The operating states (R9). -/
inductive OpState where
  | reset | starting | running | configFault | halted
deriving DecidableEq, Repr

/-- The reset causes (R9). -/
inductive ResetCause where
  | powerOn | external | restart
deriving DecidableEq, Repr

/-- How far start-up has come (R12, R13): not under way, waiting for the descriptor read, or scanning the record of a
slot, the index words having been written. -/
inductive Startup where
  | none
  | descriptor
  | scan (slot : Slot)
deriving DecidableEq, Repr

/-- The region map (R10). -/
structure RegionMap where
  memorySize : Nat
  handsetBase : Nat
  headBase : Nat
  uplinkBase : Nat
  uplinkCount : Nat
  requestBase : Nat
  requestCount : Nat
  directiveBase : Nat
  directiveCount : Nat
  eventBase : Nat
  eventCount : Nat
deriving DecidableEq, Repr

/-- A class table and global parameter word, byte for byte as the descriptor block holds them (R11, R17). -/
structure ParamSet where
  classBytes : Vector Byte 64
  globalBytes : Vector Byte 4
deriving DecidableEq, Repr

/-- The answers to a transaction (R2). -/
inductive Answer where
  | done (data : List Beat)
  | donePoisoned (data : List Beat)
  | refused
deriving DecidableEq, Repr

/-- The upstream port as one initiator sees it: its transaction that is not yet answered and the last answer (R1). -/
structure Port where
  outstanding : Option Transaction
  answer : Option Answer
deriving DecidableEq, Repr

/-! ### Intake -/

/-- What a handset message carries besides its reporting head and identity (R42). -/
inductive HandsetMsg where
  | attach (code : BitVec 16)
  | attachConfirm
  | detach
  | keepalive
  | dozeRequest
  | callRequest
  | callRelease
  | measurement (samples : List (Head × Nat))
  | access
  | revert
  | channelRefused (channel : Chan)
deriving DecidableEq, Repr

/-- The kinds of uplink message, in the order of their codes (R42). -/
inductive UplinkKind where
  | attach | attachConfirm | detach | keepalive | dozeRequest | callRequest | callRelease | measurement | access
  | revert | channelRefused | headStatus
deriving DecidableEq, Repr

/-- An entry of the Uplink Intake Queue (R42). -/
inductive UplinkMsg where
  | handset (head : Head) (identity : Identity) (body : HandsetMsg)
  | headStatus (head : Head) (warning : Bool)
deriving DecidableEq, Repr

/-- The kinds of request, in the order of their codes (R43). -/
inductive RequestKind where
  | page | releaseCall | forceHandover | unpin | detachHandset | drainHead | restoreHead | clearFaultList | ackFatal
deriving DecidableEq, Repr

/-- An entry of the Request Intake Queue (R43). -/
inductive Request where
  | page (slot : Slot)
  | releaseCall (slot : Slot)
  | forceHandover (slot : Slot) (target : Head)
  | unpin (slot : Slot)
  | detachHandset (slot : Slot)
  | drainHead (head : Head)
  | restoreHead (head : Head)
  | clearFaultList
  | ackFatal
deriving DecidableEq, Repr

/-- A held uplink write: the write, its content already checked, and its hold deadline (R7, R45). -/
structure HeldUplink where
  write : Transaction
  item : UplinkMsg
  deadline : Time
deriving DecidableEq, Repr

/-- A held request write (R7, R45). -/
structure HeldRequest where
  write : Transaction
  item : Request
  deadline : Time
deriving DecidableEq, Repr

/-! ### Handset contexts: Registration, Presence, Quality -/

/-- The twelve states of a handset, in the order of their codes. -/
inductive HandsetState where
  | vacant | provisioned | barred | quarantined | queued | offered | idle | doze | active | moving | pinned | lost
deriving DecidableEq, Repr

/-- The handover policies (R29). -/
inductive Policy where
  | auto | manual | locked
deriving DecidableEq, Repr

/-- The state a transaction opened from (R146). -/
inductive Origin where
  | active | pinned
deriving DecidableEq, Repr

/-- The fields that Registration stages during a call (R66). -/
structure StagedFields where
  cls : BitVec 3
  group : BitVec 4
  policy : Policy
  priority : BitVec 2
deriving DecidableEq, Repr

/-- The modes of a presence window (R88). -/
inductive PresenceMode where
  | none | window | timeout | call | grace
deriving DecidableEq, Repr

/-- The presence context (R88). -/
structure Presence where
  mode : PresenceMode
  period : Option Time
  start : Option Time
  deadline : Option Time
  missed : Bool
  early : Bool
deriving DecidableEq, Repr

/-- An entry of a Candidate List (R111). -/
structure Candidate where
  head : Head
  level : Nat
  staleness : Nat
  dwell : Nat
  underRange : Bool
  overRange : Bool
deriving DecidableEq, Repr

/-- The quality context (R106). -/
structure Quality where
  level : Option Nat
  underRange : Bool
  overRange : Bool
  candidates : List Candidate
  holdoff : Option Time
deriving DecidableEq, Repr

/-- The context of one handset slot (spec/04, THE HANDSET CONTEXT). `none` for a head or channel is the value 0xFF. -/
structure HandsetCtx where
  identity : Identity
  cls : BitVec 3
  group : BitVec 4
  code : BitVec 16
  policy : Policy
  priority : BitVec 2
  staged : Option StagedFields
  state : HandsetState
  admissionHead : Option Head
  offerDeadline : Option Time
  serving : Option Head
  channel : Option Chan
  media : Option Head
  accessFail : Nat
  hoFail : Nat
  txn : Option (EntryNo × Origin)
  lastSeen : Time
  poisoned : Bool
  presence : Presence
  quality : Quality
  /-- The stored parity of the context is wrong (R184). -/
  ctxParityBad : Bool
deriving DecidableEq, Repr

/-- An entry of the Identity Map (R59), with its parity (R186). -/
structure MapEntry where
  slot : Slot
  identity : Identity
  parityBad : Bool
deriving DecidableEq, Repr

/-- Attach admission at one head: credits, regain deadline and Attach Queue of slots with join times (R74, R75). -/
structure AttachHead where
  credits : Nat
  regain : Option Time
  queue : List (Slot × Time)
deriving DecidableEq, Repr

/-! ### Head Manager -/

/-- The states of a head, in the order of their codes (R124). -/
inductive HeadState where
  | absent | inService | degraded | draining | failed | outOfService
deriving DecidableEq, Repr

/-- The owner of an allocated channel (R136). -/
inductive Owner where
  | call (slot : Slot)
  | reservation (entry : EntryNo)
  | held (entry : EntryNo)
deriving DecidableEq, Repr

/-- The causes of a handover transaction (R148). -/
inductive Cause where
  | quality | urgent | drain | forced | orphan | reestablish
deriving DecidableEq, Repr

/-- An entry of a Reservation Wait Queue (R142). -/
structure WaitEntry where
  entry : EntryNo
  slot : Slot
  cause : Cause
  priority : BitVec 2
  opened : Time
deriving DecidableEq, Repr

/-- The context of one head (R124). The pool gives the owner of each channel number that is allocated (R136). -/
structure HeadCtx where
  state : HeadState
  capacity : Nat
  guard : Nat
  staged : Option (Nat × Nat)
  failures : Nat
  liveness : Option Time
  warning : Bool
  lastStatus : Time
  pool : Vector (Option Owner) 12
  waitQ : List WaitEntry
  /-- The stored parity of the Channel Pool is wrong (R136, R186). -/
  poolParityBad : Bool
deriving DecidableEq, Repr

/-! ### Handover Engine -/

/-- The phases of a handover transaction (R147). -/
inductive Phase where
  | reserving | commanded | switched | orphaned
deriving DecidableEq, Repr

/-- A handover transaction (R146). -/
structure Handover where
  slot : Slot
  cause : Cause
  phase : Phase
  source : Head
  target : Option Head
  targetChan : Option Chan
  heldChan : Option Chan
  deadline : Time
  origin : Origin
  opened : Time
deriving DecidableEq, Repr

/-- An entry of the Handover Transaction Table, with its parity (R146, R186). -/
structure TableEntry where
  txn : Option Handover
  parityBad : Bool
deriving DecidableEq, Repr

/-! ### Record View and the Integrity Unit -/

/-- A provisioning change: the new decoded value of each field the write reached, and whether the write was a full
rewrite (R34). -/
structure ProvChange where
  identity : Option Identity
  code : Option (BitVec 16)
  cls : Option (BitVec 3)
  group : Option (BitVec 4)
  policy : Option Policy
  priority : Option (BitVec 2)
  full : Bool
deriving DecidableEq, Repr

/-- The merge in progress: of a handset record or of a head record, with the CP's write (R31, R36). -/
inductive Merge where
  | handset (slot : Slot) (write : Transaction)
  | head (head : Head) (write : Transaction)
deriving DecidableEq, Repr

/-- An accepted record write that memory has not yet taken: the bytes of its one downstream write, laid from the start
of the record, the beats of the CP's write, and what is handed over when memory has taken it (R30, R31, R36). -/
inductive RecordWrite where
  | handset (slot : Slot) (bytes : List (Option Byte)) (beats : List Nat) (change : ProvChange)
  | head (head : Head) (bytes : List (Option Byte)) (capacity guard : Nat)
deriving DecidableEq, Repr

/-- What can wait for a context rebuild (R185): the uplink message being taken with the time base at its dispatch (R50), the
request being taken, the CP's transaction at the upstream port, or a provisioning change whose write is answered when it has
been taken. -/
inductive Waiter where
  | uplink (msg : UplinkMsg) (dispatched : Time)
  | request (req : Request)
  | cp (t : Transaction)
  | change (c : ProvChange)
deriving DecidableEq, Repr

/-- A context rebuild in progress (R184, R185). -/
structure Rebuild where
  slot : Slot
  dropped : Bool
  waiting : List Waiter
deriving DecidableEq, Repr

/-- The scrub read in progress (R180): the 64 bytes memory returned, the beats of a CP write that was taken before the
read and not yet answered at it, the beats of CP writes taken since, and whether a full rewrite was (R173, R175, R178). -/
structure ScrubRead where
  slot : Slot
  image : List Byte
  unanswered : List Nat
  taken : List Nat
  rewritten : Bool
deriving DecidableEq, Repr

/-! ### Output Unit -/

/-- The directive kinds, in the order of their codes (spec/11, CODES). -/
inductive DirectiveKind where
  | acceptAttach | rejectAttach | retryLater | presenceTerms | page | channelAssign | channelRelease | callReject
  | handoverGo | detachOrder | reselect
deriving DecidableEq, Repr

/-- A directive (R194). `none` stands for a field's empty value; `dest = none` is all heads (0xFE). -/
structure Directive where
  kind : DirectiveKind
  dest : Option Head
  identity : Identity
  slot : Option Slot
  channel : Option Chan
  targetHead : Option Head
  targetChan : Option Chan
  reason : Byte
  backoff : Nat
  mode : Byte
  period : Byte
  group : BitVec 4
  suspect : Bool
deriving DecidableEq, Repr

/-- The event kinds (spec/11, CODES). -/
inductive EventKind where
  | started | configApplied | configRejected | configIgnored
  | attached | attachTimeout | barred | detached
  | earlyKeepalive | missed | lost | recovered | lostExpired | dozeEntered | dozeRefused
  | callStarted | callRefused | callEnded | callDropped
  | handoverOpened | handoverDone | mediaReleased | handoverFailed | handoverAbandoned | pinned | staleAccess
  | headUp | headDegraded | headFailed | headOutOfService | headDrained
  | intakeOverrun | malformed | requestRefused
  | corrected | thresholdReached | recordPoisoned | contextFault | fatal | halted
  | directiveDropped | eventsLost | indexRefused
deriving DecidableEq, Repr

/-- The severities (R196). -/
inductive Severity where
  | none | corrected | recoverable | uncorrected | fatal
deriving DecidableEq, Repr

/-- An event with its time stamp (R196). -/
structure Event where
  kind : EventKind
  severity : Severity
  subject : BitVec 16
  time : Time
  detail1 : BitVec 32
  detail2 : BitVec 32
deriving DecidableEq, Repr

/-! ### The state -/

/-- The KJ4820, the telephony memory behind it and the queue of commands. -/
structure State where
  /-- The commands that wait, oldest first. -/
  pending : List Instr
  /-- The telephony memory (R3). -/
  mem : Memory
  /-- The operating state (R9). -/
  op : OpState
  /-- The recorded reset cause (R9). -/
  resetCause : ResetCause
  /-- Power came up since the last start-up (R9). -/
  powerCame : Bool
  /-- How far start-up has come (R12, R13). -/
  startup : Startup
  /-- The active region map (R4). -/
  map : Option RegionMap
  /-- The active set (R16). -/
  active : Option ParamSet
  /-- The staged set; staging is OPEN exactly while it is present (R16). -/
  staged : Option ParamSet
  /-- The map-changed flag (R19). -/
  mapChanged : Bool
  /-- The time base (R8). -/
  timeBase : Time
  /-- The upstream port toward each initiator (R1). -/
  cpPort : Port
  rlcPort : Port
  /-- The held-write slots of the CP and of the RLC (R7). -/
  heldCp : Option HeldRequest
  heldRlc : Option HeldUplink
  /-- The merge in progress (R31, R36). -/
  merge : Option Merge
  /-- The accepted record write that memory has not yet taken (R30). -/
  recordWrite : Option RecordWrite
  /-- The intake queues, oldest first (R44). -/
  uplink : List UplinkMsg
  requests : List Request
  /-- The intake counters (R53). -/
  uplinkOverrun : Nat
  requestOverrun : Nat
  unknownIds : Nat
  /-- The Handset Context Table with the presence and quality contexts. -/
  ctxs : Vector HandsetCtx 1024
  /-- The Identity Map, in slot order (R59). -/
  idMap : List MapEntry
  /-- Attach credits and Attach Queues (R74, R75). -/
  attach : Vector AttachHead 64
  /-- The deferral count (R119). -/
  deferrals : Nat
  /-- The head contexts (R124). -/
  heads : Vector HeadCtx 64
  /-- The Handover Transaction Table (R146). -/
  table : Vector TableEntry 32
  /-- CONTAINED and FATAL_PENDING (R186). -/
  contained : Bool
  fatalPending : Bool
  /-- The Record Fault List, oldest first, and the corrected count (R176). -/
  faultList : List Slot
  corrected : Nat
  /-- The scrub pointer and deadline (R180). -/
  scrubPtr : Slot
  scrubDeadline : Option Time
  /-- The scrub read in progress (R180). -/
  scrubRead : Option ScrubRead
  /-- The context rebuilds in progress (R185). -/
  rebuilds : List Rebuild
  /-- The Identity Map faults found by the scan, in the order found (R13). -/
  scanFatals : List Slot
  /-- The positions and consumer copies of the output rings (R191). -/
  dirProd : Nat
  dirCons : Nat
  evProd : Nat
  evCons : Nat
  /-- The directives the Output Unit has taken for the ring and is writing, oldest first, and whether memory has taken
  the slot write of the oldest (R192). -/
  dirOut : List Directive
  dirSent : Bool
  /-- The Directive Backlog, oldest first (R195). -/
  backlog : List Directive
  /-- The events the Output Unit has taken for the ring and is writing, and the same mark (R192). -/
  evOut : List Event
  evSent : Bool
  /-- The events-lost and directives-dropped counts (R195, R196). -/
  eventsLost : Nat
  dirDropped : Nat
  /-- The ATTN output (R198). -/
  attn : Bool
  /-- The model's own counter of free values (log entry 3). -/
  free : Nat
deriving DecidableEq, Repr

/-! ### Reset values -/

/-- A presence context with no window (R88). -/
def Presence.idle : Presence :=
  { mode := .none, period := none, start := none, deadline := none, missed := false, early := false }

/-- A quality context outside a call (R106). -/
def Quality.idle : Quality :=
  { level := none, underRange := false, overRange := false, candidates := [], holdoff := none }

/-- A context after start-up (R87) with no provisioned content: a VACANT slot. -/
def HandsetCtx.vacant : HandsetCtx :=
  { identity := 0, cls := 0, group := 0, code := 0, policy := .auto, priority := 0, staged := none, state := .vacant,
    admissionHead := none, offerDeadline := none, serving := none, channel := none, media := none, accessFail := 0,
    hoFail := 0, txn := none, lastSeen := 0, poisoned := false, presence := .idle, quality := .idle,
    ctxParityBad := false }

/-- Attach admission after any reset (R87). -/
def AttachHead.reset : AttachHead := { credits := Config.maxCredits, regain := none, queue := [] }

/-- An empty Channel Pool (R144). -/
def emptyPool : Vector (Option Owner) 12 := Vector.replicate 12 none

/-- A head after a power-on reset (R144). -/
def HeadCtx.powerOn : HeadCtx :=
  { state := .absent, capacity := 0, guard := 0, staged := none, failures := 0, liveness := none, warning := false,
    lastStatus := 0, pool := emptyPool, waitQ := [], poolParityBad := false }

/-- A head after an external reset or RESTART (R144): its staged values, else its active ones, and its failure count
stay. -/
def HeadCtx.externalReset (h : HeadCtx) : HeadCtx :=
  { HeadCtx.powerOn with
    capacity := (h.staged.map Prod.fst).getD h.capacity
    guard := (h.staged.map Prod.snd).getD h.guard
    failures := h.failures }

/-- A free table entry (R171). -/
def TableEntry.empty : TableEntry := { txn := none, parityBad := false }

/-- A port with nothing outstanding. -/
def Port.quiet : Port := { outstanding := none, answer := none }

/-- The machine right after a power-on reset, in RESET, with nothing in memory (R9, R21, R54, R87, R105, R123, R144,
R171, R190, R201). -/
def State.reset : State :=
  { pending := [], mem := [], op := .reset, resetCause := .powerOn, powerCame := true, startup := .none, map := none,
    active := none, staged := none, mapChanged := false, timeBase := 0, cpPort := .quiet, rlcPort := .quiet,
    heldCp := none, heldRlc := none, merge := none, recordWrite := none, uplink := [], requests := [],
    uplinkOverrun := 0, requestOverrun := 0, unknownIds := 0, ctxs := Vector.replicate 1024 .vacant, idMap := [],
    attach := Vector.replicate 64 .reset, deferrals := 0, heads := Vector.replicate 64 .powerOn,
    table := Vector.replicate 32 .empty, contained := false, fatalPending := false, faultList := [], corrected := 0,
    scrubPtr := 0, scrubDeadline := none, scrubRead := none, rebuilds := [], scanFatals := [], dirProd := 0,
    dirCons := 0, evProd := 0, evCons := 0, dirOut := [], dirSent := false, backlog := [], evOut := [],
    evSent := false, eventsLost := 0, dirDropped := 0, attn := false, free := 0 }

end Sys2Proof.Machine
end

