-- ==== Sys2Proof/Machine/Ops.lean ====
section
/-! DEFINITION. Ops: the named operations over telephony memory and over the state's tables, and the shape of a step. -/

namespace Sys2Proof.Machine

/-! ### Bytes -/

/-- The number a little-endian run of bytes holds. -/
def leNat : List Byte → Nat
  | [] => 0
  | b :: r => b.toNat + 256 * leNat r

/-- The low `n` bytes of a number, little-endian. -/
def leBytes : Nat → Nat → List Byte
  | 0, _ => []
  | n + 1, v => BitVec.ofNat 8 v :: leBytes n (v / 256)

/-- A byte of a run, 0 beyond its end. -/
def byteAt (bytes : List Byte) (i : Nat) : Byte := bytes.getD i 0

/-- The beat that eight bytes from offset `off` make. -/
def beatAt (bytes : List Byte) (off : Nat) : Beat := BitVec.ofNat 64 (leNat ((bytes.drop off).take 8))

/-- The eight bytes of a beat. -/
def beatBytes (b : Beat) : List Byte := leBytes 8 b.toNat

/-! ### Telephony memory -/

/-- The byte memory holds at an address. -/
def Memory.readByte : Memory → Nat → Byte
  | [], _ => Config.unwrittenByte
  | (a, b) :: rest, x => if x = a then b else Memory.readByte rest x

/-- Memory with one byte written, in canonical form. -/
def Memory.writeByte : Memory → Nat → Byte → Memory
  | [], a, b => if b = Config.unwrittenByte then [] else [(a, b)]
  | (x, c) :: rest, a, b =>
    if a < x then if b = Config.unwrittenByte then (x, c) :: rest else (a, b) :: (x, c) :: rest
    else if a = x then if b = Config.unwrittenByte then rest else (a, b) :: rest
    else (x, c) :: Memory.writeByte rest a b

/-- Memory with the enabled bytes of a run written from an address up (R1). -/
def Memory.writeEnabled : Memory → Nat → List (Option Byte) → Memory
  | m, _, [] => m
  | m, a, none :: rest => Memory.writeEnabled m (a + 1) rest
  | m, a, some b :: rest => Memory.writeEnabled (Memory.writeByte m a b) (a + 1) rest

/-- Memory with every byte of a run written. -/
def Memory.writeAll (m : Memory) (a : Nat) (bytes : List Byte) : Memory := Memory.writeEnabled m a (bytes.map some)

/-- The `n` bytes from an address up. -/
def Memory.readBytes (m : Memory) (a n : Nat) : List Byte := (List.range n).map fun i => Memory.readByte m (a + i)

/-- The beat at an address. -/
def Memory.readBeat (m : Memory) (a : Nat) : Beat := beatAt (Memory.readBytes m a 8) 0

/-- The canonical form: addresses strictly rising, nothing listed that an unlisted address reads as. -/
abbrev Memory.wf (m : Memory) : Prop :=
  m.Pairwise (fun x y => x.1 < y.1) ∧ ∀ c ∈ m, c.2 ≠ Config.unwrittenByte

/-! ### Time and counters -/

/-- R8: deadline `d` has passed at time base `now`. -/
def passed (d now : Time) : Bool := (now - d).toNat < 2 ^ 31

/-- R53: a 16-bit counter that saturates. -/
def satInc (n : Nat) : Nat := if n < Config.counterMax then n + 1 else n

/-! ### Tables -/

def State.ctx (s : State) (n : Slot) : HandsetCtx := s.ctxs[n]
def State.setCtx (s : State) (n : Slot) (c : HandsetCtx) : State := { s with ctxs := s.ctxs.set n c }
def State.head (s : State) (h : Head) : HeadCtx := s.heads[h]
def State.setHead (s : State) (h : Head) (c : HeadCtx) : State := { s with heads := s.heads.set h c }
def State.att (s : State) (h : Head) : AttachHead := s.attach[h]
def State.setAtt (s : State) (h : Head) (a : AttachHead) : State := { s with attach := s.attach.set h a }
def State.entry (s : State) (e : EntryNo) : TableEntry := s.table[e]
def State.setEntry (s : State) (e : EntryNo) (t : TableEntry) : State := { s with table := s.table.set e t }

/-- The slot that the Identity Map joins to an identity (R59). -/
def State.mapLookup (s : State) (id : Identity) : Option MapEntry :=
  if id = 0 then none else s.idMap.find? (fun e => e.identity == id)

/-- The Identity Map's entry of a slot (R59). -/
def State.mapEntryOf (s : State) (n : Slot) : Option MapEntry := s.idMap.find? (fun e => e.slot == n)

/-- The Identity Map with no entry of a slot. -/
def mapRemove (m : List MapEntry) (n : Slot) : List MapEntry := m.filter (fun e => e.slot != n)

/-- An entry put in its place by slot. -/
def mapInsert (e : MapEntry) : List MapEntry → List MapEntry
  | [] => [e]
  | x :: rest => if e.slot < x.slot then e :: x :: rest else x :: mapInsert e rest

/-- The Identity Map with the entry of a slot set to an identity, freshly written (R59). -/
def mapSet (m : List MapEntry) (n : Slot) (id : Identity) : List MapEntry :=
  mapInsert { slot := n, identity := id, parityBad := false } (mapRemove m n)

/-- R24: a handset state in which a call is up. -/
def HandsetState.inCall : HandsetState → Bool
  | .active | .moving | .pinned => true
  | _ => false

/-- A handset state that is registered (spec/04, THE HANDSET CONTEXT). -/
def HandsetState.registered : HandsetState → Bool
  | .idle | .doze | .active | .moving | .pinned | .lost => true
  | _ => false

/-- A head that CHANNEL_RELEASE and DETACH_ORDER reach: neither FAILED nor OUT_OF_SERVICE (R64, R81, R85). -/
def HeadState.reachable : HeadState → Bool
  | .failed | .outOfService => false
  | _ => true

/-- A head that admits attaches and re-establishments (R72, R139). -/
def HeadState.admits : HeadState → Bool
  | .inService | .degraded => true
  | _ => false

/-- The state a handset returns to when its transaction closes (R146). -/
def Origin.state : Origin → HandsetState
  | .active => .active
  | .pinned => .pinned

/-! ### The shape of a step -/

/-- A piece of the part's work. It changes the state; it throws when the part enters HALTED, and what was done before
stands while the rest is abandoned (R189). -/
abbrev Act := EStateM Unit State

/-- The work on each item of a list, in order. -/
def forEach {α : Type} : List α → (α → Act Unit) → Act Unit
  | [], _ => pure ()
  | x :: rest, f => do
    f x
    forEach rest f

def getCtx (n : Slot) : Act HandsetCtx := do return (← get).ctx n
def modCtx (n : Slot) (f : HandsetCtx → HandsetCtx) : Act Unit := modify fun s => s.setCtx n (f (s.ctx n))
def getHead (h : Head) : Act HeadCtx := do return (← get).head h
def modHead (h : Head) (f : HeadCtx → HeadCtx) : Act Unit := modify fun s => s.setHead h (f (s.head h))
def getAtt (h : Head) : Act AttachHead := do return (← get).att h
def modAtt (h : Head) (f : AttachHead → AttachHead) : Act Unit := modify fun s => s.setAtt h (f (s.att h))

/-- The work is done in RUNNING only, HALTED not entered. -/
def whenRunning (a : Act Unit) : Act Unit := do
  if (← get).op = .running then a

end Sys2Proof.Machine
end

