-- ==== Sys2Proof/Machine/Codes.lean ====
section
/-! DEFINITION. Codes: the code tables of Memory Formats (spec/11, CODES) and of Handset Registration. -/

namespace Sys2Proof.Machine

def HandsetState.code : HandsetState → Nat
  | .vacant => 0 | .provisioned => 1 | .barred => 2 | .quarantined => 3 | .queued => 4 | .offered => 5 | .idle => 6
  | .doze => 7 | .active => 8 | .moving => 9 | .pinned => 10 | .lost => 11

def HeadState.code : HeadState → Nat
  | .absent => 0 | .inService => 1 | .degraded => 2 | .draining => 3 | .failed => 4 | .outOfService => 5

def OpState.code : OpState → Nat
  | .reset => 0 | .starting => 1 | .running => 2 | .configFault => 3 | .halted => 4

def ResetCause.code : ResetCause → Nat
  | .powerOn => 0 | .external => 1 | .restart => 2

def Cause.code : Cause → Nat
  | .quality => 1 | .urgent => 2 | .drain => 3 | .forced => 4 | .orphan => 5 | .reestablish => 6

def Phase.code : Phase → Nat
  | .reserving => 1 | .commanded => 2 | .switched => 3 | .orphaned => 4

/-- The handover failure reasons (R151, R162). -/
inductive FailReason where
  | noChannel | timeout | reverted | targetRefused | targetFailed | targetUnavailable
deriving DecidableEq, Repr

def FailReason.code : FailReason → Nat
  | .noChannel => 1 | .timeout => 2 | .reverted => 3 | .targetRefused => 4 | .targetFailed => 5
  | .targetUnavailable => 6

/-- The drop and loss causes (R82, R95). -/
inductive DropCause where
  | reattach | barred | identity | callPresence | headFailed | orphanTimeout | noReestablish | contextFault | missed
deriving DecidableEq, Repr

def DropCause.code : DropCause → Nat
  | .reattach => 1 | .barred => 2 | .identity => 3 | .callPresence => 4 | .headFailed => 5 | .orphanTimeout => 6
  | .noReestablish => 7 | .contextFault => 8 | .missed => 9

/-- The details of MEDIA_RELEASED (R157). -/
inductive MediaEnd where
  | acked | late | sourceFailed
deriving DecidableEq, Repr

def MediaEnd.code : MediaEnd → Nat
  | .acked => 1 | .late => 2 | .sourceFailed => 3

/-- The release origins (R81, R84, R85). -/
inductive ReleaseOrigin where
  | handset | request
deriving DecidableEq, Repr

def ReleaseOrigin.code : ReleaseOrigin → Nat
  | .handset => 1 | .request => 2

/-- The refusal reasons of requests (R52). -/
inductive RefusalReason where
  | busy | notRegistered | noSuchHandset | noSuchHead | badState | policy | targetIneligible | tableFull | contained
  | nothingPending
deriving DecidableEq, Repr

def RefusalReason.code : RefusalReason → Nat
  | .busy => 1 | .notRegistered => 2 | .noSuchHandset => 3 | .noSuchHead => 4 | .badState => 5 | .policy => 6
  | .targetIneligible => 7 | .tableFull => 8 | .contained => 9 | .nothingPending => 10

/-- The reasons of REJECT_ATTACH (R68, R69, R70). -/
inductive RejectReason where
  | unknown | badCode | barred | recordFault
deriving DecidableEq, Repr

def RejectReason.code : RejectReason → Nat
  | .unknown => 1 | .badCode => 2 | .barred => 3 | .recordFault => 4

/-- The MALFORMED reasons (R40, R41). -/
inductive MalformedReason where
  | partialWrite | unknownKind | badHead | zeroIdentity | badCount | badSample | badChannel | badSlot
deriving DecidableEq, Repr

def MalformedReason.code : MalformedReason → Nat
  | .partialWrite => 1 | .unknownKind => 2 | .badHead => 3 | .zeroIdentity => 4 | .badCount => 5 | .badSample => 6
  | .badChannel => 7 | .badSlot => 8

/-- The code of an intake ring. -/
def intakeCode : IntakeRing → Nat
  | .uplink => 1 | .request => 2

/-- The code of an output ring. -/
def outCode : OutRing → Nat
  | .directive => 3 | .event => 4

def Severity.code : Severity → Nat
  | .none => 0 | .corrected => 1 | .recoverable => 2 | .uncorrected => 3 | .fatal => 4

/-- The sources of a finding (R172). -/
inductive Source where
  | cpRead | merge | scrub | startup | rebuild
deriving DecidableEq, Repr

def Source.code : Source → Nat
  | .cpRead => 1 | .merge => 2 | .scrub => 3 | .startup => 4 | .rebuild => 5

/-- The structures whose parity faults are fatal (R186). -/
inductive FaultyStructure where
  | identityMap | transactionTable | channelPool
deriving DecidableEq, Repr

def FaultyStructure.code : FaultyStructure → Nat
  | .identityMap => 1 | .transactionTable => 2 | .channelPool => 3

def UplinkKind.code : UplinkKind → Nat
  | .attach => 0x01 | .attachConfirm => 0x02 | .detach => 0x03 | .keepalive => 0x04 | .dozeRequest => 0x05
  | .callRequest => 0x06 | .callRelease => 0x07 | .measurement => 0x08 | .access => 0x09 | .revert => 0x0A
  | .channelRefused => 0x0B | .headStatus => 0x0C

/-- The uplink kind a code names, if any (R41). -/
def uplinkKindOf (code : Nat) : Option UplinkKind :=
  [UplinkKind.attach, .attachConfirm, .detach, .keepalive, .dozeRequest, .callRequest, .callRelease, .measurement,
    .access, .revert, .channelRefused, .headStatus].find? (fun k => k.code == code)

def RequestKind.code : RequestKind → Nat
  | .page => 0x21 | .releaseCall => 0x22 | .forceHandover => 0x23 | .unpin => 0x24 | .detachHandset => 0x25
  | .drainHead => 0x26 | .restoreHead => 0x27 | .clearFaultList => 0x28 | .ackFatal => 0x29

/-- The request kind a code names, if any (R41). -/
def requestKindOf (code : Nat) : Option RequestKind :=
  [RequestKind.page, .releaseCall, .forceHandover, .unpin, .detachHandset, .drainHead, .restoreHead, .clearFaultList,
    .ackFatal].find? (fun k => k.code == code)

def DirectiveKind.code : DirectiveKind → Nat
  | .acceptAttach => 0x41 | .rejectAttach => 0x42 | .retryLater => 0x43 | .presenceTerms => 0x44 | .page => 0x45
  | .channelAssign => 0x46 | .channelRelease => 0x47 | .callReject => 0x48 | .handoverGo => 0x49
  | .detachOrder => 0x4A | .reselect => 0x4B

def EventKind.code : EventKind → Nat
  | .started => 0x81 | .configApplied => 0x82 | .configRejected => 0x83 | .configIgnored => 0x84
  | .attached => 0x88 | .attachTimeout => 0x89 | .barred => 0x8A | .detached => 0x8B
  | .earlyKeepalive => 0x90 | .missed => 0x91 | .lost => 0x92 | .recovered => 0x93 | .lostExpired => 0x94
  | .dozeEntered => 0x95 | .dozeRefused => 0x96
  | .callStarted => 0x98 | .callRefused => 0x99 | .callEnded => 0x9A | .callDropped => 0x9B
  | .handoverOpened => 0xA0 | .handoverDone => 0xA1 | .mediaReleased => 0xA2 | .handoverFailed => 0xA3
  | .handoverAbandoned => 0xA4 | .pinned => 0xA5 | .staleAccess => 0xA6
  | .headUp => 0xA8 | .headDegraded => 0xA9 | .headFailed => 0xAA | .headOutOfService => 0xAB | .headDrained => 0xAC
  | .intakeOverrun => 0xB0 | .malformed => 0xB1 | .requestRefused => 0xB2
  | .corrected => 0xB8 | .thresholdReached => 0xB9 | .recordPoisoned => 0xBA | .contextFault => 0xBB
  | .fatal => 0xBC | .halted => 0xBD
  | .directiveDropped => 0xC0 | .eventsLost => 0xC1 | .indexRefused => 0xC2

/-- R29: the policy a byte's low bits name; code 3 is LOCKED. -/
def policyOf (b : Byte) : Policy :=
  match (b.toNat % 4) with
  | 0 => .auto
  | 1 => .manual
  | _ => .locked

/-- A head or 0xFF (spec/00, Identifiers and special values). -/
def headCode : Option Head → Nat
  | none => 0xFF
  | some h => h.val

/-- A channel or 0xFF. -/
def chanCode : Option Chan → Nat
  | none => 0xFF
  | some c => c.val

/-- The destination of a directive: a head, or 0xFE for all heads (R194). -/
def destCode : Option Head → Nat
  | none => 0xFE
  | some h => h.val

/-- A slot or 0xFFFF. -/
def slotCode : Option Slot → Nat
  | none => 0xFFFF
  | some n => n.val

/-- The kind of an uplink message. -/
def HandsetMsg.kind : HandsetMsg → UplinkKind
  | .attach _ => .attach
  | .attachConfirm => .attachConfirm
  | .detach => .detach
  | .keepalive => .keepalive
  | .dozeRequest => .dozeRequest
  | .callRequest => .callRequest
  | .callRelease => .callRelease
  | .measurement _ => .measurement
  | .access => .access
  | .revert => .revert
  | .channelRefused _ => .channelRefused

def UplinkMsg.kind : UplinkMsg → UplinkKind
  | .handset _ _ body => body.kind
  | .headStatus _ _ => .headStatus

def Request.kind : Request → RequestKind
  | .page _ => .page
  | .releaseCall _ => .releaseCall
  | .forceHandover _ _ => .forceHandover
  | .unpin _ => .unpin
  | .detachHandset _ => .detachHandset
  | .drainHead _ => .drainHead
  | .restoreHead _ => .restoreHead
  | .clearFaultList => .clearFaultList
  | .ackFatal => .ackFatal

/-- The subject of a request's events (R52). -/
def Request.subject : Request → Nat
  | .page n | .releaseCall n | .forceHandover n _ | .unpin n | .detachHandset n => n.val
  | .drainHead h | .restoreHead h => h.val
  | .clearFaultList | .ackFatal => 0xFFFF

/-- The slot a request names (R43). -/
def Request.slot? : Request → Option Slot
  | .page n | .releaseCall n | .forceHandover n _ | .unpin n | .detachHandset n => some n
  | .drainHead _ | .restoreHead _ | .clearFaultList | .ackFatal => none

end Sys2Proof.Machine
end

