-- ==== Sys2Proof/WellFormed.lean ====
section
/-! DEFINITION. WellFormed: what the board memory link can carry (R1). The other operands are in range by their types. -/

namespace Sys2Proof

/-- The beat count of a transaction. -/
def Transaction.beatCount (t : Transaction) : Nat :=
  match t.access with
  | .read n => n
  | .write bytes => bytes.length / 8

def Transaction.isRead (t : Transaction) : Bool :=
  match t.access with
  | .read _ => true
  | .write _ => false

/-- R1: the address is a multiple of 8. -/
def Transaction.aligned (t : Transaction) : Bool := t.addr.toNat % 8 == 0

/-- R1: 1 to 8 beats. -/
def Transaction.countOk (t : Transaction) : Bool := 1 ≤ t.beatCount && t.beatCount ≤ 8

/-- R1: a write carries 8 bytes for each beat. -/
def Transaction.bytesOk (t : Transaction) : Bool :=
  match t.access with
  | .read _ => true
  | .write bytes => bytes.length % 8 == 0

/-- R1: a transaction of the board memory link. -/
def Transaction.wellFormed (t : Transaction) : Bool := t.aligned && t.countOk && t.bytesOk

/-- A row that is a write of the table is a write, a row that is a read is a read. -/
def Instr.wellFormed (i : Instr) : Bool :=
  match i with
  | .powerUp | .rstinAsserted | .resetRelease | .descriptorRead | .scanRecordRead | .timeBaseTick => true
  | .upstreamTransaction t => t.wellFormed
  | .descriptorWrite t => t.wellFormed && !t.isRead
  | .classOrParameterWrite t => t.wellFormed && !t.isRead
  | .regionMapWrite t => t.wellFormed && !t.isRead
  | .beginStaging t => t.wellFormed && !t.isRead
  | .applyStaging t => t.wellFormed && !t.isRead
  | .restart t => t.wellFormed && !t.isRead
  | .directiveConsumerWrite t => t.wellFormed && !t.isRead
  | .eventConsumerWrite t => t.wellFormed && !t.isRead
  | .ringSlotWritten _ | .producerWordWritten _ => true
  | .handsetRecordRead t => t.wellFormed && t.isRead
  | .handsetRecordWrite t => t.wellFormed && !t.isRead
  | .mergeReadDone => true
  | .mediaHeadWrite t => t.wellFormed && !t.isRead
  | .headRecordRead t => t.wellFormed && t.isRead
  | .headRecordWrite t => t.wellFormed && !t.isRead
  | .headMergeReadDone => true
  | .uplinkRingWrite t => t.wellFormed && !t.isRead
  | .requestRingWrite t => t.wellFormed && !t.isRead
  | .heldWriteTaken _ | .intakeHoldDeadline _ => true
  | .attach | .attachConfirm | .detach | .keepalive | .dozeRequest | .callRequest | .callRelease => true
  | .measurement | .access | .revert | .channelRefused | .headStatus => true
  | .page | .releaseCall | .forceHandover | .unpin | .detachHandset | .drainHead | .restoreHead => true
  | .clearFaultList | .ackFatal => true
  | .offerDeadline _ | .ageLimit _ | .regainDeadline _ | .windowDeadline _ | .callPresenceDeadline _ => true
  | .graceDeadline _ | .holdoffDeadline _ | .livenessDeadline _ | .reservingDeadline _ => true
  | .commandedDeadline _ | .mediaHoldDeadline _ | .orphanedDeadline _ => true
  | .scrubDeadline | .scrubReadDone | .rebuildReadDone _ | .recordWriteTaken => true

/-- The transaction a command carries, if it is a transaction row. -/
def transactionOf : Instr → Option Transaction
  | .upstreamTransaction t | .descriptorWrite t | .classOrParameterWrite t | .regionMapWrite t | .beginStaging t
  | .applyStaging t | .restart t | .directiveConsumerWrite t | .eventConsumerWrite t | .handsetRecordRead t
  | .handsetRecordWrite t | .mediaHeadWrite t | .headRecordRead t | .headRecordWrite t | .uplinkRingWrite t
  | .requestRingWrite t => some t
  | _ => none

end Sys2Proof
end

