-- ==== Sys2Proof/Machine/Operands.lean ====
section
/-! DEFINITION. Operands: the operand forms of the commands: transactions and the bytes they reach, the regions of
telephony memory, the configuration the descriptor block holds, and the messages and requests that slots hold. -/

namespace Sys2Proof.Machine

/-! ### Transactions -/

/-- The bytes of a write with their enables; a read has none. -/
def writeBytes (t : Transaction) : List (Option Byte) :=
  match t.access with
  | .read _ => []
  | .write bytes => bytes

/-- The addresses of a transaction's beats (R1). -/
def beatAddrs (t : Transaction) : List Nat := (List.range t.beatCount).map fun i => t.addr.toNat + 8 * i

/-- R1: the last beat would lie beyond address 0xFFFFFFFF. -/
def wraps (t : Transaction) : Bool := decide (2 ^ 32 < t.addr.toNat + 8 * t.beatCount)

/-- The addresses of the enabled bytes of a run laid from an address up, each with its byte. -/
def enabledFrom : Nat → List (Option Byte) → List (Nat × Byte)
  | _, [] => []
  | a, none :: rest => enabledFrom (a + 1) rest
  | a, some b :: rest => (a, b) :: enabledFrom (a + 1) rest

/-- The enabled bytes of a write, each with its address. -/
def enabled (t : Transaction) : List (Nat × Byte) := enabledFrom t.addr.toNat (writeBytes t)

/-- Some enabled byte lies in `lo` to `hi - 1`. -/
def reaches (t : Transaction) (lo hi : Nat) : Bool := (enabled t).any fun p => lo ≤ p.1 && p.1 < hi

/-- Every enabled byte lies in `lo` to `hi - 1`. -/
def confined (t : Transaction) (lo hi : Nat) : Bool := (enabled t).all fun p => lo ≤ p.1 && p.1 < hi

/-- The enabled byte at an address, if the write has one. -/
def writtenAt (t : Transaction) (a : Nat) : Option Byte := ((enabled t).find? fun p => p.1 == a).map Prod.snd

/-! ### Regions (R4, R10) -/

/-- The seven regions and ordinary memory. -/
inductive Region where
  | descriptor | handsetArray | headArray | uplinkRing | requestRing | directiveRing | eventRing | ordinary
deriving DecidableEq, Repr

/-- The six regions a map places, with base and length (R10). -/
def RegionMap.extents (m : RegionMap) : List (Region × Nat × Nat) :=
  [(.handsetArray, m.handsetBase, 65536), (.headArray, m.headBase, 2048), (.uplinkRing, m.uplinkBase, 32 * m.uplinkCount),
    (.requestRing, m.requestBase, 32 * m.requestCount), (.directiveRing, m.directiveBase, 32 * m.directiveCount),
    (.eventRing, m.eventBase, 16 * m.eventCount)]

/-- The length of the descriptor block, whose place is fixed at address 0. -/
def descriptorSize : Nat := 512

/-- The regions in use: the descriptor block, and those of the active map when there is one (R14). -/
def regionsOf (m : Option RegionMap) : List (Region × Nat × Nat) :=
  (.descriptor, 0, descriptorSize) :: (match m with | none => [] | some m => m.extents)

/-- The region one address lies in. -/
def regionAt (m : Option RegionMap) (a : Nat) : Region :=
  match (regionsOf m).find? fun r => r.2.1 ≤ a && a < r.2.1 + r.2.2 with
  | some r => r.1
  | none => .ordinary

/-- R4: the region of a transaction, or none when its beats lie partly inside a region and partly outside it. -/
def classify (m : Option RegionMap) (t : Transaction) : Option Region :=
  let r := regionAt m t.addr.toNat
  if (beatAddrs t).all fun a => regionAt m a == r then some r else none

/-! ### Configuration (R10, R11, R202) -/

/-- A field of `n` bytes at an offset of a run of bytes. -/
def fieldAt (bytes : List Byte) (off n : Nat) : Nat := leNat ((bytes.drop off).take n)

/-- The region map in the descriptor block's bytes (spec/11, DESCRIPTOR BLOCK). -/
def RegionMap.decode (d : List Byte) : RegionMap :=
  { memorySize := fieldAt d 0x000 2, handsetBase := fieldAt d 0x004 4, headBase := fieldAt d 0x008 4,
    uplinkBase := fieldAt d 0x010 4, uplinkCount := fieldAt d 0x014 2,
    requestBase := fieldAt d 0x018 4, requestCount := fieldAt d 0x01C 2,
    directiveBase := fieldAt d 0x020 4, directiveCount := fieldAt d 0x024 2,
    eventBase := fieldAt d 0x028 4, eventCount := fieldAt d 0x02C 2 }

/-- A power of two from `lo` to `hi`. -/
def powerOfTwoIn (lo hi n : Nat) : Bool := lo ≤ n && n ≤ hi && n &&& (n - 1) == 0

/-- Two regions share no byte. -/
def disjointExtents (x y : Region × Nat × Nat) : Bool := x.2.1 + x.2.2 ≤ y.2.1 || y.2.1 + y.2.2 ≤ x.2.1

/-- R10: the region map is valid. -/
def RegionMap.valid (m : RegionMap) : Bool :=
  1 ≤ m.memorySize && m.memorySize ≤ 65535
  && m.handsetBase % 65536 == 0
  && m.headBase % 2048 == 0
  && powerOfTwoIn 64 4096 m.uplinkCount && m.uplinkBase % 32 == 0
  && powerOfTwoIn 16 256 m.requestCount && m.requestBase % 32 == 0
  && powerOfTwoIn 64 4096 m.directiveCount && m.directiveBase % 32 == 0
  && powerOfTwoIn 64 4096 m.eventCount && m.eventBase % 16 == 0
  && m.extents.all (fun r => r.2.1 + r.2.2 ≤ m.memorySize * 65536)
  && decide ((regionsOf (some m)).Pairwise fun x y => disjointExtents x y = true)

/-- The class table and global parameter word in the descriptor block's bytes. -/
def ParamSet.decode (d : List Byte) : ParamSet :=
  { classBytes := Vector.ofFn fun i => byteAt d (0x080 + i.val)
    globalBytes := Vector.ofFn fun i => byteAt d (0x048 + i.val) }

/-- A decoded class entry (R11). -/
structure ClassEntry where
  mode : Nat
  period : Nat
  doze : Nat
  filter : Nat
  margin : Nat
  dwell : Nat
  floor : Nat
deriving DecidableEq, Repr

/-- Byte `j` of class entry `c`. -/
def ParamSet.classByte (p : ParamSet) (c j : Nat) : Nat := ((p.classBytes[8 * c + j]?).getD 0).toNat

/-- Class entry `c`, each field at its full width (R202). -/
def ParamSet.cls (p : ParamSet) (c : Nat) : ClassEntry :=
  { mode := p.classByte c 0, period := p.classByte c 1, doze := p.classByte c 2, filter := p.classByte c 3,
    margin := p.classByte c 4, dwell := p.classByte c 5, floor := p.classByte c 6 }

/-- R11: every field of the entry is in its range. -/
def ClassEntry.valid (e : ClassEntry) : Bool :=
  e.mode ≤ 1 && e.period ≤ 7 && (e.doze ≤ 7 || e.doze == 15) && e.filter ≤ 3 && 1 ≤ e.margin && e.margin ≤ 24
  && 1 ≤ e.dwell && e.dwell ≤ 8 && 1 ≤ e.floor && e.floor ≤ 100

/-- The lowest class entry out of range, if any (R18). -/
def ParamSet.firstInvalid (p : ParamSet) : Option Nat := (List.range 8).find? fun c => !(p.cls c).valid

/-- ATTN enable (spec/11: byte 0x048 bit 0). -/
def ParamSet.attnEnable (p : ParamSet) : Bool := p.globalBytes[0].getLsbD 0

/-- The corrected-error threshold (byte 0x049). -/
def ParamSet.threshold (p : ParamSet) : Nat := p.globalBytes[1].toNat

/-- R180: the scrub interval, 1, 2, 4 or 8 ms (byte 0x04A bits 0 and 1). -/
def ParamSet.scrubInterval (p : ParamSet) : Time := BitVec.ofNat 32 (2 ^ (p.globalBytes[2].toNat % 4))

/-- R17: the set with the enabled bytes of a write in the place of the matching ones. -/
def ParamSet.overlay (p : ParamSet) (t : Transaction) : ParamSet :=
  { classBytes := Vector.ofFn fun i => (writtenAt t (0x080 + i.val)).getD p.classBytes[i]
    globalBytes := Vector.ofFn fun i => (writtenAt t (0x048 + i.val)).getD p.globalBytes[i] }

/-- A set of zero bytes, for a state with no active set, in which no rule reads a class value (R15, R21). -/
def ParamSet.zero : ParamSet := { classBytes := Vector.replicate 64 0, globalBytes := Vector.replicate 4 0 }

/-- The active set. -/
def State.params (s : State) : ParamSet := s.active.getD .zero

/-- The active class entry of a handset's cached class (R89, R109). -/
def State.classOf (s : State) (c : HandsetCtx) : ClassEntry := s.params.cls c.cls.toNat

/-- R90: the duration of a period code. -/
def periodMs (code : Nat) : Time :=
  match code with
  | 0 => 2000
  | 1 => 4000
  | 2 => 8000
  | 3 => 15000
  | 4 => 30000
  | 5 => 60000
  | 6 => 120000
  | _ => 300000

/-! ### Staging commands (R16) -/

/-- The staging command bits of a write, BEGIN, APPLY and RESTART, when it reaches the command byte. -/
def stagingBits (t : Transaction) : Bool × Bool × Bool :=
  match writtenAt t 0x040 with
  | none => (false, false, false)
  | some b => (b.getLsbD 0, b.getLsbD 1, b.getLsbD 2)

/-- R16: more than one command is set. -/
def manyCommands (t : Transaction) : Bool :=
  let (b, a, r) := stagingBits t
  (b && a) || (b && r) || (a && r)

/-! ### Messages and requests (R41, R42, R43) -/

def toHead? (n : Nat) : Option Head := if h : n < 64 then some ⟨n, h⟩ else none
def toChan? (n : Nat) : Option Chan := if h : n < 12 then some ⟨n, h⟩ else none
def toSlot? (n : Nat) : Option Slot := if h : n < 1024 then some ⟨n, h⟩ else none

/-- The samples of a MEASUREMENT slot, `k` of them from sample `i`, as head and level bytes. -/
def rawSamples (b : List Byte) (count : Nat) : List (Nat × Nat) :=
  (List.range count).map fun i => ((byteAt b (16 + 2 * i)).toNat, (byteAt b (17 + 2 * i)).toNat)

/-- R41 check 5: each sample names a head and a level in range and no head that an earlier one names. -/
def readSamples : List (Nat × Nat) → List Head → Option (List (Head × Nat))
  | [], _ => some []
  | (h, l) :: rest, seen =>
    match toHead? h with
    | none => none
    | some h => if 127 < l || seen.contains h then none else (readSamples rest (h :: seen)).map ((h, l) :: ·)

/-- R41: the message of an uplink slot, or the reason of the first check that fails. -/
def parseUplink (b : List Byte) : Except MalformedReason UplinkMsg :=
  match uplinkKindOf (byteAt b 0).toNat with
  | none => .error .unknownKind
  | some kind =>
    match toHead? (byteAt b 1).toNat with
    | none => .error .badHead
    | some head =>
      let id : Identity := BitVec.ofNat 40 (fieldAt b 2 5)
      if kind ≠ .headStatus ∧ id = 0 then .error .zeroIdentity
      else match kind with
        | .headStatus => .ok (.headStatus head ((byteAt b 11).getLsbD 0))
        | .attach => .ok (.handset head id (.attach (BitVec.ofNat 16 (fieldAt b 8 2))))
        | .attachConfirm => .ok (.handset head id .attachConfirm)
        | .detach => .ok (.handset head id .detach)
        | .keepalive => .ok (.handset head id .keepalive)
        | .dozeRequest => .ok (.handset head id .dozeRequest)
        | .callRequest => .ok (.handset head id .callRequest)
        | .callRelease => .ok (.handset head id .callRelease)
        | .access => .ok (.handset head id .access)
        | .revert => .ok (.handset head id .revert)
        | .measurement =>
          let n := (byteAt b 12).toNat
          if n < 1 ∨ 6 < n then .error .badCount
          else match readSamples (rawSamples b n) [] with
            | none => .error .badSample
            | some samples => .ok (.handset head id (.measurement samples))
        | .channelRefused =>
          match toChan? (byteAt b 10).toNat with
          | none => .error .badChannel
          | some c => .ok (.handset head id (.channelRefused c))

/-- R41: the request of a request slot, or the reason of the first check that fails. The head is checked before the
slot. -/
def parseRequest (b : List Byte) : Except MalformedReason Request :=
  let head := toHead? (byteAt b 4).toNat
  let slot := toSlot? (fieldAt b 2 2)
  let onSlot (f : Slot → Request) : Except MalformedReason Request :=
    match slot with
    | none => .error .badSlot
    | some n => .ok (f n)
  let onHead (f : Head → Request) : Except MalformedReason Request :=
    match head with
    | none => .error .badHead
    | some h => .ok (f h)
  match requestKindOf (byteAt b 0).toNat with
  | none => .error .unknownKind
  | some .page => onSlot .page
  | some .releaseCall => onSlot .releaseCall
  | some .unpin => onSlot .unpin
  | some .detachHandset => onSlot .detachHandset
  | some .drainHead => onHead .drainHead
  | some .restoreHead => onHead .restoreHead
  | some .clearFaultList => .ok .clearFaultList
  | some .ackFatal => .ok .ackFatal
  | some .forceHandover =>
    match head with
    | none => .error .badHead
    | some h => onSlot fun n => .forceHandover n h

end Sys2Proof.Machine
end

