-- ==== Sys2Proof/Machine/Flags.lean ====
section
/-! DEFINITION. Flags: the computed flags and codes: the check byte and the class of a beat, the record flags, the status
block and the level of ATTN. -/

namespace Sys2Proof.Machine

/-! ### The check byte (R203, R172) -/

/-- R203 step 2: the code positions of data bits 0 to 63: 1 to 71 without the powers of two. -/
def dataPositions : List Nat := (List.range 72).filter fun p => p &&& (p - 1) != 0

/-- The code positions of the data bits that are set. -/
def setPositions (d : Beat) : List Nat :=
  ((List.range 64).zip dataPositions).filterMap fun p => if d.getLsbD p.1 then some p.2 else none

/-- R203 step 3: the seven check bits. Check bit j is the parity of the set data bits whose position has bit j set, so
the seven together are the exclusive-or of the positions. -/
def checkBits (d : Beat) : Nat := (setPositions d).foldl (· ^^^ ·) 0

/-- The number of set bits among the low `n` bits. -/
def bitCount (n v : Nat) : Nat := ((List.range n).filter fun i => v.testBit i).length

/-- R203 steps 4 and 5: the check byte, the overall parity in bit 7. -/
def checkByte (d : Beat) : Byte :=
  let c := checkBits d
  BitVec.ofNat 8 (c + 128 * ((bitCount 64 d.toNat + bitCount 7 c) % 2))

/-- The classes of a beat (R172), with the corrected form. -/
inductive BeatClass where
  | clean
  | correctable (corrected : Beat)
  | uncorrectable
deriving DecidableEq, Repr

/-- The data bit at a code position, if the position holds one. -/
def dataBitAt (pos : Nat) : Option Nat := dataPositions.findIdx? (· == pos)

/-- The beat with the bit at a code position inverted; a check bit's position leaves the data as read (R172). -/
def flipPosition (d : Beat) (pos : Nat) : Beat :=
  match dataBitAt pos with
  | none => d
  | some i => d ^^^ BitVec.ofNat 64 (2 ^ i)

/-- R172: the class of a beat with its stored check byte. -/
def classifyBeat (d : Beat) (check : Byte) : BeatClass :=
  let syndrome := (check.toNat % 128) ^^^ checkBits d
  let parityOk := (bitCount 64 d.toNat + bitCount 8 check.toNat) % 2 == 0
  if syndrome = 0 then if parityOk then .clean else .correctable d
  else if syndrome ≤ 71 then if parityOk then .uncorrectable else .correctable (flipPosition d syndrome)
  else .uncorrectable

/-! ### Record flags (spec/11, HANDSET RECORD and HEAD RECORD) -/

def bit (b : Bool) (i : Nat) : Nat := if b then 2 ^ i else 0

/-- The flags byte of beat 4 of a handset record. -/
def HandsetCtx.flags (c : HandsetCtx) : Nat :=
  bit c.presence.missed 0 + bit c.presence.early 1 + bit c.staged.isSome 2 + bit c.poisoned 3
    + bit c.quality.underRange 4 + bit c.quality.overRange 5

/-- The flags byte of beat 1 of a head record. -/
def HeadCtx.flags (h : HeadCtx) : Nat := bit h.staged.isSome 0 + bit h.warning 1

/-! ### The status block (R199; spec/11, DESCRIPTOR BLOCK) -/

/-- The flags byte at 0x182. -/
def State.statusFlags (s : State) : Nat :=
  bit s.contained 0 + bit s.fatalPending 1 + bit s.mapChanged 2 + bit s.staged.isSome 3

/-- The fields of the status block, in order of offset with their widths in bytes. -/
def State.statusFields (s : State) : List (Nat × Nat) :=
  [(1, s.op.code), (1, s.resetCause.code), (1, s.statusFlags), (1, s.faultList.length), (2, s.uplinkOverrun),
    (2, s.requestOverrun), (2, s.unknownIds), (2, s.eventsLost), (2, s.dirDropped), (2, s.deferrals), (2, s.corrected)]

/-- The 128 bytes of the status block; bytes with no field are 0 (R202). -/
def State.statusBytes (s : State) : List Byte :=
  (s.statusFields.flatMap fun f => leBytes f.1 f.2) ++ List.replicate 110 0

/-- The status block's address. -/
def statusBase : Nat := 0x180

/-- One status block write (R199). -/
def State.writeStatus (s : State) : State := { s with mem := s.mem.writeAll statusBase s.statusBytes }

/-- R199: the states in which each change of a field is followed by a write: RUNNING, and STARTING from the index words
on. -/
def State.statusLive (s : State) : Bool :=
  match s.op, s.startup with
  | .running, _ => true
  | .starting, .scan _ => true
  | _, _ => false

/-! ### The output rings' quantities (R191) -/

/-- The unread records between two positions of a ring of `n` slots. -/
def unread (n prod cons : Nat) : Nat := (prod + n - cons) % n

def State.dirCount (s : State) : Nat := (s.map.map RegionMap.directiveCount).getD 0
def State.evCount (s : State) : Nat := (s.map.map RegionMap.eventCount).getD 0
def State.dirUnread (s : State) : Nat := unread s.dirCount s.dirProd s.dirCons
def State.evUnread (s : State) : Nat := unread s.evCount s.evProd s.evCons

/-- The room of the Directive Ring (R191), less the directives the Output Unit is still writing (log entry 8). -/
def State.dirRoom (s : State) : Nat := s.dirCount - 1 - s.dirUnread - s.dirOut.length

/-- The room of the Event Ring, less the events the Output Unit is still writing. -/
def State.evRoom (s : State) : Nat := s.evCount - 1 - s.evUnread - s.evOut.length

/-! ### ATTN (R198) -/

/-- The level R198 gives ATTN. -/
def State.attnLevel (s : State) : Bool :=
  match s.op with
  | .reset => false
  | .configFault => true
  | .halted => true
  | .starting =>
    match s.startup with
    | .scan _ => (0 < s.evUnread && s.params.attnEnable) || s.contained
    | _ => false
  | .running => (0 < s.evUnread && s.params.attnEnable) || s.contained

end Sys2Proof.Machine
end

