-- ==== Sys2Proof/Machine/Output.lean ====
section
/-! DEFINITION. Output: the Output Unit: taking events and directives, writing them into the rings, consumer index
writes, and how a step ends (chapter Directives, Events and the Attention Line). -/

namespace Sys2Proof.Machine

/-! ### Events (R196) -/

/-- An event with its time stamp. -/
def State.event (s : State) (kind : EventKind) (severity : Severity) (subject d1 d2 : Nat) : Event :=
  { kind := kind, severity := severity, subject := BitVec.ofNat 16 subject, time := s.timeBase,
    detail1 := BitVec.ofNat 32 d1, detail2 := BitVec.ofNat 32 d2 }

/-- R196: the Output Unit takes an event: it is written when the ring has room and no event stands lost, else it is
dropped and counted. -/
def State.takeEvent (s : State) (e : Event) : State :=
  if 0 < s.evRoom ∧ s.eventsLost = 0 then { s with evOut := s.evOut ++ [e] }
  else { s with eventsLost := satInc s.eventsLost }

/-- A block hands over an event. -/
def State.emit (s : State) (kind : EventKind) (severity : Severity) (subject d1 d2 : Nat) : State :=
  s.takeEvent (s.event kind severity subject d1 d2)

/-- An event of severity NONE. -/
def note (kind : EventKind) (subject d1 d2 : Nat) : Act Unit := modify fun s => s.emit kind .none subject d1 d2

/-- An integrity event. -/
def report (kind : EventKind) (severity : Severity) (subject d1 d2 : Nat) : Act Unit :=
  modify fun s => s.emit kind severity subject d1 d2

/-! ### Directives (R194, R195) -/

/-- A directive to a head with every field of its kind empty. -/
def Directive.blank (kind : DirectiveKind) (dest : Option Head) : Directive :=
  { kind := kind, dest := dest, identity := 0, slot := none, channel := none, targetHead := none, targetChan := none,
    reason := 0, backoff := 0, mode := 0, period := 0, group := 0, suspect := false }

/-- R194, R195: the Output Unit takes a directive: into the ring, into the backlog, or dropped. -/
def State.takeDirective (s : State) (d : Directive) : State :=
  let d := { d with suspect := s.contained }
  if s.backlog = [] ∧ 0 < s.dirRoom then { s with dirOut := s.dirOut ++ [d] }
  else if s.backlog.length < Config.backlogSize then { s with backlog := s.backlog ++ [d] }
  else ({ s with dirDropped := satInc s.dirDropped } : State).emit .directiveDropped .none (destCode d.dest) d.kind.code
    (slotCode d.slot)

/-- A block hands over a directive. -/
def send (d : Directive) : Act Unit := modify fun s => s.takeDirective d

/-! ### The records as bytes (spec/11, DIRECTIVES AND EVENTS) -/

/-- The 32 bytes of a directive record. -/
def Directive.bytes (d : Directive) : List Byte :=
  leBytes 1 d.kind.code ++ leBytes 1 (destCode d.dest) ++ leBytes 5 d.identity.toNat ++ leBytes 1 (bit d.suspect 0)
    ++ leBytes 2 (slotCode d.slot) ++ leBytes 1 (chanCode d.channel) ++ leBytes 1 (headCode d.targetHead)
    ++ leBytes 1 (chanCode d.targetChan) ++ [d.reason] ++ leBytes 2 d.backoff ++ [d.mode, d.period]
    ++ leBytes 1 d.group.toNat ++ List.replicate 13 0

/-- The 16 bytes of an event record. -/
def Event.bytes (e : Event) : List Byte :=
  leBytes 1 e.kind.code ++ leBytes 1 e.severity.code ++ leBytes 2 e.subject.toNat ++ leBytes 4 e.time.toNat
    ++ leBytes 4 e.detail1.toNat ++ leBytes 4 e.detail2.toNat

/-! ### Writing a ring (R192) -/

/-- The addresses of the four index words. -/
def dirProdWord : Nat := 0x100
def dirConsWord : Nat := 0x108
def evProdWord : Nat := 0x110
def evConsWord : Nat := 0x118

/-- The address of the directive slot at the producer position. -/
def State.dirSlotAddr (s : State) : Nat := (s.map.map RegionMap.directiveBase).getD 0 + 32 * s.dirProd

/-- The address of the event slot at the producer position. -/
def State.evSlotAddr (s : State) : Nat := (s.map.map RegionMap.eventBase).getD 0 + 16 * s.evProd

/-- The position after a producer position. -/
def nextPosition (n prod : Nat) : Nat := (prod + 1) % n

/-- Memory takes the oldest directive in its ring slot. -/
def State.directiveInSlot (s : State) : State :=
  match s.dirOut with
  | [] => s
  | d :: _ => if s.dirSent then s else { s with mem := s.mem.writeAll s.dirSlotAddr d.bytes, dirSent := true }

/-- Memory takes the oldest event in its ring slot. -/
def State.eventInSlot (s : State) : State :=
  match s.evOut with
  | [] => s
  | e :: _ => if s.evSent then s else { s with mem := s.mem.writeAll s.evSlotAddr e.bytes, evSent := true }

/-- Memory takes the directive producer word, and the producer position takes the new value. -/
def State.directiveCounted (s : State) : State :=
  match s.dirOut with
  | [] => s
  | _ :: rest =>
    let next := nextPosition s.dirCount s.dirProd
    if s.dirSent then
      { s with mem := s.mem.writeAll dirProdWord (leBytes 4 next), dirProd := next, dirOut := rest, dirSent := false }
    else s

/-- Memory takes the event producer word, and the producer position takes the new value. -/
def State.eventCounted (s : State) : State :=
  match s.evOut with
  | [] => s
  | _ :: rest =>
    let next := nextPosition s.evCount s.evProd
    if s.evSent then
      { s with mem := s.mem.writeAll evProdWord (leBytes 4 next), evProd := next, evOut := rest, evSent := false }
    else s

/-- R200: the states in which the Output Unit writes the rings; in HALTED, the final event alone. -/
def State.ringLive (s : State) (r : OutRing) : Bool :=
  match s.op, r with
  | .running, _ => true
  | .starting, _ => s.statusLive
  | .halted, .event => true
  | _, _ => false

/-! ### How a step ends -/

/-- The end of a step: the status block is written if one of its fields changed (R199), and ATTN follows (R198). -/
def State.settle (before after : State) : State :=
  let s := if after.statusLive ∧ before.statusFields ≠ after.statusFields then after.writeStatus else after
  { s with attn := s.attnLevel }

/-- A whole step: the work, done or abandoned by a halt, and its end. -/
def perform (a : Act Unit) (s : State) : Host.Outcome State Fault Refusal :=
  match a s with
  | .ok _ t => .next (State.settle s t)
  | .error _ t => .next (State.settle s t)

/-! ### Downstream writes that a reset or HALTED cuts off -/

/-- FREE VALUE (log entry 3): a downstream write had been sent when its operation was ended; memory has taken it, with
what follows from that, or not. -/
def State.cutOff (s : State) (taken : State → State) : State :=
  let t := if Config.memoryHadTaken s.free then taken s else s
  { t with free := t.free + 1 }

/-- The ring writes in progress are cut off. In HALTED no write to the Directive Ring is in progress (R20, R200). -/
def State.cutRings (s : State) : State :=
  let s := if s.dirOut = [] ∨ s.op = .halted then s
    else s.cutOff fun s => if s.dirSent then s.directiveCounted else s.directiveInSlot
  if s.evOut = [] then s else s.cutOff fun s => if s.evSent then s.eventCounted else s.eventInSlot

/-- The start of a handset record and of a head record in memory. -/
def State.handsetAddr (s : State) (n : Slot) : Nat := (s.map.map RegionMap.handsetBase).getD 0 + 64 * n.val
def State.headAddr (s : State) (h : Head) : Nat := (s.map.map RegionMap.headBase).getD 0 + 32 * h.val

/-- Memory with the downstream write of an accepted record write. -/
def State.recordWritten (s : State) (w : RecordWrite) : Memory :=
  match w with
  | .handset n bytes _ _ => s.mem.writeEnabled (s.handsetAddr n) bytes
  | .head h bytes _ _ => s.mem.writeEnabled (s.headAddr h) bytes

/-- The record write in progress is cut off (R9, R32). -/
def State.cutRecordWrite (s : State) : State :=
  match s.recordWrite with
  | none => s
  | some w => { s.cutOff (fun s => { s with mem := s.recordWritten w }) with recordWrite := none }

/-- A port's outstanding transaction is answered REFUSED (R9, R20). -/
def Port.refuseOutstanding (p : Port) : Port :=
  match p.outstanding with
  | none => p
  | some _ => { outstanding := none, answer := some .refused }

/-- R9, R20: held writes, merges and every other unanswered transaction are answered REFUSED, and nothing further of
them reaches memory. -/
def State.refuseUnanswered (s : State) : State :=
  let s := s.cutRecordWrite
  { s with
    cpPort := s.cpPort.refuseOutstanding
    rlcPort := s.rlcPort.refuseOutstanding
    heldCp := none
    heldRlc := none
    merge := none }

/-! ### Consumer index writes (R193, R195, R197) -/

/-- The written value: each enabled byte from the write, the others from the copy. -/
def consumerValue (t : Transaction) (word copy : Nat) : Nat :=
  leNat ((leBytes 4 copy).mapIdx fun i b => (writtenAt t (word + i)).getD b)

/-- R193: the value is below the slot count, and no further from the copy than the unread records. -/
def consumerAccepts (n copy unreadNow value : Nat) : Bool := decide (value < n) && unread n value copy ≤ unreadNow

/-- R195: the oldest directives leave the backlog, one for each slot of room. -/
def State.drainBacklog (s : State) : State :=
  let k := s.dirRoom
  { s with dirOut := s.dirOut ++ s.backlog.take k, backlog := s.backlog.drop k }

/-- An accepted directive consumer write, memory having taken it: the copy moves and the backlog drains. -/
def State.moveDirectiveConsumer (s : State) (value : Nat) : State :=
  State.drainBacklog { s with dirCons := value }

/-- R197: EVENTS_LOST is written when room has been made and events were lost. -/
def State.reportLost (s : State) : State :=
  if s.eventsLost = 0 then s
  else { s with evOut := s.evOut ++ [s.event .eventsLost .none 0xFFFF s.eventsLost 0], eventsLost := 0 }

/-- An accepted event consumer write: the copy moves, and a move that makes room reports the events lost. -/
def State.moveEventConsumer (s : State) (value : Nat) : State :=
  let moved := { s with evCons := value }
  if unread s.evCount value s.evCons = 0 then moved else moved.reportLost

end Sys2Proof.Machine
end

