-- ==== Sys2Proof/Machine/Ports.lean ====
section
/-! DEFINITION. Ports: the answers of the upstream port and the transactions that pass to memory (R1, R2, R3). -/

namespace Sys2Proof.Machine

def State.port (s : State) : Initiator → Port
  | .cp => s.cpPort
  | .rlc => s.rlcPort

def State.setPort (s : State) (i : Initiator) (p : Port) : State :=
  match i with
  | .cp => { s with cpPort := p }
  | .rlc => { s with rlcPort := p }

/-- The transaction is taken at the upstream port and waits for its answer. -/
def State.takeAtPort (s : State) (t : Transaction) : State :=
  s.setPort t.initiator { s.port t.initiator with outstanding := some t }

/-- An initiator's transaction is answered (R1). -/
def State.answered (s : State) (i : Initiator) (a : Answer) : State :=
  s.setPort i { outstanding := none, answer := some a }

def answer (i : Initiator) (a : Answer) : Act Unit := modify fun s => s.answered i a

/-- REFUSED: nothing of the transaction is performed (R2). -/
def refuse (i : Initiator) : Act Unit := answer i .refused

/-- The data of a passed read: what memory returns (R2). -/
def State.readData (s : State) (t : Transaction) : List Beat := (beatAddrs t).map fun a => s.mem.readBeat a

/-- Memory with a write of an initiator. -/
def State.written (s : State) (t : Transaction) : State :=
  { s with mem := s.mem.writeEnabled t.addr.toNat (writeBytes t) }

/-- A transaction that passes unchanged: DONE, with memory's data for a read (R2). -/
def State.passed (s : State) (t : Transaction) : State :=
  match t.access with
  | .read _ => s.answered t.initiator (.done (s.readData t))
  | .write _ => (s.written t).answered t.initiator (.done [])

def pass (t : Transaction) : Act Unit := modify fun s => s.passed t

/-- The shape of every transaction row: a transaction the link cannot carry, or one sent over another, stops the model
(log entry 6); any other is taken at the port. -/
def takeAtUpstream (legal : Bool) (t : Transaction) (work : Transaction → Act Unit) (s : State) :
    Host.Outcome State Fault Refusal :=
  if !legal then .fault .illFormedTransaction
  else if (s.port t.initiator).outstanding.isSome then .fault .transactionOutstanding
  else perform (do modify (fun s => s.takeAtPort t); work t) s

end Sys2Proof.Machine
end

