-- ==== Sys2Proof/Machine/Integrity.lean ====
section
/-! DEFINITION. Integrity: fatal faults and HALTED, the checking of record readings, corrections, poison and the Record
Fault List (chapter Record Integrity and Containment). -/

namespace Sys2Proof.Machine

/-! ### Fatal faults (R186, R189) -/

/-- R189 step 3: the event HALTED takes a free slot of the Event Ring, or is lost. Records that the Output Unit had
taken and not yet written are not written any more (R20). -/
def State.haltEvent (s : State) (f : FaultyStructure) (entry : Nat) : State :=
  if s.evUnread + 1 < s.evCount then
    { s with evOut := [s.event .halted .fatal 0xFFFF f.code entry], evSent := false }
  else { s with evOut := [], evSent := false, eventsLost := satInc s.eventsLost }

/-- R189, R20: entry to HALTED. -/
def State.enterHalted (s : State) (f : FaultyStructure) (entry : Nat) : State :=
  State.writeStatus (State.haltEvent { State.cutRings (State.refuseUnanswered s) with op := .halted } f entry)

/-- R186: a fatal fault is handed to the Integrity Unit. -/
def fatalFault (f : FaultyStructure) (entry : Nat) : Act Unit := do
  if (← get).fatalPending then
    modify fun s => s.enterHalted f entry
    throw ()
  else
    modify fun s => { s with contained := true, fatalPending := true }
    report .fatal .fatal 0xFFFF f.code entry

/-- The Identity Map with the parity of a slot's entry taken as found (log entry 9). -/
def mapFound (m : List MapEntry) (n : Slot) : List MapEntry :=
  m.map fun e => if e.slot = n then { e with parityBad := false } else e

/-- A look-up in the Identity Map; a parity fault of the entry it finds is a fatal fault (R59, R186). -/
def lookupIdentity (id : Identity) : Act (Option Slot) := do
  match (← get).mapLookup id with
  | none => return none
  | some e =>
    if e.parityBad then
      modify fun s => { s with idMap := mapFound s.idMap e.slot }
      fatalFault .identityMap e.slot.val
    return some e.slot

/-- The Handover Engine reads an entry of its table (R146, R186). -/
def useEntry (e : EntryNo) : Act Unit := do
  if ((← get).entry e).parityBad then
    modify fun s => s.setEntry e { s.entry e with parityBad := false }
    fatalFault .transactionTable e.val

/-- Head Manager reads the allocated set of a head (R136, R186). -/
def usePool (h : Head) : Act Unit := do
  if (← getHead h).poolParityBad then
    modHead h fun c => { c with poolParityBad := false }
    fatalFault .channelPool h.val

/-! ### Readings of a handset record (R172, R173) -/

/-- Offsets within a handset record: the check byte of a beat and the poison marker (spec/11, HANDSET RECORD). -/
def checkOffset (beat : Nat) : Nat := 56 + beat
def markerOffset : Nat := 60

/-- R25: the marker the part writes. -/
def poisonMarker : Byte := 0xA5

/-- A reading that checks a handset record: the record as memory returned it, the provisioned beats handed over for
checking, and what CP writes have overtaken (R173, R175, R178). -/
structure Reading where
  slot : Slot
  source : Source
  image : List Byte
  beats : List Nat
  /-- Beats whose write-back is dropped (R175). -/
  overtaken : List Nat
  /-- Beats whose UNCORRECTABLE finding is dropped (R178). -/
  replaced : List Nat
  /-- A full rewrite has been taken since the reading (R173). -/
  rewritten : Bool
deriving DecidableEq, Repr

/-- The class of a beat of a reading. -/
def Reading.classOf (r : Reading) (beat : Nat) : BeatClass :=
  classifyBeat (beatAt r.image (8 * beat)) (byteAt r.image (checkOffset beat))

/-- The data a reading gives for a beat: corrected where it is CORRECTABLE, as memory holds it otherwise (R174). -/
def Reading.data (r : Reading) (beat : Nat) : Beat :=
  match r.classOf beat with
  | .correctable d => d
  | _ => beatAt r.image (8 * beat)

/-- Some checked beat is UNCORRECTABLE. -/
def Reading.bad (r : Reading) : Bool := r.beats.any fun b => r.classOf b == .uncorrectable

/-- The poison marker as read is set. -/
def Reading.marked (r : Reading) : Bool := byteAt r.image markerOffset != 0

/-- The record of a slot as memory holds it. -/
def State.recordImage (s : State) (n : Slot) : List Byte := s.mem.readBytes (s.handsetAddr n) 64

/-- A downstream write of the poison marker alone (R178). -/
def State.writeMarker (s : State) (n : Slot) : State :=
  { s with mem := s.mem.writeByte (s.handsetAddr n + markerOffset) poisonMarker }

/-- R174: one correction write-back, the corrected beat and its check byte. -/
def State.writeBack (s : State) (n : Slot) (beat : Nat) (d : Beat) : State :=
  { s with
    mem := (s.mem.writeAll (s.handsetAddr n + 8 * beat) (beatBytes d)).writeByte
      (s.handsetAddr n + checkOffset beat) (checkByte d) }

/-- R176, R177: a CORRECTABLE finding is accounted for. -/
def account (n : Slot) (beat : Nat) (source : Source) : Act Unit := do
  let s ← get
  if s.faultList.contains n then pure ()
  else
    modify fun s => { s with
      faultList := if s.faultList.length < Config.faultListSize then s.faultList ++ [n] else s.faultList
      corrected := satInc s.corrected }
    report .corrected .corrected n.val beat source.code
    let t ← get
    if t.corrected ≠ s.corrected ∧ t.corrected = t.params.threshold ∧ t.params.threshold ≠ 0 then
      report .thresholdReached .corrected 0xFFFF t.params.threshold t.faultList.length

/-- R173: the marker as read against the POISONED flag. Answers whether the record is treated as poisoned (R179). -/
def judgeMarker (r : Reading) : Act Bool := do
  let flag := (← getCtx r.slot).poisoned
  if r.marked && !flag && !r.rewritten then
    modCtx r.slot fun c => { c with poisoned := true }
    if r.source ≠ .startup then report .recordPoisoned .recoverable r.slot.val 0xFF r.source.code
  if !r.marked && flag && !r.rewritten then modify fun s => s.writeMarker r.slot
  return r.marked || flag

/-- R174, R178, R179: one beat of a reading. Answers whether the record is treated as poisoned after it. -/
def checkBeat (r : Reading) (poisoned : Bool) (beat : Nat) : Act Bool := do
  match r.classOf beat with
  | .clean => return poisoned
  | .correctable d =>
    if !poisoned then
      if r.source ≠ .merge && !r.overtaken.contains beat then modify fun s => s.writeBack r.slot beat d
      account r.slot beat r.source
    return poisoned
  | .uncorrectable =>
    if poisoned || r.replaced.contains beat then return poisoned
    else
      modify fun s => s.writeMarker r.slot
      modCtx r.slot fun c => { c with poisoned := true }
      report .recordPoisoned .recoverable r.slot.val beat r.source.code
      return true

/-- The beats of a reading, in beat order. -/
def checkBeats (r : Reading) : Bool → List Nat → Act Unit
  | _, [] => pure ()
  | poisoned, b :: rest => do
    let p ← checkBeat r poisoned b
    checkBeats r p rest

/-- R173 to R179: a reading is handed to the Integrity Unit. -/
def checkReading (r : Reading) : Act Unit := do
  let poisoned ← judgeMarker r
  checkBeats r poisoned r.beats

/-- R182: the findings of a scrub read that a full rewrite has overtaken are dropped, the ones of a full rewrite that was
sent before the read included. -/
def ScrubRead.rewrite (r : ScrubRead) : ScrubRead := { r with taken := r.taken ++ [0, 1, 2, 3], rewritten := true }

/-- R182: the full-rewrite notice at the Integrity Unit. -/
def endPoison (n : Slot) : Act Unit := do
  modCtx n fun c => { c with poisoned := false }
  modify fun s => { s with
    faultList := s.faultList.filter fun x => x != n
    scrubRead := s.scrubRead.map fun r => if r.slot = n then r.rewrite else r }

end Sys2Proof.Machine
end

