-- ==== Sys2Proof/Machine/Windows.lean ====
section
/-! DEFINITION. Windows: presence windows, quality notices and the change of a context's state (R56, R57, R88 to R91,
R99, R106). -/

namespace Sys2Proof.Machine

/-! ### Presence windows (R88 to R91) -/

/-- R91: a window started now, with EARLY clear. -/
def Presence.started (mode : PresenceMode) (period now : Time) (missed : Bool) : Presence :=
  { mode := mode, period := some period, start := some now, deadline := some (now + period), missed := missed,
    early := false }

/-- R89: the IDLE window of a class. -/
def idleWindow (e : ClassEntry) (now : Time) (missed : Bool) : Presence :=
  Presence.started (if e.mode = 0 then .window else .timeout) (periodMs e.period) now missed

/-- R89: the DOZE window of a class. -/
def dozeWindow (e : ClassEntry) (now : Time) (missed : Bool) : Presence :=
  Presence.started .timeout (periodMs e.doze) now missed

/-- R91, R99: what the notice of a new state does to the presence context. -/
def presenceNotice (e : ClassEntry) (now : Time) (old new : HandsetState) (p : Presence) : Presence :=
  match new with
  | .idle => idleWindow e now false
  | .doze => dozeWindow e now false
  | .lost => Presence.started .grace Config.graceTime now p.missed
  | .active | .moving | .pinned =>
    if old.inCall then p else Presence.started .call Config.callPresenceTime now false
  | _ => .idle

/-- R106: what the notice does to the quality context. -/
def qualityNotice (old new : HandsetState) (q : Quality) : Quality :=
  if old.inCall && new.inCall then q else .idle

/-! ### The change of state (R56, R57) -/

/-- R66: staged fields become the cached ones. -/
def HandsetCtx.applyStaged (c : HandsetCtx) : HandsetCtx :=
  match c.staged with
  | none => c
  | some f => { c with cls := f.cls, group := f.group, policy := f.policy, priority := f.priority, staged := none }

/-- R57: the entry actions of a change from `old` to `new`. DESIGN CHOICE (log entry 30): a drop to LOST keeps the handover
failure count. R57 and R82 give LOST no reset; R151 lets "the end of the call (R81)" set it to 0. -/
def HandsetCtx.entryActions (c : HandsetCtx) (old new : HandsetState) : HandsetCtx :=
  let c := if old.inCall && !new.inCall then c.applyStaged else c
  let c := if !new.registered then { c with hoFail := 0 } else c
  let c := if new == .idle && old.inCall then { c with hoFail := 0 } else c
  if new == .vacant then
    { HandsetCtx.vacant with
      identity := c.identity, cls := c.cls, group := c.group, code := c.code, policy := c.policy,
      priority := c.priority, poisoned := c.poisoned, ctxParityBad := c.ctxParityBad }
  else c

/-- R56: the head and channel fields, the admission head, the offer deadline and the transaction of a state. -/
def HandsetCtx.shaped (c : HandsetCtx) (new : HandsetState) : HandsetCtx :=
  match new with
  | .vacant | .provisioned | .barred | .quarantined =>
    { c with admissionHead := none, offerDeadline := none, serving := none, channel := none, media := none, txn := none }
  | .queued =>
    { c with offerDeadline := none, serving := c.admissionHead, channel := none, media := none, txn := none }
  | .offered => { c with serving := c.admissionHead, channel := none, media := none, txn := none }
  | .idle | .doze | .lost =>
    { c with admissionHead := none, offerDeadline := none, channel := none, media := none, txn := none }
  | .active | .pinned => { c with admissionHead := none, offerDeadline := none, txn := none }
  | .moving => { c with admissionHead := none, offerDeadline := none }

/-- R57: a context's state change in one step, with the change that its rule makes to the other fields. -/
def State.entered (s : State) (n : Slot) (new : HandsetState) (f : HandsetCtx → HandsetCtx) : State :=
  let old := s.ctx n
  let c := ((f old).entryActions old.state new).shaped new
  s.setCtx n { c with
    state := new
    presence := presenceNotice (s.classOf c) s.timeBase old.state new c.presence
    quality := qualityNotice old.state new c.quality }

/-- The state change with a change of other fields. -/
def enterWith (n : Slot) (new : HandsetState) (f : HandsetCtx → HandsetCtx) : Act Unit :=
  modify fun s => s.entered n new f

/-- The state change alone. -/
def enter (n : Slot) (new : HandsetState) : Act Unit := enterWith n new id

/-- The presence context of a slot replaced. -/
def setPresence (n : Slot) (p : Presence) : Act Unit := modCtx n fun c => { c with presence := p }

/-- R103: the idle terms on a directive. -/
def Directive.withIdleTerms (d : Directive) (e : ClassEntry) : Directive :=
  { d with mode := BitVec.ofNat 8 e.mode, period := BitVec.ofNat 8 e.period, group := 0 }

/-- R103: the doze terms on a directive; mode TIMEOUT has code 1. -/
def Directive.withDozeTerms (d : Directive) (e : ClassEntry) (group : BitVec 4) : Directive :=
  { d with mode := 1, period := BitVec.ofNat 8 e.doze, group := group }

/-- A directive about a handset, with its cached identity and its slot. -/
def sendAbout (kind : DirectiveKind) (dest : Option Head) (n : Slot) (f : Directive → Directive) : Act Unit := do
  let c ← getCtx n
  send (f { Directive.blank kind dest with identity := c.identity, slot := some n })

end Sys2Proof.Machine
end

