-- ==== Sys2Proof/Machine/Channels.lean ====
section
/-! DEFINITION. Channels: the Channel Pools, the Reservation Wait Queues and grants (R133, R135 to R143, R150). -/

namespace Sys2Proof.Machine

/-! ### The pool (R136) -/

/-- The number of channels allocated at a head. -/
def HeadCtx.allocated (h : HeadCtx) : Nat := (h.pool.toList.filter Option.isSome).length

/-- R136: the free count. -/
def HeadCtx.free (h : HeadCtx) : Nat := h.capacity - h.allocated

/-- R136: the lowest channel number of the head that is not allocated. -/
def HeadCtx.lowestFree (h : HeadCtx) : Option Chan :=
  (List.finRange 12).find? fun c => decide (c.val < h.capacity) && h.pool[c].isNone

/-- A channel number with its owner. -/
def HeadCtx.withOwner (h : HeadCtx) (c : Chan) (o : Option Owner) : HeadCtx := { h with pool := h.pool.set c o }

/-- R140: an allocated channel number changes its owner. -/
def HeadCtx.reown (h : HeadCtx) (c : Chan) (o : Owner) : HeadCtx :=
  if h.pool[c].isSome then h.withOwner c (some o) else h

/-- R135: staged capacity and guard become the active ones. -/
def HeadCtx.applyStaged (h : HeadCtx) : HeadCtx :=
  match h.staged with
  | none => h
  | some (c, g) => { h with capacity := c, guard := g, staged := none }

/-- R125: a head that gives new calls and reservations is IN_SERVICE. -/
def HeadState.eligible : HeadState → Bool
  | .inService => true
  | _ => false

/-! ### Transactions in the table (R146) -/

/-- The transaction of an entry. -/
def State.txnOf (s : State) (e : EntryNo) : Option Handover := (s.entry e).txn

/-- The transaction of an entry changed. -/
def modTxn (e : EntryNo) (f : Handover → Handover) : Act Unit :=
  modify fun s => s.setEntry e { s.entry e with txn := (s.txnOf e).map f }

/-- R146: the entry is freed. -/
def freeEntry (e : EntryNo) : Act Unit := modify fun s => s.setEntry e .empty

/-- The Handover Engine reads every entry of its table (R186). -/
def readTable : Act Unit := forEach (List.finRange 32) useEntry

/-- The first free entry of a list, each entry read up to it (R146, R186). -/
def seekFree : List EntryNo → Act (Option EntryNo)
  | [] => return none
  | e :: rest => do
    useEntry e
    if ((← get).txnOf e).isNone then return some e else seekFree rest

/-- R146: the lowest-numbered free entry. -/
def seekEntry : Act (Option EntryNo) := seekFree (List.finRange 32)

/-- The entry of a slot's transaction, read from the table (R146). -/
def slotEntry (n : Slot) : Act (Option (EntryNo × Handover)) := do
  match (← getCtx n).txn with
  | none => return none
  | some (e, _) =>
    useEntry e
    return ((← get).txnOf e).map fun t => (e, t)

/-! ### The wait queue (R142) -/

/-- R142: the rank of a cause. -/
def Cause.rank : Cause → Nat
  | .urgent | .orphan | .drain => 0
  | _ => 1

/-- R142: opening time `a` is earlier than `b`, by modular distance. -/
def earlier (a b : Time) : Bool := decide (a ≠ b) && passed a b

/-- R142: entry `x` stands before entry `y`. -/
def WaitEntry.before (x y : WaitEntry) : Bool :=
  if x.cause.rank ≠ y.cause.rank then decide (x.cause.rank < y.cause.rank)
  else if x.priority ≠ y.priority then decide (y.priority < x.priority)
  else if x.opened ≠ y.opened then earlier x.opened y.opened
  else decide (x.slot < y.slot)

/-- R142: a joining transaction takes its place in the order. -/
def joinWait (x : WaitEntry) : List WaitEntry → List WaitEntry
  | [] => [x]
  | y :: rest => if x.before y then x :: y :: rest else y :: joinWait x rest

/-- A transaction leaves a head's wait queue. -/
def leaveWait (h : Head) (e : EntryNo) : Act Unit :=
  modHead h fun c => { c with waitQ := c.waitQ.filter fun w => w.entry != e }

/-! ### Grants and releases -/

/-- R150: a transaction enters COMMANDED with a channel of its target. -/
def enterCommanded (e : EntryNo) (target : Head) (c : Chan) : Act Unit := do
  useEntry e
  let now := (← get).timeBase
  modTxn e fun t => { t with phase := .commanded, targetChan := some c, deadline := now + Config.commandedTime }
  match (← get).txnOf e with
  | none => pure ()
  | some t =>
    sendAbout .channelAssign (some target) t.slot fun d => { d with channel := some c }
    sendAbout .handoverGo (some t.source) t.slot fun d => { d with targetHead := some target, targetChan := some c }

/-- R133: the entry to OUT_OF_SERVICE at the end of a drain. -/
def endDrain (h : Head) : Act Unit := do
  modHead h fun c => { c.applyStaged with state := .outOfService, liveness := none }
  note .headDrained h.val (← getHead h).capacity 0

/-- R133: a DRAINING head with nothing allocated enters OUT_OF_SERVICE. -/
def judgeDrain (h : Head) : Act Unit := do
  let c ← getHead h
  if c.state = .draining ∧ c.allocated = 0 then endDrain h

/-- R141, R143: a channel is released; the first waiter takes it at once, or a drain ends. The channel freed at a full
head is the lowest free one (R136, R138). -/
def releaseChannel (h : Head) (c : Chan) : Act Unit := do
  usePool h
  modHead h fun x => x.withOwner c none
  let x ← getHead h
  if x.state = .inService then
    match x.waitQ, x.lowestFree with
    | w :: rest, some ch =>
      modHead h fun x => { x.withOwner ch (some (.reservation w.entry)) with waitQ := rest }
      enterCommanded w.entry h ch
    | _, _ => pure ()
  else judgeDrain h

/-- The releasing block's CHANNEL_RELEASE and the release, at a head that is neither FAILED nor OUT_OF_SERVICE (R141).
The channels of a failed head are released already (R129). -/
def releaseAt (n : Slot) (h : Head) (c : Chan) : Act Unit := do
  if (← getHead h).state.reachable then
    send { Directive.blank .channelRelease (some h) with slot := some n, channel := some c }
    releaseChannel h c

/-- The releases of a list of channels, in order. -/
def releaseAll (n : Slot) (cs : List (Head × Chan)) : Act Unit := forEach cs fun p => releaseAt n p.1 p.2

/-- R137: a new-call channel at a head. -/
def newCallChannel (n : Slot) (h : Head) : Act (Option Chan) := do
  usePool h
  let x ← getHead h
  if x.state = .inService ∧ x.guard < x.free ∧ x.waitQ = [] then
    match x.lowestFree with
    | none => return none
    | some c =>
      modHead h fun x => x.withOwner c (some (.call n))
      return some c
  else return none

/-- The answers to a request for a reservation (R138). -/
inductive Reserved where
  | granted (channel : Chan)
  | waits
  | refused
deriving DecidableEq, Repr

/-- R138: a reservation at the target for entry `e`. -/
def reserve (e : EntryNo) (w : WaitEntry) (h : Head) : Act Reserved := do
  usePool h
  let x ← getHead h
  if x.state = .inService then
    match if 1 ≤ x.free then x.lowestFree else none with
    | some c =>
      modHead h fun x => x.withOwner c (some (.reservation e))
      return .granted c
    | none =>
      modHead h fun x => { x with waitQ := joinWait w x.waitQ }
      return .waits
  else return .refused

/-- R139: a re-establishment channel at a head, for the given owner. -/
def reestablishChannel (o : Owner) (h : Head) : Act (Option Chan) := do
  usePool h
  let x ← getHead h
  if x.state.admits ∧ 1 ≤ x.free then
    match x.lowestFree with
    | none => return none
    | some c =>
      modHead h fun x => x.withOwner c (some o)
      return some c
  else return none

end Sys2Proof.Machine
end

