-- ==== Sys2Proof/Machine/Calls.lean ====
section
/-! DEFINITION. Calls: how a call ends (R81, R82, R163, R164), and context faults (R184). -/

namespace Sys2Proof.Machine

/-- The channels an entry names: a reservation at the target or a held source channel (R147). -/
def Handover.channels (t : Handover) : List (Head × Chan) :=
  (match t.target, t.targetChan with
    | some h, some c => [(h, c)]
    | _, _ => []) ++
  (match t.heldChan with
    | some c => [(t.source, c)]
    | none => [])

/-- A waiting transaction's place in the target's wait queue is withdrawn. -/
def withdrawWait (e : EntryNo) (t : Handover) : Act Unit :=
  match t.phase, t.target with
  | .reserving, some h => leaveWait h e
  | _, _ => pure ()

/-- The call channel of a context. -/
def HandsetCtx.callChannel (c : HandsetCtx) : List (Head × Chan) :=
  match c.serving, c.channel with
  | some h, some ch => [(h, ch)]
  | _, _ => []

/-- R81 and R82 step 1: the open transaction of a slot is closed; the channels it named are left to step 2. -/
def closeForEnd (n : Slot) (abandoned : Bool) : Act (List (Head × Chan)) := do
  match ← slotEntry n with
  | none => return []
  | some (e, t) =>
    withdrawWait e t
    freeEntry e
    if abandoned then note .handoverAbandoned n.val t.phase.code (headCode t.target)
    return t.channels

/-- Steps 1 and 2 of R81 and R82: the transaction and every channel of the call. -/
def endCall (n : Slot) (abandoned : Bool) : Act Unit := do
  let c ← getCtx n
  let named ← closeForEnd n abandoned
  releaseAll n (c.callChannel ++ named)

/-- R82, steps 1 to 3: a call drop. The state that follows is set by the rule that drops the call. -/
def dropCall (n : Slot) (cause : DropCause) : Act Unit := do
  endCall n false
  note .callDropped n.val (headCode (← getCtx n).serving) cause.code

/-- R81: a release of the call. -/
def releaseCall (n : Slot) (origin : ReleaseOrigin) : Act Unit := do
  endCall n true
  enter n .idle
  note .callEnded n.val (headCode (← getCtx n).serving) origin.code

/-! ### Context faults (R184) -/

/-- The entry of a slot's transaction, found in the table alone. -/
def State.entryOfSlot (s : State) (n : Slot) : Option (EntryNo × Handover) :=
  (List.finRange 32).findSome? fun e =>
    match s.txnOf e with
    | some t => if t.slot = n then some (e, t) else none
    | none => none

/-- Whether an owner is the slot's call or a channel of its entry. -/
def Owner.belongsTo (n : Slot) (e : Option EntryNo) : Owner → Bool
  | .call m => m == n
  | .reservation x | .held x => e == some x

/-- The channels that the pools allocate to a slot, by head and number, each with whether it is the call channel. -/
def State.channelsOfSlot (s : State) (n : Slot) (e : Option EntryNo) : List (Head × Chan × Bool) :=
  (List.finRange 64).flatMap fun h => (List.finRange 12).filterMap fun c =>
    match (s.head h).pool[c] with
    | some o => if o.belongsTo n e then some (h, c, decide (o = .call n)) else none
    | none => none

/-- The slot leaves any Attach Queue. -/
def leaveAttachQueues (n : Slot) : Act Unit :=
  modify fun s => { s with attach := s.attach.map fun a => { a with queue := a.queue.filter fun q => q.1 != n } }

/-- R184: the timers of a slot are dropped, and it names no transaction and no channel any more. -/
def HandsetCtx.dropTimers (c : HandsetCtx) : HandsetCtx :=
  { c with
    offerDeadline := none, presence := .idle, quality := { c.quality with holdoff := none }, txn := none
    channel := none }

/-- The channels of a slot in the order in which they are released: the call channel first, the others by head and number
(DESIGN CHOICE, log entry 15: the spec gives no order). -/
def releaseOrder (channels : List (Head × Chan × Bool)) : List (Head × Chan) :=
  ((channels.filter fun p => p.2.2) ++ channels.filter fun p => !p.2.2).map fun p => (p.1, p.2.1)

/-- R184, steps 1 to 3: what a slot with a faulty context holds elsewhere is ended: the Handover Engine reads its table and
Head Manager its Channel Pools to find it (R186). Answers whether a call was dropped. -/
def endFaulty (n : Slot) : Act Bool := do
  readTable
  forEach (List.finRange 64) usePool
  let s ← get
  let entry := s.entryOfSlot n
  let channels := s.channelsOfSlot n (entry.map Prod.fst)
  let dropped := entry.isSome || !channels.isEmpty
  match entry with
  | none => pure ()
  | some (e, t) =>
    withdrawWait e t
    freeEntry e
  releaseAll n (releaseOrder channels)
  if dropped then
    let callHead := (channels.find? fun p => p.2.2).map fun p => p.1
    let head := match callHead with
      | some h => some h
      | none => entry.map fun x => x.2.source
    note .callDropped n.val (headCode head) DropCause.contextFault.code
  leaveAttachQueues n
  modCtx n HandsetCtx.dropTimers
  return dropped

/-- A rebuild of the slot is in progress. -/
def State.rebuilding (s : State) (n : Slot) : Bool := s.rebuilds.any fun r => r.slot == n

/-- An event joins the ones that wait for the rebuild of a slot (R185). -/
def waitForRebuild (n : Slot) (w : Option Waiter) : Act Unit :=
  match w with
  | none => pure ()
  | some w => modify fun s => { s with
      rebuilds := s.rebuilds.map fun r => if r.slot = n then { r with waiting := r.waiting ++ [w] } else r }

/-- R184, R185: a block reads a slot's context for use. Answers whether it is sound; if it is not, its rebuild has begun
or is in progress, and the event, if it can wait, waits for it. -/
def contextSound (n : Slot) (w : Option Waiter) : Act Bool := do
  if (← get).rebuilding n then
    waitForRebuild n w
    return false
  else if (← getCtx n).ctxParityBad then
    modCtx n fun c => { c with ctxParityBad := false }
    let dropped ← endFaulty n
    modify fun s => { s with rebuilds := s.rebuilds ++ [{ slot := n, dropped := dropped, waiting := [] }] }
    waitForRebuild n w
    return false
  else return true

/-- Work on the slot's context, if it is sound. The work of a head's event on a slot that is not is left out, and the event goes
on with the others without waiting for the rebuild (DESIGN CHOICE, log entry 28). -/
def withSound (n : Slot) (a : Act Unit) : Act Unit := do
  if ← contextSound n none then a

end Sys2Proof.Machine
end

