-- ==== Sys2Proof/Machine/Admission.lean ====
section
/-! DEFINITION. Admission: offers, Attach Queues and attach credits (R72 to R79). -/

namespace Sys2Proof.Machine

/-- A directive of attach, with the identity of the ATTACH and the slot. -/
def attachReply (kind : DirectiveKind) (h : Head) (id : Identity) (slot : Option Slot) (f : Directive → Directive) :
    Act Unit :=
  send (f { Directive.blank kind (some h) with identity := id, slot := slot })

/-- R72, R76: RETRY_LATER with its back-off. -/
def retryLater (h : Head) (id : Identity) (n : Slot) (ms : Nat) : Act Unit :=
  attachReply .retryLater h id (some n) fun d => { d with backoff := ms }

/-- R73: ACCEPT_ATTACH with the identity of the ATTACH, the slot and the presence terms in force. -/
def acceptAttach (h : Head) (n : Slot) (id : Identity) : Act Unit := do
  let s ← get
  attachReply .acceptAttach h id (some n) fun d => d.withIdleTerms (s.classOf (s.ctx n))

/-- R74: an offer takes a credit; a regain deadline runs while there are fewer than 4. -/
def AttachHead.consume (a : AttachHead) (now : Time) : AttachHead :=
  { a with credits := a.credits - 1, regain := some (a.regain.getD (now + Config.regainTime)) }

/-- R73: an offer to a slot at a head, for an ATTACH with the given identity. -/
def offer (n : Slot) (h : Head) (id : Identity) : Act Unit := do
  let now := (← get).timeBase
  modAtt h fun a => a.consume now
  enterWith n .offered fun c => { c with admissionHead := some h, offerDeadline := some (now + Config.offerTime) }
  acceptAttach h n id

/-- R74: the oldest entry of a head's queue is offered; an entry whose context is found faulty leaves the queue (R184)
and the next is taken at once (DESIGN CHOICE, log entry 28). The identity of the ATTACH that waits in the queue is the cached
one. The number bounds the entries looked at. -/
def offerOldest (h : Head) : Nat → Act Unit
  | 0 => pure ()
  | fuel + 1 => do
    match (← getAtt h).queue with
    | [] => pure ()
    | (n, _) :: rest =>
      modAtt h fun a => { a with queue := rest }
      if ← contextSound n none then offer n h (← getCtx n).identity else offerOldest h fuel

/-- R74: the oldest entries are offered in queue order, one for each credit, until the credits or the queue run out. -/
def serveQueue (h : Head) : Nat → Act Unit
  | 0 => pure ()
  | fuel + 1 => do
    let a ← getAtt h
    if 0 < a.credits ∧ a.queue ≠ [] then
      offerOldest h a.queue.length
      serveQueue h fuel

/-- R74, R79: Registration's part in a head's entry to IN_SERVICE. -/
def refillCredits (h : Head) : Act Unit := do
  modAtt h fun a => { a with credits := Config.maxCredits, regain := none }
  serveQueue h Config.attachQueueSize

/-- R72, R75: a slot joins the tail of a head's queue. -/
def joinQueue (n : Slot) (h : Head) : Act Unit := do
  let now := (← get).timeBase
  modAtt h fun a => { a with queue := a.queue ++ [(n, now)] }
  enterWith n .queued fun c => { c with admissionHead := some h }

/-- R72: admission of a slot at a head, for an ATTACH with the given identity. -/
def admitAt (n : Slot) (h : Head) (id : Identity) : Act Unit := do
  let a ← getAtt h
  if !(← getHead h).state.admits then
    enter n .provisioned
    attachReply .reselect h id (some n) fun d => d
  else if (← get).contained then
    enter n .provisioned
    retryLater h id n Config.backoffContained
  else if 1 ≤ a.credits ∧ a.queue = [] then offer n h id
  else if a.queue.length < Config.attachQueueSize then joinQueue n h
  else
    enter n .provisioned
    retryLater h id n Config.backoffFull

/-- R79: a head's Attach Queue is emptied in queue order; on a drain each slot is sent RESELECT. -/
def emptyQueue (h : Head) (reselect : Bool) : Act Unit := do
  let queue := (← getAtt h).queue
  modAtt h fun a => { a with queue := [] }
  forEach queue fun q => withSound q.1 do
    enter q.1 .provisioned
    if reselect then sendAbout .reselect (some h) q.1 fun d => d

/-- R74: one credit regained. -/
def AttachHead.regained (a : AttachHead) (now : Time) : AttachHead :=
  let credits := if a.credits < Config.maxCredits then a.credits + 1 else a.credits
  { a with credits := credits, regain := if credits < Config.maxCredits then some (now + Config.regainTime) else none }

/-- REGAIN_DEADLINE (R74): the head gains a credit, and the oldest entry of its queue is offered at once. -/
def regainCredit (h : Head) : Act Unit := do
  let now := (← get).timeBase
  match (← getAtt h).regain with
  | none => pure ()
  | some d =>
    if passed d now then
      modAtt h fun a => a.regained now
      if (← getHead h).state.admits then offerOldest h Config.attachQueueSize

/-- The Attach Queue entry of a slot, with its head and join time. -/
def State.queued? (s : State) (n : Slot) : Option (Head × Time) :=
  (List.finRange 64).findSome? fun h => ((s.att h).queue.find? fun q => q.1 == n).map fun q => (h, q.2)

/-- AGE_LIMIT (R76). -/
def ageOut (n : Slot) : Act Unit := do
  let s ← get
  match s.queued? n with
  | none => pure ()
  | some (h, joined) =>
    if passed (joined + Config.ageLimit) s.timeBase then withSound n do
      leaveAttachQueues n
      enter n .provisioned
      retryLater h (← getCtx n).identity n Config.backoffFull

/-- OFFER_DEADLINE (R78). -/
def offerTimeout (n : Slot) : Act Unit := do
  let s ← get
  match (s.ctx n).offerDeadline with
  | none => pure ()
  | some d =>
    if passed d s.timeBase then withSound n do
      enter n .provisioned
      note .attachTimeout n.val (headCode (s.ctx n).admissionHead) 0

/-- OFFER_DEADLINE (R78): the offer deadline of a slot passes. -/
def execOfferDeadline (n : Slot) (s : State) : Host.Outcome State Fault Refusal :=
  perform (whenRunning (offerTimeout n)) s

/-- AGE_LIMIT (R76): the age limit of a slot's Attach Queue entry passes. -/
def execAgeLimit (n : Slot) (s : State) : Host.Outcome State Fault Refusal := perform (whenRunning (ageOut n)) s

/-- REGAIN_DEADLINE (R74): the regain deadline of a head passes. -/
def execRegainDeadline (h : Head) (s : State) : Host.Outcome State Fault Refusal :=
  perform (whenRunning (regainCredit h)) s

end Sys2Proof.Machine
end

