-- ==== Sys2Proof/Machine/Levels.lean ====
section
/-! DEFINITION. Levels: the level filter and the Candidate List (R108 to R114, R120). -/

namespace Sys2Proof.Machine

/-- R109: the step toward the entering level for a difference: divided by 2^k, truncated, and at least 1 when the two
differ. -/
def filterStep (k diff : Nat) : Nat := if diff = 0 then 0 else max 1 (diff / 2 ^ k)

/-- R109: the new filtered level. -/
def filterLevel (k old entering : Nat) : Nat :=
  if old ≤ entering then old + filterStep k (entering - old) else old - filterStep k (old - entering)

/-- A sample as Quality reads it (R108). -/
structure Sample where
  head : Head
  level : Nat
  underRange : Bool
  overRange : Bool
deriving DecidableEq, Repr

/-- R108: a reported level as entering level and flags. -/
def Sample.read (p : Head × Nat) : Sample :=
  { head := p.1, level := min p.2 126, underRange := p.2 == 0, overRange := p.2 == 127 }

/-- R108: the serving sample, or the one of level 0 that stands in its place. -/
def servingSample (serving : Head) (samples : List Sample) : Sample :=
  (samples.find? fun x => x.head == serving).getD
    { head := serving, level := 0, underRange := true, overRange := false }

/-- R110: the serving level after a report. -/
def Quality.withServing (q : Quality) (k : Nat) (x : Sample) : Quality :=
  { q with
    level := some (match q.level with | none => x.level | some old => filterLevel k old x.level)
    underRange := x.underRange, overRange := x.overRange }

/-! ### The Candidate List (R111) -/

/-- R111: entry `x` stands before entry `y`. -/
def Candidate.before (x y : Candidate) : Bool :=
  decide (y.level < x.level) || (x.level == y.level && decide (x.head < y.head))

/-- An entry put in its place. -/
def placeCandidate (x : Candidate) : List Candidate → List Candidate
  | [] => [x]
  | y :: rest => if x.before y then x :: y :: rest else y :: placeCandidate x rest

/-- The list put in order. -/
def orderCandidates (cs : List Candidate) : List Candidate := cs.foldr placeCandidate []

/-- R112: one listed entry after a report; none when its staleness removes it. -/
def refreshCandidate (k : Nat) (samples : List Sample) (c : Candidate) : Option Candidate :=
  match samples.find? fun x => x.head == c.head with
  | some x => some { c with
      level := filterLevel k c.level x.level, staleness := 0, underRange := x.underRange, overRange := x.overRange }
  | none => if 2 ≤ c.staleness then none else some { c with staleness := c.staleness + 1 }

/-- A new entry for a head (R113). -/
def Sample.candidate (x : Sample) : Candidate :=
  { head := x.head, level := x.level, staleness := 0, dwell := 0, underRange := x.underRange, overRange := x.overRange }

/-- A head is listed. -/
def listed (cs : List Candidate) (h : Head) : Bool := cs.any fun c => c.head == h

/-- R113: a sample of a head that is not listed is offered to the list. -/
def offerSample (cs : List Candidate) (x : Sample) : List Candidate :=
  if listed cs x.head then cs
  else if cs.length < Config.maxCandidates then placeCandidate x.candidate cs
  else match cs.getLast? with
    | none => cs
    | some last => if last.level < x.level then placeCandidate x.candidate cs.dropLast else cs

/-- R112, R113: the Candidate List after a report with the given candidate samples: the entries updated, then the
samples of the heads that are then not listed offered in order (log entry 12). -/
def updateCandidates (k : Nat) (samples : List Sample) (cs : List Candidate) : List Candidate :=
  let kept := orderCandidates (cs.filterMap (refreshCandidate k samples))
  (samples.filter fun x => !listed kept x.head).foldl offerSample kept

/-- R107: the quality context after a processed report. -/
def Quality.report (q : Quality) (k : Nat) (serving : Head) (reported : List (Head × Nat)) : Quality :=
  let samples := reported.map Sample.read
  let q := q.withServing k (servingSample serving samples)
  { q with candidates := updateCandidates k (samples.filter fun x => x.head != serving) q.candidates }

/-- Every dwell 0. -/
def clearDwell (cs : List Candidate) : List Candidate := cs.map fun c => { c with dwell := 0 }

/-- R114: the change of serving head. An old serving head that is the new one as well is not offered, since the list never
names the serving head (R111; log entry 14). -/
def Quality.moveServing (q : Quality) (old : Option Head) (new : Head) : Quality :=
  let found := q.candidates.find? fun c => c.head == new
  let rest := q.candidates.filter fun c => c.head != new
  let offered := match old, q.level with
    | some h, some l =>
      if h = new then rest
      else offerSample rest { head := h, level := l, underRange := q.underRange, overRange := q.overRange }
    | _, _ => rest
  { q with
    level := found.map Candidate.level
    underRange := (found.map Candidate.underRange).getD false
    overRange := (found.map Candidate.overRange).getD false
    candidates := clearDwell offered }

/-- R120: the failure notice. -/
def Quality.failed (q : Quality) (now : Time) (target : Head) : Quality :=
  { q with
    holdoff := some (now + Config.holdoffTime)
    candidates := q.candidates.map fun c => if c.head = target then { c with dwell := 0 } else c }

/-- R118: the dwell of the choice counted, every other dwell 0. -/
def countDwell (choice : Head) (cs : List Candidate) : List Candidate :=
  cs.map fun c => { c with dwell := if c.head = choice then min 8 (c.dwell + 1) else 0 }

/-- HOLDOFF_DEADLINE (R120): the holdoff is dropped. -/
def endHoldoff (n : Slot) : Act Unit := do
  let s ← get
  match (s.ctx n).quality.holdoff with
  | none => pure ()
  | some d =>
    if passed d s.timeBase then withSound n (modCtx n fun c => { c with quality := { c.quality with holdoff := none } })

/-- HOLDOFF_DEADLINE (R120): the holdoff deadline of a slot passes. -/
def execHoldoffDeadline (n : Slot) (s : State) : Host.Outcome State Fault Refusal :=
  perform (whenRunning (endHoldoff n)) s

end Sys2Proof.Machine
end

