-- ==== Sys2Proof/Machine/Handover.lean ====
section
/-! DEFINITION. Handover: openings, failures, the switch, the media hold, orphaning and access outside the plan (chapter
Handover Transactions). -/

namespace Sys2Proof.Machine

/-- R146: the handset's state as an origin. -/
def HandsetState.origin : HandsetState → Origin
  | .pinned => .pinned
  | _ => .active

/-- The handset returns to its origin state, with the given failure count. -/
def returnHandset (n : Slot) (st : HandsetState) (count : Nat) : Act Unit :=
  enterWith n st fun c => { c with hoFail := count }

/-! ### Closings (R151, R162) -/

/-- R162: a closure that does not count. A waiting transaction has left its queue, and a channel at a failed target is
released already. -/
def closeUncounted (e : EntryNo) (reason : FailReason) : Act Unit := do
  useEntry e
  match (← get).txnOf e with
  | none => pure ()
  | some t =>
    freeEntry e
    enter t.slot t.origin.state
    note .handoverFailed t.slot.val reason.code (headCode t.target)

/-- R151, step 5: the state, the count and the event PINNED. -/
def countFailure (n : Slot) (o : Origin) (reason : FailReason) : Act Unit := do
  let c ← getCtx n
  match o with
  | .pinned => enter n .pinned
  | .active =>
    if c.hoFail < 3 then returnHandset n .active (c.hoFail + 1)
    else
      returnHandset n .pinned 0
      note .pinned n.val (headCode c.serving) reason.code

/-- R120: the failure notice at Quality. -/
def noticeFailure (n : Slot) (target : Option Head) : Act Unit := do
  let now := (← get).timeBase
  match target with
  | none => pure ()
  | some h => modCtx n fun c => { c with quality := c.quality.failed now h }

/-- R151: a counted failure of a transaction. -/
def failCounted (e : EntryNo) (t : Handover) (reason : FailReason) : Act Unit := do
  withdrawWait e t
  releaseAll t.slot t.channels
  freeEntry e
  note .handoverFailed t.slot.val reason.code (headCode t.target)
  noticeFailure t.slot t.target
  countFailure t.slot t.origin reason

/-! ### Openings (R149) -/

/-- A transaction put into an entry. -/
def putTxn (e : EntryNo) (t : Handover) : Act Unit := modify fun s => s.setEntry e { txn := some t, parityBad := false }

/-- R149: an opening with a target. Answers false when the table is full. A table fault found in the search for a free entry
sets CONTAINED and does not stop the opening (DEDUCED, log entry 27). -/
def openHandover (n : Slot) (cause : Cause) (target : Head) : Act Bool := do
  let found ← seekEntry
  let s ← get
  let c := s.ctx n
  match found, c.serving with
  | some e, some source =>
    let o := c.state.origin
    putTxn e
      { slot := n, cause := cause, phase := .reserving, source := source, target := some target,
        targetChan := none, heldChan := none, deadline := s.timeBase + Config.reservingTime, origin := o,
        opened := s.timeBase }
    enterWith n .moving fun c => { c with txn := some (e, o) }
    note .handoverOpened n.val target.val cause.code
    match ← reserve e { entry := e, slot := n, cause := cause, priority := c.priority, opened := s.timeBase } target with
    | .granted ch => enterCommanded e target ch
    | .waits => pure ()
    | .refused => closeUncounted e .targetUnavailable
    return true
  | _, _ => return false

/-! ### The switch and the media hold (R156 to R161) -/

/-- R140: Head Manager's part in the switch. -/
def switchChannels (e : EntryNo) (n : Slot) (source target : Head) (old new : Chan) : Act Unit := do
  usePool target
  modHead target fun h => h.reown new (.call n)
  usePool source
  modHead source fun h => h.reown old (.held e)

/-- R114: a call's serving head and channel change, and Quality is handed the new serving head. -/
def HandsetCtx.moveCall (c : HandsetCtx) (head : Head) (ch : Chan) : HandsetCtx :=
  { c with serving := some head, channel := some ch, quality := c.quality.moveServing c.serving head }

/-- R156: the transaction enters SWITCHED at its target. -/
def switchCall (e : EntryNo) (t : Handover) : Act Unit := do
  let s ← get
  let c := s.ctx t.slot
  match t.target, t.targetChan, c.channel with
  | some target, some new, some old =>
    switchChannels e t.slot t.source target old new
    modTxn e fun t => { t with
      phase := .switched, heldChan := some old, targetChan := none, deadline := s.timeBase + Config.mediaHoldTime }
    modCtx t.slot fun c => c.moveCall target new
    note .handoverDone t.slot.val target.val t.cause.code
  | _, _, _ => pure ()

/-- R157: the end of a media hold with MEDIA_RELEASED. -/
def endHold (e : EntryNo) (t : Handover) (detail : MediaEnd) (media : Option Head) : Act Unit := do
  freeEntry e
  enterWith t.slot .active fun c => { c with media := media, hoFail := 0 }
  releaseAll t.slot t.channels
  note .mediaReleased t.slot.val detail.code t.source.val

/-- R158, R161: a media acknowledgement. -/
def mediaAcknowledgement (n : Slot) (value : Head) : Act Unit := do
  match ← slotEntry n with
  | some (e, t) =>
    if t.phase = .switched then endHold e t .acked (some value)
    else modCtx n fun c => { c with media := some value }
  | none => modCtx n fun c => { c with media := some value }

/-! ### Orphaned calls (R130, R165) -/

/-- R165: an opening of cause ORPHAN in a free entry. -/
def openOrphan (n : Slot) (e : EntryNo) (failed : Head) : Act Unit := do
  let s ← get
  let o := (s.ctx n).state.origin
  putTxn e
    { slot := n, cause := .orphan, phase := .orphaned, source := failed, target := none, targetChan := none,
      heldChan := none, deadline := s.timeBase + Config.orphanedTime, origin := o, opened := s.timeBase }
  enterWith n .moving fun c => { c with txn := some (e, o), channel := none }
  note .handoverOpened n.val 0xFF Cause.orphan.code

/-- R130, R165: a transaction turned into ORPHANED in place. -/
def orphanInPlace (n : Slot) (e : EntryNo) (t : Handover) (failed : Head) : Act Unit := do
  let now := (← get).timeBase
  withdrawWait e t
  modTxn e fun t => { t with
    cause := .orphan, phase := .orphaned, source := failed, target := none, targetChan := none, heldChan := none
    deadline := now + Config.orphanedTime }
  modCtx n fun c => { c with channel := none }
  releaseAll n t.channels

/-- R130: one call whose serving head has failed. -/
def orphanCall (failed : Head) (n : Slot) : Act Unit := do
  match ← slotEntry n with
  | some (e, t) => if t.phase ≠ .orphaned then orphanInPlace n e t failed
  | none =>
    match ← seekEntry with
    | some e => openOrphan n e failed
    | none =>
      dropCall n .headFailed
      enter n .lost

/-! ### Access outside the plan (R167) -/

/-- R167, step 5: a re-establishment without an entry or a channel. -/
def dropReestablish (n : Slot) (h : Head) : Act Unit := do
  dropCall n .noReestablish
  enterWith n .idle fun c => { c with serving := some h }

/-- R167, step 4: the channel is assigned at the access head. -/
def assignChannel (n : Slot) (h : Head) (ch : Chan) : Act Unit :=
  sendAbout .channelAssign (some h) n fun d => { d with channel := some ch }

/-- R167, step 4, source alive: the transaction of entry `e` takes the channel and switches. -/
def reestablishAlive (n : Slot) (e : EntryNo) (h : Head) (ch : Chan) : Act Unit := do
  assignChannel n h ch
  modTxn e fun t => { t with targetChan := some ch }
  match (← get).txnOf e with
  | none => pure ()
  | some t => switchCall e t

/-- R167: re-establishment of a call with no transaction. -/
def reestablishNew (n : Slot) (h : Head) : Act Unit := do
  let found ← seekEntry
  let s ← get
  let c := s.ctx n
  match found, c.serving with
  | some e, some source =>
    match ← reestablishChannel (.reservation e) h with
    | none => dropReestablish n h
    | some ch =>
      let o := c.state.origin
      putTxn e
        { slot := n, cause := .reestablish, phase := .commanded, source := source, target := some h,
          targetChan := none, heldChan := none, deadline := s.timeBase + Config.commandedTime, origin := o,
          opened := s.timeBase }
      enterWith n .moving fun c => { c with txn := some (e, o) }
      note .handoverOpened n.val h.val Cause.reestablish.code
      reestablishAlive n e h ch
  | _, _ => dropReestablish n h

/-- R167, step 2: a reused entry withdraws its reservation or its place. -/
def withdrawTarget (n : Slot) (e : EntryNo) (t : Handover) : Act Unit := do
  withdrawWait e t
  modTxn e fun t => { t with targetChan := none }
  releaseAll n t.channels

/-- R167: re-establishment of a call in RESERVING or COMMANDED, its entry reused. -/
def reestablishReused (n : Slot) (e : EntryNo) (t : Handover) (h : Head) : Act Unit := do
  withdrawTarget n e t
  match ← reestablishChannel (.reservation e) h with
  | none => dropReestablish n h
  | some ch =>
    modTxn e fun t => { t with cause := .reestablish, target := some h }
    reestablishAlive n e h ch

/-- R167: re-establishment of an ORPHANED call. -/
def reestablishOrphan (n : Slot) (e : EntryNo) (h : Head) : Act Unit := do
  match ← reestablishChannel (.call n) h with
  | none => dropReestablish n h
  | some ch =>
    assignChannel n h ch
    enterWith n .active fun c => { c.moveCall h ch with hoFail := 0 }
    freeEntry e
    note .handoverDone n.val h.val Cause.orphan.code

/-- R167: an ACCESS of a handset with no call. -/
def staleAccess (n : Slot) (h : Head) : Act Unit := do
  let c ← getCtx n
  sendAbout .channelRelease (some h) n fun d => d
  note .staleAccess n.val h.val c.state.code

/-- R167: an ACCESS from head `h`. -/
def takeAccess (n : Slot) (h : Head) : Act Unit := do
  let c ← getCtx n
  if !c.state.inCall then staleAccess n h
  else match ← slotEntry n with
    | some (e, t) =>
      if t.phase = .commanded ∧ t.target = some h then switchCall e t
      else if t.phase = .orphaned then reestablishOrphan n e h
      else if c.serving = some h ∨ t.phase = .switched then pure ()
      else reestablishReused n e t h
    | none => if c.serving = some h then pure () else reestablishNew n h

/-- R154: a REVERT from head `h`. -/
def takeRevert (n : Slot) (h : Head) : Act Unit := do
  if (← getCtx n).state.inCall then
    match ← slotEntry n with
    | some (e, t) => if t.phase = .commanded ∧ t.source = h then failCounted e t .reverted
    | none => pure ()

/-- R155: a CHANNEL_REFUSED from head `h`. -/
def takeChannelRefused (n : Slot) (h : Head) (ch : Chan) : Act Unit := do
  if (← getCtx n).state.inCall then
    match ← slotEntry n with
    | some (e, t) =>
      if t.phase = .commanded ∧ t.target = some h ∧ t.targetChan = some ch then failCounted e t .targetRefused
    | none => pure ()

/-! ### The deadlines of the phases -/

/-- A phase deadline passes: the engine reads the entry and the handset's context (R147). -/
def phaseDeadline (e : EntryNo) (p : Phase) (f : Handover → Act Unit) : Act Unit := do
  let s ← get
  match s.txnOf e with
  | none => pure ()
  | some t =>
    if t.phase = p ∧ passed t.deadline s.timeBase then
      useEntry e
      withSound t.slot (f t)

/-- RESERVING_DEADLINE (R152). -/
def reservingTimeout (e : EntryNo) : Act Unit := phaseDeadline e .reserving fun t => failCounted e t .noChannel

/-- COMMANDED_DEADLINE (R153). -/
def commandedTimeout (e : EntryNo) : Act Unit := phaseDeadline e .commanded fun t => failCounted e t .timeout

/-- MEDIA_HOLD_DEADLINE (R159): the media head becomes the serving head. -/
def mediaHoldTimeout (e : EntryNo) : Act Unit := phaseDeadline e .switched fun t => do
  endHold e t .late (← getCtx t.slot).serving

/-- ORPHANED_DEADLINE (R166). -/
def orphanedTimeout (e : EntryNo) : Act Unit := phaseDeadline e .orphaned fun t => do
  dropCall t.slot .orphanTimeout
  enter t.slot .lost

/-- RESERVING_DEADLINE (R152): the deadline of a RESERVING transaction passes. -/
def execReservingDeadline (e : EntryNo) (s : State) : Host.Outcome State Fault Refusal :=
  perform (whenRunning (reservingTimeout e)) s

/-- COMMANDED_DEADLINE (R153): the deadline of a COMMANDED transaction passes. -/
def execCommandedDeadline (e : EntryNo) (s : State) : Host.Outcome State Fault Refusal :=
  perform (whenRunning (commandedTimeout e)) s

/-- MEDIA_HOLD_DEADLINE (R159): the hold deadline of a SWITCHED transaction passes. -/
def execMediaHoldDeadline (e : EntryNo) (s : State) : Host.Outcome State Fault Refusal :=
  perform (whenRunning (mediaHoldTimeout e)) s

/-- ORPHANED_DEADLINE (R166): the deadline of an ORPHANED transaction passes. -/
def execOrphanedDeadline (e : EntryNo) (s : State) : Host.Outcome State Fault Refusal :=
  perform (whenRunning (orphanedTimeout e)) s

end Sys2Proof.Machine
end

