-- ==== Sys2Proof/Machine/Heads.lean ====
section
/-! DEFINITION. Heads: HEAD_STATUS, liveness, head failure, ineligibility and head provisioning (R126 to R135). -/

namespace Sys2Proof.Machine

/-- The slots whose context satisfies a test, in ascending order. -/
def State.slotsWhere (s : State) (p : HandsetCtx → Bool) : List Slot := (List.finRange 1024).filter fun n => p (s.ctx n)

/-- An entry with its slot put in its place by slot. -/
def placeBySlot (x : EntryNo × Slot) : List (EntryNo × Slot) → List (EntryNo × Slot)
  | [] => [x]
  | y :: rest => if x.2 < y.2 then x :: y :: rest else y :: placeBySlot x rest

/-- The transactions that satisfy a test, in ascending slot order. -/
def State.txnsWhere (s : State) (p : Handover → Bool) : List EntryNo :=
  let es := (List.finRange 32).filterMap fun e =>
    match s.txnOf e with
    | some t => if p t then some (e, t.slot) else none
    | none => none
  (es.foldr placeBySlot []).map Prod.fst

/-- Work on a transaction that a sweep has found, unless its slot's context is faulty. -/
def withTxn (e : EntryNo) (f : Handover → Act Unit) : Act Unit := do
  match (← get).txnOf e with
  | none => pure ()
  | some t => withSound t.slot (f t)

/-! ### Changes of head state -/

/-- R131: a head enters a state that makes it no target; its Reservation Wait Queue is empty afterwards. -/
def HeadCtx.ineligible (c : HeadCtx) (st : HeadState) : HeadCtx := { c with state := st, waitQ := [] }

/-- R131: the RESERVING transactions that target the head close with TARGET_UNAVAILABLE. -/
def closeReserving (h : Head) : Act Unit := do
  let found := (← get).txnsWhere fun t => t.target == some h && t.phase == .reserving
  forEach found fun e => withTxn e fun _ => closeUncounted e .targetUnavailable

/-- R126, R134: entry to IN_SERVICE with the given liveness deadline, and HEAD_UP. -/
def enterInService (h : Head) (liveness : Option Time) : Act Unit := do
  let c ← getHead h
  modHead h fun c => { c with state := .inService, liveness := liveness }
  note .headUp h.val c.state.code c.capacity
  refillCredits h

/-- R126, R131, R134: entry to DEGRADED, with HEAD_DEGRADED. -/
def enterDegraded (h : Head) : Act Unit := do
  usePool h
  let c ← getHead h
  modHead h fun c => c.ineligible .degraded
  note .headDegraded h.val c.state.code c.free
  closeReserving h

/-- The liveness deadline refreshed (R126). -/
def refreshLiveness (h : Head) : Act Unit := do
  let now := (← get).timeBase
  modHead h fun c => { c with liveness := some (now + Config.livenessTime) }

/-- R126: a head comes into service by its HEAD_STATUS, and goes on to DEGRADED when it warns. -/
def comeUp (h : Head) (warning : Bool) : Act Unit := do
  let now := (← get).timeBase
  enterInService h (some (now + Config.livenessTime))
  if warning then enterDegraded h

/-- R126: a HEAD_STATUS. -/
def takeHeadStatus (h : Head) (warning : Bool) : Act Unit := do
  let now := (← get).timeBase
  modHead h fun c => { c with lastStatus := now, warning := warning }
  let c ← getHead h
  match c.state with
  | .absent => if 1 ≤ c.capacity then comeUp h warning
  | .failed => comeUp h warning
  | .inService =>
    refreshLiveness h
    if warning then enterDegraded h
  | .degraded =>
    refreshLiveness h
    if !warning then enterInService h (← getHead h).liveness
  | .draining => refreshLiveness h
  | .outOfService => pure ()

/-! ### Head failure (R127, R129, R130) -/

/-- R127, R129: a head that fails: its state and count, its channels released, and on entry to OUT_OF_SERVICE the staged
values applied. -/
def HeadCtx.fail (c : HeadCtx) : HeadCtx :=
  let c := { c with liveness := none, pool := emptyPool, waitQ := [] }
  if c.failures < 3 then { c with state := .failed, failures := c.failures + 1 }
  else { c.applyStaged with state := .outOfService, failures := 0 }

/-- R127, and stage 1 of R129: a head is declared failed, with its event. -/
def declareFailed (h : Head) : Act Unit := do
  usePool h
  let c ← getHead h
  modHead h HeadCtx.fail
  if c.failures < 3 then note .headFailed h.val (c.failures + 1) c.allocated
  else note .headOutOfService h.val 0 c.allocated

/-- R129, stages 3 and 4: the transactions of the head. -/
def closeForFailure (h : Head) : Act Unit := do
  let s ← get
  let targeted := s.txnsWhere fun t => t.target == some h && (t.phase == .reserving || t.phase == .commanded)
  let held := s.txnsWhere fun t => t.source == h && t.phase == .switched
  forEach targeted fun e => withTxn e fun _ => closeUncounted e .targetFailed
  forEach held fun e => withTxn e fun t => do
    useEntry e
    endHold e t .sourceFailed (← getCtx t.slot).media

/-- R130: every call whose serving head is the failed head, in ascending slot order. -/
def orphanCalls (h : Head) : Act Unit := do
  let calls := (← get).slotsWhere fun c => c.state.inCall && c.serving == some h
  forEach calls fun n => withSound n (orphanCall h n)

/-- R127, R129, R130: a head fails through liveness. -/
def failHead (h : Head) : Act Unit := do
  declareFailed h
  emptyQueue h false
  closeForFailure h
  orphanCalls h

/-- LIVENESS_DEADLINE (R127). -/
def livenessTimeout (h : Head) : Act Unit := do
  let s ← get
  match (s.head h).liveness with
  | none => pure ()
  | some d => if passed d s.timeBase then failHead h

/-- LIVENESS_DEADLINE (R127): the liveness deadline of a head passes. -/
def execLivenessDeadline (h : Head) (s : State) : Host.Outcome State Fault Refusal :=
  perform (whenRunning (livenessTimeout h)) s

/-! ### Drain and restore (R132, R134) -/

/-- R132: the drain of a head in service is carried out. -/
def startDrain (h : Head) : Act Unit := do
  modHead h fun c => c.ineligible .draining
  closeReserving h
  emptyQueue h true
  usePool h
  judgeDrain h

/-- R134: a head out of service becomes ABSENT. -/
def restoreAbsent (h : Head) : Act Unit :=
  modHead h fun c => { c.applyStaged with state := .absent, failures := 0 }

/-- R134: a draining head is back in service. -/
def restoreDraining (h : Head) : Act Unit := do
  enterInService h (← getHead h).liveness
  if (← getHead h).warning then enterDegraded h

/-! ### Capacity and guard (R37, R135) -/

/-- R135: a head's provisioning change. -/
def HeadCtx.provision (c : HeadCtx) (capacity guard : Nat) : HeadCtx :=
  if c.state = .absent ∨ c.state = .outOfService then
    { c with capacity := capacity, guard := guard, staged := none }
  else if c.staged.getD (c.capacity, c.guard) = (capacity, guard) then c
  else { c with staged := some (capacity, guard) }

end Sys2Proof.Machine
end

