-- ==== Sys2Proof/Machine/Provisioning.lean ====
section
/-! DEFINITION. Provisioning: the provisioning changes of handset records at Registration (R62 to R67). -/

namespace Sys2Proof.Machine

/-- R66: the named class, paging group, policy and priority over the present ones. -/
def ProvChange.fieldsOver (c : ProvChange) (f : StagedFields) : StagedFields :=
  { cls := c.cls.getD f.cls, group := c.group.getD f.group, policy := c.policy.getD f.policy,
    priority := c.priority.getD f.priority }

/-- The cached class, paging group, policy and priority. -/
def HandsetCtx.cachedFields (x : HandsetCtx) : StagedFields :=
  { cls := x.cls, group := x.group, policy := x.policy, priority := x.priority }

/-- The cached class, paging group, policy and priority replaced. -/
def HandsetCtx.withFields (x : HandsetCtx) (f : StagedFields) : HandsetCtx :=
  { x with cls := f.cls, group := f.group, policy := f.policy, priority := f.priority }

/-- The named values, the identity and the access code included, become the cached values. -/
def HandsetCtx.cacheAll (x : HandsetCtx) (c : ProvChange) : HandsetCtx :=
  { x.withFields (c.fieldsOver x.cachedFields) with
    identity := c.identity.getD x.identity, code := c.code.getD x.code }

/-- R66: the named values applied at once, or staged during a call when one of them would change something (R62). -/
def HandsetCtx.takeFields (x : HandsetCtx) (c : ProvChange) : HandsetCtx :=
  if x.state.inCall then
    let present := x.staged.getD x.cachedFields
    if c.fieldsOver present = present then x else { x with staged := some (c.fieldsOver present) }
  else x.withFields (c.fieldsOver x.cachedFields)

/-- The Identity Map after a slot is given an identity, 0 removing its entry (R59). Where a rebuild has entered the identity
for another slot since Record View's check passed it, both entries stand (DESIGN CHOICE, log entry 26). -/
def setMapEntry (n : Slot) (id : Identity) : Act Unit :=
  modify fun s => { s with idMap := if id = 0 then mapRemove s.idMap n else mapSet s.idMap n id }

/-- R64, step 3: DETACH_ORDER to the serving head, or to all heads for a LOST handset or a head that cannot be
reached. -/
def orderDetach (n : Slot) : Act Unit := do
  let s ← get
  let c := s.ctx n
  let dest := match c.serving with
    | some h => if c.state ≠ .lost ∧ (s.head h).state.reachable then some h else none
    | none => none
  sendAbout .detachOrder dest n fun d => d

/-- R63, R64, step 4: the slot takes its new identity and state, with the values the change names. -/
def takeIdentity (n : Slot) (id : Identity) (c : ProvChange) : Act Unit := do
  setMapEntry n id
  enter n (if id = 0 then .vacant else .provisioned)
  modCtx n fun x => { x.cacheAll c with accessFail := 0 }

/-- R64: teardown of a non-vacant slot. -/
def tearDown (n : Slot) (id : Identity) (c : ProvChange) : Act Unit := do
  let x ← getCtx n
  if x.state.inCall then dropCall n .identity
  if x.state = .queued then leaveAttachQueues n
  if x.state.registered then orderDetach n
  takeIdentity n id c

/-- R65: the access code is written. -/
def takeCode (n : Slot) (c : ProvChange) : Act Unit := do
  match c.code with
  | none => pure ()
  | some code =>
    modCtx n fun x => { x with code := code }
    if (← getCtx n).state = .barred then enterWith n .provisioned fun x => { x with accessFail := 0 }

/-- R67: a change for a QUARANTINED slot. -/
def takeQuarantined (n : Slot) (c : ProvChange) : Act Unit := do
  if c.full then takeIdentity n (c.identity.getD (← getCtx n).identity) c
  else modCtx n fun x => x.cacheAll c

/-- R62: Registration takes a provisioning change. -/
def takeChange (n : Slot) (c : ProvChange) : Act Unit := do
  let x ← getCtx n
  let id := c.identity.getD x.identity
  if x.state = .quarantined then takeQuarantined n c
  else if id ≠ x.identity then
    if x.state = .vacant then takeIdentity n id c else tearDown n id c
  else
    takeCode n c
    modCtx n fun x => x.takeFields c

end Sys2Proof.Machine
end

