-- ==== Sys2Proof/Machine/Triggers.lean ====
section
/-! DEFINITION. Triggers: processed reports and trigger evaluation (R107, R115 to R119), and FORCE_HANDOVER's checks
(R121). -/

namespace Sys2Proof.Machine

/-- R115: the choice, the first listed head that is IN_SERVICE. -/
def State.choice (s : State) (q : Quality) : Option Candidate :=
  q.candidates.find? fun c => (s.head c.head).state.eligible

/-- R116, R148: the DRAIN transactions open from a head. -/
def State.drainsFrom (s : State) (h : Head) : Nat :=
  ((List.finRange 32).filter fun e =>
    match s.txnOf e with
    | some t => t.cause == .drain && t.source == h
    | none => false).length

/-- R116: the drain trigger applies, a choice existing. The Handover Engine reads its table to answer how many DRAIN
transactions are open from the head (R148, R186). -/
def drainTrigger (c : HandsetCtx) (serving : Head) : Act Bool := do
  if (← getHead serving).state = .draining ∧ c.policy ≠ .locked then
    readTable
    return decide ((← get).drainsFrom serving < Config.maxDrains)
  else return false

/-- R117: the urgent trigger applies, a choice existing. -/
def urgentTrigger (c : HandsetCtx) (floor : Nat) : Bool :=
  c.state == .active && c.policy == .auto && decide (c.quality.level.getD 0 < floor)

/-- R118: the quality trigger is judged. -/
def qualityJudged (c : HandsetCtx) : Bool := c.state == .active && c.policy == .auto && c.quality.holdoff.isNone

/-- R119: an opening is requested; a full table is counted as a deferral. -/
def requestOpening (n : Slot) (cause : Cause) (target : Head) : Act Unit := do
  let opened ← openHandover n cause target
  if !opened then modify fun s => { s with deferrals := satInc s.deferrals }

/-- The Candidate List of a slot changed. -/
def modCandidates (n : Slot) (f : List Candidate → List Candidate) : Act Unit :=
  modCtx n fun c => { c with quality := { c.quality with candidates := f c.quality.candidates } }

/-- R118: the quality trigger. -/
def judgeQuality (n : Slot) (e : ClassEntry) (choice : Option Candidate) : Act Unit := do
  let q := (← getCtx n).quality
  match choice with
  | none => modCandidates n clearDwell
  | some x =>
    if x.level < q.level.getD 0 + e.margin then modCandidates n clearDwell
    else
      modCandidates n (countDwell x.head)
      if e.dwell ≤ min 8 (x.dwell + 1) then requestOpening n .quality x.head

/-- R115: trigger evaluation. A table fault that the evaluation itself finds sets CONTAINED and does not stop it (DEDUCED, log
entry 27). -/
def evaluate (n : Slot) (serving : Head) : Act Unit := do
  let s ← get
  let c := s.ctx n
  let e := s.classOf c
  let choice := s.choice c.quality
  match choice with
  | some x =>
    if ← drainTrigger c serving then requestOpening n .drain x.head
    else if urgentTrigger c e.floor then requestOpening n .urgent x.head
    else if qualityJudged c then judgeQuality n e choice
  | none => if qualityJudged c then judgeQuality n e none

/-- R107: a MEASUREMENT through head `h` of a handset that is not LOST. -/
def takeReport (n : Slot) (h : Head) (samples : List (Head × Nat)) : Act Unit := do
  let s ← get
  let c := s.ctx n
  if c.state.inCall ∧ c.serving = some h then
    modCtx n fun c => { c with quality := c.quality.report (s.classOf c).filter h samples }
    if c.state ≠ .moving ∧ !s.contained then evaluate n h

end Sys2Proof.Machine
end

