-- ==== Sys2Proof/Machine/Messages.lean ====
section
/-! DEFINITION. Messages: the handset messages at their owners: attach, detach, calls, keepalives, doze and recovery (R61,
R68 to R71, R77, R80, R84, R86, R92 to R104). -/

namespace Sys2Proof.Machine

/-! ### Windows at work (R92 to R104) -/

/-- R102, R104: the handset may doze: a paging group, and a doze code other than 15. -/
def HandsetCtx.mayDoze (c : HandsetCtx) (e : ClassEntry) : Bool := c.group != 0 && e.doze != 15

/-- PRESENCE_TERMS with the idle terms, to the serving head (R103). -/
def sendIdleTerms (n : Slot) : Act Unit := do
  let s ← get
  let c := s.ctx n
  sendAbout .presenceTerms c.serving n fun d => d.withIdleTerms (s.classOf c)

/-- PRESENCE_TERMS with the doze terms, to the serving head (R103). -/
def sendDozeTerms (n : Slot) : Act Unit := do
  let s ← get
  let c := s.ctx n
  sendAbout .presenceTerms c.serving n fun d => d.withDozeTerms (s.classOf c) c.group

/-- The event DOZE_ENTERED or DOZE_REFUSED with the paging group and the doze code (R102). -/
def noteDoze (kind : EventKind) (n : Slot) : Act Unit := do
  let s ← get
  let c := s.ctx n
  note kind n.val c.group.toNat (s.classOf c).doze

/-- R102, R104: the handset stays in or goes to IDLE with its idle terms, and is told so. -/
def refuseDoze (n : Slot) : Act Unit := do
  sendIdleTerms n
  noteDoze .dozeRefused n

/-- R104: a DOZE window that may not restart gives way to an IDLE window. -/
def leaveDoze (n : Slot) (missed : Bool) : Act Unit := do
  enter n .idle
  modCtx n fun c => { c with presence := { c.presence with missed := missed } }
  refuseDoze n

/-- R91, R104: the window of an IDLE or DOZE handset restarts. -/
def restartWindow (n : Slot) (missed : Bool) : Act Unit := do
  let s ← get
  let c := s.ctx n
  let e := s.classOf c
  if c.state = .doze then
    if c.mayDoze e then setPresence n (dozeWindow e s.timeBase missed) else leaveDoze n missed
  else setPresence n (idleWindow e s.timeBase missed)

/-- R95: PAGE on a miss, with paging group 0 in IDLE and the cached one in DOZE. -/
def pageOnMiss (n : Slot) (dest : Option Head) (c : HandsetCtx) : Act Unit :=
  sendAbout .page dest n fun d => { d with group := if c.state = .doze then c.group else 0 }

/-- R95: the expiry of an IDLE or DOZE window. -/
def expire (n : Slot) : Act Unit := do
  let s ← get
  let c := s.ctx n
  if c.presence.missed then
    enter n .lost
    pageOnMiss n none c
    note .lost n.val (headCode c.serving) DropCause.missed.code
  else if c.state = .doze && !c.mayDoze (s.classOf c) then
    pageOnMiss n c.serving c
    note .missed n.val (headCode c.serving) 0
    leaveDoze n true
  else
    restartWindow n true
    pageOnMiss n c.serving c
    note .missed n.val (headCode c.serving) 0

/-- R92, R102: a message of an IDLE or DOZE handset is judged by its reporting head. Answers whether that head is
DRAINING. -/
def judgeHead (n : Slot) (h : Head) : Act Bool := do
  if (← getHead h).state = .draining then
    sendAbout .reselect (some h) n fun d => d
    return true
  else
    modCtx n fun c => { c with serving := some h }
    return false

/-- R93, R94: a keepalive is judged in the running window. -/
def judgeKeepalive (n : Slot) (h : Head) : Act Unit := do
  let s ← get
  let p := (s.ctx n).presence
  let elapsed := (s.timeBase - p.start.getD 0).toNat
  if p.mode = .window ∧ elapsed < (p.period.getD 0).toNat / 2 then
    if p.early then expire n
    else
      setPresence n { p with early := true }
      note .earlyKeepalive n.val h.val elapsed
  else restartWindow n false

/-- R92: a KEEPALIVE of a handset in IDLE or DOZE. -/
def takeKeepalive (n : Slot) (h : Head) : Act Unit := do
  let _ ← judgeHead n h
  judgeKeepalive n h

/-- R102: a DOZE_REQUEST of a handset in IDLE or DOZE. -/
def takeDozeRequest (n : Slot) (h : Head) : Act Unit := do
  let draining ← judgeHead n h
  if !draining then
    let s ← get
    let c := s.ctx n
    if c.mayDoze (s.classOf c) then
      if c.state = .doze then
        restartWindow n false
        sendDozeTerms n
      else
        enter n .doze
        sendDozeTerms n
        noteDoze .dozeEntered n
    else
      if c.state = .doze then enter n .idle else restartWindow n false
      refuseDoze n

/-- R100: recovery of a LOST handset at head `h`, by a message of the given kind. -/
def recover (n : Slot) (h : Head) (kind : UplinkKind) : Act Unit := do
  enterWith n .idle fun c => { c with serving := some h }
  note .recovered n.val h.val kind.code

/-! ### Attach (R68 to R71) -/

/-- R68, R69, R70: REJECT_ATTACH. -/
def rejectAttach (h : Head) (id : Identity) (slot : Option Slot) (reason : RejectReason) : Act Unit :=
  attachReply .rejectAttach h id slot fun d => { d with reason := BitVec.ofNat 8 reason.code }

/-- R70: the handset is barred. -/
def bar (n : Slot) (h : Head) (id : Identity) : Act Unit := do
  let st := (← getCtx n).state
  if st.inCall then dropCall n .barred
  if st = .queued then leaveAttachQueues n
  enterWith n .barred fun c => { c with accessFail := 0 }
  rejectAttach h id (some n) .barred
  note .barred n.val h.val 0

/-- R71: an ATTACH whose code matches. -/
def takeMatching (n : Slot) (h : Head) (id : Identity) : Act Unit := do
  let c ← getCtx n
  match c.state with
  | .offered => acceptAttach h n id
  | .queued =>
    if c.admissionHead ≠ some h then
      leaveAttachQueues n
      admitAt n h id
  | .active | .moving | .pinned =>
    dropCall n .reattach
    admitAt n h id
  | .provisioned | .idle | .doze | .lost => admitAt n h id
  | .vacant | .barred | .quarantined => pure ()

/-- R69, R70: an ATTACH for a slot. One whose code matches at a VACANT slot goes no further (log entry 13). -/
def takeAttach (n : Slot) (h : Head) (id : Identity) (code : BitVec 16) : Act Unit := do
  let c ← getCtx n
  match c.state with
  | .barred => rejectAttach h id (some n) .barred
  | .quarantined => rejectAttach h id (some n) .recordFault
  | _ =>
    if c.code = code then
      modCtx n fun c => { c with accessFail := 0 }
      takeMatching n h id
    else if c.accessFail < 2 then
      modCtx n fun c => { c with accessFail := c.accessFail + 1 }
      rejectAttach h id (some n) .badCode
    else bar n h id

/-- R77: an ATTACH_CONFIRM. -/
def takeConfirm (n : Slot) (h : Head) : Act Unit := do
  if (← getCtx n).state = .offered then
    enterWith n .idle fun c => { c with serving := some h }
    note .attached n.val h.val (← getCtx n).cls.toNat

/-! ### Calls and detach (R80, R81, R84) -/

/-- R80: a CALL_REQUEST of a handset in IDLE or DOZE. -/
def takeCallRequest (n : Slot) (h : Head) : Act Unit := do
  modCtx n fun c => { c with serving := some h }
  match ← newCallChannel n h with
  | some ch =>
    enterWith n .active fun c => { c with channel := some ch, media := some h }
    assignChannel n h ch
    note .callStarted n.val h.val ch.val
  | none =>
    sendAbout .callReject (some h) n fun d => d
    note .callRefused n.val h.val 0

/-- R84, R85: DETACHED, with the state left. -/
def noteDetached (n : Slot) (left : HandsetState) (origin : ReleaseOrigin) : Act Unit :=
  note .detached n.val left.code origin.code

/-- R84, R85: the call of a handset that is being detached is released, CALL_ENDED after its channels. -/
def releaseForDetach (n : Slot) (origin : ReleaseOrigin) : Act Unit := do
  endCall n true
  note .callEnded n.val (headCode (← getCtx n).serving) origin.code

/-- R84: a DETACH. -/
def takeDetach (n : Slot) : Act Unit := do
  let st := (← getCtx n).state
  match st with
  | .idle | .doze | .offered | .lost =>
    enter n .provisioned
    noteDetached n st .handset
  | .queued =>
    leaveAttachQueues n
    enter n .provisioned
    noteDetached n st .handset
  | .active | .moving | .pinned =>
    releaseForDetach n .handset
    enter n .provisioned
    noteDetached n st .handset
  | .vacant | .provisioned | .barred | .quarantined => pure ()

/-! ### Every message (R61, R86, R97) -/

/-- R61, R97: the sighting and the refresh of call presence. -/
def HandsetCtx.sighted (c : HandsetCtx) (now : Time) : HandsetCtx :=
  let c := if c.state = .barred ∨ c.state = .quarantined then c else { c with lastSeen := now }
  if c.state.inCall then
    { c with presence := { c.presence with deadline := some (now + Config.callPresenceTime) } }
  else c

/-- R86: DETACH_ORDER to the reporting head. -/
def orderAway (n : Slot) (h : Head) : Act Unit := sendAbout .detachOrder (some h) n fun d => d

/-- R86: a state that is waiting to be registered, in which an expected message meets a DETACH_ORDER. -/
def HandsetState.unattached : HandsetState → Bool
  | .provisioned | .queued | .offered => true
  | _ => false

/-- R86: a message, other than ATTACH, of a handset that is not BARRED, QUARANTINED, VACANT or LOST, at its owner;
`recovered` says that it has just recovered the handset (R100). -/
def takeBody (n : Slot) (h : Head) (recovered : Bool) (body : HandsetMsg) : Act Unit := do
  let st := (← getCtx n).state
  match body with
  | .attach _ => pure ()
  | .attachConfirm => takeConfirm n h
  | .detach => takeDetach n
  | .keepalive =>
    if st.unattached then orderAway n h
    else if st.inCall then pure ()
    else if recovered then
      if (← getHead h).state = .draining then sendAbout .reselect (some h) n fun d => d
    else takeKeepalive n h
  | .dozeRequest =>
    if st.unattached then orderAway n h else if st.inCall then pure () else takeDozeRequest n h
  | .callRequest =>
    if st.unattached then orderAway n h else if st.inCall then pure () else takeCallRequest n h
  | .callRelease =>
    if st.unattached then orderAway n h else if st.inCall then releaseCall n .handset
  | .measurement samples => if st.unattached then orderAway n h else takeReport n h samples
  | .access => takeAccess n h
  | .revert => takeRevert n h
  | .channelRefused ch => takeChannelRefused n h ch

/-- A handset message handed over with its slot, the context being sound; the time of its sighting is the time base at its
dispatch (R50, R61, R86, R97, R100). -/
def handleMessage (n : Slot) (h : Head) (id : Identity) (body : HandsetMsg) (dispatched : Time) : Act Unit := do
  modCtx n fun c => c.sighted dispatched
  match body with
  | .attach code => takeAttach n h id code
  | _ =>
    match (← getCtx n).state with
    | .vacant | .barred | .quarantined => pure ()
    | .lost =>
      recover n h body.kind
      takeBody n h true body
    | _ => takeBody n h false body

/-! ### Dispatch of the Uplink Intake Queue (R48 to R50) -/

/-- R68: an ATTACH with no slot. -/
def rejectUnknown (h : Head) (id : Identity) : Act Unit := rejectAttach h id none .unknown

/-- R49: an identity that the map does not hold. -/
def takeUnknown (h : Head) (id : Identity) (body : HandsetMsg) : Act Unit := do
  modify fun s => { s with unknownIds := satInc s.unknownIds }
  match body with
  | .attach _ => rejectUnknown h id
  | _ => pure ()

/-- R49, R50: the oldest uplink message is taken by its owner. Answers false if it waits for a rebuild. -/
def takeUplink (m : UplinkMsg) : Act Bool := do
  match m with
  | .headStatus h warning =>
    takeHeadStatus h warning
    return true
  | .handset h id body =>
    match ← lookupIdentity id with
    | none =>
      takeUnknown h id body
      return true
    | some n =>
      let now := (← get).timeBase
      if ← contextSound n (some (.uplink m now)) then
        handleMessage n h id body now
        return true
      else return false

/-- The oldest uplink message leaves its queue, its owner having taken it (R44). -/
def popUplink : Act Unit := modify fun s => { s with uplink := s.uplink.tail }

/-- An uplink message waits for a rebuild. -/
def State.uplinkWaits (s : State) : Bool :=
  s.rebuilds.any fun r => r.waiting.any fun w => match w with | .uplink _ _ => true | _ => false

/-- R48: the oldest entry of the Uplink Intake Queue is dispatched, if it is of the kind and is not at its owner
already. -/
def dispatchUplink (k : UplinkKind) : Act Unit := whenRunning do
  let s ← get
  match s.uplink with
  | [] => pure ()
  | m :: _ =>
    if m.kind = k ∧ !s.uplinkWaits then
      if ← takeUplink m then popUplink

/-- ATTACH (R70) -/
def execAttach (s : State) : Host.Outcome State Fault Refusal := perform (dispatchUplink .attach) s

/-- ATTACH_CONFIRM (R77) -/
def execAttachConfirm (s : State) : Host.Outcome State Fault Refusal := perform (dispatchUplink .attachConfirm) s

/-- DETACH (R84) -/
def execDetach (s : State) : Host.Outcome State Fault Refusal := perform (dispatchUplink .detach) s

/-- KEEPALIVE (R92) -/
def execKeepalive (s : State) : Host.Outcome State Fault Refusal := perform (dispatchUplink .keepalive) s

/-- DOZE_REQUEST (R102) -/
def execDozeRequest (s : State) : Host.Outcome State Fault Refusal := perform (dispatchUplink .dozeRequest) s

/-- CALL_REQUEST (R80) -/
def execCallRequest (s : State) : Host.Outcome State Fault Refusal := perform (dispatchUplink .callRequest) s

/-- CALL_RELEASE (R81) -/
def execCallRelease (s : State) : Host.Outcome State Fault Refusal := perform (dispatchUplink .callRelease) s

/-- MEASUREMENT (R107) -/
def execMeasurement (s : State) : Host.Outcome State Fault Refusal := perform (dispatchUplink .measurement) s

/-- ACCESS (R167) -/
def execAccess (s : State) : Host.Outcome State Fault Refusal := perform (dispatchUplink .access) s

/-- REVERT (R154) -/
def execRevert (s : State) : Host.Outcome State Fault Refusal := perform (dispatchUplink .revert) s

/-- CHANNEL_REFUSED (R155) -/
def execChannelRefused (s : State) : Host.Outcome State Fault Refusal := perform (dispatchUplink .channelRefused) s

/-- HEAD_STATUS (R126) -/
def execHeadStatus (s : State) : Host.Outcome State Fault Refusal := perform (dispatchUplink .headStatus) s

/-! ### The deadlines of Presence -/

/-- A deadline of a slot's presence context passes in one of the given modes (R88). -/
def presenceDeadline (n : Slot) (modes : List PresenceMode) (work : Act Unit) : Act Unit := do
  let s ← get
  let p := (s.ctx n).presence
  match p.deadline with
  | none => pure ()
  | some d => if modes.contains p.mode && passed d s.timeBase then withSound n work

/-- CALL_PRESENCE_DEADLINE (R98). -/
def callPresenceExpired (n : Slot) : Act Unit := do
  dropCall n .callPresence
  enter n .lost
  note .lost n.val (headCode (← getCtx n).serving) DropCause.callPresence.code

/-- GRACE_DEADLINE (R101). -/
def graceExpired (n : Slot) : Act Unit := do
  let serving := (← getCtx n).serving
  enter n .provisioned
  note .lostExpired n.val (headCode serving) 0

/-- WINDOW_DEADLINE (R95): the deadline of a slot's IDLE or DOZE window passes. -/
def execWindowDeadline (n : Slot) (s : State) : Host.Outcome State Fault Refusal :=
  perform (whenRunning (presenceDeadline n [.window, .timeout] (expire n))) s

/-- CALL_PRESENCE_DEADLINE (R98): the call presence deadline of a slot passes. -/
def execCallPresenceDeadline (n : Slot) (s : State) : Host.Outcome State Fault Refusal :=
  perform (whenRunning (presenceDeadline n [.call] (callPresenceExpired n))) s

/-- GRACE_DEADLINE (R101): the grace deadline of a slot passes. -/
def execGraceDeadline (n : Slot) (s : State) : Host.Outcome State Fault Refusal :=
  perform (whenRunning (presenceDeadline n [.grace] (graceExpired n))) s

end Sys2Proof.Machine
end

