-- ==== Sys2Proof/Machine/Requests.lean ====
section
/-! DEFINITION. Requests: the requests of the call processor at their owners (R51, R52, R81, R83, R85, R121, R132, R134,
R169, R183, R188). -/

namespace Sys2Proof.Machine

/-- R52: a request is refused. -/
def refuseRequest (r : Request) (reason : RefusalReason) : Act Unit :=
  note .requestRefused r.subject r.kind.code reason.code

/-- R83: PAGE. -/
def takePage (n : Slot) : Act Unit := do
  let c ← getCtx n
  match c.state with
  | .idle => sendAbout .page c.serving n fun d => d
  | .doze => sendAbout .page c.serving n fun d => { d with group := c.group }
  | .lost => sendAbout .page none n fun d => d
  | .active | .moving | .pinned => refuseRequest (.page n) .busy
  | _ => refuseRequest (.page n) .notRegistered

/-- R81: RELEASE_CALL. -/
def takeReleaseCall (n : Slot) : Act Unit := do
  match (← getCtx n).state with
  | .active | .moving | .pinned => releaseCall n .request
  | .idle | .doze | .lost => refuseRequest (.releaseCall n) .badState
  | _ => refuseRequest (.releaseCall n) .notRegistered

/-- R121: the first of the checks 1 to 7 of FORCE_HANDOVER that fails. -/
def State.forceRefusal (s : State) (n : Slot) (target : Head) : Option RefusalReason :=
  let c := s.ctx n
  if s.contained then some .contained
  else if !c.state.registered then some .notRegistered
  else if !c.state.inCall then some .badState
  else if c.state = .moving then some .busy
  else if c.policy = .locked then some .policy
  else if c.serving = some target then some .targetIneligible
  else if !(s.head target).state.eligible then some .targetIneligible
  else none

/-- R121: FORCE_HANDOVER. Check 8 is the search of its opening for a free entry (R149). -/
def takeForceHandover (n : Slot) (target : Head) : Act Unit := do
  match (← get).forceRefusal n target with
  | some reason => refuseRequest (.forceHandover n target) reason
  | none =>
    if !(← openHandover n .forced target) then refuseRequest (.forceHandover n target) .tableFull

/-- R169: UNPIN. -/
def takeUnpin (n : Slot) : Act Unit := do
  match (← getCtx n).state with
  | .pinned => returnHandset n .active 0
  | .moving => refuseRequest (.unpin n) .busy
  | .active | .idle | .doze | .lost => refuseRequest (.unpin n) .badState
  | _ => refuseRequest (.unpin n) .notRegistered

/-- R85: DETACH_HANDSET. -/
def takeDetachHandset (n : Slot) : Act Unit := do
  let st := (← getCtx n).state
  if st.registered then
    if st.inCall then releaseForDetach n .request
    orderDetach n
    enter n .provisioned
    noteDetached n st .request
  else refuseRequest (.detachHandset n) .notRegistered

/-- R132: DRAIN_HEAD. -/
def takeDrainHead (h : Head) : Act Unit := do
  let c ← getHead h
  match c.state with
  | .inService | .degraded => startDrain h
  | .absent => refuseRequest (.drainHead h) (if c.capacity = 0 then .noSuchHead else .badState)
  | .draining | .failed | .outOfService => refuseRequest (.drainHead h) .badState

/-- R134: RESTORE_HEAD. -/
def takeRestoreHead (h : Head) : Act Unit := do
  let c ← getHead h
  match c.state with
  | .outOfService => restoreAbsent h
  | .draining => restoreDraining h
  | .absent => refuseRequest (.restoreHead h) (if c.capacity = 0 then .noSuchHead else .badState)
  | .inService | .degraded | .failed => refuseRequest (.restoreHead h) .badState

/-- R183: CLEAR_FAULT_LIST. -/
def takeClearFaultList : Act Unit := modify fun s => { s with faultList := [], corrected := 0 }

/-- R188: ACK_FATAL. -/
def takeAckFatal : Act Unit := do
  if (← get).fatalPending then modify fun s => { s with fatalPending := false }
  else refuseRequest .ackFatal .nothingPending

/-- The request at its owner (R51). -/
def ownRequest (r : Request) : Act Unit :=
  match r with
  | .page n => takePage n
  | .releaseCall n => takeReleaseCall n
  | .forceHandover n target => takeForceHandover n target
  | .unpin n => takeUnpin n
  | .detachHandset n => takeDetachHandset n
  | .drainHead h => takeDrainHead h
  | .restoreHead h => takeRestoreHead h
  | .clearFaultList => takeClearFaultList
  | .ackFatal => takeAckFatal

/-- R51: a request, its slot's context being sound: refused for a VACANT slot, else handed to its owner. -/
def handleRequest (r : Request) : Act Unit := do
  match r.slot? with
  | none => ownRequest r
  | some n => if (← getCtx n).state = .vacant then refuseRequest r .noSuchHandset else ownRequest r

/-- R51: the oldest request is taken. Answers false if it waits for a rebuild. -/
def takeRequest (r : Request) : Act Bool := do
  match r.slot? with
  | none =>
    handleRequest r
    return true
  | some n =>
    if ← contextSound n (some (.request r)) then
      handleRequest r
      return true
    else return false

/-- The oldest request leaves its queue (R44). -/
def popRequest : Act Unit := modify fun s => { s with requests := s.requests.tail }

/-- A request waits for a rebuild. -/
def State.requestWaits (s : State) : Bool :=
  s.rebuilds.any fun r => r.waiting.any fun w => match w with | .request _ => true | _ => false

/-- R48: the oldest entry of the Request Intake Queue is dispatched, if it is of the kind and is not at its owner
already. -/
def dispatchRequest (k : RequestKind) : Act Unit := whenRunning do
  let s ← get
  match s.requests with
  | [] => pure ()
  | r :: _ =>
    if r.kind = k ∧ !s.requestWaits then
      if ← takeRequest r then popRequest

/-- PAGE (R83) -/
def execPage (s : State) : Host.Outcome State Fault Refusal := perform (dispatchRequest .page) s

/-- RELEASE_CALL (R81) -/
def execReleaseCall (s : State) : Host.Outcome State Fault Refusal := perform (dispatchRequest .releaseCall) s

/-- FORCE_HANDOVER (R121) -/
def execForceHandover (s : State) : Host.Outcome State Fault Refusal := perform (dispatchRequest .forceHandover) s

/-- UNPIN (R169) -/
def execUnpin (s : State) : Host.Outcome State Fault Refusal := perform (dispatchRequest .unpin) s

/-- DETACH_HANDSET (R85) -/
def execDetachHandset (s : State) : Host.Outcome State Fault Refusal := perform (dispatchRequest .detachHandset) s

/-- DRAIN_HEAD (R132) -/
def execDrainHead (s : State) : Host.Outcome State Fault Refusal := perform (dispatchRequest .drainHead) s

/-- RESTORE_HEAD (R134) -/
def execRestoreHead (s : State) : Host.Outcome State Fault Refusal := perform (dispatchRequest .restoreHead) s

/-- CLEAR_FAULT_LIST (R183) -/
def execClearFaultList (s : State) : Host.Outcome State Fault Refusal := perform (dispatchRequest .clearFaultList) s

/-- ACK_FATAL (R188) -/
def execAckFatal (s : State) : Host.Outcome State Fault Refusal := perform (dispatchRequest .ackFatal) s

end Sys2Proof.Machine
end

