-- ==== Sys2Proof/Machine/Records.lean ====
section
/-! DEFINITION. Records: composed reads, record writes, merges and the media head write (chapter Record Views). -/

namespace Sys2Proof.Machine

/-! ### Where a transaction falls (R22) -/

/-- The records an array's transaction reaches with the given addresses: the record number and the offset of each. -/
def recordOffsets (base size : Nat) (addrs : List Nat) : List (Nat × Nat) :=
  addrs.map fun a => ((a - base) / size, (a - base) % size)

/-- The record numbers of a list, each once, in order. -/
def recordNumbers (xs : List (Nat × Nat)) : List Nat := (xs.map Prod.fst).dedup

/-- The bytes a write has for the `size` bytes from an address up. -/
def bytesFor (t : Transaction) (addr size : Nat) : List (Option Byte) := (List.range size).map fun i => writtenAt t (addr + i)

/-- The enabled bytes of a run from `lo` to `hi - 1`. -/
def anyEnabled (w : List (Option Byte)) (lo hi : Nat) : Bool := ((w.take hi).drop lo).any Option.isSome

/-- R28: the beats of a run: untouched, partial or whole. -/
def beatTouched (w : List (Option Byte)) (b : Nat) : Bool := anyEnabled w (8 * b) (8 * b + 8)
def beatWhole (w : List (Option Byte)) (b : Nat) : Bool := ((w.drop (8 * b)).take 8).all Option.isSome
def beatPartial (w : List (Option Byte)) (b : Nat) : Bool := beatTouched w b && !beatWhole w b

/-- The provisioned beats of a handset record. -/
def provisionedBeats : List Nat := [0, 1, 2, 3]

/-- R28: a full rewrite. -/
def fullRewrite (w : List (Option Byte)) : Bool := provisionedBeats.all (beatWhole w)

/-! ### Composed reads (R23 to R26) -/

/-- Byte pair of candidate `i` (R24). -/
def candidatePair (cs : List Candidate) (i : Nat) : List Byte :=
  match cs[i]? with
  | some c => leBytes 1 c.head.val ++ leBytes 1 c.level
  | none => [0xFF, 0]

/-- R24: live beats 4 to 6 of a handset record as 24 bytes. -/
def HandsetCtx.liveBytes (c : HandsetCtx) : List Byte :=
  leBytes 1 c.state.code ++ leBytes 1 (headCode c.serving) ++ leBytes 1 (chanCode c.channel)
    ++ leBytes 1 (headCode c.media) ++ leBytes 1 (c.quality.level.getD 0) ++ leBytes 1 c.flags
    ++ leBytes 1 ((c.txn.map fun p => p.1.val).getD 0xFF) ++ leBytes 1 c.quality.candidates.length
    ++ candidatePair c.quality.candidates 0 ++ candidatePair c.quality.candidates 1
    ++ candidatePair c.quality.candidates 2 ++ candidatePair c.quality.candidates 3
    ++ leBytes 1 c.accessFail ++ leBytes 1 c.hoFail ++ [0, 0] ++ leBytes 4 c.lastSeen.toNat

/-- R26: live beats 1 to 3 of a head record as 24 bytes. -/
def headLiveBytes (h : HeadCtx) (a : AttachHead) : List Byte :=
  let staged := h.staged.getD (h.capacity, h.guard)
  leBytes 1 h.state.code ++ leBytes 1 h.free ++ leBytes 1 h.capacity ++ leBytes 1 h.guard
    ++ leBytes 1 staged.1 ++ leBytes 1 staged.2 ++ leBytes 1 h.flags ++ leBytes 1 h.failures
    ++ leBytes 1 h.waitQ.length ++ leBytes 1 a.queue.length ++ leBytes 1 a.credits ++ [0]
    ++ leBytes 4 h.lastStatus.toNat ++ List.replicate 8 0

/-- A CP read's reading of one record, with the provisioned beats it covers (R23). -/
def cpReading (n : Slot) (image : List Byte) (beats : List Nat) : Reading :=
  { slot := n, source := .cpRead, image := image, beats := beats, overtaken := [], replaced := [], rewritten := false }

/-- R23: beat `b` of a handset record as a CP read returns it, from the reading and the context. Beat 7 is returned as memory
held it at the reading, without the marker byte that the same reading writes (DESIGN CHOICE, log entry 19). -/
def composedBeat (r : Reading) (c : HandsetCtx) (b : Nat) : Beat :=
  if b < 4 then r.data b
  else if b < 7 then beatAt c.liveBytes (8 * (b - 4))
  else beatAt r.image 56

/-- Every slot's context is sound; the CP's transaction waits for the rebuild of the first that is not (R184). -/
def allSound (t : Transaction) : List Slot → Act Bool
  | [] => return true
  | n :: rest => do
    if ← contextSound n (some (.cp t)) then allSound t rest else return false

/-- The slots and beats a transaction of the Handset Record Array covers. -/
def State.handsetBeats (s : State) (t : Transaction) : List (Slot × Nat) :=
  (recordOffsets (s.handsetAddr 0) 64 (beatAddrs t)).filterMap fun p => (toSlot? p.1).map fun n => (n, p.2 / 8)

/-- The readings of a CP read, one for each record it covers. -/
def State.cpReadings (s : State) (beats : List (Slot × Nat)) : List Reading :=
  ((beats.map Prod.fst).dedup).map fun n =>
    cpReading n (s.recordImage n) ((beats.filter fun p => p.1 == n && decide (p.2 < 4)).map Prod.snd)

/-- The data of a CP read of the Handset Record Array. -/
def State.composed (s : State) (readings : List Reading) (beats : List (Slot × Nat)) : List Beat :=
  beats.map fun p =>
    match readings.find? fun r => r.slot == p.1 with
    | some r => composedBeat r (s.ctx p.1) p.2
    | none => 0

/-- R23, R25: a CP read of the Handset Record Array. -/
def takeHandsetRead (t : Transaction) : Act Unit := do
  let beats := (← get).handsetBeats t
  if ← allSound t (beats.map Prod.fst).dedup then
    let readings := (← get).cpReadings beats
    forEach (readings.filter fun r => !r.beats.isEmpty) checkReading
    let data := (← get).composed readings beats
    answer t.initiator (if readings.any fun r => r.marked || r.bad then .donePoisoned data else .done data)

/-- R26: beat `b` of a head record as a CP read returns it. -/
def State.headBeat (s : State) (h : Head) (b : Nat) : Beat :=
  if b = 0 then s.mem.readBeat (s.headAddr h) else beatAt (headLiveBytes (s.head h) (s.att h)) (8 * (b - 1))

/-- R26: the data of a CP read of the Head Record Array. -/
def State.headData (s : State) (t : Transaction) : List Beat :=
  (recordOffsets (s.headAddr 0) 32 (beatAddrs t)).map fun p =>
    match toHead? p.1 with
    | some h => s.headBeat h (p.2 / 8)
    | none => 0

/-- R26: the heads whose free count (beat 1) a transaction of the Head Record Array covers. -/
def State.poolsRead (s : State) (t : Transaction) : List Head :=
  (recordOffsets (s.headAddr 0) 32 (beatAddrs t)).filterMap fun p => if p.2 / 8 = 1 then toHead? p.1 else none

/-- R26: a CP read of the Head Record Array; Head Manager reads the allocated set of each head whose free count it shows
(R186). -/
def takeHeadRead (t : Transaction) : Act Unit := do
  forEach ((← get).poolsRead t) usePool
  answer t.initiator (.done ((← get).headData t))

/-! ### Provisioned writes (R28 to R34) -/

/-- R34: the change that a write hands over: the enabled bytes of the record, and its provisioned bytes after the
write. -/
def changeOf (w : List (Option Byte)) (d : List Byte) : ProvChange :=
  let named (lo hi : Nat) : Bool := anyEnabled w lo hi
  { identity := if named 0 5 then some (BitVec.ofNat 40 (fieldAt d 0 5)) else none
    code := if named 8 10 then some (BitVec.ofNat 16 (fieldAt d 8 2)) else none
    cls := if named 5 6 then some (BitVec.ofNat 3 (byteAt d 5).toNat) else none
    group := if named 6 7 then some (BitVec.ofNat 4 (byteAt d 6).toNat) else none
    policy := if named 7 8 then some (policyOf (byteAt d 7)) else none
    priority := if named 10 11 then some (BitVec.ofNat 2 (byteAt d 10).toNat) else none
    full := fullRewrite w }

/-- R30: the one downstream write of a provisioned write, laid from the start of the record: the bytes of every written
beat, its check byte, and the marker of a full rewrite. -/
def downstreamBytes (w : List (Option Byte)) (d : List Byte) : List (Option Byte) :=
  (List.range 64).map fun i =>
    if i < 32 then if beatTouched w (i / 8) then some (byteAt d i) else none
    else if 56 ≤ i ∧ i < 60 then
      if beatTouched w (i - 56) then some (checkByte (beatAt d (8 * (i - 56)))) else none
    else if i = markerOffset ∧ fullRewrite w then some 0
    else none

/-- R175, R178: a CP write that Record View has taken is noted for the scrub read in progress. -/
def noteTaken (n : Slot) (w : List (Option Byte)) : Act Unit :=
  modify fun s => { s with
    scrubRead := s.scrubRead.map fun r =>
      if r.slot = n then { r with
        taken := r.taken ++ provisionedBeats.filter (beatTouched w), rewritten := r.rewritten || fullRewrite w }
      else r }

/-- R29: the new identity is held by another slot. -/
def identityHeld (n : Slot) (w : List (Option Byte)) (d : List Byte) : Act Bool := do
  if anyEnabled w 0 5 then
    match ← lookupIdentity (BitVec.ofNat 40 (fieldAt d 0 5)) with
    | some m => return m != n
    | none => return false
  else return false

/-- R29, R30: the identity check, and the write that goes to memory. -/
def finishProvisioned (n : Slot) (w : List (Option Byte)) (d : List Byte) : Act Unit := do
  if ← identityHeld n w d then
    modify fun s => { s with merge := none }
    refuse .cp
  else modify fun s => { s with
    merge := none
    recordWrite := some (.handset n (downstreamBytes w d) (provisionedBeats.filter (beatTouched w)) (changeOf w d)) }

/-- R28: a provisioned write of a slot's record. -/
def takeProvisioned (n : Slot) (t : Transaction) (w : List (Option Byte)) : Act Unit := do
  if (← getCtx n).poisoned && !fullRewrite w then refuse t.initiator
  else if provisionedBeats.any (beatPartial w) then
    noteTaken n w
    modify fun s => { s with merge := some (.handset n t) }
  else
    finishProvisioned n w (w.map fun b => b.getD 0)
    if (← get).recordWrite.isSome then noteTaken n w

/-- R35: a media head write. -/
def takeMediaHead (n : Slot) (t : Transaction) (value : Byte) : Act Unit := do
  if ← contextSound n (some (.cp t)) then
    let c ← getCtx n
    if value.toNat = headCode c.serving then
      match c.serving with
      | some h => if c.state.inCall then mediaAcknowledgement n h
      | none => pure ()
      answer t.initiator (.done [])
    else refuse t.initiator

/-- The offset of the media head byte (spec/11, HANDSET RECORD). -/
def mediaOffset : Nat := 35

/-- R27: a CP write to one handset record, sorted by its enabled bytes. -/
def sortHandsetWrite (n : Slot) (t : Transaction) : Act Unit := do
  let s ← get
  let w := bytesFor t (s.handsetAddr n) 64
  if anyEnabled w 56 64 || anyEnabled w 32 mediaOffset || anyEnabled w (mediaOffset + 1) 56 then refuse t.initiator
  else match (w[mediaOffset]?).join with
    | some value => if anyEnabled w 0 32 then refuse t.initiator else takeMediaHead n t value
    | none =>
      if s.rebuilding n then
        noteTaken n w
        waitForRebuild n (some (.cp t))
      else takeProvisioned n t w

/-- R22: a CP write to the Handset Record Array. -/
def takeHandsetWrite (t : Transaction) : Act Unit := do
  let s ← get
  match recordNumbers (recordOffsets (s.handsetAddr 0) 64 ((enabled t).map Prod.fst)) with
  | [] => answer t.initiator (.done [])
  | [r] =>
    match toSlot? r with
    | some n => sortHandsetWrite n t
    | none => refuse t.initiator
  | _ => refuse t.initiator

/-- R23, R27: a CP transaction to the Handset Record Array. -/
def takeHandsetRecord (t : Transaction) : Act Unit := if t.isRead then takeHandsetRead t else takeHandsetWrite t

/-- R31: a beat of a merge after the write: the enabled bytes over the beat as read, corrected if it could be. -/
def mergedBytes (r : Reading) (w : List (Option Byte)) : List Byte :=
  (List.range 32).map fun i => ((w[i]?).join).getD (byteAt (beatBytes (r.data (i / 8))) (i % 8))

/-- R31: a merge's reading of the record. -/
def mergeReading (n : Slot) (image : List Byte) (w : List (Option Byte)) : Reading :=
  { slot := n, source := .merge, image := image, beats := provisionedBeats.filter (beatPartial w), overtaken := []
    replaced := [], rewritten := false }

/-- The merge in progress ends with a refusal. -/
def refuseMerge : Act Unit := do
  modify fun s => { s with merge := none }
  refuse .cp

/-- R31: the read of a handset record's merge completes. -/
def finishMerge (n : Slot) (t : Transaction) : Act Unit := do
  let s ← get
  let w := bytesFor t (s.handsetAddr n) 64
  let r := mergeReading n (s.recordImage n) w
  checkReading r
  if r.bad then refuseMerge
  else if (← getCtx n).poisoned && !fullRewrite w then refuseMerge
  else finishProvisioned n w (mergedBytes r w)

/-! ### Writes to the head record (R36, R37) -/

/-- R36: the range check, and the write that goes to memory. -/
def finishHeadWrite (h : Head) (bytes : List (Option Byte)) (capacity guard : Nat) : Act Unit :=
  if 12 < capacity ∨ 4 < guard ∨ capacity < guard then refuseMerge
  else modify fun s => { s with merge := none, recordWrite := some (.head h bytes capacity guard) }

/-- R36: a CP write to one head record. -/
def sortHeadWrite (h : Head) (t : Transaction) : Act Unit := do
  let w := bytesFor t ((← get).headAddr h) 32
  if anyEnabled w 8 32 then refuse t.initiator
  else if beatWhole w 0 then
    let d := w.map fun b => b.getD 0
    finishHeadWrite h (w.take 8) (byteAt d 0).toNat (byteAt d 1).toNat
  else modify fun s => { s with merge := some (.head h t) }

/-- R22, R36: a CP write to the Head Record Array. -/
def takeHeadWrite (t : Transaction) : Act Unit := do
  let s ← get
  match recordNumbers (recordOffsets (s.headAddr 0) 32 ((enabled t).map Prod.fst)) with
  | [] => answer t.initiator (.done [])
  | [r] =>
    match toHead? r with
    | some h => sortHeadWrite h t
    | none => refuse t.initiator
  | _ => refuse t.initiator

/-- R26, R36: a CP transaction to the Head Record Array. -/
def takeHeadRecord (t : Transaction) : Act Unit := if t.isRead then takeHeadRead t else takeHeadWrite t

/-- R36: the read of a head record's merge completes. -/
def finishHeadMerge (h : Head) (t : Transaction) : Act Unit := do
  let s ← get
  let w := bytesFor t (s.headAddr h) 8
  let old := s.mem.readBytes (s.headAddr h) 8
  let d := (List.range 8).map fun i => ((w[i]?).join).getD (byteAt old i)
  finishHeadWrite h (d.map some) (byteAt d 0).toNat (byteAt d 1).toNat

/-! ### Memory has taken a record write (R30, R33, R34, R37) -/

/-- R33, R34: a handset record's write is in memory: the notice, the change, and the answer. -/
def handsetWriteTaken (n : Slot) (c : ProvChange) : Act Unit := do
  if c.full then endPoison n
  if ← contextSound n (some (.change c)) then
    takeChange n c
    answer .cp (.done [])

/-- RECORD_WRITE_TAKEN (R30): memory takes the downstream write of an accepted record write. -/
def recordTaken : Act Unit := do
  let s ← get
  match s.recordWrite with
  | none => pure ()
  | some w =>
    modify fun s => { s with mem := s.recordWritten w, recordWrite := none }
    match w with
    | .handset n _ _ c => handsetWriteTaken n c
    | .head h _ capacity guard =>
      modHead h fun x => x.provision capacity guard
      answer .cp (.done [])

/-- MERGE_READ_DONE (R31): the read of the merge in progress completes. -/
def mergeRead : Act Unit := do
  match (← get).merge with
  | some (.handset n t) => finishMerge n t
  | _ => pure ()

/-- HEAD_MERGE_READ_DONE (R36): the read of the head record merge in progress completes. -/
def headMergeRead : Act Unit := do
  match (← get).merge with
  | some (.head h t) => finishHeadMerge h t
  | _ => pure ()

/-- MERGE_READ_DONE (R31) -/
def execMergeReadDone (s : State) : Host.Outcome State Fault Refusal := perform (whenRunning mergeRead) s

/-- HEAD_MERGE_READ_DONE (R36) -/
def execHeadMergeReadDone (s : State) : Host.Outcome State Fault Refusal := perform (whenRunning headMergeRead) s

/-- RECORD_WRITE_TAKEN (R30) -/
def execRecordWriteTaken (s : State) : Host.Outcome State Fault Refusal := perform (whenRunning recordTaken) s

end Sys2Proof.Machine
end

