-- ==== Sys2Proof/Machine/Intake.lean ====
section
/-! DEFINITION. Intake: sorting, taking and holding the writes of the intake rings (R39 to R46). -/

namespace Sys2Proof.Machine

/-- The ring slot in which a write's first beat lies (R40). -/
def ringSlot (base : Nat) (t : Transaction) : Nat := (t.addr.toNat - base) / 32

/-- R40: the write is one whole slot of a ring. -/
def wholeSlot (base : Nat) (t : Transaction) : Bool :=
  t.beatCount == 4 && (t.addr.toNat - base) % 32 == 0 && (writeBytes t).all Option.isSome

/-- The bytes of a write that has every enable set. -/
def slotBytes (t : Transaction) : List Byte := (writeBytes t).map fun b => b.getD 0

/-- The base of an intake ring. -/
def State.intakeBase (s : State) (r : IntakeRing) : Nat :=
  match r with
  | .uplink => (s.map.map RegionMap.uplinkBase).getD 0
  | .request => (s.map.map RegionMap.requestBase).getD 0

/-- R40, R41: a malformed write passes to memory with an event. -/
def passMalformed (r : IntakeRing) (t : Transaction) (reason : MalformedReason) : Act Unit := do
  let base := (← get).intakeBase r
  note .malformed (ringSlot base t) (intakeCode r) reason.code
  pass t

/-- R44, R45: a message is taken, or held while its queue is full. -/
def takeOrHoldUplink (t : Transaction) (m : UplinkMsg) : Act Unit := do
  let s ← get
  if s.uplink.length < Config.uplinkQueueSize then
    modify fun s => { s with uplink := s.uplink ++ [m] }
    pass t
  else modify fun s => { s with
    heldRlc := some { write := t, item := m, deadline := s.timeBase + Config.holdLimit } }

/-- R44, R45: a request is taken, or held while its queue is full. -/
def takeOrHoldRequest (t : Transaction) (r : Request) : Act Unit := do
  let s ← get
  if s.requests.length < Config.requestQueueSize then
    modify fun s => { s with requests := s.requests ++ [r] }
    pass t
  else modify fun s => { s with
    heldCp := some { write := t, item := r, deadline := s.timeBase + Config.holdLimit } }

/-- R40: an RLC write to the Uplink Ring. -/
def sortUplinkWrite (t : Transaction) : Act Unit := do
  if (enabled t).isEmpty then answer t.initiator (.done [])
  else if !wholeSlot ((← get).intakeBase .uplink) t then passMalformed .uplink t .partialWrite
  else match parseUplink (slotBytes t) with
    | .error reason => passMalformed .uplink t reason
    | .ok m => takeOrHoldUplink t m

/-- R40: a CP write to the Request Ring. -/
def sortRequestWrite (t : Transaction) : Act Unit := do
  if (enabled t).isEmpty then answer t.initiator (.done [])
  else if !wholeSlot ((← get).intakeBase .request) t then passMalformed .request t .partialWrite
  else match parseRequest (slotBytes t) with
    | .error reason => passMalformed .request t reason
    | .ok r => takeOrHoldRequest t r

/-- R46: room taken first: the held uplink write joins its queue. -/
def takeHeldUplink : Act Unit := do
  let s ← get
  match s.heldRlc with
  | none => pure ()
  | some w =>
    if s.uplink.length < Config.uplinkQueueSize then
      modify fun s => { s with uplink := s.uplink ++ [w.item], heldRlc := none }
      pass w.write

/-- R46: room taken first: the held request write joins its queue. -/
def takeHeldRequest : Act Unit := do
  let s ← get
  match s.heldCp with
  | none => pure ()
  | some w =>
    if s.requests.length < Config.requestQueueSize then
      modify fun s => { s with requests := s.requests ++ [w.item], heldCp := none }
      pass w.write

/-- R46: the hold deadline of an uplink write taken first: it passes unparsed and is counted. -/
def uplinkHoldTimeout : Act Unit := do
  let s ← get
  match s.heldRlc with
  | none => pure ()
  | some w =>
    if passed w.deadline s.timeBase then
      modify fun s => { s with heldRlc := none, uplinkOverrun := satInc s.uplinkOverrun }
      note .intakeOverrun (ringSlot (s.intakeBase .uplink) w.write) (intakeCode .uplink) (← get).uplinkOverrun
      pass w.write

/-- R46: the hold deadline of a request write taken first. -/
def requestHoldTimeout : Act Unit := do
  let s ← get
  match s.heldCp with
  | none => pure ()
  | some w =>
    if passed w.deadline s.timeBase then
      modify fun s => { s with heldCp := none, requestOverrun := satInc s.requestOverrun }
      note .intakeOverrun (ringSlot (s.intakeBase .request) w.write) (intakeCode .request) (← get).requestOverrun
      pass w.write

/-- The held write of a ring is taken (R46). -/
def takeHeld (r : IntakeRing) : Act Unit :=
  match r with
  | .uplink => takeHeldUplink
  | .request => takeHeldRequest

/-- The hold deadline of a ring's held write passes (R46). -/
def holdTimeout (r : IntakeRing) : Act Unit :=
  match r with
  | .uplink => uplinkHoldTimeout
  | .request => requestHoldTimeout

/-- HELD_WRITE_TAKEN (R46): room in a full queue lets Intake take the ring's held write. -/
def execHeldWriteTaken (r : IntakeRing) (s : State) : Host.Outcome State Fault Refusal :=
  perform (whenRunning (takeHeld r)) s

/-- INTAKE_HOLD_DEADLINE (R46): the hold deadline of the ring's held write passes. -/
def execIntakeHoldDeadline (r : IntakeRing) (s : State) : Host.Outcome State Fault Refusal :=
  perform (whenRunning (holdTimeout r)) s

end Sys2Proof.Machine
end

