-- ==== Sys2Proof/Machine/Startup.lean ====
section
/-! DEFINITION. Startup: the resets, start-up and its scan, and the time base (R8, R9, R12, R13, R21, R54, R87, R105,
R123, R144, R171, R181, R190, R201). -/

namespace Sys2Proof.Machine

/-! ### What a reset leaves -/

/-- What every kind of reset leaves alike (R21, R54, R87, R105, R123, R171, R190, R201). -/
def State.clearBlocks (s : State) : State :=
  { s with
    startup := .none, map := none, active := none, staged := none, mapChanged := false
    heldCp := none, heldRlc := none, merge := none, recordWrite := none
    uplink := [], requests := [], uplinkOverrun := 0, requestOverrun := 0, unknownIds := 0
    ctxs := Vector.replicate 1024 .vacant, idMap := [], attach := Vector.replicate 64 .reset, deferrals := 0
    table := Vector.replicate 32 .empty
    contained := false, fatalPending := false, scrubPtr := 0, scrubDeadline := none, scrubRead := none
    rebuilds := [], scanFatals := []
    dirOut := [], dirSent := false, backlog := [], evOut := [], evSent := false, eventsLost := 0, dirDropped := 0 }

/-- R144, R190: an external reset or RESTART keeps the head values, the Record Fault List and the corrected count. -/
def State.keptReset (s : State) : State := { s.clearBlocks with heads := s.heads.map HeadCtx.externalReset }

/-- R144, R190: a power-on reset. -/
def State.powerReset (s : State) : State :=
  { s.clearBlocks with heads := Vector.replicate 64 .powerOn, faultList := [], corrected := 0 }

/-- R9: RESET is entered at once from any state; what is in progress ends. -/
def State.enterReset (s : State) : State := { s.refuseUnanswered.cutRings with op := .reset }

/-- POWER_UP (R9): power comes up. -/
def powerUp : Act Unit := modify fun s => { s.enterReset.powerReset with powerCame := true }

/-- RSTIN_ASSERTED (R9). -/
def assertReset : Act Unit := modify fun s => s.enterReset.keptReset

/-- R12, step 1: start-up begins: the time base is 0 and the descriptor read is under way. -/
def State.beginStartup (s : State) (cause : ResetCause) : State :=
  { s with op := .starting, resetCause := cause, powerCame := false, timeBase := 0, startup := .descriptor }

/-- RESET_RELEASE (R9): the cause is POWER_ON if power came up since the last start-up. -/
def releaseReset : Act Unit := do
  let s ← get
  if s.op = .reset then
    modify fun s => s.beginStartup (if s.powerCame then .powerOn else .external)

/-- POWER_UP (R9) -/
def execPowerUp (s : State) : Host.Outcome State Fault Refusal := perform powerUp s

/-- RSTIN_ASSERTED (R9) -/
def execRstinAsserted (s : State) : Host.Outcome State Fault Refusal := perform assertReset s

/-- RESET_RELEASE (R9) -/
def execResetRelease (s : State) : Host.Outcome State Fault Refusal := perform releaseReset s

/-! ### The time base (R8) -/

/-- R8: the operating states in which the time base counts. -/
def OpState.counts : OpState → Bool
  | .starting | .running | .configFault => true
  | .reset | .halted => false

/-- TIME_BASE_TICK (R8). -/
def tick : Act Unit := modify fun s => if s.op.counts then { s with timeBase := s.timeBase + 1 } else s

/-- TIME_BASE_TICK (R8) -/
def execTimeBaseTick (s : State) : Host.Outcome State Fault Refusal := perform tick s

/-! ### The descriptor read (R12) -/

/-- R12, step 6: the four index words are written to 0, and both rings are empty (R191). -/
def State.zeroIndexWords (s : State) : State :=
  let zero := leBytes 4 0
  { s with
    mem := (((s.mem.writeAll dirProdWord zero).writeAll evProdWord zero).writeAll dirConsWord zero).writeAll
      evConsWord zero
    dirProd := 0, dirCons := 0, evProd := 0, evCons := 0
    dirOut := [], dirSent := false, backlog := [], evOut := [], evSent := false }

/-- R12, steps 5 and 6: the configuration in force, the index words and the status block. -/
def State.takeConfig (s : State) (map : RegionMap) (params : ParamSet) : State :=
  State.writeStatus { s.zeroIndexWords with
    map := some map, active := some params, staged := none, mapChanged := false, startup := .scan 0 }

/-- R12, step 4: a validation fault. -/
def State.faultConfig (s : State) : State := State.writeStatus { s with op := .configFault, startup := .none }

/-- R12: the descriptor read has returned the given 512 bytes. -/
def State.configured (s : State) (d : List Byte) : State :=
  let map := RegionMap.decode d
  let params := ParamSet.decode d
  if map.valid && params.firstInvalid.isNone then s.takeConfig map params else s.faultConfig

/-- DESCRIPTOR_READ (R12): the start-up descriptor read completes. -/
def descriptorRead : Act Unit := modify fun s =>
  if s.op = .starting ∧ s.startup = .descriptor then s.configured (s.mem.readBytes 0 descriptorSize) else s

/-- DESCRIPTOR_READ (R12) -/
def execDescriptorRead (s : State) : Host.Outcome State Fault Refusal := perform descriptorRead s

/-! ### The scan (R13, R181) -/

/-- A context after start-up with the cached fields of 32 provisioned bytes (R87). -/
def scannedCtx (d : List Byte) : HandsetCtx :=
  { HandsetCtx.vacant with
    identity := BitVec.ofNat 40 (fieldAt d 0 5)
    cls := BitVec.ofNat 3 (byteAt d 5).toNat
    group := BitVec.ofNat 4 (byteAt d 6).toNat
    policy := policyOf (byteAt d 7)
    code := BitVec.ofNat 16 (fieldAt d 8 2)
    priority := BitVec.ofNat 2 (byteAt d 10).toNat }

/-- The provisioned bytes a reading gives. -/
def Reading.provisioned (r : Reading) : List Byte := provisionedBeats.flatMap fun b => beatBytes (r.data b)

/-- A reading by the part itself of the whole provisioned half. -/
def ownReading (n : Slot) (source : Source) (image : List Byte) (overtaken : List Nat) : Reading :=
  { slot := n, source := source, image := image, beats := provisionedBeats, overtaken := overtaken, replaced := []
    rewritten := false }

/-- R13: the scan looks an identity up; a parity fault it finds waits until RUNNING is entered. -/
def scanLookup (id : Identity) : Act (Option Slot) := do
  match (← get).mapLookup id with
  | none => return none
  | some e =>
    if e.parityBad then
      modify fun s => { s with idMap := mapFound s.idMap e.slot, scanFatals := s.scanFatals ++ [e.slot] }
    return some e.slot

/-- R13: the state of a scanned slot. -/
def scanState (n : Slot) (quarantined : Bool) (id : Identity) : Act HandsetState := do
  if quarantined then return .quarantined
  else if id = 0 then return .vacant
  else match ← scanLookup id with
    | some _ => return .quarantined
    | none =>
      modify fun s => { s with idMap := mapSet s.idMap n id }
      return .provisioned

/-- R13, R181: one record of the scan. -/
def scanRecord (n : Slot) : Act Unit := do
  let image := (← get).recordImage n
  let r := ownReading n .startup image []
  if r.marked then modify fun s => s.setCtx n { scannedCtx image with state := .quarantined, poisoned := true }
  else
    checkReading r
    let poisoned := (← getCtx n).poisoned
    let c := scannedCtx r.provisioned
    let st ← scanState n r.bad c.identity
    modify fun s => s.setCtx n { c with state := st, poisoned := poisoned }

/-- The number of slots in a state. -/
def State.countState (s : State) (st : HandsetState) : Nat := (s.slotsWhere fun c => c.state == st).length

/-- R13: the end of the scan. -/
def endScan : Act Unit := do
  modify fun s => { s with
    op := .running, startup := .none, scrubPtr := 0, scrubDeadline := some (s.timeBase + s.params.scrubInterval) }
  let s ← get
  note .started 0xFFFF (s.countState .provisioned) (s.countState .quarantined)
  modify fun s => { s with scanFatals := [] }
  forEach s.scanFatals fun n => fatalFault .identityMap n.val

/-- SCAN_RECORD_READ (R13): the start-up read of one handset record completes. -/
def scanRead : Act Unit := do
  let s ← get
  match s.op, s.startup with
  | .starting, .scan n =>
    scanRecord n
    if h : n.val + 1 < 1024 then modify fun s => { s with startup := .scan ⟨n.val + 1, h⟩ } else endScan
  | _, _ => pure ()

/-- SCAN_RECORD_READ (R13) -/
def execScanRecordRead (s : State) : Host.Outcome State Fault Refusal := perform scanRead s

end Sys2Proof.Machine
end

