-- ==== Sys2Proof/Machine/Scrub.lean ====
section
/-! DEFINITION. Scrub: the scrub and the context rebuilds (R180, R185). -/

namespace Sys2Proof.Machine

/-! ### The scrub (R180) -/

/-- The CP's transaction waits for a rebuild: taken and not answered, or in memory with its change not yet taken (R185). -/
def State.cpWaits (s : State) : Bool :=
  s.rebuilds.any fun r => r.waiting.any fun w => match w with | .change _ | .cp _ => true | _ => false

/-- R175: the provisioned beats of a record that a CP write, taken and not yet answered, reaches. -/
def State.unansweredBeats (s : State) (n : Slot) : List Nat :=
  match s.cpPort.outstanding with
  | none => []
  | some t =>
    if s.merge.isSome || s.recordWrite.isSome || s.cpWaits then
      provisionedBeats.filter (beatTouched (bytesFor t (s.handsetAddr n) 64))
    else []

/-- The scrub read of a slot as memory returns it (R180). -/
def State.scrubStart (s : State) (n : Slot) : ScrubRead :=
  { slot := n, image := s.recordImage n, unanswered := s.unansweredBeats n, taken := [], rewritten := false }

/-- SCRUB_DEADLINE (R180): the record at the pointer is read. -/
def scrubDue : Act Unit := do
  let s ← get
  match s.scrubDeadline, s.scrubRead with
  | some d, none =>
    if passed d s.timeBase then
      modify fun s => { s with scrubDeadline := none, scrubRead := some (s.scrubStart s.scrubPtr) }
  | _, _ => pure ()

/-- The reading that a scrub read hands to the Integrity Unit (R173, R175, R178). -/
def ScrubRead.reading (r : ScrubRead) : Reading :=
  { slot := r.slot, source := .scrub, image := r.image, beats := provisionedBeats
    overtaken := r.unanswered ++ r.taken, replaced := r.taken, rewritten := r.rewritten }

/-- R180: the pointer advances and the next deadline is set. -/
def State.nextScrub (s : State) : State :=
  { s with
    scrubPtr := s.scrubPtr + 1, scrubDeadline := some (s.timeBase + s.params.scrubInterval), scrubRead := none }

/-- SCRUB_READ_DONE (R180): the beats of the scrub read are checked. The marker read at SCRUB_DEADLINE is compared with the
POISONED flag as it stands now (DESIGN CHOICE, log entry 20). -/
def scrubDone : Act Unit := do
  match (← get).scrubRead with
  | none => pure ()
  | some r =>
    checkReading r.reading
    modify State.nextScrub

/-- SCRUB_DEADLINE (R180) -/
def execScrubDeadline (s : State) : Host.Outcome State Fault Refusal := perform (whenRunning scrubDue) s

/-- SCRUB_READ_DONE (R180) -/
def execScrubReadDone (s : State) : Host.Outcome State Fault Refusal := perform (whenRunning scrubDone) s

/-! ### Context rebuilds (R185) -/

/-- R185: the state, the identity and the Identity Map after a rebuild, from the identity as read. -/
def State.rebuildRow (s : State) (n : Slot) (distrusted : Bool) (id : Identity) :
    HandsetState × Identity × List MapEntry :=
  if distrusted then (.quarantined, ((s.mapEntryOf n).map MapEntry.identity).getD 0, s.idMap)
  else if id = 0 then (.vacant, 0, mapRemove s.idMap n)
  else match s.mapLookup id with
    | some e =>
      if e.slot = n then (.provisioned, id, mapSet s.idMap n id) else (.quarantined, id, mapRemove s.idMap n)
    | none => (.provisioned, id, mapSet s.idMap n id)

/-- R185: the context of a slot is set from its record, as the reading has left memory and the POISONED flag. -/
def State.rebuilt (s : State) (n : Slot) (r : Reading) : State :=
  let poisoned := (s.ctx n).poisoned
  let c := scannedCtx (if r.bad then s.recordImage n else r.provisioned)
  let row := s.rebuildRow n (poisoned || r.bad) c.identity
  State.setCtx { s with idMap := row.2.2 } n { c with state := row.1, identity := row.2.1, poisoned := poisoned }

/-- R185: an event that waited is handled against the rebuilt context. -/
def resume (n : Slot) (w : Waiter) : Act Unit := do
  match w with
  | .uplink (.handset h id body) dispatched =>
    handleMessage n h id body dispatched
    popUplink
  | .uplink (.headStatus _ _) _ => popUplink
  | .request r =>
    handleRequest r
    popRequest
  | .cp t => takeHandsetRecord t
  | .change c =>
    takeChange n c
    answer .cp (.done [])

/-- R184, R185: the read of a rebuild completes: the context is rebuilt, CONTEXT_FAULT is written, and the events that
waited are handled in the order in which they began to wait (DESIGN CHOICE, log entry 29). -/
def finishRebuild (b : Rebuild) : Act Unit := do
  let s ← get
  let r := ownReading b.slot .rebuild (s.recordImage b.slot) (s.unansweredBeats b.slot)
  checkReading r
  modify fun s => State.rebuilt { s with rebuilds := s.rebuilds.filter fun x => x.slot != b.slot } b.slot r
  report .contextFault .uncorrected b.slot.val (← getCtx b.slot).state.code (if b.dropped then 1 else 0)
  forEach b.waiting (resume b.slot)

/-- REBUILD_READ_DONE (R185): the record read of a slot's context rebuild completes. -/
def rebuildRead (n : Slot) : Act Unit := do
  match (← get).rebuilds.find? fun b => b.slot == n with
  | none => pure ()
  | some b => finishRebuild b

/-- REBUILD_READ_DONE (R185) -/
def execRebuildReadDone (n : Slot) (s : State) : Host.Outcome State Fault Refusal :=
  perform (whenRunning (rebuildRead n)) s

end Sys2Proof.Machine
end

