-- ==== Sys2Proof/Machine/Path.lean ====
section
/-! DEFINITION. Path: the treatment of every upstream transaction, the descriptor block, staging and the output rings'
writes (chapter The Memory Path; R192, R193). -/

namespace Sys2Proof.Machine

/-! ### Areas of the descriptor block (spec/11) -/

/-- R6: bytes a CP write may not reach: the status block, the producer words and the directive consumer word. -/
def reachesForbidden (t : Transaction) : Bool :=
  reaches t 0x180 0x200 || reaches t 0x100 0x104 || reaches t 0x110 0x114 || reaches t 0x108 0x10C

/-- The write reaches the event consumer index word. -/
def reachesEventConsumer (t : Transaction) : Bool := reaches t 0x118 0x11C

/-- The write's enabled bytes all lie in the directive consumer index word. -/
def inDirectiveConsumer (t : Transaction) : Bool := confined t 0x108 0x10C

/-- The write reaches the class table or the global parameter word. -/
def reachesParams (t : Transaction) : Bool := reaches t 0x080 0x0C0 || reaches t 0x048 0x04C

/-- The write reaches the region map. -/
def reachesMap (t : Transaction) : Bool := reaches t 0x000 0x030

/-! ### Consumer index writes (R193) -/

/-- R193: a refused consumer index write. -/
def refuseIndex (t : Transaction) (r : OutRing) (value : Nat) : Act Unit := do
  refuse t.initiator
  note .indexRefused 0xFFFF (outCode r) value

/-- R193: an RLC write of the directive consumer index word. -/
def takeDirectiveConsumer (t : Transaction) : Act Unit := do
  let s ← get
  let value := consumerValue t dirConsWord s.dirCons
  if consumerAccepts s.dirCount s.dirCons s.dirUnread value then
    pass t
    modify fun s => s.moveDirectiveConsumer value
  else refuseIndex t .directive value

/-- R193: the event consumer index word in a CP write. Answers whether the write is accepted, and then memory has
taken it. -/
def takeEventConsumer (t : Transaction) : Act Bool := do
  let s ← get
  let value := consumerValue t evConsWord s.evCons
  if consumerAccepts s.evCount s.evCons s.evUnread value then
    pass t
    modify fun s => s.moveEventConsumer value
    return true
  else
    refuseIndex t .event value
    return false

/-! ### Staging and configuration writes (R16 to R19) -/

/-- An event of the Memory Path. -/
def configEvent (kind : EventKind) (d1 : Nat) : Act Unit := note kind 0xFFFF d1 0

/-- R17: a write to the class table or the global parameter word. -/
def takeParams (t : Transaction) : Act Unit := do
  match (← get).staged with
  | some p => modify fun s => { s with staged := some (p.overlay t) }
  | none => configEvent .configIgnored t.addr.toNat

/-- R18: APPLY. -/
def takeApply : Act Unit := do
  match (← get).staged with
  | none => configEvent .configIgnored 0
  | some p =>
    modify fun s => { s with staged := none }
    match p.firstInvalid with
    | some c => configEvent .configRejected c
    | none =>
      modify fun s => { s with active := some p }
      configEvent .configApplied 0

/-- R16: the staging command of a write, at most one being set. -/
def takeStaging (t : Transaction) : Act Unit := do
  match stagingBits t with
  | (true, _, _) => modify fun s => { s with staged := s.active }
  | (_, true, _) => takeApply
  | (_, _, true) => configEvent .configIgnored 0
  | _ => pure ()

/-- R6: what a CP write to the descriptor block that memory has taken does, area by area. -/
def actOnAreas (t : Transaction) : Act Unit := do
  if reachesParams t then takeParams t
  if reachesMap t then modify fun s => { s with mapChanged := true }
  takeStaging t

/-! ### The descriptor block (R6, R14) -/

/-- R6: a CP write to the descriptor block in RUNNING. -/
def cpDescriptorWrite (t : Transaction) : Act Unit := do
  if reachesForbidden t || manyCommands t then refuse t.initiator
  else if reachesEventConsumer t then
    if ← takeEventConsumer t then actOnAreas t
  else
    pass t
    actOnAreas t

/-- R6, R14: an RLC write to the descriptor block once the index words are written. -/
def rlcDescriptorWrite (t : Transaction) : Act Unit :=
  if inDirectiveConsumer t then takeDirectiveConsumer t else refuse t.initiator

/-- R14: a CP write to the descriptor block in STARTING, once the index words are written. -/
def cpStartingWrite (t : Transaction) : Act Unit := do
  if reachesForbidden t then refuse t.initiator
  else if reachesEventConsumer t then
    let _ ← takeEventConsumer t
  else pass t

/-- R5, R6: a transaction to the descriptor block in RUNNING. -/
def takeDescriptor (t : Transaction) : Act Unit :=
  if t.isRead then pass t
  else match t.initiator with
    | .cp => cpDescriptorWrite t
    | .rlc => rlcDescriptorWrite t

/-- R14: a transaction to the descriptor block in STARTING. -/
def takeDescriptorStarting (t : Transaction) : Act Unit := do
  if t.isRead then pass t
  else match (← get).startup, t.initiator with
    | .scan _, .cp => cpStartingWrite t
    | .scan _, .rlc => rlcDescriptorWrite t
    | _, _ => pass t

/-! ### The treatments (R5, R14, R15, R20) -/

/-- A treatment for one initiator alone; the other's transaction is refused. -/
def onlyFor (i : Initiator) (t : Transaction) (a : Act Unit) : Act Unit :=
  if t.initiator = i then a else refuse t.initiator

/-- R5: the treatment in RUNNING. -/
def takeRunning (r : Region) (t : Transaction) : Act Unit :=
  match r with
  | .descriptor => takeDescriptor t
  | .handsetArray => onlyFor .cp t (takeHandsetRecord t)
  | .headArray => onlyFor .cp t (takeHeadRecord t)
  | .uplinkRing => if t.isRead then pass t else onlyFor .rlc t (sortUplinkWrite t)
  | .requestRing => if t.isRead then pass t else onlyFor .cp t (sortRequestWrite t)
  | .directiveRing | .eventRing => if t.isRead then pass t else refuse t.initiator
  | .ordinary => pass t

/-- R14: the treatment in STARTING. -/
def takeStarting (r : Region) (t : Transaction) : Act Unit :=
  match r with
  | .handsetArray | .headArray | .uplinkRing | .requestRing => refuse t.initiator
  | .directiveRing | .eventRing | .ordinary => pass t
  | .descriptor => takeDescriptorStarting t

/-- R20: the treatment in HALTED. -/
def takeHalted (r : Region) (t : Transaction) : Act Unit :=
  match r with
  | .descriptor | .ordinary => pass t
  | _ => refuse t.initiator

/-- R15: RESTART alone in a CP write to the staging control word. -/
def restartAlone (t : Transaction) : Bool := t.initiator == .cp && stagingBits t == (false, false, true)

/-- R15: the treatment in CONFIG_FAULT: everything passes, and RESTART begins start-up again. -/
def takeConfigFault (t : Transaction) : Act Unit := do
  pass t
  if restartAlone t then modify fun s => s.keptReset.beginStartup .restart

/-- The treatment of a transaction that the classifier has placed, or refused for lying partly in a region (R4). -/
def takeClassified (op : OpState) (r : Option Region) (t : Transaction) : Act Unit :=
  match r with
  | none => refuse t.initiator
  | some r =>
    match op with
    | .starting => takeStarting r t
    | .halted => takeHalted r t
    | _ => takeRunning r t

/-- The treatment of every transaction at the upstream port (R1, R4, R5, R9, R14, R15, R20). -/
def takeTransaction (t : Transaction) : Act Unit := do
  let s ← get
  if wraps t then refuse t.initiator
  else match s.op with
    | .reset => refuse t.initiator
    | .configFault => takeConfigFault t
    | op => takeClassified op (classify s.map t) t

/-! ### The transaction rows -/

/-- UPSTREAM_TRANSACTION (R5) -/
def execUpstreamTransaction (t : Transaction) (s : State) : Host.Outcome State Fault Refusal :=
  takeAtUpstream (Instr.upstreamTransaction t).wellFormed t takeTransaction s

/-- DESCRIPTOR_WRITE (R6) -/
def execDescriptorWrite (t : Transaction) (s : State) : Host.Outcome State Fault Refusal :=
  takeAtUpstream (Instr.descriptorWrite t).wellFormed t takeTransaction s

/-- CLASS_OR_PARAMETER_WRITE (R17) -/
def execClassOrParameterWrite (t : Transaction) (s : State) : Host.Outcome State Fault Refusal :=
  takeAtUpstream (Instr.classOrParameterWrite t).wellFormed t takeTransaction s

/-- REGION_MAP_WRITE (R19) -/
def execRegionMapWrite (t : Transaction) (s : State) : Host.Outcome State Fault Refusal :=
  takeAtUpstream (Instr.regionMapWrite t).wellFormed t takeTransaction s

/-- BEGIN (R16) -/
def execBeginStaging (t : Transaction) (s : State) : Host.Outcome State Fault Refusal :=
  takeAtUpstream (Instr.beginStaging t).wellFormed t takeTransaction s

/-- APPLY (R18) -/
def execApplyStaging (t : Transaction) (s : State) : Host.Outcome State Fault Refusal :=
  takeAtUpstream (Instr.applyStaging t).wellFormed t takeTransaction s

/-- RESTART (R15) -/
def execRestart (t : Transaction) (s : State) : Host.Outcome State Fault Refusal :=
  takeAtUpstream (Instr.restart t).wellFormed t takeTransaction s

/-- DIRECTIVE_CONSUMER_WRITE (R193) -/
def execDirectiveConsumerWrite (t : Transaction) (s : State) : Host.Outcome State Fault Refusal :=
  takeAtUpstream (Instr.directiveConsumerWrite t).wellFormed t takeTransaction s

/-- EVENT_CONSUMER_WRITE (R193) -/
def execEventConsumerWrite (t : Transaction) (s : State) : Host.Outcome State Fault Refusal :=
  takeAtUpstream (Instr.eventConsumerWrite t).wellFormed t takeTransaction s

/-- HANDSET_RECORD_READ (R23) -/
def execHandsetRecordRead (t : Transaction) (s : State) : Host.Outcome State Fault Refusal :=
  takeAtUpstream (Instr.handsetRecordRead t).wellFormed t takeTransaction s

/-- HANDSET_RECORD_WRITE (R27) -/
def execHandsetRecordWrite (t : Transaction) (s : State) : Host.Outcome State Fault Refusal :=
  takeAtUpstream (Instr.handsetRecordWrite t).wellFormed t takeTransaction s

/-- MEDIA_HEAD_WRITE (R35) -/
def execMediaHeadWrite (t : Transaction) (s : State) : Host.Outcome State Fault Refusal :=
  takeAtUpstream (Instr.mediaHeadWrite t).wellFormed t takeTransaction s

/-- HEAD_RECORD_READ (R26) -/
def execHeadRecordRead (t : Transaction) (s : State) : Host.Outcome State Fault Refusal :=
  takeAtUpstream (Instr.headRecordRead t).wellFormed t takeTransaction s

/-- HEAD_RECORD_WRITE (R36) -/
def execHeadRecordWrite (t : Transaction) (s : State) : Host.Outcome State Fault Refusal :=
  takeAtUpstream (Instr.headRecordWrite t).wellFormed t takeTransaction s

/-- UPLINK_RING_WRITE (R40) -/
def execUplinkRingWrite (t : Transaction) (s : State) : Host.Outcome State Fault Refusal :=
  takeAtUpstream (Instr.uplinkRingWrite t).wellFormed t takeTransaction s

/-- REQUEST_RING_WRITE (R40) -/
def execRequestRingWrite (t : Transaction) (s : State) : Host.Outcome State Fault Refusal :=
  takeAtUpstream (Instr.requestRingWrite t).wellFormed t takeTransaction s

/-! ### The output rings in memory (R192) -/

/-- Memory takes the record in its ring slot. A directive's and an event's writes may be in progress at once, one record of
each ring at a time (DESIGN CHOICE, log entry 8). -/
def State.slotWritten (s : State) (r : OutRing) : State :=
  match r with
  | .directive => s.directiveInSlot
  | .event => s.eventInSlot

/-- Memory takes the producer word. -/
def State.producerWritten (s : State) (r : OutRing) : State :=
  match r with
  | .directive => s.directiveCounted
  | .event => s.eventCounted

/-- RING_SLOT_WRITTEN (R192): memory takes a record written into an output ring slot. -/
def execRingSlotWritten (r : OutRing) (s : State) : Host.Outcome State Fault Refusal :=
  perform (modify fun s => if s.ringLive r then s.slotWritten r else s) s

/-- PRODUCER_WORD_WRITTEN (R192): memory takes a producer index word write. -/
def execProducerWordWritten (r : OutRing) (s : State) : Host.Outcome State Fault Refusal :=
  perform (modify fun s => if s.ringLive r then s.producerWritten r else s) s

end Sys2Proof.Machine
end

