-- ==== Sys2Proof/Machine/Dispatch.lean ====
section
/-! DEFINITION. Dispatch: the meaning of each command. -/

namespace Sys2Proof.Machine

def exec (i : Instr) (s : State) : Host.Outcome State Fault Refusal :=
  match i with
  | .powerUp => Sys2Proof.Machine.execPowerUp s
  | .rstinAsserted => Sys2Proof.Machine.execRstinAsserted s
  | .resetRelease => Sys2Proof.Machine.execResetRelease s
  | .descriptorRead => Sys2Proof.Machine.execDescriptorRead s
  | .scanRecordRead => Sys2Proof.Machine.execScanRecordRead s
  | .timeBaseTick => Sys2Proof.Machine.execTimeBaseTick s
  | .upstreamTransaction t => Sys2Proof.Machine.execUpstreamTransaction t s
  | .descriptorWrite t => Sys2Proof.Machine.execDescriptorWrite t s
  | .classOrParameterWrite t => Sys2Proof.Machine.execClassOrParameterWrite t s
  | .regionMapWrite t => Sys2Proof.Machine.execRegionMapWrite t s
  | .beginStaging t => Sys2Proof.Machine.execBeginStaging t s
  | .applyStaging t => Sys2Proof.Machine.execApplyStaging t s
  | .restart t => Sys2Proof.Machine.execRestart t s
  | .directiveConsumerWrite t => Sys2Proof.Machine.execDirectiveConsumerWrite t s
  | .eventConsumerWrite t => Sys2Proof.Machine.execEventConsumerWrite t s
  | .ringSlotWritten r => Sys2Proof.Machine.execRingSlotWritten r s
  | .producerWordWritten r => Sys2Proof.Machine.execProducerWordWritten r s
  | .handsetRecordRead t => Sys2Proof.Machine.execHandsetRecordRead t s
  | .handsetRecordWrite t => Sys2Proof.Machine.execHandsetRecordWrite t s
  | .mergeReadDone => Sys2Proof.Machine.execMergeReadDone s
  | .mediaHeadWrite t => Sys2Proof.Machine.execMediaHeadWrite t s
  | .headRecordRead t => Sys2Proof.Machine.execHeadRecordRead t s
  | .headRecordWrite t => Sys2Proof.Machine.execHeadRecordWrite t s
  | .headMergeReadDone => Sys2Proof.Machine.execHeadMergeReadDone s
  | .uplinkRingWrite t => Sys2Proof.Machine.execUplinkRingWrite t s
  | .requestRingWrite t => Sys2Proof.Machine.execRequestRingWrite t s
  | .heldWriteTaken r => Sys2Proof.Machine.execHeldWriteTaken r s
  | .intakeHoldDeadline r => Sys2Proof.Machine.execIntakeHoldDeadline r s
  | .attach => Sys2Proof.Machine.execAttach s
  | .attachConfirm => Sys2Proof.Machine.execAttachConfirm s
  | .detach => Sys2Proof.Machine.execDetach s
  | .keepalive => Sys2Proof.Machine.execKeepalive s
  | .dozeRequest => Sys2Proof.Machine.execDozeRequest s
  | .callRequest => Sys2Proof.Machine.execCallRequest s
  | .callRelease => Sys2Proof.Machine.execCallRelease s
  | .measurement => Sys2Proof.Machine.execMeasurement s
  | .access => Sys2Proof.Machine.execAccess s
  | .revert => Sys2Proof.Machine.execRevert s
  | .channelRefused => Sys2Proof.Machine.execChannelRefused s
  | .headStatus => Sys2Proof.Machine.execHeadStatus s
  | .page => Sys2Proof.Machine.execPage s
  | .releaseCall => Sys2Proof.Machine.execReleaseCall s
  | .forceHandover => Sys2Proof.Machine.execForceHandover s
  | .unpin => Sys2Proof.Machine.execUnpin s
  | .detachHandset => Sys2Proof.Machine.execDetachHandset s
  | .drainHead => Sys2Proof.Machine.execDrainHead s
  | .restoreHead => Sys2Proof.Machine.execRestoreHead s
  | .clearFaultList => Sys2Proof.Machine.execClearFaultList s
  | .ackFatal => Sys2Proof.Machine.execAckFatal s
  | .offerDeadline slot => Sys2Proof.Machine.execOfferDeadline slot s
  | .ageLimit slot => Sys2Proof.Machine.execAgeLimit slot s
  | .regainDeadline head => Sys2Proof.Machine.execRegainDeadline head s
  | .windowDeadline slot => Sys2Proof.Machine.execWindowDeadline slot s
  | .callPresenceDeadline slot => Sys2Proof.Machine.execCallPresenceDeadline slot s
  | .graceDeadline slot => Sys2Proof.Machine.execGraceDeadline slot s
  | .holdoffDeadline slot => Sys2Proof.Machine.execHoldoffDeadline slot s
  | .livenessDeadline head => Sys2Proof.Machine.execLivenessDeadline head s
  | .reservingDeadline entry => Sys2Proof.Machine.execReservingDeadline entry s
  | .commandedDeadline entry => Sys2Proof.Machine.execCommandedDeadline entry s
  | .mediaHoldDeadline entry => Sys2Proof.Machine.execMediaHoldDeadline entry s
  | .orphanedDeadline entry => Sys2Proof.Machine.execOrphanedDeadline entry s
  | .scrubDeadline => Sys2Proof.Machine.execScrubDeadline s
  | .scrubReadDone => Sys2Proof.Machine.execScrubReadDone s
  | .rebuildReadDone slot => Sys2Proof.Machine.execRebuildReadDone slot s
  | .recordWriteTaken => Sys2Proof.Machine.execRecordWriteTaken s

end Sys2Proof.Machine
end

