-- ==== Sys2Proof/Machine/Step.lean ====
section
/-! DEFINITION. Step: the block takes the command at the front of its queue. -/

namespace Sys2Proof.Machine

/-- One step: the oldest command of the queue, run on the state with the queue's rest; with an empty queue the block
idles (log entry 4). -/
def step (s : State) : Host.Outcome State Fault Refusal :=
  match s.pending with
  | [] => .next s
  | c :: rest => exec c { s with pending := rest }

/-- The state with the command that a word spells at the front of its queue; no word spells one. -/
def State.withFetchWord (s : State) (nbits w : Nat) : State :=
  match decodeTableWord nbits w with
  | none => s
  | some c => { s with pending := c :: s.pending }

end Sys2Proof.Machine
end

