-- ==== Sys2Proof/Safety.lean ====
section
/-! DEFINITION. Safety: the invariants of the KJ4820 that the statements are about: the ranges and the joint conditions
that its rules give the contexts, heads, queues, lists, counters and rings. -/

namespace Sys2Proof.Machine

/-- R111: a Candidate List in order: levels not rising, equal levels in ascending head number. -/
def inOrder (cs : List Candidate) : Prop := cs.Pairwise fun x y => x.before y = true

/-- R111: one entry of a Candidate List. -/
structure Candidate.Sound (c : Candidate) : Prop where
  level : c.level ≤ 126
  staleness : c.staleness ≤ 2
  dwell : c.dwell ≤ 8

/-- R111: the Candidate List of a handset with the given serving head. -/
structure CandidatesSound (cs : List Candidate) (serving : Option Head) : Prop where
  entries : ∀ c ∈ cs, c.Sound
  few : cs.length ≤ 4
  order : inOrder cs
  once : (cs.map Candidate.head).Nodup
  others : ∀ c ∈ cs, serving ≠ some c.head

/-- R106, R111: the quality context of a handset with the given serving head. -/
structure Quality.Sound (q : Quality) (serving : Option Head) : Prop where
  level : ∀ l, q.level = some l → l ≤ 126
  list : CandidatesSound q.candidates serving

/-- R56, R57, R70, R106, R151: the joint conditions of a handset context. -/
structure HandsetCtx.Sound (c : HandsetCtx) : Prop where
  accessFail : c.accessFail ≤ 2
  hoFail : c.hoFail ≤ 3
  offered : c.offerDeadline.isSome = true → c.state = .offered
  admission : c.admissionHead.isSome = true → c.state = .queued ∨ c.state = .offered
  moving : c.txn.isSome = true → c.state = .moving
  calling : c.channel.isSome = true → c.state.inCall = true
  media : c.media.isSome = true → c.state.inCall = true
  silent : c.state.inCall = false → c.quality.candidates = [] ∧ c.quality.level = none
  quality : c.quality.Sound c.serving

/-- R74, R75: attach admission at a head. -/
structure AttachHead.Sound (a : AttachHead) : Prop where
  credits : a.credits ≤ 4
  queue : a.queue.length ≤ 8
  regain : a.regain.isSome = true ↔ a.credits < 4

/-- R125: the states in which the liveness deadline of a head runs. -/
def HeadState.alive : HeadState → Bool
  | .inService | .degraded | .draining => true
  | _ => false

/-- A capacity and a guard in their ranges (R124). -/
structure ChannelLimits (capacity guard : Nat) : Prop where
  atMost : capacity ≤ 12
  guardAtMost : guard ≤ 4
  fits : guard ≤ capacity

/-- R142: an entry may stand before another by rank and priority. -/
def WaitEntry.mayPrecede (x y : WaitEntry) : Prop :=
  x.cause.rank < y.cause.rank ∨ x.cause.rank = y.cause.rank ∧ y.priority ≤ x.priority

/-- R124, R125, R127, R136, R138, R142: the joint conditions of a head context. -/
structure HeadCtx.Sound (h : HeadCtx) : Prop where
  limits : ChannelLimits h.capacity h.guard
  staged : ∀ c g, h.staged = some (c, g) → ChannelLimits c g
  failures : h.failures ≤ 3
  numbers : ∀ c : Chan, h.pool[c].isSome = true → c.val < h.capacity
  empty : h.state.alive = false → ∀ c : Chan, h.pool[c] = none
  waiting : h.state ≠ .inService → h.waitQ = []
  liveness : h.liveness.isSome = h.state.alive
  waitOrder : h.waitQ.Pairwise WaitEntry.mayPrecede

/-- R59: the Identity Map holds its entries in slot order, one to a slot, each with a non-zero identity. -/
structure IdMapSound (m : List MapEntry) : Prop where
  order : m.Pairwise fun x y => x.slot < y.slot
  nonzero : ∀ e ∈ m, e.identity ≠ 0

/-- R44, R176, R195: the lists of the part within their capacities. -/
structure State.ListsSound (s : State) : Prop where
  uplink : s.uplink.length ≤ 32
  requests : s.requests.length ≤ 8
  backlog : s.backlog.length ≤ 16
  faultList : s.faultList.length ≤ 16
  faultOnce : s.faultList.Nodup

/-- R53, R119, R176, R195, R196: the counters within 16 bits. -/
structure State.CountersSound (s : State) : Prop where
  uplinkOverrun : s.uplinkOverrun ≤ 65535
  requestOverrun : s.requestOverrun ≤ 65535
  unknownIds : s.unknownIds ≤ 65535
  deferrals : s.deferrals ≤ 65535
  corrected : s.corrected ≤ 65535
  eventsLost : s.eventsLost ≤ 65535
  dirDropped : s.dirDropped ≤ 65535

/-- R4, R10, R11, R36: what is in force has passed its checks. -/
structure State.ConfigSound (s : State) : Prop where
  map : ∀ m, s.map = some m → m.valid = true
  active : ∀ p, s.active = some p → p.firstInvalid = none
  running : s.op = .running → s.map.isSome = true ∧ s.active.isSome = true
  scanning : ∀ n, s.startup = .scan n → s.map.isSome = true ∧ s.active.isSome = true
  headWrite : ∀ h b c g, s.recordWrite = some (.head h b c g) → ChannelLimits c g

/-- R191, R194: one output ring of `n` slots: positions in range, and the unread records with those still being written
never more than the slot count less one. -/
structure RingSound (n prod cons writing : Nat) : Prop where
  prodBelow : prod < n
  consBelow : cons < n
  fits : unread n prod cons + writing ≤ n - 1

/-- R191, R194, R196: both output rings while a map is active. -/
structure State.RingsSound (s : State) : Prop where
  directive : s.map.isSome = true → RingSound s.dirCount s.dirProd s.dirCons s.dirOut.length
  event : s.map.isSome = true → RingSound s.evCount s.evProd s.evCons s.evOut.length
  /-- R194: the backlog is never non-empty while the Directive Ring has room. -/
  backlog : s.map.isSome = true → s.backlog ≠ [] → s.dirRoom = 0

/-- R186: FATAL_PENDING stands in CONTAINED alone. -/
def State.PendingSound (s : State) : Prop := s.fatalPending = true → s.contained = true

/-- The joint conditions of the whole part, at every moment of its work. -/
structure State.Sound (s : State) : Prop where
  mem : Memory.wf s.mem
  ctxs : ∀ n, (s.ctx n).Sound
  attach : ∀ h, (s.att h).Sound
  heads : ∀ h, (s.head h).Sound
  idMap : IdMapSound s.idMap
  lists : s.ListsSound
  counters : s.CountersSound
  config : s.ConfigSound
  rings : s.RingsSound
  pendingFault : s.PendingSound

/-- R198: ATTN stands at the level its conditions give. -/
def State.attnRight (s : State) : Prop := s.attn = s.attnLevel

/-- The invariant between two steps: the joint conditions, and ATTN at its level. -/
structure State.Safe (s : State) : Prop where
  sound : s.Sound
  attn : s.attnRight

end Sys2Proof.Machine
end

