-- ==== Sys2Proof/Certificates/Slice0/Obligations.lean ====
section
/-! DEFINITION. Obligations: the statements about the KJ4820 for the provers. A statement gives the state a command answers
as a whole wherever it can, so that what it leaves out of the change is its frame; `State.settle` is the end of every step
(the status block and ATTN), and the statement StepEndsBySettling says all it does. -/

namespace Sys2Proof.Machine

/-! ### Words of the statements -/

/-- The command ends in the state `t`, settled. -/
abbrev State.ends (s t : State) : Host.Outcome State Fault Refusal := .next (State.settle s t)

/-- The Output Unit works on an Event Ring whose index words are written (R200). -/
abbrev State.eventsWork (s : State) : Prop := s.op = .running ∨ s.op = .starting ∧ ∃ n, s.startup = .scan n

/-- What a reset leaves alike, whatever its kind (R21, R54, R87, R105, R123, R171, R190, R201). -/
structure State.cleared (t : State) : Prop where
  config : t.map = none ∧ t.active = none ∧ t.staged = none ∧ t.mapChanged = false
  writes : t.heldCp = none ∧ t.heldRlc = none ∧ t.merge = none ∧ t.recordWrite = none
  intake : t.uplink = [] ∧ t.requests = [] ∧ t.uplinkOverrun = 0 ∧ t.requestOverrun = 0 ∧ t.unknownIds = 0
  contexts : ∀ n, t.ctx n = .vacant
  identities : t.idMap = []
  admission : ∀ x, t.att x = .reset
  deferrals : t.deferrals = 0
  transactions : ∀ e, t.entry e = .empty
  integrity : t.contained = false ∧ t.fatalPending = false ∧ t.scrubPtr = 0 ∧ t.scrubDeadline = none ∧
    t.scrubRead = none ∧ t.rebuilds = []
  output : t.dirOut = [] ∧ t.backlog = [] ∧ t.evOut = [] ∧ t.eventsLost = 0 ∧ t.dirDropped = 0

/-- A port whose outstanding transaction, if any, has been refused. -/
def Port.afterReset (p : Port) : Port :=
  if p.outstanding = none then p else { outstanding := none, answer := some .refused }

/-- What an external reset or RESTART leaves of a head context (R144). -/
def HeadCtx.kept (c : HeadCtx) : HeadCtx :=
  { HeadCtx.powerOn with
    capacity := c.staged.elim c.capacity Prod.fst, guard := c.staged.elim c.guard Prod.snd, failures := c.failures }

/-- R13: the state that a record with no UNCORRECTABLE beat and no marker gives a slot. -/
def State.scanned (s : State) (id : Identity) : HandsetState :=
  if id = 0 then .vacant else if (s.mapLookup id).isSome then .quarantined else .provisioned

/-! ### Words about readings of handset records -/

/-- The class of beat `b` of a record as read (R172). -/
def beatClass (image : List Byte) (b : Nat) : BeatClass :=
  classifyBeat (beatAt image (8 * b)) (byteAt image (56 + b))

/-- Beat `b` of a record as read, corrected where it is CORRECTABLE (R174). -/
def correctedBeat (image : List Byte) (b : Nat) : Beat :=
  match beatClass image b with
  | .correctable d => d
  | _ => beatAt image (8 * b)

/-- Beats 0 to 3 of a record as read and corrected. -/
def correctedBytes (image : List Byte) : List Byte := [0, 1, 2, 3].flatMap fun b => beatBytes (correctedBeat image b)

/-- R176, R177: the account of a CORRECTABLE finding at beat `b` of slot `n`: the Record Fault List, the corrected count,
CORRECTED and THRESHOLD_REACHED; a slot that is on the list is not accounted again. -/
def State.accounted (s : State) (n : Slot) (b : Nat) (source : Source) : State :=
  if n ∈ s.faultList then s
  else
    let list := if s.faultList.length < 16 then s.faultList ++ [n] else s.faultList
    let a := State.emit { s with faultList := list, corrected := if s.corrected < 65535 then s.corrected + 1 else s.corrected }
      .corrected .corrected n.val b source.code
    if s.corrected < 65535 ∧ s.corrected + 1 = s.params.threshold then
      a.emit .thresholdReached .corrected 0xFFFF s.params.threshold list.length
    else a

/-- R178: the marker, the POISONED flag and RECORD_POISONED. -/
def State.poisonedAt (s : State) (n : Slot) (b : Nat) (source : Source) : State :=
  ((s.writeMarker n).setCtx n { s.ctx n with poisoned := true }).emit .recordPoisoned .recoverable n.val b source.code

/-- R173: the marker of a reading against the POISONED flag. -/
def State.markerJudged (s : State) (r : Reading) : State :=
  let marked := byteAt r.image 60 ≠ 0
  let flag := (s.ctx r.slot).poisoned
  if r.rewritten = true then s
  else if marked ∧ flag = false then
    let a := s.setCtx r.slot { s.ctx r.slot with poisoned := true }
    if r.source = .startup then a else a.emit .recordPoisoned .recoverable r.slot.val 0xFF r.source.code
  else if ¬ marked ∧ flag = true then s.writeMarker r.slot
  else s

/-- R174, R175, R178, R179: the check of beat `b`, with whether the record is held for poisoned before and after it. -/
def State.beatChecked (r : Reading) (p : State × Bool) (b : Nat) : State × Bool :=
  match beatClass r.image b, p.2 with
  | .correctable d, false =>
    ((if r.source ≠ .merge ∧ b ∉ r.overtaken then p.1.writeBack r.slot b d else p.1).accounted r.slot b r.source, false)
  | .uncorrectable, false => if b ∈ r.replaced then p else (p.1.poisonedAt r.slot b r.source, true)
  | _, _ => p

/-- R173 to R179: a reading is checked: its marker, then its beats in order. -/
def State.checked (s : State) (r : Reading) : State :=
  (r.beats.foldl (State.beatChecked r)
    (s.markerJudged r, byteAt r.image 60 != 0 || (s.ctx r.slot).poisoned)).1

/-- A beat of the reading is UNCORRECTABLE. -/
abbrev Reading.spoilt (r : Reading) : Prop := ∃ b ∈ r.beats, beatClass r.image b = .uncorrectable

/-- A reading that nothing has overtaken. -/
def readingOf (n : Slot) (source : Source) (image : List Byte) (beats : List Nat) : Reading :=
  { slot := n, source := source, image := image, beats := beats, overtaken := [], replaced := [], rewritten := false }

/-- R13: the scan goes on to the next slot, or ends: RUNNING is entered, the first scrub is set and STARTED is written. -/
def State.scanGoesOn (s : State) (n : Slot) : State :=
  if h : n.val + 1 < 1024 then { s with startup := .scan ⟨n.val + 1, h⟩ }
  else
    State.emit { s with
      op := .running, startup := .none, scrubPtr := 0
      scrubDeadline := some (s.timeBase + BitVec.ofNat 32 (2 ^ (s.params.globalBytes[2].toNat % 4))) }
      .started .none 0xFFFF (s.countState .provisioned) (s.countState .quarantined)

end Sys2Proof.Machine

section
open Sys2Proof Sys2Proof.Machine

/-! ### The block -/

/-- Log entry 4: a step runs the command at the front of the queue on the state with the queue's rest; with an empty queue
the block idles. -/
def Obligations.StepTakesFrontCommand : Prop :=
  (∀ (c : Instr) (q : List Instr) (s : State), step { s with pending := c :: q } = exec c { s with pending := q }) ∧
  ∀ s : State, s.pending = [] → step s = .next s

/-- Every command answers a next state, in every state; a transaction row alone may fault, when its operand is no
transaction of the link or when its initiator has one outstanding (R1; log entry 6). No command is refused. -/
def Obligations.CommandsAnswer : Prop :=
  ∀ (c : Instr) (s : State),
    match transactionOf c with
    | none => ∃ t, exec c s = .next t
    | some x =>
      if c.wellFormed = false then exec c s = .fault .illFormedTransaction
      else if (s.port x.initiator).outstanding.isSome then exec c s = .fault .transactionOutstanding
      else ∃ t, exec c s = .next t

/-- R21, R54, R87, R105, R123, R144, R171, R190, R201: the state after reset is safe. The state after reset takes the
values of log entry 2 where the spec gives none. -/
def Obligations.ResetIsSafe : Prop := State.reset.Safe

/-- The joint conditions of the contexts, heads, queues, lists, counters, memory and rings, and the level of ATTN, are kept
by every step. -/
def Obligations.StepKeepsSafe : Prop := ∀ s t : State, s.Safe → step s = .next t → t.Safe

/-- R198: after every command ATTN is asserted exactly while a condition holds. -/
def Obligations.AttnFollowsItsConditions : Prop :=
  ∀ (c : Instr) (s t : State), exec c s = .next t →
    (t.attn = true ↔ t.op = .configFault ∨ t.op = .halted ∨
      t.eventsWork ∧ ((0 < unread t.evCount t.evProd t.evCons ∧ t.params.attnEnable = true) ∨ t.contained = true))

/-- The end of a step changes ATTN and the bytes of the status block alone; a command that changes a field of the block, with
the index words written, leaves the whole block in memory as the fields then stand (R198, R199). The model's choice (log
entry 7): memory takes the status block once, at the end of the step that changes a field of it. -/
def Obligations.StepEndsBySettling : Prop :=
  (∀ before s : State, ∃ m, State.settle before s = { s with mem := m, attn := s.attnLevel } ∧
    (before.statusFields = s.statusFields ∨ s.statusLive = false → m = s.mem) ∧
    (Memory.wf s.mem → ∀ a, a < 0x180 ∨ 0x200 ≤ a → m.readByte a = s.mem.readByte a)) ∧
  ∀ (c : Instr) (s t : State), s.Sound → exec c s = .next t → t.statusLive = true → s.statusFields ≠ t.statusFields →
    ∀ i < 128, t.mem.readByte (0x180 + i) = byteAt t.statusBytes i

/-- R187, R20: HALTED is left only by a reset, and while it lasts no context, no queue, no counter, no field of the status
block, no consumer copy and no Directive Backlog changes. Ports, ordinary memory and the descriptor block still move (R20),
and so do the slot and the producer position of the final HALTED event; the model's choice (log entry 17): the directives
that stood at the entry are written no more. -/
def Obligations.HaltedLeftOnlyByReset : Prop :=
  ∀ (c : Instr) (s t : State), s.op = .halted → c ≠ .powerUp → c ≠ .rstinAsserted → exec c s = .next t →
    t.op = .halted ∧ t.ctxs = s.ctxs ∧ t.heads = s.heads ∧ t.table = s.table ∧ t.attach = s.attach ∧
      t.uplink = s.uplink ∧ t.requests = s.requests ∧ t.timeBase = s.timeBase ∧ t.statusFields = s.statusFields ∧
      t.dirCons = s.dirCons ∧ t.evCons = s.evCons ∧ t.backlog = s.backlog ∧
      t.dirOut = s.dirOut ∧ t.dirProd = s.dirProd ∧ t.map = s.map

/-! ### Resets, start-up and the time base -/

/-- R9, R144, R190: a power-on reset clears everything; an external reset keeps each head's staged or active values and its
failure count, the Record Fault List and the corrected count. Memory is as before where the reset cuts no downstream write
off; log entry 3 has the writes it cuts off. The model's choices: a context in RESET is VACANT with fields of 0 (log entry 2),
and a reset clears the latent parity marks (log entry 5). -/
def Obligations.ResetsClear : Prop :=
  ∀ s : State,
    (∃ t, exec .powerUp s = .next t ∧ t.op = .reset ∧ t.powerCame = true ∧ t.startup = .none ∧ t.cleared ∧
      (∀ x, t.head x = .powerOn) ∧ t.faultList = [] ∧ t.corrected = 0 ∧ t.attn = false ∧
      t.cpPort = s.cpPort.afterReset ∧ t.rlcPort = s.rlcPort.afterReset ∧
      (s.recordWrite = none → s.dirOut = [] ∨ s.op = .halted → s.evOut = [] → t.mem = s.mem)) ∧
    ∃ t, exec .rstinAsserted s = .next t ∧ t.op = .reset ∧ t.powerCame = s.powerCame ∧ t.startup = .none ∧
      t.cleared ∧
      (∀ x, t.head x = (s.head x).kept) ∧
      t.faultList = s.faultList ∧ t.corrected = s.corrected ∧ t.attn = false ∧
      t.cpPort = s.cpPort.afterReset ∧ t.rlcPort = s.rlcPort.afterReset ∧
      (s.recordWrite = none → s.dirOut = [] ∨ s.op = .halted → s.evOut = [] → t.mem = s.mem)

/-- R8, R9, R12 step 1: the release of reset begins start-up; elsewhere it does nothing. The time base counts in STARTING,
RUNNING and CONFIG_FAULT, wraps, and stands still in RESET and HALTED. The model's choice (log entry 10): the release of reset
does nothing where its source rules it out. -/
def Obligations.ResetReleaseAndTimeBase : Prop :=
  (∀ s : State,
    (s.op = .reset → exec .resetRelease s = s.ends { s with
      op := .starting, resetCause := if s.powerCame then .powerOn else .external, powerCame := false, timeBase := 0,
      startup := .descriptor }) ∧
    (s.op ≠ .reset → exec .resetRelease s = s.ends s)) ∧
  ∀ s : State, exec .timeBaseTick s = s.ends (
    if s.op = .starting ∨ s.op = .running ∨ s.op = .configFault then
      { s with timeBase := BitVec.ofNat 32 ((s.timeBase.toNat + 1) % 2 ^ 32) }
    else s)

/-- R12: the descriptor read puts a valid configuration in force, with the four index words at 0 and both rings empty;
an invalid one is a validation fault. The model's choice (log entry 7): memory takes the index words and the status
block in this step. -/
def Obligations.DescriptorReadChecksConfiguration : Prop :=
  ∀ s : State, Memory.wf s.mem → s.op = .starting → s.startup = .descriptor →
    let d := s.mem.readBytes 0 512
    let valid := (RegionMap.decode d).valid = true ∧ ∀ c < 8, ((ParamSet.decode d).cls c).valid = true
    ∃ t, exec .descriptorRead s = .next t ∧
      (valid → t.op = .starting ∧ t.startup = .scan 0 ∧ t.map = some (RegionMap.decode d) ∧
        t.active = some (ParamSet.decode d) ∧ t.staged = none ∧ t.mapChanged = false ∧
        t.dirProd = 0 ∧ t.dirCons = 0 ∧ t.evProd = 0 ∧ t.evCons = 0 ∧
        (∀ w ∈ [0x100, 0x108, 0x110, 0x118], ∀ i < 4, t.mem.readByte (w + i) = 0) ∧
        (∀ a, (∀ w ∈ [0x100, 0x108, 0x110, 0x118], a < w ∨ w + 4 ≤ a) → (a < 0x180 ∨ 0x200 ≤ a) →
          t.mem.readByte a = s.mem.readByte a)) ∧
      (¬ valid → t.op = .configFault ∧ t.startup = .none ∧ t.attn = true ∧ t.map = s.map ∧
        (∀ a, a < 0x180 ∨ 0x200 ≤ a → t.mem.readByte a = s.mem.readByte a)) ∧
      ∀ i < 128, t.mem.readByte (0x180 + i) = byteAt t.statusBytes i

/-- R13, R181: the scan of one record. A set marker quarantines the slot with no check of its beats. Otherwise the beats are
checked, the context takes the fields as corrected and its state, QUARANTINED where a beat is UNCORRECTABLE, and a new
identity joins the Identity Map. The scan goes on to the next slot, or ends. -/
def Obligations.ScanTakesOneRecord : Prop :=
  ∀ (s : State) (n : Slot), s.op = .starting → s.startup = .scan n → (n.val = 1023 → s.scanFatals = []) →
    let image := s.recordImage n
    (byteAt image 60 ≠ 0 → exec .scanRecordRead s = s.ends (State.scanGoesOn (s.setCtx n
      { scannedCtx image with state := .quarantined, poisoned := true }) n)) ∧
    let r := readingOf n .startup image [0, 1, 2, 3]
    let c := scannedCtx (correctedBytes image)
    let u := s.checked r
    (byteAt image 60 = 0 → r.spoilt → exec .scanRecordRead s = s.ends (State.scanGoesOn (u.setCtx n
      { c with state := .quarantined, poisoned := (u.ctx n).poisoned }) n)) ∧
    (byteAt image 60 = 0 → ¬ r.spoilt → (∀ e, s.mapLookup c.identity = some e → e.parityBad = false) →
      let st := s.scanned c.identity
      exec .scanRecordRead s = s.ends (State.scanGoesOn (State.setCtx
        { u with idMap := if st = .provisioned then mapSet s.idMap n c.identity else s.idMap } n
        { c with state := st, poisoned := (u.ctx n).poisoned }) n))

end

namespace Sys2Proof.Machine

/-! ### Words of the transaction statements -/

/-- A command whose transaction the link carries, at a port with nothing outstanding, that does not wrap (R1). -/
abbrev State.carries (s : State) (c : Instr) (x : Transaction) : Prop :=
  transactionOf c = some x ∧ c.wellFormed = true ∧ (s.port x.initiator).outstanding = none ∧ wraps x = false

/-- An area of the descriptor block that a CP write reaches besides ordinary bytes of it. -/
inductive Area where
  | params | regionMap | staging | consumer
deriving DecidableEq, Repr

/-- The write reaches the area: the staging area by a command it sets (R16). -/
def Area.reached (x : Transaction) : Area → Bool
  | .params => reaches x 0x080 0x0C0 || reaches x 0x048 0x04C
  | .regionMap => reaches x 0x000 0x030
  | .staging => stagingBits x != (false, false, false)
  | .consumer => reaches x 0x118 0x11C

/-- A CP write to the descriptor block that R6 does not refuse and that reaches no area but, it may be, the given one. -/
abbrev State.descriptorWrite (s : State) (c : Instr) (x : Transaction) (a : Option Area) : Prop :=
  s.carries c x ∧ s.op = .running ∧ classify s.map x = some .descriptor ∧ x.isRead = false ∧ x.initiator = .cp ∧
  reaches x 0x180 0x200 = false ∧ reaches x 0x100 0x104 = false ∧ reaches x 0x110 0x114 = false ∧
  reaches x 0x108 0x10C = false ∧ manyCommands x = false ∧
  ∀ b ∈ [Area.params, .regionMap, .staging, .consumer], some b ≠ a → b.reached x = false

/-- A transaction that R5 or R20 refuses by its region, its initiator and its kind. -/
def refusedIn (op : OpState) (r : Option Region) (x : Transaction) : Bool :=
  match op, r with
  | .reset, _ => true
  | .configFault, _ => false
  | _, none => true
  | .running, some r =>
    match r with
    | .handsetArray | .headArray => x.initiator == .rlc
    | .uplinkRing => !x.isRead && x.initiator == .cp
    | .requestRing => !x.isRead && x.initiator == .rlc
    | .directiveRing | .eventRing => !x.isRead
    | .descriptor | .ordinary => false
  | .starting, some r =>
    match r with
    | .handsetArray | .headArray | .uplinkRing | .requestRing => true
    | _ => false
  | .halted, some r =>
    match r with
    | .descriptor | .ordinary => false
    | _ => true

/-- A consumer value that R193 accepts. -/
abbrev acceptedValue (n prod copy v : Nat) : Prop := v < n ∧ (v + n - copy) % n ≤ (prod + n - copy) % n

/-- The bytes a write has for a handset record, and the record as one write of its own. -/
abbrev State.recordBytes (s : State) (x : Transaction) (n : Slot) : List (Option Byte) :=
  bytesFor x (s.handsetAddr n) 64

/-- A CP write whose enabled bytes lie in the record of one slot (R22). -/
abbrev State.writesRecord (s : State) (c : Instr) (x : Transaction) (n : Slot) : Prop :=
  s.carries c x ∧ s.op = .running ∧ classify s.map x = some .handsetArray ∧ x.isRead = false ∧ x.initiator = .cp ∧
  recordNumbers (recordOffsets (s.handsetAddr 0) 64 ((enabled x).map Prod.fst)) = [n.val]

/-- A CP write whose enabled bytes lie in the record of one head (R22). -/
abbrev State.writesHead (s : State) (c : Instr) (x : Transaction) (h : Head) : Prop :=
  s.carries c x ∧ s.op = .running ∧ classify s.map x = some .headArray ∧ x.isRead = false ∧ x.initiator = .cp ∧
  recordNumbers (recordOffsets (s.headAddr 0) 32 ((enabled x).map Prod.fst)) = [h.val]

/-- A provisioned write of whole beats alone (R27, R28). -/
abbrev wholeBeats (w : List (Option Byte)) : Prop :=
  (∀ b ∈ [0, 1, 2, 3], (w.drop (8 * b)).take 8 = List.replicate 8 none ∨ ((w.drop (8 * b)).take 8).all Option.isSome) ∧
  (w.drop 32).all Option.isNone = true

/-! ### What a CP write to the areas of the descriptor block does, one area after the other -/

/-- R193, R197: an accepted event consumer value: the copy moves, and a move that makes room reports the events lost. -/
def State.consumed (s : State) (v : Nat) : State :=
  if v = s.evCons ∨ s.eventsLost = 0 then { s with evCons := v }
  else { s with
    evCons := v, eventsLost := 0
    evOut := s.evOut ++ [{ kind := .eventsLost, severity := .none, subject := 0xFFFF, time := s.timeBase,
                           detail1 := BitVec.ofNat 32 s.eventsLost, detail2 := 0 }] }

/-- R17: the class table and the parameter word. -/
def State.parameters (s : State) (x : Transaction) : State :=
  if Area.params.reached x = true then
    match s.staged with
    | none => s.emit .configIgnored .none 0xFFFF x.addr.toNat 0
    | some p =>
      let q : ParamSet :=
        { classBytes := Vector.ofFn fun i => (writtenAt x (0x080 + i.val)).getD p.classBytes[i]
          globalBytes := Vector.ofFn fun i => (writtenAt x (0x048 + i.val)).getD p.globalBytes[i] }
      { s with staged := some q }
  else s

/-- R19: the region map. -/
def State.mapped (s : State) (x : Transaction) : State :=
  if Area.regionMap.reached x = true then { s with mapChanged := true } else s

/-- R16, R18: the staging command. -/
def State.commanded (s : State) (x : Transaction) : State :=
  match stagingBits x with
  | (true, _, _) => { s with staged := s.active }
  | (_, true, _) =>
    match s.staged with
    | none => s.emit .configIgnored .none 0xFFFF 0 0
    | some p =>
      match (List.range 8).find? fun k => !(p.cls k).valid with
      | none => State.emit { s with staged := none, active := some p } .configApplied .none 0xFFFF 0 0
      | some k => State.emit { s with staged := none } .configRejected .none 0xFFFF k 0
  | (_, _, true) => s.emit .configIgnored .none 0xFFFF 0 0
  | _ => s

end Sys2Proof.Machine

section
open Sys2Proof Sys2Proof.Machine

/-! ### The upstream port -/

/-- R5, R6, R16 to R19, R193: the sixteen transaction rows are one treatment, chosen by the content of the
transaction. The model's choice (log entry 11): the rows' names choose nothing. -/
def Obligations.TransactionRowsAgree : Prop :=
  ∀ (c : Instr) (x : Transaction) (s : State), transactionOf c = some x → c.wellFormed = true →
    exec c s = exec (.upstreamTransaction x) s

/-- R2 to R5: ordinary traffic passes in STARTING, RUNNING and HALTED, and so does a read of an intake or output ring in
RUNNING. What passes is answered DONE: a read with memory's data, a write when memory has taken its enabled bytes; nothing
else changes. The model's choice (log entry 7): memory takes a passed write in the step that sends it on. -/
def Obligations.OrdinaryTrafficPasses : Prop :=
  (∀ (s : State) (c : Instr) (x : Transaction), s.carries c x →
    (s.op = .starting ∨ s.op = .running ∨ s.op = .halted) ∧ classify s.map x = some .ordinary ∨
      s.op = .running ∧ x.isRead = true ∧
        classify s.map x ∈ [some .descriptor, some .uplinkRing, some .requestRing, some .directiveRing, some .eventRing] →
    exec c s = s.ends (s.passed x)) ∧
  ∀ (s : State) (x : Transaction), Memory.wf s.mem →
    (∃ m p q, s.passed x = { s with mem := m, cpPort := p, rlcPort := q }) ∧
    (∀ a, (s.passed x).mem.readByte a = (writtenAt x a).getD (s.mem.readByte a)) ∧
    (s.passed x).port x.initiator =
      { outstanding := none
        answer := some (.done (if x.isRead then (beatAddrs x).map s.mem.readBeat else [])) } ∧
    ∀ i, i ≠ x.initiator → (s.passed x).port i = s.port i

/-- R4, R5, R9, R14, R20: a transaction that lies partly in a region, or that its region, initiator and kind rule out, or
that wraps, is refused; nothing of it reaches memory and nothing else changes. The model's choice (log entry 21): before the
index words a transaction partly in the descriptor block is refused like any other that lies partly in a region. -/
def Obligations.RefusedTransactionChangesNothing : Prop :=
  ∀ (s : State) (c : Instr) (x : Transaction), transactionOf c = some x → c.wellFormed = true →
    (s.port x.initiator).outstanding = none → wraps x = true ∨ refusedIn s.op (classify s.map x) x = true →
    exec c s = s.ends (s.answered x.initiator .refused)

/-! ### The descriptor block -/

/-- R6, R14, R20: the descriptor block. In RUNNING a CP write that reaches the status block, a producer word or the directive
consumer word, or sets two staging commands, is refused, as is an RLC write outside the directive consumer word; a CP write
that reaches no area with a meaning passes. In STARTING reads pass; writes pass without effect before the index words, and
after them a CP write is refused in the same areas and otherwise passes without effect, and an RLC write is refused outside
the directive consumer word; the output rings pass. In HALTED the block passes. -/
def Obligations.DescriptorWriteBySort : Prop :=
  ∀ (s : State) (c : Instr) (x : Transaction), s.carries c x →
    let refuses : Prop := exec c s = s.ends (s.answered x.initiator .refused)
    let passes : Prop := exec c s = s.ends (s.passed x)
    let forbidden : Prop := (reaches x 0x180 0x200 || reaches x 0x100 0x104 || reaches x 0x110 0x114 ||
      reaches x 0x108 0x10C) = true
    (classify s.map x = some .descriptor →
      (s.op = .running → x.isRead = false →
        (if x.initiator = .cp then forbidden ∨ manyCommands x = true else confined x 0x108 0x10C = false) → refuses) ∧
      (s.descriptorWrite c x none → passes) ∧
      (s.op = .starting → x.isRead = true ∨ s.startup = .descriptor → passes) ∧
      (∀ n, s.op = .starting → s.startup = .scan n → x.isRead = false →
        ((if x.initiator = .cp then forbidden else confined x 0x108 0x10C = false) → refuses) ∧
        (x.initiator = .cp → ¬ forbidden → reaches x 0x118 0x11C = false → passes)) ∧
      (s.op = .halted → passes)) ∧
    (s.op = .starting → classify s.map x = some .directiveRing ∨ classify s.map x = some .eventRing → passes)

/-- R6, R16 to R19: a CP write to the descriptor block in RUNNING may reach several areas. A refused event consumer value
refuses the whole of it; otherwise memory takes it, the consumer copy moves, and it acts in this order: the class table or the
parameter word, the region map, whose flag it sets, and the staging command. A write that reaches the region map alone changes
no active map and writes no event. -/
def Obligations.AreasActInOrder : Prop :=
  ∀ (s : State) (c : Instr) (x : Transaction), s.carries c x → s.op = .running → classify s.map x = some .descriptor →
    x.isRead = false → x.initiator = .cp →
    (reaches x 0x180 0x200 || reaches x 0x100 0x104 || reaches x 0x110 0x114 || reaches x 0x108 0x10C || manyCommands x)
      = false →
    let v := consumerValue x 0x118 s.evCons
    (Area.consumer.reached x = true → ¬ acceptedValue s.evCount s.evProd s.evCons v →
      exec c s = s.ends ((s.answered .cp .refused).emit .indexRefused .none 0xFFFF (outCode .event) v)) ∧
    ((Area.consumer.reached x = true → acceptedValue s.evCount s.evProd s.evCons v ∧ s.evCons < s.evCount) →
      exec c s = s.ends (State.commanded (State.mapped (State.parameters (
        if Area.consumer.reached x = true then (s.passed x).consumed v else s.passed x) x) x) x)) ∧
    (s.descriptorWrite c x (some .regionMap) → Area.regionMap.reached x = true →
      exec c s = s.ends { s.passed x with mapChanged := true })

/-- R17: a class table or parameter write reaches memory, and with staging OPEN the staged set takes its bytes; with
staging CLOSED it is ignored with an event. The active set does not change. -/
def Obligations.ParameterWriteStages : Prop :=
  ∀ (s : State) (c : Instr) (x : Transaction), s.descriptorWrite c x (some .params) →
    Area.params.reached x = true →
    (s.staged = none → exec c s = s.ends ((s.passed x).emit .configIgnored .none 0xFFFF x.addr.toNat 0)) ∧
    ∀ p, s.staged = some p → ∃ q, exec c s = s.ends { s.passed x with staged := some q } ∧
      (∀ i : Fin 64, q.classBytes[i] = (writtenAt x (0x080 + i.val)).getD p.classBytes[i]) ∧
      ∀ i : Fin 4, q.globalBytes[i] = (writtenAt x (0x048 + i.val)).getD p.globalBytes[i]

/-- R16, R18: BEGIN opens staging as a copy of the active set; APPLY closes it and makes a valid set active, or rejects an
invalid one with its lowest invalid class; APPLY with staging CLOSED, and RESTART, are ignored with an event. -/
def Obligations.StagingCommandsAct : Prop :=
  ∀ (s : State) (c : Instr) (x : Transaction), s.descriptorWrite c x (some .staging) →
    (stagingBits x = (true, false, false) → exec c s = s.ends { s.passed x with staged := s.active }) ∧
    (stagingBits x = (false, true, false) →
      (s.staged = none → exec c s = s.ends ((s.passed x).emit .configIgnored .none 0xFFFF 0 0)) ∧
      (∀ p, s.staged = some p → (∀ k < 8, (p.cls k).valid = true) → exec c s = s.ends
        (State.emit { s.passed x with staged := none, active := some p } .configApplied .none 0xFFFF 0 0)) ∧
      ∀ p k, s.staged = some p → k < 8 → (p.cls k).valid = false → (∀ j < k, (p.cls j).valid = true) →
        exec c s = s.ends (State.emit { s.passed x with staged := none } .configRejected .none 0xFFFF k 0)) ∧
    (stagingBits x = (false, false, true) →
      exec c s = s.ends ((s.passed x).emit .configIgnored .none 0xFFFF 0 0))

/-- R15: in CONFIG_FAULT everything passes, and RESTART alone in a CP write begins start-up again, with what an external reset
keeps. The model's choices: a context before the scan is VACANT with fields of 0 (log entry 2), and the restart clears the
latent parity marks (log entry 5). -/
def Obligations.ConfigFaultPassesAndRestarts : Prop :=
  ∀ (s : State) (c : Instr) (x : Transaction), s.carries c x → s.op = .configFault →
    (¬ (x.initiator = .cp ∧ stagingBits x = (false, false, true)) → exec c s = s.ends (s.passed x)) ∧
    (x.initiator = .cp → stagingBits x = (false, false, true) → ∃ t, exec c s = .next t ∧ t.op = .starting ∧
      t.startup = .descriptor ∧ t.resetCause = .restart ∧ t.powerCame = false ∧ t.timeBase = 0 ∧ t.cleared ∧
      (∀ h, t.head h = (s.head h).kept) ∧ t.faultList = s.faultList ∧ t.corrected = s.corrected ∧ t.attn = false ∧
      t.mem = (s.passed x).mem ∧ t.cpPort = (s.passed x).cpPort ∧ t.rlcPort = s.rlcPort)

/-! ### The output rings -/

/-- R192, R194, R195, R196, R200: an event takes the time base and goes to the Event Ring while it has room and none stands lost;
else it is dropped and the events-lost count gains 1, up to 65535. A directive takes the SUSPECT flag and goes to the ring while
the backlog is empty and the ring has room, else to the tail of the backlog while it holds fewer than 16, else it is dropped,
counted and reported. Memory takes a record in the slot at the producer position, then the producer word with the next position,
and the producer position takes it. In HALTED only the Event Ring is written. The model's choice (log entry 8): records accepted
and still being written count against the room, the record and its producer word are two commands, and each ring has one record
in writing at a time. -/
def Obligations.OutputRecordsAreTakenAndWritten : Prop :=
  (∀ (s : State) (k : EventKind) (v : Severity) (subject d1 d2 : Nat), s.eventsLost ≤ 65535 →
    s.emit k v subject d1 d2 =
      if unread s.evCount s.evProd s.evCons + s.evOut.length < s.evCount - 1 ∧ s.eventsLost = 0 then
        { s with evOut := s.evOut ++ [{ kind := k, severity := v, subject := BitVec.ofNat 16 subject, time := s.timeBase,
                                        detail1 := BitVec.ofNat 32 d1, detail2 := BitVec.ofNat 32 d2 }] }
      else { s with eventsLost := min 65535 (s.eventsLost + 1) }) ∧
  (∀ (s : State) (d : Directive), s.dirDropped ≤ 65535 →
    s.takeDirective d =
      if s.backlog = [] ∧ unread s.dirCount s.dirProd s.dirCons + s.dirOut.length < s.dirCount - 1 then
        { s with dirOut := s.dirOut ++ [{ d with suspect := s.contained }] }
      else if s.backlog.length < 16 then { s with backlog := s.backlog ++ [{ d with suspect := s.contained }] }
      else State.emit { s with dirDropped := min 65535 (s.dirDropped + 1) } .directiveDropped .none
        (d.dest.elim 0xFE Fin.val) d.kind.code (d.slot.elim 0xFFFF Fin.val)) ∧
  (∀ s : State, s.eventsWork →
    (∀ d rest m, s.dirOut = d :: rest → s.map = some m → s.dirSent = false →
      exec (.ringSlotWritten .directive) s =
        s.ends { s with mem := s.mem.writeAll (m.directiveBase + 32 * s.dirProd) d.bytes, dirSent := true }) ∧
    (∀ d rest, s.dirOut = d :: rest → s.dirSent = true →
      exec (.producerWordWritten .directive) s =
        s.ends { s with mem := s.mem.writeAll 0x100 (leBytes 4 ((s.dirProd + 1) % s.dirCount)),
                        dirProd := (s.dirProd + 1) % s.dirCount, dirOut := rest, dirSent := false })) ∧
  (∀ s : State, s.eventsWork ∨ s.op = .halted →
    (∀ e rest m, s.evOut = e :: rest → s.map = some m → s.evSent = false →
      exec (.ringSlotWritten .event) s =
        s.ends { s with mem := s.mem.writeAll (m.eventBase + 16 * s.evProd) e.bytes, evSent := true }) ∧
    (∀ e rest, s.evOut = e :: rest → s.evSent = true →
      exec (.producerWordWritten .event) s =
        s.ends { s with mem := s.mem.writeAll 0x110 (leBytes 4 ((s.evProd + 1) % s.evCount)),
                        evProd := (s.evProd + 1) % s.evCount, evOut := rest, evSent := false })) ∧
  ∀ s : State, s.op = .halted →
    exec (.ringSlotWritten .directive) s = s.ends s ∧ exec (.producerWordWritten .directive) s = s.ends s

/-- R193, R195, R197, R14: an RLC write of the directive consumer word, and a CP write of the event consumer word, are accepted
when the value is below the slot count and no further from the copy than the unread records; otherwise they are refused with
INDEX_REFUSED. The copy takes an accepted value. Room in the Directive Ring is filled by the oldest directives of the backlog;
room in the Event Ring is reported with the events lost first of all, and their count is cleared. In STARTING, after the index
words, a CP write that reaches the event consumer word does nothing else. The model's choices: directives accepted and still
being written count against the room that the backlog fills (log entry 8), and an RLC write with no enabled byte has the copy
itself as its value and moves nothing (log entry 25). -/
def Obligations.ConsumerWritesAreJudged : Prop :=
  (∀ (s : State) (c : Instr) (x : Transaction), s.carries c x → s.eventsWork → classify s.map x = some .descriptor →
    x.isRead = false → x.initiator = .rlc → confined x 0x108 0x10C = true →
    let v := consumerValue x 0x108 s.dirCons
    let room := s.dirCount - 1 - unread s.dirCount s.dirProd v - s.dirOut.length
    (acceptedValue s.dirCount s.dirProd s.dirCons v →
      exec c s = s.ends { s.passed x with
        dirCons := v, dirOut := s.dirOut ++ s.backlog.take room, backlog := s.backlog.drop room }) ∧
    (¬ acceptedValue s.dirCount s.dirProd s.dirCons v →
      exec c s = s.ends ((s.answered .rlc .refused).emit .indexRefused .none 0xFFFF (outCode .directive) v))) ∧
  (∀ (s : State) (c : Instr) (x : Transaction), s.descriptorWrite c x (some .consumer) →
    Area.consumer.reached x = true →
    let v := consumerValue x 0x118 s.evCons
    (acceptedValue s.evCount s.evProd s.evCons v →
      (v ≠ s.evCons → s.evCons < s.evCount → s.eventsLost ≠ 0 → exec c s = s.ends { s.passed x with
        evCons := v, eventsLost := 0
        evOut := s.evOut ++ [{ kind := .eventsLost, severity := .none, subject := 0xFFFF, time := s.timeBase,
                               detail1 := BitVec.ofNat 32 s.eventsLost, detail2 := 0 }] }) ∧
      (v = s.evCons ∨ s.eventsLost = 0 → exec c s = s.ends { s.passed x with evCons := v })) ∧
    (¬ acceptedValue s.evCount s.evProd s.evCons v →
      exec c s = s.ends ((s.answered .cp .refused).emit .indexRefused .none 0xFFFF (outCode .event) v))) ∧
  ∀ (s : State) (c : Instr) (x : Transaction) (n : Slot), s.carries c x → s.op = .starting → s.startup = .scan n →
    classify s.map x = some .descriptor → x.isRead = false → x.initiator = .cp → Area.consumer.reached x = true →
    reaches x 0x180 0x200 = false → reaches x 0x100 0x104 = false → reaches x 0x110 0x114 = false →
    reaches x 0x108 0x10C = false → s.evCons < s.evCount →
    let v := consumerValue x 0x118 s.evCons
    (acceptedValue s.evCount s.evProd s.evCons v → exec c s = s.ends ((s.passed x).consumed v)) ∧
    (¬ acceptedValue s.evCount s.evProd s.evCons v →
      exec c s = s.ends ((s.answered .cp .refused).emit .indexRefused .none 0xFFFF (outCode .event) v))

end

namespace Sys2Proof.Machine

/-! ### Words about directives, contexts and windows -/

/-- A directive about a handset: its cached identity and its slot (R194). -/
def State.tell (s : State) (k : DirectiveKind) (dest : Option Head) (n : Slot)
    (f : Directive → Directive := fun d => d) : State :=
  s.takeDirective (f { Directive.blank k dest with identity := (s.ctx n).identity, slot := some n })

/-- An attach directive: the identity of the ATTACH and its slot (R70, R72). -/
def State.reply (s : State) (k : DirectiveKind) (h : Head) (id : Identity) (n : Slot)
    (f : Directive → Directive := fun d => d) : State :=
  s.takeDirective (f { Directive.blank k (some h) with identity := id, slot := some n })

/-- A context outside registration, in the state given: nothing held, no window, no levels, no failure count (R56, R57). -/
def HandsetCtx.away (c : HandsetCtx) (st : HandsetState) : HandsetCtx :=
  { c with
    state := st, admissionHead := none, offerDeadline := none, serving := none, channel := none, media := none
    txn := none, hoFail := 0, presence := .idle, quality := .idle }

/-- A registered context outside a call, at a serving head, in the state and window given (R56, R57). -/
def HandsetCtx.settled (c : HandsetCtx) (st : HandsetState) (h : Option Head) (p : Presence) : HandsetCtx :=
  { c with
    state := st, admissionHead := none, offerDeadline := none, serving := h, channel := none, media := none
    txn := none, presence := p, quality := .idle }

/-- A window that starts now (R91). -/
def windowOf (m : PresenceMode) (d now : Time) (missed : Bool) : Presence :=
  { mode := m, period := some d, start := some now, deadline := some (now + d), missed := missed, early := false }

/-- The IDLE window of a class: WINDOW for mode 0, TIMEOUT for mode 1 (R89). -/
def idleOf (e : ClassEntry) (now : Time) (missed : Bool) : Presence :=
  windowOf (if e.mode = 0 then .window else .timeout) (periodMs e.period) now missed

/-- The DOZE window of a class (R89). -/
def dozeOf (e : ClassEntry) (now : Time) : Presence := windowOf .timeout (periodMs e.doze) now false

/-- The active class entry of a context. -/
abbrev State.terms (s : State) (c : HandsetCtx) : ClassEntry := s.params.cls c.cls.toNat

/-- A handset with an open transaction in a table entry that reads without fault. -/
abbrev State.holds (s : State) (n : Slot) (e : EntryNo) (t : Handover) : Prop :=
  (s.ctx n).state = .moving ∧ (s.ctx n).txn = some (e, t.origin) ∧ s.entry e = { txn := some t, parityBad := false } ∧
  t.slot = n

/-! ### Words about calls, channels, transactions and heads -/

/-- No rebuild of the slot's context is in progress and its stored parity is right (R184). -/
abbrev State.readable (s : State) (n : Slot) : Prop := s.rebuilding n = false ∧ (s.ctx n).ctxParityBad = false

/-- No latent parity fault stands in a context, a Channel Pool or the table, and no context is being rebuilt (R184, R186). -/
structure State.undamaged (s : State) : Prop where
  contexts : ∀ n, s.readable n
  pools : ∀ h, (s.head h).poolParityBad = false
  entries : ∀ e, (s.entry e).parityBad = false

/-- R66, R57: staged fields in force. -/
def HandsetCtx.unstaged (c : HandsetCtx) : HandsetCtx :=
  match c.staged with
  | none => c
  | some f => { c with cls := f.cls, group := f.group, policy := f.policy, priority := f.priority, staged := none }

/-- A context whose call, if one is up, has ended: staged fields are in force (R66). -/
def HandsetCtx.left (c : HandsetCtx) : HandsetCtx := if c.state.inCall then c.unstaged else c

/-- A context in a state of a call, with no transaction; from a state outside a call its call presence and an empty quality
context begin (R56, R57, R91, R106). -/
def HandsetCtx.calling (c : HandsetCtx) (st : HandsetState) (now : Time) : HandsetCtx :=
  { c with
    state := st, admissionHead := none, offerDeadline := none, txn := none
    presence := if c.state.inCall then c.presence else windowOf .call 5000 now false
    quality := if c.state.inCall then c.quality else .idle }

/-- R135: staged values of a head in force. -/
def HeadCtx.unstaged (h : HeadCtx) : HeadCtx :=
  match h.staged with
  | none => h
  | some (c, g) => { h with capacity := c, guard := g, staged := none }

/-- The number of channels allocated at a head. -/
def HeadCtx.inUse (h : HeadCtx) : Nat := (h.pool.toList.filter Option.isSome).length

/-- R136: the channels of a head that are not allocated. -/
def HeadCtx.freeCount (h : HeadCtx) : Nat := h.capacity - h.inUse

/-- R136: the lowest channel number of a head that is not allocated. -/
def HeadCtx.lowest (h : HeadCtx) : Option Chan :=
  (List.finRange 12).find? fun c => decide (c.val < h.capacity) && h.pool[c].isNone

/-- R136: the lowest channel number of a head that is not allocated. -/
abbrev State.lowestChannel (s : State) (h : Head) (ch : Chan) : Prop :=
  ch.val < (s.head h).capacity ∧ (s.head h).pool[ch] = none ∧ ∀ j : Chan, j < ch → (s.head h).pool[j].isSome = true

/-- The channel that a reservation or a re-establishment finds at a head (R138, R139). -/
def HeadCtx.vacancy (h : HeadCtx) : Option Chan := if 1 ≤ h.freeCount then h.lowest else none

/-- R136: an allocated channel with an owner. -/
def HeadCtx.allotted (h : HeadCtx) (c : Chan) (o : Owner) : HeadCtx := { h with pool := h.pool.set c (some o) }

/-- R140: an allocated channel changes its owner. -/
def HeadCtx.handed (h : HeadCtx) (c : Chan) (o : Owner) : HeadCtx := if h.pool[c].isSome then h.allotted c o else h

/-- R146: the lowest free entry of the table. -/
def State.vacantEntry (s : State) : Option EntryNo := (List.finRange 32).find? fun e => (s.entry e).txn.isNone

/-- The transaction that a context names, as its entry holds it (R146). -/
def State.openTxn (s : State) (n : Slot) : Option (EntryNo × Handover) :=
  (s.ctx n).txn.bind fun p => (s.entry p.1).txn.map fun t => (p.1, t)

/-- The channels a transaction names besides the call channel: its reservation and its held source channel (R147). -/
def Handover.named (t : Handover) : List (Head × Chan) :=
  (t.target.bind fun h => t.targetChan.map fun c => (h, c)).toList ++ (t.heldChan.map fun c => (t.source, c)).toList

/-- The call channel of a context. -/
def HandsetCtx.callChannels (c : HandsetCtx) : List (Head × Chan) :=
  (c.serving.bind fun h => c.channel.map fun ch => (h, ch)).toList

/-- R142: the rank of a cause. -/
def Cause.precedence : Cause → Nat
  | .urgent | .orphan | .drain => 0
  | .quality | .forced | .reestablish => 1

/-- R142: the place of one transaction before another: rank, priority, opening time by modular distance, slot. -/
abbrev WaitEntry.ahead (x y : WaitEntry) : Prop :=
  x.cause.precedence < y.cause.precedence ∨ x.cause.precedence = y.cause.precedence ∧
    (y.priority < x.priority ∨ x.priority = y.priority ∧
      (x.opened ≠ y.opened ∧ (y.opened - x.opened).toNat < 2 ^ 31 ∨ x.opened = y.opened ∧ x.slot < y.slot))

/-- R142: a joining transaction stands behind the ones it is not ahead of, up to the first it is ahead of. -/
def joined (x : WaitEntry) : List WaitEntry → List WaitEntry
  | [] => [x]
  | y :: rest => if x.ahead y then x :: y :: rest else y :: joined x rest

/-- A RESERVING transaction has left the wait queue of its target (R143). -/
def State.withdrawn (s : State) (e : EntryNo) (t : Handover) : State :=
  match t.phase, t.target with
  | .reserving, some h => s.setHead h { s.head h with waitQ := (s.head h).waitQ.filter fun w => w.entry != e }
  | _, _ => s

/-- R150: a transaction is COMMANDED with a channel of its target. -/
def State.granted (s : State) (e : EntryNo) (h : Head) (ch : Chan) : State :=
  match (s.entry e).txn with
  | none => s
  | some t =>
    ((s.setEntry e { s.entry e with
      txn := some { t with phase := .commanded, targetChan := some ch, deadline := s.timeBase + 300 } }).tell
      .channelAssign (some h) t.slot fun d => { d with channel := some ch }).tell .handoverGo (some t.source) t.slot
      fun d => { d with targetHead := some h, targetChan := some ch }

/-- R133: a head whose drain has ended. -/
def State.drained (s : State) (h : Head) : State :=
  let x := (s.head h).unstaged
  (s.setHead h { x with state := .outOfService, liveness := none }).emit .headDrained .none h.val x.capacity 0

/-- R141, R143, R133: a channel leaves the allocated set of a head; at a head IN_SERVICE the first waiter is granted the
lowest free channel at once, and a DRAINING head with no channel left ends its drain. -/
def State.freed (s : State) (h : Head) (c : Chan) : State :=
  let x := { s.head h with pool := (s.head h).pool.set c none }
  let u := s.setHead h x
  match x.state, x.waitQ, x.lowest with
  | .inService, w :: rest, some ch =>
    (u.setHead h { x.allotted ch (.reservation w.entry) with waitQ := rest }).granted w.entry h ch
  | .draining, _, _ => if x.inUse = 0 then u.drained h else u
  | _, _, _ => u

/-- R141: CHANNEL_RELEASE and the release; at a head FAILED or OUT_OF_SERVICE neither. -/
def State.released (s : State) (n : Slot) (h : Head) (c : Chan) : State :=
  if (s.head h).state ∈ [HeadState.failed, .outOfService] then s
  else (s.takeDirective { Directive.blank .channelRelease (some h) with slot := some n, channel := some c }).freed h c

/-- The releases of several channels of a slot, in order. -/
def State.releasedAll (s : State) (n : Slot) (cs : List (Head × Chan)) : State :=
  cs.foldl (fun u p => u.released n p.1 p.2) s

/-- R81, R82, R163, R164, steps 1 and 2 of the end of a call: its transaction is closed, with HANDOVER_ABANDONED or
silently, and its channels are released. -/
def State.cut (s : State) (n : Slot) (abandoned : Bool) : State :=
  match s.openTxn n with
  | none => s.releasedAll n (s.ctx n).callChannels
  | some (e, t) =>
    let a := (s.withdrawn e t).setEntry e .empty
    let b := if abandoned then a.emit .handoverAbandoned .none n.val t.phase.code (headCode t.target) else a
    b.releasedAll n ((s.ctx n).callChannels ++ t.named)

/-- R82: a call drop, as far as its event. -/
def State.dropped (s : State) (n : Slot) (cause : Nat) : State :=
  (s.cut n false).emit .callDropped .none n.val (headCode (s.ctx n).serving) cause

/-- R162: the closure of a transaction that does not count. -/
def State.closed (s : State) (reason : Nat) (e : EntryNo) : State :=
  match (s.entry e).txn with
  | none => s
  | some t =>
    ((s.setEntry e .empty).setCtx t.slot ((s.ctx t.slot).calling t.origin.state s.timeBase)).emit .handoverFailed .none
      t.slot.val reason (headCode t.target)

/-- R131: no transaction waits for the head any more, the waiting ones being closed in ascending slot order. -/
def State.unwaited (s : State) (h : Head) : State :=
  (s.txnsWhere fun t => t.target == some h && t.phase == .reserving).foldl (fun u e => u.closed 6 e) s

/-- R157: the end of a media hold. -/
def State.holdEnded (s : State) (e : EntryNo) (t : Handover) (media : Option Head) (detail : Nat) : State :=
  (((s.setEntry e .empty).setCtx t.slot
    { (s.ctx t.slot).calling .active s.timeBase with media := media, hoFail := 0 }).releasedAll t.slot t.named).emit
      .mediaReleased .none t.slot.val detail t.source.val

/-- R149: what an opening with a target sets before its reservation is answered. -/
def State.opening (s : State) (n : Slot) (source target : Head) (cause : Cause) (e : EntryNo) : State :=
  let o : Origin := if (s.ctx n).state = .pinned then .pinned else .active
  ((s.setEntry e
    { txn := some
        { slot := n, cause := cause, phase := .reserving, source := source, target := some target, targetChan := none
          heldChan := none, deadline := s.timeBase + 2000, origin := o, opened := s.timeBase }
      parityBad := false }).setCtx n { (s.ctx n).calling .moving s.timeBase with txn := some (e, o) }).emit
    .handoverOpened .none n.val target.val cause.code

/-- R138, R149, R150: an opening toward a head IN_SERVICE: it is granted the lowest free channel, or waits. -/
def State.opened (s : State) (n : Slot) (source target : Head) (cause : Cause) (e : EntryNo) : State :=
  let a := s.opening n source target cause e
  let x := s.head target
  match x.vacancy with
  | some ch => (a.setHead target (x.allotted ch (.reservation e))).granted e target ch
  | none => a.setHead target { x with
      waitQ := joined { entry := e, slot := n, cause := cause, priority := (s.ctx n).priority, opened := s.timeBase }
        x.waitQ }

/-- R109: a filtered level: the step is the difference divided by 2^k toward zero, and at least one unit toward the
entering level. -/
def filtered (k : Nat) (old entering : Int) : Int :=
  let step := (entering - old).tdiv (2 ^ k)
  old + if step = 0 then (entering - old).sign else step

/-- R108: the entering level of a reported level: 127 is read as 126. -/
def entering (reported : Nat) : Nat := min reported 126

/-- R111: an entry in its place in a list in order. -/
def inPlace (x : Candidate) : List Candidate → List Candidate
  | [] => [x]
  | y :: rest =>
    if y.level < x.level ∨ x.level = y.level ∧ x.head < y.head then x :: y :: rest else y :: inPlace x rest

/-- R113: an entry is offered to a list: it joins while there is room, or replaces the last entry when its level is
higher. -/
def offeredTo (cs : List Candidate) (x : Candidate) : List Candidate :=
  if ∃ c ∈ cs, c.head = x.head then cs
  else if cs.length < 4 then inPlace x cs
  else match cs.getLast? with
    | none => cs
    | some last => if last.level < x.level then inPlace x cs.dropLast else cs

/-- R112: an entry of the list after a report with the given candidate samples. -/
def Candidate.after (c : Candidate) (k : Nat) (others : List (Head × Nat)) : Option Candidate :=
  match others.find? fun p => p.1 == c.head with
  | some p => some { c with
      level := (filtered k c.level (entering p.2)).toNat, staleness := 0, underRange := p.2 == 0
      overRange := p.2 == 127 }
  | none => if c.staleness + 1 < 3 then some { c with staleness := c.staleness + 1 } else none

/-- R108, R110, R112, R113: the quality context after a report with constant `k` at serving head `h`; a report with no sample
for the serving head is read as one of level 0. -/
def Quality.after (q : Quality) (k : Nat) (h : Head) (samples : List (Head × Nat)) : Quality :=
  let own := ((samples.find? fun p => p.1 == h).map Prod.snd).getD 0
  let others := samples.filter fun p => p.1 != h
  let kept := (q.candidates.filterMap fun c => c.after k others).foldr inPlace []
  let new := (others.filter fun p => kept.all fun c => c.head != p.1).map fun p =>
    { head := p.1, level := entering p.2, staleness := 0, dwell := 0, underRange := p.2 == 0, overRange := p.2 == 127 }
  { q with
    level := some (match q.level with | none => entering own | some old => (filtered k old (entering own)).toNat)
    underRange := own == 0, overRange := own == 127, candidates := new.foldl offeredTo kept }

/-- R114: the change of serving head: the new head's entry gives the serving level, the old head is offered to the list, and
every dwell is 0. -/
def Quality.moved (q : Quality) (old : Option Head) (new : Head) : Quality :=
  let entry := q.candidates.find? fun x => x.head == new
  let rest := q.candidates.filter fun x => x.head != new
  let offer (h : Head) (l : Nat) : Candidate :=
    { head := h, level := l, staleness := 0, dwell := 0, underRange := q.underRange, overRange := q.overRange }
  let list := match old, q.level with
    | some h, some l => if h = new then rest else offeredTo rest (offer h l)
    | _, _ => rest
  { q with
    level := entry.map Candidate.level
    underRange := (entry.map Candidate.underRange).getD false
    overRange := (entry.map Candidate.overRange).getD false
    candidates := list.map fun x => { x with dwell := 0 } }

/-- R140, R156: the call switches to channel `new` of head `h`, leaving channel `old` of its source held. -/
def State.switched (s : State) (n : Slot) (e : EntryNo) (t : Handover) (h : Head) (new old : Chan) : State :=
  let a := s.setHead h ((s.head h).handed new (.call n))
  let b := a.setHead t.source ((a.head t.source).handed old (.held e))
  let c := s.ctx n
  ((b.setEntry e { s.entry e with
      txn := some { t with
        phase := .switched, target := some h, targetChan := none, heldChan := some old, deadline := s.timeBase + 500 }
      }).setCtx n { c with serving := some h, channel := some new, quality := c.quality.moved c.serving h }).emit
    .handoverDone .none n.val h.val t.cause.code

/-- R118: the dwells of a list. -/
def withDwells (cs : List Candidate) (f : Candidate → Nat) : List Candidate := cs.map fun x => { x with dwell := f x }

/-- R115 to R119: trigger evaluation for a call at serving head `h`, with the opening it requests; a full table is counted as
a deferral. -/
def State.judged (s : State) (n : Slot) (h : Head) : State :=
  let c := s.ctx n
  let q := c.quality
  let terms := s.params.cls c.cls.toNat
  let level := q.level.getD 0
  let drains := (List.finRange 32).countP fun e =>
    match (s.entry e).txn with
    | some t => decide (t.cause = .drain ∧ t.source = h)
    | none => false
  let counts : Bool := decide (c.state = .active ∧ c.policy = .auto ∧ q.holdoff = none)
  let dwelt (f : Candidate → Nat) : State :=
    s.setCtx n { c with quality := { q with candidates := withDwells q.candidates f } }
  let asks (u : State) (cause : Cause) (target : Head) : State :=
    match u.vacantEntry with
    | some e => u.opened n h target cause e
    | none => { u with deferrals := min 65535 (u.deferrals + 1) }
  match q.candidates.find? fun x => (s.head x.head).state = .inService with
  | none => if counts then dwelt fun _ => 0 else s
  | some x =>
    if (s.head h).state = .draining ∧ c.policy ≠ .locked ∧ drains < 4 then asks s .drain x.head
    else if c.state = .active ∧ c.policy = .auto ∧ level < terms.floor then asks s .urgent x.head
    else if counts then
      if x.level < level + terms.margin then dwelt fun _ => 0
      else
        let u := dwelt fun y => if y.head = x.head then min 8 (y.dwell + 1) else 0
        if terms.dwell ≤ min 8 (x.dwell + 1) then asks u .quality x.head else u
    else s

/-- R167, step 5: a re-establishment without an entry or a channel. -/
def State.notReestablished (s : State) (n : Slot) (h : Head) : State :=
  let c := (s.ctx n).unstaged
  (s.dropped n 7).setCtx n { c with
    state := .idle, admissionHead := none, offerDeadline := none, serving := some h, channel := none, media := none
    txn := none, hoFail := 0, quality := .idle
    presence := idleOf (s.params.cls c.cls.toNat) s.timeBase false }

/-- R139: the channel of a re-establishment at a head. -/
def HeadCtx.reestablishes (x : HeadCtx) : Option Chan :=
  if x.state ∈ [HeadState.inService, .degraded] then x.vacancy else none

/-- R167: re-establishment at head `h` of a call that has no transaction. -/
def State.reestablishedAnew (s : State) (n : Slot) (source h : Head) (old : Chan) : State :=
  match s.vacantEntry, (s.head h).reestablishes with
  | some e, some ch =>
    let t : Handover :=
      { slot := n, cause := .reestablish, phase := .commanded, source := source, target := some h, targetChan := some ch
        heldChan := none, deadline := s.timeBase + 300
        origin := if (s.ctx n).state = .pinned then .pinned else .active, opened := s.timeBase }
    let a := ((s.setHead h ((s.head h).allotted ch (.reservation e))).setEntry e { txn := some t, parityBad := false }).setCtx
      n { (s.ctx n).calling .moving s.timeBase with txn := some (e, t.origin) }
    ((a.emit .handoverOpened .none n.val h.val 6).tell .channelAssign (some h) n fun d =>
      { d with channel := some ch }).switched n e t h ch old
  | _, _ => s.notReestablished n h

/-- R167: re-establishment at head `h` of a call whose transaction is RESERVING or COMMANDED: its place or its reservation is
withdrawn, and its entry is used again. -/
def State.reestablishedAgain (s : State) (n : Slot) (e : EntryNo) (t : Handover) (h : Head) (old : Chan) : State :=
  let a := ((s.withdrawn e t).setEntry e { s.entry e with txn := some { t with targetChan := none } }).releasedAll n t.named
  match (a.head h).reestablishes with
  | none => a.notReestablished n h
  | some ch =>
    ((a.setHead h ((a.head h).allotted ch (.reservation e))).tell .channelAssign (some h) n fun d =>
      { d with channel := some ch }).switched n e { t with cause := .reestablish } h ch old

/-- R167: re-establishment at head `h` of an ORPHANED call. -/
def State.adopted (s : State) (n : Slot) (e : EntryNo) (h : Head) : State :=
  match (s.head h).reestablishes with
  | none => s.notReestablished n h
  | some ch =>
    let c := s.ctx n
    (((((s.setHead h ((s.head h).allotted ch (.call n))).tell .channelAssign (some h) n fun d =>
      { d with channel := some ch }).setCtx n { c.calling .active s.timeBase with
        serving := some h, channel := some ch, quality := c.quality.moved c.serving h, hoFail := 0 }).setEntry e
      .empty).emit .handoverDone .none n.val h.val 5)

/-- R130, R165: what becomes of one call whose serving head `h` has failed. -/
def State.orphaned (s : State) (h : Head) (n : Slot) : State :=
  let c := s.ctx n
  match s.openTxn n with
  | some (e, t) =>
    if t.phase = .orphaned then s
    else
      (((s.withdrawn e t).setEntry e { s.entry e with
        txn := some { t with
          cause := .orphan, phase := .orphaned, source := h, target := none, targetChan := none, heldChan := none
          deadline := s.timeBase + 3000 } }).setCtx n { c with channel := none }).releasedAll n t.named
  | none =>
    match s.vacantEntry with
    | some e =>
      let o : Origin := if c.state = .pinned then .pinned else .active
      ((s.setEntry e
        { txn := some
            { slot := n, cause := .orphan, phase := .orphaned, source := h, target := none, targetChan := none
              heldChan := none, deadline := s.timeBase + 3000, origin := o, opened := s.timeBase }
          parityBad := false }).setCtx n
        { c.calling .moving s.timeBase with txn := some (e, o), channel := none }).emit .handoverOpened .none n.val 0xFF 5
    | none =>
      (s.dropped n 5).setCtx n (c.unstaged.settled .lost c.serving (windowOf .grace 120000 s.timeBase c.presence.missed))

/-- R137: a new-call channel is granted at a head. -/
abbrev State.callGranted (s : State) (h : Head) (ch : Chan) : Prop :=
  (s.head h).state = .inService ∧ (s.head h).guard < (s.head h).freeCount ∧ (s.head h).waitQ = [] ∧ s.lowestChannel h ch

/-- R80: a call is set up on a channel. -/
def State.calls (s : State) (n : Slot) (h : Head) (ch : Chan) : State :=
  (State.tell ((s.setHead h ((s.head h).allotted ch (.call n))).setCtx n
    { s.ctx n with
      state := .active, serving := some h, channel := some ch, media := some h, admissionHead := none
      offerDeadline := none, txn := none, quality := .idle, presence := windowOf .call 5000 s.timeBase false })
    .channelAssign (some h) n fun d => { d with channel := some ch }).emit .callStarted .none n.val h.val ch.val

/-- The slot in no Attach Queue. -/
def State.unqueued (s : State) (n : Slot) : State :=
  { s with attach := s.attach.map fun a => { a with queue := a.queue.filter fun q => q.1 != n } }

/-- R151: a counted failure of a transaction: its place or its channels given up, HANDOVER_FAILED, the holdoff, and the count,
which pins the call at its fourth failure. -/
def State.failedAt (s : State) (n : Slot) (e : EntryNo) (t : Handover) (reason : Nat) : State :=
  let a := (((s.withdrawn e t).releasedAll n t.named).setEntry e .empty).emit .handoverFailed .none n.val reason
    (headCode t.target)
  let c := s.ctx n
  let q := match t.target with
    | none => c.quality
    | some h => { c.quality with
        holdoff := some (s.timeBase + 1000)
        candidates := c.quality.candidates.map fun x => if x.head = h then { x with dwell := 0 } else x }
  let d := { c with admissionHead := none, offerDeadline := none, txn := none, quality := q }
  match t.origin with
  | .pinned => a.setCtx n { d with state := .pinned }
  | .active =>
    if c.hoFail < 3 then a.setCtx n { d with state := .active, hoFail := c.hoFail + 1 }
    else (a.setCtx n { d with state := .pinned, hoFail := 0 }).emit .pinned .none n.val (headCode c.serving) reason

/-- R79: the Attach Queue of a head is emptied in queue order: each slot is PROVISIONED, and on a drain it is sent
RESELECT. -/
def State.emptied (s : State) (h : Head) (reselect : Bool) : State :=
  (s.att h).queue.foldl (fun u q =>
    let v := u.setCtx q.1 ((u.ctx q.1).left.away .provisioned)
    if reselect then v.tell .reselect (some h) q.1 else v) (s.setAtt h { s.att h with queue := [] })

/-- R73, R74: an offer to a slot at a head, answering an ATTACH with the given identity. -/
def State.offers (s : State) (n : Slot) (h : Head) (id : Identity) : State :=
  let a := s.att h
  let c := (s.ctx n).left
  let e := s.params.cls c.cls.toNat
  ((s.setAtt h { a with credits := a.credits - 1, regain := some (a.regain.getD (s.timeBase + 25)) }).setCtx n
    { c.away .offered with admissionHead := some h, serving := some h, offerDeadline := some (s.timeBase + 500) }).reply
    .acceptAttach h id n fun d => { d with mode := BitVec.ofNat 8 e.mode, period := BitVec.ofNat 8 e.period }

/-- R74: the credits of a head are 4, and the oldest entries of its Attach Queue are offered, one for each credit. -/
def State.refilled (s : State) (h : Head) : State :=
  ((s.att h).queue.take 4).foldl (fun u q =>
    (u.setAtt h { u.att h with queue := (u.att h).queue.tail }).offers q.1 h (u.ctx q.1).identity)
    (s.setAtt h { s.att h with credits := 4, regain := none })

/-- R72, R75: admission of a slot at a head, for an ATTACH with the given identity. -/
def State.admitted (s : State) (n : Slot) (h : Head) (id : Identity) : State :=
  let a := s.att h
  let c := (s.ctx n).left
  if (s.head h).state ∉ [HeadState.inService, .degraded] then
    (s.setCtx n (c.away .provisioned)).reply .reselect h id n
  else if s.contained = true then
    (s.setCtx n (c.away .provisioned)).reply .retryLater h id n fun d => { d with backoff := 1000 }
  else if 1 ≤ a.credits ∧ a.queue = [] then s.offers n h id
  else if a.queue.length < 8 then
    (s.setAtt h { a with queue := a.queue ++ [(n, s.timeBase)] }).setCtx n
      { c.away .queued with admissionHead := some h, serving := some h }
  else (s.setCtx n (c.away .provisioned)).reply .retryLater h id n fun d => { d with backoff := 250 }

/-- R126: a head in service by a HEAD_STATUS or a RESTORE_HEAD, having left the state with code `left`; its Attach Queue is
served. -/
def State.inService (s : State) (h : Head) (left : Nat) : State :=
  State.refilled ((s.setHead h { s.head h with state := .inService }).emit .headUp .none h.val left (s.head h).capacity) h

/-- R126, R131: a head DEGRADED, having left the state with code `left`. -/
def State.degraded (s : State) (h : Head) (left : Nat) : State :=
  State.unwaited ((s.setHead h { s.head h with state := .degraded, waitQ := [] }).emit .headDegraded .none h.val left
    (s.head h).freeCount) h

/-- R127, R129: a head declared failed, its channels released. -/
def State.declaredFailed (s : State) (h : Head) : State :=
  let x := { s.head h with liveness := none, pool := emptyPool, waitQ := [] }
  if x.failures < 3 then
    (s.setHead h { x with state := .failed, failures := x.failures + 1 }).emit .headFailed .none h.val (x.failures + 1)
      (s.head h).inUse
  else
    (s.setHead h { x.unstaged with state := .outOfService, failures := 0 }).emit .headOutOfService .none h.val 0
      (s.head h).inUse

/-- R129, R130: a head fails through liveness: its event, its Attach Queue, the transactions that target it, the media holds
that leave from it, and the calls it serves, each in ascending slot order. -/
def State.headFails (s : State) (h : Head) : State :=
  let a := (s.declaredFailed h).emptied h false
  let targeted := a.txnsWhere fun t => t.target == some h && (t.phase == .reserving || t.phase == .commanded)
  let holding := a.txnsWhere fun t => t.source == h && t.phase == .switched
  let b := targeted.foldl (fun u e => u.closed 5 e) a
  let c := holding.foldl (fun u e =>
    match (u.entry e).txn with
    | none => u
    | some t => u.holdEnded e t (u.ctx t.slot).media 3) b
  let calls := (List.finRange 1024).filter fun n => (c.ctx n).state.inCall && (c.ctx n).serving == some h
  calls.foldl (fun u n => u.orphaned h n) c

end Sys2Proof.Machine

namespace Sys2Proof.Machine

/-! ### Words of the record and intake statements -/

/-- R23, R25, R174, R178: a CP read of handset records whose contexts are sound: the provisioned beats it covers are checked,
record by record, and the answer is composed. -/
def State.recordsRead (s : State) (x : Transaction) : State :=
  let slots := ((s.handsetBeats x).map Prod.fst).dedup
  let covered (n : Slot) : List Nat := ((s.handsetBeats x).filter fun p => p.1 == n && decide (p.2 < 4)).map Prod.snd
  let u := slots.foldl (fun u n =>
    if covered n = [] then u else u.checked (readingOf n .cpRead (s.recordImage n) (covered n))) s
  let data := (s.handsetBeats x).map fun p =>
    if p.2 < 4 then correctedBeat (s.recordImage p.1) p.2
    else if p.2 < 7 then beatAt (u.ctx p.1).liveBytes (8 * (p.2 - 4))
    else beatAt (s.recordImage p.1) 56
  let poisoned := ∃ n ∈ slots, byteAt (s.recordImage n) 60 ≠ 0 ∨
    ∃ b ∈ covered n, beatClass (s.recordImage n) b = .uncorrectable
  u.answered .cp (if poisoned then .donePoisoned data else .done data)

/-- A provisioned write of a record's provisioned half alone, with no poison in the way (R27, R28). -/
abbrev State.provisions (s : State) (c : Instr) (x : Transaction) (n : Slot) : Prop :=
  s.writesRecord c x n ∧ s.rebuilding n = false ∧ (∀ i, 32 ≤ i → i < 64 → (s.recordBytes x n)[i]? = some none) ∧
  ((s.ctx n).poisoned = false ∨ fullRewrite (s.recordBytes x n) = true)

/-- The identity check of R29 finds no other slot: the write does not reach the identity, or the map holds the identity of
`d` for no slot but `n`. -/
abbrev State.identityFree (s : State) (n : Slot) (w : List (Option Byte)) (d : List Byte) : Prop :=
  anyEnabled w 0 5 = true → ∀ e, s.mapLookup (BitVec.ofNat 40 (fieldAt d 0 5)) = some e →
    e.slot = n ∧ e.parityBad = false

/-- The record as a write leaves it: its enabled bytes over the bytes of memory. -/
def overlaid (w : List (Option Byte)) (image : List Byte) : List Byte :=
  (List.range 32).map fun i => ((w[i]?).join).getD (byteAt image i)

/-- R173, R175, R178: a scrub read in progress, after Record View has taken a CP write to a slot. -/
def ScrubRead.overtakenBy (r : ScrubRead) (n : Slot) (w : List (Option Byte)) : ScrubRead :=
  if r.slot = n then
    { r with taken := r.taken ++ [0, 1, 2, 3].filter (beatTouched w), rewritten := r.rewritten || fullRewrite w }
  else r

/-- R30: the downstream write of a provisioned write: the bytes of every beat it reaches, their check bytes, and a clear
marker for a full rewrite. -/
structure SentBytes (w : List (Option Byte)) (d : List Byte) (out : List (Option Byte)) : Prop where
  length : out.length = 64
  data : ∀ b < 4, ∀ j < 8, out[8 * b + j]? = some (if beatTouched w b then some (byteAt d (8 * b + j)) else none)
  live : ∀ i, 32 ≤ i → i < 56 → out[i]? = some none
  check : ∀ b < 4, out[56 + b]? = some (if beatTouched w b then some (checkByte (beatAt d (8 * b))) else none)
  marker : out[60]? = some (if fullRewrite w then some 0 else none)
  rest : ∀ i, 61 ≤ i → i < 64 → out[i]? = some none

/-- R34, R29: the change a provisioned write hands over: the fields its enabled bytes reach, decoded. -/
structure NamedFields (w : List (Option Byte)) (d : List Byte) (c : ProvChange) : Prop where
  identity : c.identity = if anyEnabled w 0 5 then some (BitVec.ofNat 40 (fieldAt d 0 5)) else none
  cls : c.cls = if anyEnabled w 5 6 then some (BitVec.ofNat 3 (byteAt d 5).toNat) else none
  group : c.group = if anyEnabled w 6 7 then some (BitVec.ofNat 4 (byteAt d 6).toNat) else none
  policy : c.policy = if anyEnabled w 7 8 then some (
    if byteAt d 7 &&& 3 = 0 then .auto else if byteAt d 7 &&& 3 = 1 then .manual else .locked) else none
  code : c.code = if anyEnabled w 8 10 then some (BitVec.ofNat 16 (fieldAt d 8 2)) else none
  priority : c.priority = if anyEnabled w 10 11 then some (BitVec.ofNat 2 (byteAt d 10).toNat) else none
  full : c.full = fullRewrite w

/-- R63: a VACANT slot with a new identity and the values a change names. -/
def HandsetCtx.provisionedWith (x : HandsetCtx) (id : Identity) (c : ProvChange) : HandsetCtx :=
  { x with
    identity := id, cls := c.cls.getD x.cls, group := c.group.getD x.group, code := c.code.getD x.code
    policy := c.policy.getD x.policy, priority := c.priority.getD x.priority, state := .provisioned
    admissionHead := none, offerDeadline := none, serving := none, channel := none, media := none, txn := none
    accessFail := 0, hoFail := 0, presence := .idle, quality := .idle }

/-- R66: the class, group, policy and priority in force, with the named values over them. -/
def HandsetCtx.named (x : HandsetCtx) (c : ProvChange) : StagedFields :=
  let f := x.staged.getD { cls := x.cls, group := x.group, policy := x.policy, priority := x.priority }
  { cls := c.cls.getD f.cls, group := c.group.getD f.group, policy := c.policy.getD f.policy
    priority := c.priority.getD f.priority }

/-- R182: what a full rewrite of a record ends: POISONED, the slot's place in the Record Fault List, and the findings of a scrub
read of the slot in progress. -/
def State.unpoisoned (s : State) (n : Slot) : State :=
  { s.setCtx n { s.ctx n with poisoned := false } with
    faultList := s.faultList.filter fun x => x != n
    scrubRead := s.scrubRead.map fun r =>
      if r.slot = n then { r with taken := r.taken ++ [0, 1, 2, 3], rewritten := true } else r }

/-- R30, R33: memory has taken the write of a slot's record. -/
def State.takenWrite (s : State) (n : Slot) (out : List (Option Byte)) (c : ProvChange) : State :=
  let u := { s with mem := s.mem.writeEnabled (s.handsetAddr n) out, recordWrite := none }
  if c.full then u.unpoisoned n else u

/-- R66: the class, group, policy and priority that a change names, taken at once, or staged in a call when one of them
differs. -/
def HandsetCtx.fielded (x : HandsetCtx) (c : ProvChange) : HandsetCtx :=
  if x.state.inCall then
    if x.named c = x.staged.getD { cls := x.cls, group := x.group, policy := x.policy, priority := x.priority } then x
    else { x with staged := some (x.named c) }
  else { x with cls := c.cls.getD x.cls, group := c.group.getD x.group, policy := c.policy.getD x.policy,
                priority := c.priority.getD x.priority }

/-- R67: every field a change names, the identity included, recorded with no other effect. -/
def HandsetCtx.recorded (x : HandsetCtx) (c : ProvChange) : HandsetCtx :=
  { x with
    identity := c.identity.getD x.identity, code := c.code.getD x.code, cls := c.cls.getD x.cls
    group := c.group.getD x.group, policy := c.policy.getD x.policy, priority := c.priority.getD x.priority }

/-- R63, R64, R67: a context that has taken identity `id` with the fields a change names: PROVISIONED, or VACANT for 0. -/
def HandsetCtx.renamed (x : HandsetCtx) (id : Identity) (c : ProvChange) : HandsetCtx :=
  let y := x.left
  let z := if id = 0 then { HandsetCtx.vacant with poisoned := x.poisoned, ctxParityBad := x.ctxParityBad }
    else { y.away .provisioned with accessFail := 0 }
  { z with
    identity := id, code := c.code.getD y.code, cls := c.cls.getD y.cls, group := c.group.getD y.group
    policy := c.policy.getD y.policy, priority := c.priority.getD y.priority }

/-- R64, R85: the destination of a DETACH_ORDER: the serving head, or all heads for a LOST handset or a head that is FAILED or
OUT_OF_SERVICE. -/
def State.orderDest (s : State) (n : Slot) : Option Head :=
  (s.ctx n).serving.filter fun h =>
    (s.ctx n).state != .lost && (s.head h).state != .failed && (s.head h).state != .outOfService

/-- The base of an intake ring in the active map. -/
abbrev State.ringBase (s : State) (r : IntakeRing) : Nat :=
  match r with
  | .uplink => (s.map.map RegionMap.uplinkBase).getD 0
  | .request => (s.map.map RegionMap.requestBase).getD 0

/-- A write of the ring's own initiator to an intake ring in RUNNING (R40). -/
abbrev State.ringWrite (s : State) (c : Instr) (x : Transaction) (r : IntakeRing) : Prop :=
  s.carries c x ∧ s.op = .running ∧ x.isRead = false ∧
  match r with
  | .uplink => classify s.map x = some .uplinkRing ∧ x.initiator = .rlc
  | .request => classify s.map x = some .requestRing ∧ x.initiator = .cp

/-- R40: exactly one whole slot of a ring at `base`. -/
abbrev oneSlot (base : Nat) (x : Transaction) : Prop :=
  x.beatCount = 4 ∧ (x.addr.toNat - base) % 32 = 0 ∧ (writeBytes x).all Option.isSome = true

end Sys2Proof.Machine

section
open Sys2Proof Sys2Proof.Machine

/-! ### Record views -/

/-- R23, R25, R174, R178: a CP read of the Handset Record Array whose contexts read without fault checks the provisioned beats
it covers, record by record, and is answered beat by beat: provisioned beats corrected or as memory held them, live beats from
the contexts, beat 7 as memory held it; DONE_POISONED where a marker is set or a beat is UNCORRECTABLE, else DONE. The model's
choice (log entry 19): beat 7 is returned as the read found it, without a marker written by the same read. -/
def Obligations.HandsetReadIsComposed : Prop :=
  ∀ (s : State) (c : Instr) (x : Transaction), s.carries c x → s.op = .running →
    classify s.map x = some .handsetArray → x.isRead = true → x.initiator = .cp →
    (∀ p ∈ s.handsetBeats x, s.readable p.1) →
    exec c s = s.ends (s.recordsRead x)

/-- R173 to R179: the check of a reading: the marker against the POISONED flag, in its four cases, then the beats in order:
nothing for a CLEAN beat; for a CORRECTABLE one the write-back, unless a CP write has overtaken it or the reading is a merge's,
the Record Fault List, the corrected count, CORRECTED and, at the threshold, THRESHOLD_REACHED; for an UNCORRECTABLE one the
marker, POISONED and RECORD_POISONED, unless a CP write has replaced it; nothing more in a poisoned record. The single beats of
an unmarked, unpoisoned record are spelled out. The model's choices: memory takes a write-back and a marker in the finding step
(log entry 7), and the RECORD_POISONED of a marker found set has the severity RECOVERABLE (log entry 19). -/
def Obligations.FindingsAreHandled : Prop :=
  (∀ (s : State) (r : Reading), checkReading r s = .ok () (s.checked r)) ∧
  ∀ (s : State) (r : Reading) (b : Nat), r.beats = [b] → byteAt r.image 60 = 0 → (s.ctx r.slot).poisoned = false →
    let n := r.slot
    let seen := classifyBeat (beatAt r.image (8 * b)) (byteAt r.image (56 + b))
    (seen = .clean → checkReading r s = .ok () s) ∧
    (∀ d, seen = .correctable d → r.source ≠ .merge → b ∉ r.overtaken →
      (n ∈ s.faultList → checkReading r s = .ok () (s.writeBack n b d)) ∧
      (n ∉ s.faultList → s.corrected < 65535 → s.corrected + 1 ≠ s.params.threshold ∨ s.params.threshold = 0 →
        checkReading r s = .ok () (State.emit
          { s.writeBack n b d with
            faultList := if s.faultList.length < 16 then s.faultList ++ [n] else s.faultList
            corrected := s.corrected + 1 }
          .corrected .corrected n.val b r.source.code))) ∧
    (seen = .uncorrectable → b ∉ r.replaced →
      checkReading r s = .ok () (State.emit ((s.writeMarker n).setCtx n { s.ctx n with poisoned := true })
        .recordPoisoned .recoverable n.val b r.source.code))

/-- R22, R27, R28, R29: the writes to the Handset Record Array that are refused, with nothing of them in memory and no
event; and a write with no enabled byte, which is answered DONE. -/
def Obligations.HandsetWriteRefusals : Prop :=
  ∀ (s : State) (c : Instr) (x : Transaction), s.carries c x → s.op = .running →
    classify s.map x = some .handsetArray → x.isRead = false → x.initiator = .cp →
    (enabled x = [] → exec c s = s.ends (s.answered .cp (.done []))) ∧
    ((∃ p q, p ∈ enabled x ∧ q ∈ enabled x ∧ (p.1 - s.handsetAddr 0) / 64 ≠ (q.1 - s.handsetAddr 0) / 64) →
      exec c s = s.ends (s.answered .cp .refused)) ∧
    ∀ n, s.writesRecord c x n →
      let w := s.recordBytes x n
      (anyEnabled w 56 64 ∨ anyEnabled w 32 35 ∨ anyEnabled w 36 56 ∨ (anyEnabled w 35 36 ∧ anyEnabled w 0 32) →
        exec c s = s.ends (s.answered .cp .refused)) ∧
      (anyEnabled w 32 64 = false → s.rebuilding n = false → (s.ctx n).poisoned = true → fullRewrite w = false →
        exec c s = s.ends (s.answered .cp .refused)) ∧
      (anyEnabled w 32 64 = false → s.rebuilding n = false → (s.ctx n).poisoned = false ∨ fullRewrite w = true →
        (∀ b < 4, beatPartial w b = false) → anyEnabled w 0 5 = true → s.recordWrite = none →
        (∀ e, s.mapLookup (BitVec.ofNat 40 (fieldAt (w.map fun b => b.getD 0) 0 5)) = some e →
          e.slot ≠ n ∧ e.parityBad = false) →
        (s.mapLookup (BitVec.ofNat 40 (fieldAt (w.map fun b => b.getD 0) 0 5))).isSome = true → s.merge = none →
        exec c s = s.ends (s.answered .cp .refused))

/-- R28, R29, R30, R31: a provisioned write with no partial beat is sent to memory as one write; one with a partial beat
begins a merge, whose read checks its partial beats, gives their other bytes as corrected, and is sent in the same way; an
UNCORRECTABLE beat, a poisoned record that the write does not rewrite in full, or an identity that another slot holds, refuses
it. -/
def Obligations.ProvisionedWriteIsSent : Prop :=
  (∀ (s : State) (c : Instr) (x : Transaction) (n : Slot), s.provisions c x n → s.merge = none →
    let w := s.recordBytes x n
    let d := w.map fun b => b.getD 0
    let met := s.scrubRead.map fun r => r.overtakenBy n w
    ((∀ b < 4, beatPartial w b = false) → s.identityFree n w d →
      ∃ out beats change, SentBytes w d out ∧ NamedFields w d change ∧
        exec c s = s.ends { s.takeAtPort x with
          scrubRead := met, recordWrite := some (.handset n out beats change) }) ∧
    ((∃ b < 4, beatPartial w b = true) →
      exec c s = s.ends { s.takeAtPort x with scrubRead := met, merge := some (.handset n x) })) ∧
  ∀ (s : State) (x : Transaction) (n : Slot), s.op = .running → s.merge = some (.handset n x) →
    let w := s.recordBytes x n
    let image := s.recordImage n
    let r := readingOf n .merge image ([0, 1, 2, 3].filter fun b => beatPartial w b)
    let d := overlaid w (correctedBytes image)
    let u := s.checked r
    (r.spoilt ∨ (u.ctx n).poisoned = true ∧ fullRewrite w = false →
      exec .mergeReadDone s = s.ends (State.answered { u with merge := none } .cp .refused)) ∧
    (¬ r.spoilt → (u.ctx n).poisoned = false ∨ fullRewrite w = true → s.identityFree n w d →
      ∃ out beats change, SentBytes w d out ∧ NamedFields w d change ∧
        exec .mergeReadDone s = s.ends { u with merge := none, recordWrite := some (.handset n out beats change) }) ∧
    (¬ r.spoilt → (u.ctx n).poisoned = false ∨ fullRewrite w = true → anyEnabled w 0 5 = true →
      (∃ e, s.mapLookup (BitVec.ofNat 40 (fieldAt d 0 5)) = some e ∧ e.slot ≠ n ∧ e.parityBad = false) →
      exec .mergeReadDone s = s.ends (State.answered { u with merge := none } .cp .refused))

/-- R30, R33, R36, R37, R63, R66, R135, R182: memory takes the write; for a full rewrite the Integrity Unit ends the poison;
Registration or Head Manager takes the change; the CP's write is answered DONE. A VACANT slot given an identity is PROVISIONED;
a slot whose identity and code do not change takes its fields at once, or stages them in a call; a head takes its values at once
in ABSENT and OUT_OF_SERVICE and stages them elsewhere. -/
def Obligations.RecordWriteIsHandedOver : Prop :=
  (∀ (s : State) (n : Slot) (out : List (Option Byte)) (beats : List Nat) (c : ProvChange), s.op = .running →
    s.recordWrite = some (.handset n out beats c) → s.readable n →
    let u := State.takenWrite s n out c
    let x := u.ctx n
    (∀ id, x.state = .vacant → c.identity = some id → id ≠ 0 → id ≠ x.identity →
      exec .recordWriteTaken s = s.ends ((State.setCtx { u with idMap := mapSet s.idMap n id } n
        (x.provisionedWith id c)).answered .cp (.done []))) ∧
    (x.state ≠ .quarantined → c.identity.getD x.identity = x.identity → c.code = none →
      exec .recordWriteTaken s = s.ends ((u.setCtx n (x.fielded c)).answered .cp (.done [])))) ∧
  ∀ (s : State) (h : Head) (out : List (Option Byte)) (capacity guard : Nat), s.op = .running →
    s.recordWrite = some (.head h out capacity guard) →
    let u := { s with mem := s.mem.writeEnabled (s.headAddr h) out, recordWrite := none }
    let x := s.head h
    exec .recordWriteTaken s = s.ends ((u.setHead h (
      if x.state ∈ [HeadState.absent, .outOfService] then { x with capacity := capacity, guard := guard, staged := none }
      else if x.staged.getD (x.capacity, x.guard) = (capacity, guard) then x
      else { x with staged := some (capacity, guard) })).answered .cp (.done []))

/-- R64, R65, R67: the provisioning changes that end something. A new identity for a slot that is neither VACANT nor
QUARANTINED tears it down: its call dropped with cause IDENTITY, its queue place left, DETACH_ORDER for a registered handset,
then the new identity, or VACANT for identity 0. A new code alone ends a bar. A QUARANTINED slot keeps its state, unless the
write is a full rewrite. Log entry 15 has which state of the serving head decides where DETACH_ORDER goes, and the
order in which the channels of the call are released. -/
def Obligations.ProvisioningChangesAct : Prop :=
  ∀ (s : State) (n : Slot) (out : List (Option Byte)) (beats : List Nat) (c : ProvChange), s.op = .running →
    s.recordWrite = some (.handset n out beats c) → s.undamaged →
    let u := State.takenWrite s n out c
    let x := u.ctx n
    let done (t : State) : Prop := exec .recordWriteTaken s = s.ends (t.answered .cp (.done []))
    (∀ id, x.state ≠ .vacant → x.state ≠ .quarantined → c.identity = some id → id ≠ x.identity →
      let a := if x.state.inCall then u.dropped n 3 else if x.state = .queued then u.unqueued n else u
      let b := if x.state.registered then a.tell .detachOrder (a.orderDest n) n else a
      done (State.setCtx { b with idMap := if id = 0 then mapRemove s.idMap n else mapSet s.idMap n id } n
        (x.renamed id c))) ∧
    (∀ code, x.state ≠ .quarantined → c.identity.getD x.identity = x.identity → c.code = some code →
      (x.state ≠ .barred → done (u.setCtx n ({ x with code := code }.fielded c))) ∧
      (x.state = .barred →
        done (u.setCtx n ({ x.away .provisioned with code := code, accessFail := 0 }.fielded c)))) ∧
    (x.state = .quarantined →
      (c.full = false → done (u.setCtx n (x.recorded c))) ∧
      (c.full = true →
        let id := c.identity.getD x.identity
        done (State.setCtx { u with idMap := if id = 0 then mapRemove s.idMap n else mapSet s.idMap n id } n
          (x.renamed id c))))

/-- R35, R157, R161: a CP write of the media head byte alone: refused unless it names the serving head; without effect
outside a call; the media head of a call with no hold; the end of a media hold with detail ACKED. The model's choice
(log entry 18): the value 0xFF stands for no serving head in the comparison. -/
def Obligations.MediaHeadWriteIsJudged : Prop :=
  ∀ (s : State) (c : Instr) (x : Transaction) (n : Slot) (v : Byte), s.writesRecord c x n → s.readable n →
    (s.recordBytes x n)[35]? = some (some v) → (∀ i, i < 64 → i ≠ 35 → (s.recordBytes x n)[i]? = some none) →
    let k := s.ctx n
    (v.toNat ≠ headCode k.serving → exec c s = s.ends (s.answered .cp .refused)) ∧
    (v.toNat = headCode k.serving → k.state.inCall = false → exec c s = s.ends (s.answered .cp (.done []))) ∧
    ∀ h, k.serving = some h → v.toNat = h.val →
      (k.state ∈ [HandsetState.active, .pinned] → k.txn = none →
        exec c s = s.ends ((s.setCtx n { k with media := some h }).answered .cp (.done []))) ∧
      (k.state = .moving → ∀ e t, s.openTxn n = some (e, t) → (s.entry e).parityBad = false →
        (t.phase ≠ .switched → exec c s = s.ends ((s.setCtx n { k with media := some h }).answered .cp (.done []))) ∧
        (t.phase = .switched → s.undamaged →
          exec c s = s.ends ((s.holdEnded e t (some h) 1).answered .cp (.done []))))

/-- R26: a CP read of the Head Record Array is answered DONE and, where no Channel Pool it counts is faulty, changes nothing:
beat 0 as memory holds it, beats 1 to 3 from the head and its attach admission (log entry 9 has which of them read the pool).
R36: a CP write to one head record: refused in its live beats and out of the ranges of the capacity and the guard; a whole
beat 0 in range is sent to memory; a partial one is merged with the beat as memory holds it. -/
def Obligations.HeadRecordIsReadAndWritten : Prop :=
  (∀ (s : State) (c : Instr) (x : Transaction), s.carries c x → s.op = .running →
    classify s.map x = some .headArray → x.isRead = true → x.initiator = .cp →
    (∀ h, (s.head h).poolParityBad = false) →
    ∃ data : List Beat, exec c s = s.ends (s.answered .cp (.done data)) ∧
      ∀ (i : Nat) (h : Head) (b : Nat), i < x.beatCount → x.addr.toNat + 8 * i = s.headAddr h + 8 * b → b < 4 →
        data[i]? = some (if b = 0 then s.mem.readBeat (s.headAddr h)
          else beatAt (headLiveBytes (s.head h) (s.att h)) (8 * (b - 1)))) ∧
  (∀ (s : State) (c : Instr) (x : Transaction) (h : Head), s.writesHead c x h → s.merge = none →
    let w := bytesFor x (s.headAddr h) 32
    let capacity := (((w[0]?).join).getD 0).toNat
    let guard := (((w[1]?).join).getD 0).toNat
    (anyEnabled w 8 32 → exec c s = s.ends (s.answered .cp .refused)) ∧
    (anyEnabled w 8 32 = false → beatWhole w 0 = true →
      (12 < capacity ∨ 4 < guard ∨ capacity < guard → exec c s = s.ends (s.answered .cp .refused)) ∧
      (capacity ≤ 12 → guard ≤ 4 → guard ≤ capacity → exec c s = s.ends { s.takeAtPort x with
        recordWrite := some (.head h (w.take 8) capacity guard) })) ∧
    (anyEnabled w 8 32 = false → beatWhole w 0 = false →
      exec c s = s.ends { s.takeAtPort x with merge := some (.head h x) })) ∧
  ∀ (s : State) (x : Transaction) (h : Head), s.op = .running → s.merge = some (.head h x) →
    let merged (i : Nat) : Byte := (writtenAt x (s.headAddr h + i)).getD (s.mem.readByte (s.headAddr h + i))
    let capacity := (merged 0).toNat
    let guard := (merged 1).toNat
    (12 < capacity ∨ 4 < guard ∨ capacity < guard →
      exec .headMergeReadDone s = s.ends (State.answered { s with merge := none } .cp .refused)) ∧
    (capacity ≤ 12 → guard ≤ 4 → guard ≤ capacity →
      exec .headMergeReadDone s = s.ends { s with
        merge := none
        recordWrite := some (.head h ((List.range 8).map fun i => some (merged i)) capacity guard) })

/-! ### Intake -/

/-- R40, R41, R44, R45, R46: a write of an intake ring by its own initiator: with no enabled byte it is answered DONE; one that
is not one whole slot, or whose content fails a check, passes with MALFORMED; a message or request joins its queue and passes,
or is held while the queue is full. A held write is taken when its queue has room; when its hold deadline passes first it is
counted, reported and passed unparsed. The model's choice (log entry 10): a deadline that has not passed does nothing. -/
def Obligations.IntakeWritesAreTaken : Prop :=
  (∀ (s : State) (c : Instr) (x : Transaction) (r : IntakeRing), s.ringWrite c x r →
    let slot := (x.addr.toNat - s.ringBase r) / 32
    let code := match r with | .uplink => 1 | .request => 2
    let bytes := (writeBytes x).map fun b => b.getD 0
    (enabled x = [] → exec c s = s.ends (s.answered x.initiator (.done []))) ∧
    (enabled x ≠ [] → ¬ oneSlot (s.ringBase r) x →
      exec c s = s.ends ((s.emit .malformed .none slot code 1).passed x)) ∧
    (enabled x ≠ [] → oneSlot (s.ringBase r) x →
      match r with
      | .uplink =>
        (∀ why, parseUplink bytes = .error why →
          exec c s = s.ends ((s.emit .malformed .none slot 1 why.code).passed x)) ∧
        ∀ m, parseUplink bytes = .ok m →
          (s.uplink.length < 32 → exec c s = s.ends (State.passed { s with uplink := s.uplink ++ [m] } x)) ∧
          (32 ≤ s.uplink.length → exec c s = s.ends { s.takeAtPort x with
            heldRlc := some { write := x, item := m, deadline := s.timeBase + 2 } })
      | .request =>
        (∀ why, parseRequest bytes = .error why →
          exec c s = s.ends ((s.emit .malformed .none slot 2 why.code).passed x)) ∧
        ∀ m, parseRequest bytes = .ok m →
          (s.requests.length < 8 → exec c s = s.ends (State.passed { s with requests := s.requests ++ [m] } x)) ∧
          (8 ≤ s.requests.length → exec c s = s.ends { s.takeAtPort x with
            heldCp := some { write := x, item := m, deadline := s.timeBase + 2 } }))) ∧
  ∀ s : State, s.op = .running → s.uplinkOverrun ≤ 65535 → s.requestOverrun ≤ 65535 →
    (∀ w, s.heldRlc = some w →
      (s.uplink.length < 32 → exec (.heldWriteTaken .uplink) s =
        s.ends (State.passed { s with uplink := s.uplink ++ [w.item], heldRlc := none } w.write)) ∧
      (32 ≤ s.uplink.length → exec (.heldWriteTaken .uplink) s = s.ends s) ∧
      (passed w.deadline s.timeBase = true → exec (.intakeHoldDeadline .uplink) s =
        let count := min 65535 (s.uplinkOverrun + 1)
        s.ends ((State.emit { s with heldRlc := none, uplinkOverrun := count } .intakeOverrun .none
          ((w.write.addr.toNat - s.ringBase .uplink) / 32) 1 count).passed w.write)) ∧
      (passed w.deadline s.timeBase = false → exec (.intakeHoldDeadline .uplink) s = s.ends s)) ∧
    ∀ w, s.heldCp = some w →
      (s.requests.length < 8 → exec (.heldWriteTaken .request) s =
        s.ends (State.passed { s with requests := s.requests ++ [w.item], heldCp := none } w.write)) ∧
      (8 ≤ s.requests.length → exec (.heldWriteTaken .request) s = s.ends s) ∧
      (passed w.deadline s.timeBase = true → exec (.intakeHoldDeadline .request) s =
        let count := min 65535 (s.requestOverrun + 1)
        s.ends ((State.emit { s with heldCp := none, requestOverrun := count } .intakeOverrun .none
          ((w.write.addr.toNat - s.ringBase .request) / 32) 2 count).passed w.write)) ∧
      (passed w.deadline s.timeBase = false → exec (.intakeHoldDeadline .request) s = s.ends s)

/-- R41, R42, R43: the slots of the intake rings, whatever their other bytes. An uplink slot: kind, reporting head and identity;
the code of an ATTACH, the channel of a CHANNEL_REFUSED, the warning of a HEAD_STATUS, the count and samples of a MEASUREMENT;
the checks in order, kind, head, identity, then the kind's own. A request slot: its kind with its slot, its head or neither. -/
def Obligations.IntakeSlotsAreRead : Prop :=
  (∀ (h : Head) (id : Identity) (rest : List Byte),
    let slot (kind : Byte) (b7 : List Byte) : List Byte := kind :: BitVec.ofNat 8 h.val :: (leBytes 5 id.toNat ++ b7)
    (id ≠ 0 → parseUplink (slot 0x02 rest) = .ok (.handset h id .attachConfirm) ∧
      parseUplink (slot 0x03 rest) = .ok (.handset h id .detach) ∧
      parseUplink (slot 0x04 rest) = .ok (.handset h id .keepalive) ∧
      parseUplink (slot 0x05 rest) = .ok (.handset h id .dozeRequest) ∧
      parseUplink (slot 0x06 rest) = .ok (.handset h id .callRequest) ∧
      parseUplink (slot 0x07 rest) = .ok (.handset h id .callRelease) ∧
      parseUplink (slot 0x09 rest) = .ok (.handset h id .access) ∧
      parseUplink (slot 0x0A rest) = .ok (.handset h id .revert) ∧
      (∀ (code : BitVec 16) (b : Byte),
        parseUplink (slot 0x01 (b :: (leBytes 2 code.toNat ++ rest))) = .ok (.handset h id (.attach code))) ∧
      ∀ (ch : Chan) (b0 b1 b2 : Byte), parseUplink (slot 0x0B (b0 :: b1 :: b2 :: BitVec.ofNat 8 ch.val :: rest)) =
        .ok (.handset h id (.channelRefused ch))) ∧
    (id ≠ 0 → ∀ b0 b1 b2 ch : Byte, 12 ≤ ch.toNat →
      parseUplink (slot 0x0B (b0 :: b1 :: b2 :: ch :: rest)) = .error .badChannel) ∧
    (id ≠ 0 → ∀ (b : Vector Byte 5) (count : Byte) (c : Vector Byte 3) (raw : List (Byte × Byte)),
      let sent := parseUplink (slot 0x08 (b.toList ++ count :: (c.toList ++ raw.flatMap (fun p => [p.1, p.2]) ++ rest)))
      (count.toNat < 1 ∨ 6 < count.toNat → sent = .error .badCount) ∧
      (1 ≤ raw.length → raw.length ≤ 6 → count.toNat = raw.length →
        ((∃ p ∈ raw, 64 ≤ p.1.toNat ∨ 127 < p.2.toNat) ∨ ¬ (raw.map Prod.fst).Nodup → sent = .error .badSample) ∧
        ∀ samples : List (Head × Nat), raw.map (fun p => (p.1.toNat, p.2.toNat)) = samples.map (fun p => (p.1.val, p.2)) →
          (∀ p ∈ samples, p.2 ≤ 127) → (samples.map Prod.fst).Nodup →
          sent = .ok (.handset h id (.measurement samples)))) ∧
    (∀ b0 b1 b2 b3 b4 : Byte, parseUplink (slot 0x0C (b0 :: b1 :: b2 :: b3 :: b4 :: rest)) =
      .ok (.headStatus h (b4.getLsbD 0))) ∧
    (∀ kind ∈ [(0x01 : Byte), 0x02, 0x03, 0x04, 0x05, 0x06, 0x07, 0x08, 0x09, 0x0A, 0x0B], id = 0 →
      parseUplink (slot kind rest) = .error .zeroIdentity) ∧
    ∀ kind : Byte, kind = 0 ∨ 0x0C < kind → parseUplink (slot kind rest) = .error .unknownKind) ∧
  (∀ (kind head : Byte) (rest : List Byte), 1 ≤ kind.toNat → kind.toNat ≤ 0x0C → 64 ≤ head.toNat →
    parseUplink (kind :: head :: rest) = .error .badHead) ∧
  ∀ (kind b1 head : Byte) (slot : BitVec 16) (rest : List Byte),
    let sent := parseRequest (kind :: b1 :: (leBytes 2 slot.toNat ++ head :: rest))
    (∀ n : Slot, slot.toNat = n.val →
      (kind = 0x21 → sent = .ok (.page n)) ∧ (kind = 0x22 → sent = .ok (.releaseCall n)) ∧
      (kind = 0x24 → sent = .ok (.unpin n)) ∧ (kind = 0x25 → sent = .ok (.detachHandset n)) ∧
      ∀ h : Head, head.toNat = h.val → kind = 0x23 → sent = .ok (.forceHandover n h)) ∧
    (∀ h : Head, head.toNat = h.val →
      (kind = 0x26 → sent = .ok (.drainHead h)) ∧ (kind = 0x27 → sent = .ok (.restoreHead h))) ∧
    (kind = 0x28 → sent = .ok .clearFaultList) ∧ (kind = 0x29 → sent = .ok .ackFatal) ∧
    (1024 ≤ slot.toNat → kind ∈ [(0x21 : Byte), 0x22, 0x24, 0x25] ∨ kind = 0x23 ∧ head.toNat < 64 → sent = .error .badSlot) ∧
    (64 ≤ head.toNat → kind ∈ [(0x23 : Byte), 0x26, 0x27] → sent = .error .badHead) ∧
    (kind.toNat < 0x21 ∨ 0x29 < kind.toNat → sent = .error .unknownKind)

/-! ### The layouts of what the part writes and composes -/

/-- R202, R194, R196, R199, R24, R26: the records, offset by offset, little-endian, with 0 in every byte that carries no field:
the directive, the event, the status block, and the live beats of the handset and of the head record. -/
def Obligations.RecordLayouts : Prop :=
  (∀ d : Directive,
    let f := fieldAt d.bytes
    d.bytes.length = 32 ∧ f 0 1 = d.kind.code ∧ f 1 1 = d.dest.elim 0xFE Fin.val ∧ f 2 5 = d.identity.toNat ∧
    f 7 1 = (if d.suspect then 1 else 0) ∧ f 8 2 = d.slot.elim 0xFFFF Fin.val ∧ f 10 1 = d.channel.elim 0xFF Fin.val ∧
    f 11 1 = d.targetHead.elim 0xFF Fin.val ∧ f 12 1 = d.targetChan.elim 0xFF Fin.val ∧ f 13 1 = d.reason.toNat ∧
    f 14 2 = d.backoff % 65536 ∧ f 16 1 = d.mode.toNat ∧ f 17 1 = d.period.toNat ∧ f 18 1 = d.group.toNat ∧ f 19 13 = 0) ∧
  (∀ e : Event,
    let f := fieldAt e.bytes
    e.bytes.length = 16 ∧ f 0 1 = e.kind.code ∧ f 1 1 = e.severity.code ∧ f 2 2 = e.subject.toNat ∧ f 4 4 = e.time.toNat ∧
    f 8 4 = e.detail1.toNat ∧ f 12 4 = e.detail2.toNat) ∧
  (∀ s : State, s.CountersSound → s.ListsSound →
    let f := fieldAt s.statusBytes
    let flag (b : Bool) (i : Nat) : Nat := if b then 2 ^ i else 0
    s.statusBytes.length = 128 ∧ f 0 1 = s.op.code ∧ f 1 1 = s.resetCause.code ∧
    f 2 1 = flag s.contained 0 + flag s.fatalPending 1 + flag s.mapChanged 2 + flag s.staged.isSome 3 ∧
    f 3 1 = s.faultList.length ∧ f 4 2 = s.uplinkOverrun ∧ f 6 2 = s.requestOverrun ∧ f 8 2 = s.unknownIds ∧
    f 10 2 = s.eventsLost ∧ f 12 2 = s.dirDropped ∧ f 14 2 = s.deferrals ∧ f 16 2 = s.corrected ∧ f 18 110 = 0) ∧
  (∀ c : HandsetCtx, c.Sound →
    let f := fieldAt c.liveBytes
    let flag (b : Bool) (i : Nat) : Nat := if b then 2 ^ i else 0
    c.liveBytes.length = 24 ∧ f 0 1 = c.state.code ∧ f 1 1 = c.serving.elim 0xFF Fin.val ∧
    f 2 1 = c.channel.elim 0xFF Fin.val ∧ f 3 1 = c.media.elim 0xFF Fin.val ∧ f 4 1 = c.quality.level.getD 0 ∧
    f 5 1 = flag c.presence.missed 0 + flag c.presence.early 1 + flag c.staged.isSome 2 + flag c.poisoned 3 +
      flag c.quality.underRange 4 + flag c.quality.overRange 5 ∧
    f 6 1 = c.txn.elim 0xFF (fun p => p.1.val) ∧ f 7 1 = c.quality.candidates.length ∧
    (∀ i < 4, f (8 + 2 * i) 1 = (c.quality.candidates[i]?).elim 0xFF (fun x => x.head.val) ∧
      f (9 + 2 * i) 1 = (c.quality.candidates[i]?).elim 0 Candidate.level) ∧
    f 16 1 = c.accessFail ∧ f 17 1 = c.hoFail ∧ f 18 2 = 0 ∧ f 20 4 = c.lastSeen.toNat) ∧
  (∀ (h : HeadCtx) (a : AttachHead), h.Sound → a.Sound →
    let f := fieldAt (headLiveBytes h a)
    let staged := h.staged.getD (h.capacity, h.guard)
    (headLiveBytes h a).length = 24 ∧ f 0 1 = h.state.code ∧ f 1 1 = h.freeCount ∧ f 2 1 = h.capacity ∧ f 3 1 = h.guard ∧
    f 4 1 = staged.1 ∧ f 5 1 = staged.2 ∧ f 6 1 = (if h.staged.isSome then 1 else 0) + (if h.warning then 2 else 0) ∧
    f 7 1 = h.failures ∧ f 8 1 = h.waitQ.length % 256 ∧ f 9 1 = a.queue.length ∧ f 10 1 = a.credits ∧ f 11 1 = 0 ∧
    f 12 4 = h.lastStatus.toNat ∧ f 16 8 = 0) ∧
  [DirectiveKind.acceptAttach, .rejectAttach, .retryLater, .presenceTerms, .page, .channelAssign, .channelRelease,
    .callReject, .handoverGo, .detachOrder, .reselect].map DirectiveKind.code = List.range' 0x41 11 ∧
  [EventKind.started, .configApplied, .configRejected, .configIgnored].map EventKind.code = List.range' 0x81 4 ∧
  [EventKind.attached, .attachTimeout, .barred, .detached].map EventKind.code = List.range' 0x88 4 ∧
  [EventKind.earlyKeepalive, .missed, .lost, .recovered, .lostExpired, .dozeEntered, .dozeRefused].map EventKind.code =
    List.range' 0x90 7 ∧
  [EventKind.callStarted, .callRefused, .callEnded, .callDropped].map EventKind.code = List.range' 0x98 4 ∧
  [EventKind.handoverOpened, .handoverDone, .mediaReleased, .handoverFailed, .handoverAbandoned, .pinned,
    .staleAccess].map EventKind.code = List.range' 0xA0 7 ∧
  [EventKind.headUp, .headDegraded, .headFailed, .headOutOfService, .headDrained].map EventKind.code =
    List.range' 0xA8 5 ∧
  [EventKind.intakeOverrun, .malformed, .requestRefused].map EventKind.code = List.range' 0xB0 3 ∧
  [EventKind.corrected, .thresholdReached, .recordPoisoned, .contextFault, .fatal, .halted].map EventKind.code =
    List.range' 0xB8 6 ∧
  [EventKind.directiveDropped, .eventsLost, .indexRefused].map EventKind.code = List.range' 0xC0 3

end

namespace Sys2Proof.Machine

/-! ### Words of the message statements -/

/-- The message at the front of its queue finds its slot, whose context is readable, and no earlier one waits (R48 to R50). -/
abbrev State.delivers (s : State) (h : Head) (id : Identity) (body : HandsetMsg) (n : Slot) : Prop :=
  s.op = .running ∧ s.uplink.head? = some (.handset h id body) ∧ s.uplinkWaits = false ∧
  (s.mapLookup id).map (fun e => (e.slot, e.parityBad)) = some (n, false) ∧ s.readable n

/-- R61, R97: the sighting of a handset and the refresh of its call presence. -/
def HandsetCtx.seen (c : HandsetCtx) (now : Time) : HandsetCtx :=
  { c with
    lastSeen := if c.state = .barred ∨ c.state = .quarantined then c.lastSeen else now
    presence := if c.state.inCall then { c.presence with deadline := some (now + 5000) } else c.presence }

/-- The state once the message has been heard. -/
def State.heard (s : State) (n : Slot) : State := s.setCtx n ((s.ctx n).seen s.timeBase)

/-- The message has been taken: it leaves the queue and the command ends. -/
abbrev State.endsMessage (s t : State) : Host.Outcome State Fault Refusal :=
  s.ends { t with uplink := t.uplink.tail }

/-- The request has been taken: it leaves the queue and the command ends. -/
abbrev State.endsRequest (s t : State) : Host.Outcome State Fault Refusal :=
  s.ends { t with requests := t.requests.tail }

/-- The command that dispatches a handset message. -/
def commandOf : HandsetMsg → Instr
  | .attach _ => .attach
  | .attachConfirm => .attachConfirm
  | .detach => .detach
  | .keepalive => .keepalive
  | .dozeRequest => .dozeRequest
  | .callRequest => .callRequest
  | .callRelease => .callRelease
  | .measurement _ => .measurement
  | .access => .access
  | .revert => .revert
  | .channelRefused _ => .channelRefused

/-- The request at the front of its queue is at its owner, and the slot it names, if any, is readable (R48, R51). -/
abbrev State.requested (s : State) (r : Request) : Prop :=
  s.op = .running ∧ s.requests.head? = some r ∧ s.requestWaits = false ∧ ∀ n, r.slot? = some n → s.readable n

end Sys2Proof.Machine

section
open Sys2Proof Sys2Proof.Machine

/-! ### Attach -/

/-- R49, R68: a message whose identity the Identity Map does not hold adds 1 to the unknown-identity count; an ATTACH is
answered with REJECT_ATTACH, reason UNKNOWN, and the message leaves the queue. -/
def Obligations.UnknownIdentityIsRejected : Prop :=
  ∀ (s : State) (h : Head) (id : Identity) (body : HandsetMsg), s.op = .running →
    s.uplink.head? = some (.handset h id body) → s.uplinkWaits = false → s.mapLookup id = none → s.unknownIds ≤ 65535 →
    let u := { s with unknownIds := min 65535 (s.unknownIds + 1) }
    exec (commandOf body) s = s.endsMessage (
      match body with
      | .attach _ => u.takeDirective { Directive.blank .rejectAttach (some h) with identity := id, reason := 1 }
      | _ => u)

/-- R69, R70, R82: an ATTACH in BARRED and QUARANTINED; in any other state a first and second wrong code, and the third, which
drops a call with cause BARRED, or ends a place in a queue, and bars the handset. Log entry 15 has the fields of the attach
directives and the order in which the channels of the call are released, log entry 16 the details of BARRED. -/
def Obligations.AttachCodeIsJudged : Prop :=
  ∀ (s : State) (h : Head) (id : Identity) (n : Slot) (code : BitVec 16), s.delivers h id (.attach code) n →
    let u := s.heard n
    let c := u.ctx n
    (c.state = .barred → exec .attach s = s.endsMessage (u.reply .rejectAttach h id n fun d => { d with reason := 3 })) ∧
    (c.state = .quarantined →
      exec .attach s = s.endsMessage (u.reply .rejectAttach h id n fun d => { d with reason := 4 })) ∧
    (c.state ∉ [HandsetState.barred, .quarantined] → c.code ≠ code → c.accessFail < 2 →
      exec .attach s = s.endsMessage ((u.setCtx n { c with accessFail := c.accessFail + 1 }).reply .rejectAttach h id n
        fun d => { d with reason := 2 })) ∧
    (c.state ∉ [HandsetState.barred, .quarantined] → c.code ≠ code → 2 ≤ c.accessFail →
      c.state.inCall = true → s.undamaged →
      exec .attach s = s.endsMessage (State.emit (((u.dropped n 2).setCtx n
        { c.left.away .barred with accessFail := 0 }).reply .rejectAttach h id n fun d => { d with reason := 3 })
        .barred .none n.val h.val 0)) ∧
    (c.state ∉ [HandsetState.barred, .quarantined] → c.code ≠ code → 2 ≤ c.accessFail → c.state.inCall = false →
      exec .attach s = s.endsMessage (State.emit
        (((if c.state = .queued then u.unqueued n else u).setCtx n { c.away .barred with accessFail := 0 }).reply
          .rejectAttach h id n fun d => { d with reason := 3 }) .barred .none n.val h.val 0))

/-- R71, R72, R73, R75, R82: an ATTACH with the right code. In OFFERED the offer is sent again; a place in the queue of another
head is left, and a call is dropped with cause REATTACH, before the handset is admitted; in the queue of the same head nothing
further happens. The handset is admitted at its head by the first case of R72 that applies. The model's choices: an ATTACH that
meets a VACANT slot goes no further than its code (log entry 13), and of the two channels of a MOVING call the call channel is
released first (log entry 15). -/
def Obligations.AttachIsAdmitted : Prop :=
  ∀ (s : State) (h : Head) (id : Identity) (n : Slot) (code : BitVec 16), s.delivers h id (.attach code) n →
    (s.ctx n).code = code →
    let c := { (s.heard n).ctx n with accessFail := 0 }
    let u := (s.heard n).setCtx n c
    let e := s.terms c
    (c.state = .offered → exec .attach s = s.endsMessage (u.reply .acceptAttach h id n fun d =>
      { d with mode := BitVec.ofNat 8 e.mode, period := BitVec.ofNat 8 e.period })) ∧
    (c.state ∈ [HandsetState.provisioned, .idle, .doze, .lost] →
      exec .attach s = s.endsMessage (u.admitted n h id)) ∧
    (c.state = .queued → c.admissionHead = some h → exec .attach s = s.endsMessage u) ∧
    (c.state = .queued → c.admissionHead ≠ some h → exec .attach s = s.endsMessage ((u.unqueued n).admitted n h id)) ∧
    (c.state.inCall = true → s.undamaged → exec .attach s = s.endsMessage ((u.dropped n 1).admitted n h id)) ∧
    (c.state = .vacant → exec .attach s = s.endsMessage u)

/-- R77: an ATTACH_CONFIRM in OFFERED registers the handset at the reporting head; in any other state it is ignored, a LOST
handset being recovered first (R86, R100). -/
def Obligations.ConfirmRegisters : Prop :=
  ∀ (s : State) (h : Head) (id : Identity) (n : Slot), s.delivers h id .attachConfirm n →
    let u := s.heard n
    let c := u.ctx n
    let k := c.settled .idle (some h) (idleOf (s.terms c) s.timeBase false)
    (c.state = .offered → exec .attachConfirm s =
      s.endsMessage ((u.setCtx n k).emit .attached .none n.val h.val c.cls.toNat)) ∧
    (c.state = .lost → exec .attachConfirm s = s.endsMessage ((u.setCtx n k).emit .recovered .none n.val h.val 2)) ∧
    (c.state ≠ .offered → c.state ≠ .lost → exec .attachConfirm s = s.endsMessage u)

/-- R84, R85, R163: a DETACH and a DETACH_HANDSET: the call with its transaction released with CALL_ENDED, the queue place, offer
or window ended, the state PROVISIONED, and DETACHED with the state left. A request sends DETACH_ORDER. Log entry 15 has which
state of the serving head decides where DETACH_ORDER goes, and the order in which the channels of the call are released. -/
def Obligations.DetachEndsRegistration : Prop :=
  (∀ (s : State) (x : Head) (id : Identity) (n : Slot), s.delivers x id .detach n →
    let u := s.heard n
    let c := u.ctx n
    (c.state ∈ [HandsetState.idle, .doze, .offered] → exec .detach s = s.endsMessage
      ((u.setCtx n (c.away .provisioned)).emit .detached .none n.val c.state.code 1)) ∧
    (c.state = .queued → exec .detach s = s.endsMessage
      (((u.unqueued n).setCtx n (c.away .provisioned)).emit .detached .none n.val 4 1)) ∧
    (c.state ∈ [HandsetState.provisioned, .barred, .quarantined] → exec .detach s = s.endsMessage u) ∧
    (c.state.inCall = true → s.undamaged → exec .detach s = s.endsMessage (State.emit
      (((u.cut n true).emit .callEnded .none n.val (headCode c.serving) 1).setCtx n (c.unstaged.away .provisioned))
      .detached .none n.val c.state.code 1))) ∧
  ∀ (s : State) (n : Slot), s.requested (.detachHandset n) →
    let c := s.ctx n
    (c.state ∈ [HandsetState.idle, .doze, .lost] → exec .detachHandset s = s.endsRequest
      (((s.tell .detachOrder (s.orderDest n) n).setCtx n (c.away .provisioned)).emit .detached .none n.val
        c.state.code 2)) ∧
    (c.state ∈ [HandsetState.provisioned, .barred, .quarantined, .queued, .offered] →
      exec .detachHandset s = s.endsRequest (s.emit .requestRefused .none n.val 0x25 2)) ∧
    (c.state = .vacant → exec .detachHandset s = s.endsRequest (s.emit .requestRefused .none n.val 0x25 3)) ∧
    (c.state.inCall = true → s.undamaged →
      let a := (s.cut n true).emit .callEnded .none n.val (headCode c.serving) 2
      exec .detachHandset s = s.endsRequest (State.emit
        ((a.tell .detachOrder (a.orderDest n) n).setCtx n (c.unstaged.away .provisioned)) .detached .none n.val
        c.state.code 2))

/-! ### Presence -/

/-- R86, R92, R93, R94, R95, R97, R100, R104: a KEEPALIVE. In IDLE and DOZE the reporting head becomes the serving head, or, when
it is DRAINING, is sent RESELECT; the keepalive is then early, valid, or an expiry, and a DOZE window that may not restart gives
way to an IDLE window. In LOST it is a recovery, in a call a refresh of call presence, and before registration it is answered with
DETACH_ORDER. -/
def Obligations.KeepaliveIsJudged : Prop :=
  ∀ (s : State) (h : Head) (id : Identity) (n : Slot), s.delivers h id .keepalive n →
    let u := s.heard n
    let c := u.ctx n
    let e := s.terms c
    let p := c.presence
    let elapsed := (s.timeBase - p.start.getD 0).toNat
    let early := p.mode = .window ∧ elapsed < (p.period.getD 0).toNat / 2
    let allowed := c.group ≠ 0 ∧ e.doze ≠ 15
    -- R92: what the reporting head makes of it
    let draining := (s.head h).state = .draining
    let v := if draining then u.tell .reselect (some h) n else u
    let k := if draining then c else { c with serving := some h }
    (c.state = .idle → ¬ early → exec .keepalive s = s.endsMessage
      (v.setCtx n { k with presence := idleOf e s.timeBase false })) ∧
    (c.state = .idle → early → p.early = false → exec .keepalive s = s.endsMessage
      ((v.setCtx n { k with presence := { p with early := true } }).emit .earlyKeepalive .none n.val h.val elapsed)) ∧
    (c.state = .idle → early → p.early = true → p.missed = false → exec .keepalive s = s.endsMessage
      (((v.setCtx n { k with presence := idleOf e s.timeBase true }).tell .page k.serving n).emit .missed .none n.val
        (headCode k.serving) 0)) ∧
    (c.state = .idle → early → p.early = true → p.missed = true → exec .keepalive s = s.endsMessage
      (((v.setCtx n (c.settled .lost k.serving (windowOf .grace 120000 s.timeBase true))).tell .page none n).emit
        .lost .none n.val (headCode k.serving) 9)) ∧
    (c.state = .doze → p.mode ≠ .window →
      (allowed → exec .keepalive s = s.endsMessage (v.setCtx n { k with presence := dozeOf e s.timeBase })) ∧
      (¬ allowed → exec .keepalive s = s.endsMessage
        (((v.setCtx n (c.settled .idle k.serving (idleOf e s.timeBase false))).tell .presenceTerms k.serving n fun d =>
          { d with mode := BitVec.ofNat 8 e.mode, period := BitVec.ofNat 8 e.period }).emit .dozeRefused .none n.val
            c.group.toNat e.doze))) ∧
    (c.state = .lost → ¬ draining → exec .keepalive s = s.endsMessage
      ((u.setCtx n (c.settled .idle (some h) (idleOf e s.timeBase false))).emit .recovered .none n.val h.val 4)) ∧
    (c.state.inCall = true → exec .keepalive s = s.endsMessage u) ∧
    (c.state ∈ [HandsetState.barred, .quarantined] → exec .keepalive s = s.endsMessage u) ∧
    (c.state ∈ [HandsetState.provisioned, .queued, .offered] → exec .keepalive s = s.endsMessage
      (u.tell .detachOrder (some h) n))

/-- R102, R103: a DOZE_REQUEST through a head that is not DRAINING: doze with the doze terms where the handset has a paging
group and its class a doze period, IDLE with the idle terms and DOZE_REFUSED otherwise; RESELECT at a DRAINING head; in a call
nothing (R86). -/
def Obligations.DozeRequestIsJudged : Prop :=
  ∀ (s : State) (h : Head) (id : Identity) (n : Slot), s.delivers h id .dozeRequest n →
    let u := s.heard n
    let c := u.ctx n
    let e := s.terms c
    let allowed := c.group ≠ 0 ∧ e.doze ≠ 15
    let dozeTerms (d : Directive) : Directive := { d with mode := 1, period := BitVec.ofNat 8 e.doze, group := c.group }
    let idleTerms (d : Directive) : Directive :=
      { d with mode := BitVec.ofNat 8 e.mode, period := BitVec.ofNat 8 e.period }
    ((s.head h).state ≠ .draining →
      (c.state = .idle → allowed → exec .dozeRequest s = s.endsMessage
        (((u.setCtx n (c.settled .doze (some h) (dozeOf e s.timeBase))).tell .presenceTerms (some h) n dozeTerms).emit
          .dozeEntered .none n.val c.group.toNat e.doze)) ∧
      (c.state = .doze → allowed → exec .dozeRequest s = s.endsMessage
        ((u.setCtx n { c with serving := some h, presence := dozeOf e s.timeBase }).tell .presenceTerms (some h) n
          dozeTerms)) ∧
      (c.state = .idle → ¬ allowed → exec .dozeRequest s = s.endsMessage
        (((u.setCtx n { c with serving := some h, presence := idleOf e s.timeBase false }).tell .presenceTerms (some h) n
          idleTerms).emit .dozeRefused .none n.val c.group.toNat e.doze)) ∧
      (c.state = .doze → ¬ allowed → exec .dozeRequest s = s.endsMessage
        (((u.setCtx n (c.settled .idle (some h) (idleOf e s.timeBase false))).tell .presenceTerms (some h) n
          idleTerms).emit .dozeRefused .none n.val c.group.toNat e.doze))) ∧
    ((s.head h).state = .draining → c.state ∈ [HandsetState.idle, .doze] →
      exec .dozeRequest s = s.endsMessage (u.tell .reselect (some h) n)) ∧
    (c.state.inCall = true → exec .dozeRequest s = s.endsMessage u)

/-- R86, R100, R102, R80, R81, R84, R167: messages that meet a handset that is not registered, which is sent a DETACH_ORDER for
the kinds it answers so, and those that meet a LOST one, which is recovered to IDLE at the reporting head with RECOVERED; the
message then meets IDLE. REVERT and CHANNEL_REFUSED do nothing outside a call. The model's choice (log entry 13): a message that
meets a VACANT slot is a sighting and nothing more. -/
def Obligations.UnexpectedMessagesAreAnswered : Prop :=
  ∀ (s : State) (h : Head) (id : Identity) (n : Slot) (body : HandsetMsg), s.delivers h id body n →
    let u := s.heard n
    let c := u.ctx n
    let e := s.terms c
    let runs (t : State) : Prop := exec (commandOf body) s = s.endsMessage t
    (c.state ∈ [HandsetState.provisioned, .queued, .offered] →
      (body ∈ [HandsetMsg.dozeRequest, .callRequest, .callRelease, .keepalive] ∨ (∃ x, body = .measurement x) →
        runs (u.tell .detachOrder (some h) n)) ∧
      (body = .revert ∨ (∃ x, body = .channelRefused x) → runs u)) ∧
    (c.state ∈ [HandsetState.vacant, .barred, .quarantined] → (∀ x, body ≠ .attach x) → runs u) ∧
    (c.state = .lost →
      let k := c.settled .idle (some h) (idleOf e s.timeBase false)
      let v := (u.setCtx n k).emit .recovered .none n.val h.val body.kind.code
      (body ∈ [HandsetMsg.attachConfirm, .callRelease, .revert] ∨ (∃ x, body = .measurement x) ∨
        (∃ x, body = .channelRefused x) → runs v) ∧
      (body = .keepalive → runs (if (s.head h).state = .draining then v.tell .reselect (some h) n else v)) ∧
      (body = .detach → runs ((v.setCtx n (k.away .provisioned)).emit .detached .none n.val 6 1)) ∧
      (body = .access → runs ((v.tell .channelRelease (some h) n).emit .staleAccess .none n.val h.val 6)) ∧
      (body = .dozeRequest →
        ((s.head h).state = .draining → runs (v.tell .reselect (some h) n)) ∧
        ((s.head h).state ≠ .draining → c.group ≠ 0 ∧ e.doze ≠ 15 → runs
          (((v.setCtx n (c.settled .doze (some h) (dozeOf e s.timeBase))).tell .presenceTerms (some h) n fun d =>
            { d with mode := 1, period := BitVec.ofNat 8 e.doze, group := c.group }).emit .dozeEntered .none n.val
              c.group.toNat e.doze)) ∧
        ((s.head h).state ≠ .draining → ¬ (c.group ≠ 0 ∧ e.doze ≠ 15) → runs
          ((v.tell .presenceTerms (some h) n fun d =>
            { d with mode := BitVec.ofNat 8 e.mode, period := BitVec.ofNat 8 e.period }).emit .dozeRefused .none n.val
              c.group.toNat e.doze))) ∧
      (body = .callRequest → (s.head h).poolParityBad = false →
        (∀ ch, s.callGranted h ch → runs (State.calls v n h ch)) ∧
        ((∀ ch, ¬ s.callGranted h ch) → runs
          ((v.tell .callReject (some h) n).emit .callRefused .none n.val h.val 0))))

/-! ### Calls -/

/-- R80, R136, R137: a CALL_REQUEST in IDLE or DOZE: granted the lowest free channel of the reporting head when the head is
IN_SERVICE, has more channels free than its guard and nobody waiting; answered with CALL_REJECT otherwise; ignored in a
call. -/
def Obligations.CallRequestIsAnswered : Prop :=
  ∀ (s : State) (h : Head) (id : Identity) (n : Slot), s.delivers h id .callRequest n →
    (s.head h).poolParityBad = false →
    let u := s.heard n
    let c := u.ctx n
    (c.state ∈ [HandsetState.idle, .doze] →
      (∀ ch, s.callGranted h ch → exec .callRequest s = s.endsMessage (u.calls n h ch)) ∧
      ((∀ ch, ¬ s.callGranted h ch) → exec .callRequest s = s.endsMessage (State.emit
        ((u.setCtx n { c with serving := some h }).tell .callReject (some h) n) .callRefused .none n.val h.val 0))) ∧
    (c.state.inCall = true → exec .callRequest s = s.endsMessage u)

/-- R81, R86, R163: a CALL_RELEASE or a RELEASE_CALL of a call: its transaction closed with HANDOVER_ABANDONED, its channels
released, IDLE at the serving head with staged fields in force, the handover failure count 0, and CALL_ENDED with the origin;
the refusals of the request. The model's choice (log entry 15): the call channel is released first, then the channel that the
transaction names. -/
def Obligations.CallIsReleased : Prop :=
  (∀ (s : State) (x : Head) (id : Identity) (n : Slot), s.delivers x id .callRelease n →
    let u := s.heard n
    let c := u.ctx n
    (c.state ∈ [HandsetState.idle, .doze] → exec .callRelease s = s.endsMessage u) ∧
    (c.state.inCall = true → s.undamaged → exec .callRelease s = s.endsMessage (State.emit
      ((u.cut n true).setCtx n { c.unstaged.settled .idle c.serving
        (idleOf (s.terms c.unstaged) s.timeBase false) with hoFail := 0 }) .callEnded .none n.val
        (headCode c.serving) 1))) ∧
  ∀ (s : State) (n : Slot), s.requested (.releaseCall n) →
    let c := s.ctx n
    (c.state.inCall = true → s.undamaged → exec .releaseCall s = s.endsRequest (State.emit
      ((s.cut n true).setCtx n { c.unstaged.settled .idle c.serving
        (idleOf (s.terms c.unstaged) s.timeBase false) with hoFail := 0 }) .callEnded .none n.val
        (headCode c.serving) 2)) ∧
    (c.state ∈ [HandsetState.idle, .doze, .lost] →
      exec .releaseCall s = s.endsRequest (s.emit .requestRefused .none n.val 0x22 5)) ∧
    (c.state ∈ [HandsetState.provisioned, .barred, .quarantined, .queued, .offered] →
      exec .releaseCall s = s.endsRequest (s.emit .requestRefused .none n.val 0x22 2)) ∧
    (c.state = .vacant → exec .releaseCall s = s.endsRequest (s.emit .requestRefused .none n.val 0x22 3))

/-! ### Quality -/

/-- R107 to R113: a MEASUREMENT through the serving head of a call, made while the handset is MOVING or the part CONTAINED, sets
the quality context alone: the serving level and its flags filtered, the entries of the Candidate List updated or removed, and
the heads that are then not listed offered; the list stays within R111. Elsewhere the report is ignored. Log entry 12 has which
samples are offered. -/
def Obligations.MeasurementIsFiltered : Prop :=
  ∀ (s : State) (h : Head) (id : Identity) (n : Slot) (samples : List (Head × Nat)),
    s.delivers h id (.measurement samples) n →
    let u := s.heard n
    let c := u.ctx n
    let q := c.quality.after (s.terms c).filter h samples
    (c.state.inCall = true → c.serving = some h → c.state = .moving ∨ s.contained = true →
      exec .measurement s = s.endsMessage (u.setCtx n { c with quality := q })) ∧
    (c.quality.Sound (some h) → q.Sound (some h) ∧ q.holdoff = c.quality.holdoff) ∧
    (c.state.inCall = true → c.serving ≠ some h → exec .measurement s = s.endsMessage u) ∧
    (c.state ∈ [HandsetState.idle, .doze] → exec .measurement s = s.endsMessage u) ∧
    (c.state ∈ [HandsetState.provisioned, .queued, .offered] → exec .measurement s = s.endsMessage
      (u.tell .detachOrder (some h) n))

/-- R115 to R119, R149, R138: a MEASUREMENT through the serving head of a call in ACTIVE or PINNED, with the part not CONTAINED,
is filtered and then evaluated: the choice is the first listed head IN_SERVICE; the drain trigger, then the urgent, then the
quality trigger with its dwell may open a transaction toward it, which is granted a channel or waits; a full table is a
deferral. -/
def Obligations.TriggersOpenHandovers : Prop :=
  ∀ (s : State) (h : Head) (id : Identity) (n : Slot) (samples : List (Head × Nat)),
    s.delivers h id (.measurement samples) n → s.undamaged → s.deferrals ≤ 65535 →
    let u := s.heard n
    let c := u.ctx n
    c.state ∈ [HandsetState.active, .pinned] → c.serving = some h → s.contained = false →
    exec .measurement s = s.endsMessage
      (State.judged (u.setCtx n { c with quality := c.quality.after (s.terms c).filter h samples }) n h)

/-! ### Handover -/

/-- R156, R140, R114, R167: an ACCESS from the target of a COMMANDED transaction switches the call, Quality taking the new
serving level and the offer of the old serving head; one from the serving head of a call, or from another head in SWITCHED, is
ignored; one outside a call is answered with CHANNEL_RELEASE and STALE_ACCESS. Log entry 15 has the fields of the
CHANNEL_RELEASE. -/
def Obligations.AccessSwitches : Prop :=
  ∀ (s : State) (h : Head) (id : Identity) (n : Slot), s.delivers h id .access n →
    let u := s.heard n
    let c := u.ctx n
    (∀ e t new old, s.holds n e t → t.phase = .commanded → t.target = some h → t.targetChan = some new →
      c.channel = some old → s.undamaged → exec .access s = s.endsMessage (u.switched n e t h new old)) ∧
    (c.state ∈ [HandsetState.active, .pinned] → c.txn = none → c.serving = some h →
      exec .access s = s.endsMessage u) ∧
    (∀ e t, s.holds n e t → t.phase = .switched → exec .access s = s.endsMessage u) ∧
    (∀ e t, s.holds n e t → t.phase ∈ [Phase.reserving, .commanded] → t.target ≠ some h → c.serving = some h →
      exec .access s = s.endsMessage u) ∧
    (c.state ∈ [HandsetState.provisioned, .queued, .offered, .idle, .doze] → exec .access s = s.endsMessage
      ((u.tell .channelRelease (some h) n).emit .staleAccess .none n.val h.val c.state.code))

/-- R167, R139, R114: an ACCESS outside the plan. An ORPHANED call is taken up by the access head; a call with no transaction
opens one of cause REESTABLISH and switches at once; a RESERVING or COMMANDED one gives up its target and switches in its own
entry. Each needs a channel at a head IN_SERVICE or DEGRADED, and a new transaction a free entry; otherwise the call is dropped
with cause NO_REESTABLISH and the handset is IDLE at the access head. The model's choice (log entry 14): a call taken up again at the
head that it was orphaned from offers nothing to the Candidate List. -/
def Obligations.AccessReestablishes : Prop :=
  ∀ (s : State) (h : Head) (id : Identity) (n : Slot), s.delivers h id .access n → s.undamaged →
    let u := s.heard n
    let c := u.ctx n
    (∀ e t, s.holds n e t → t.phase = .orphaned → exec .access s = s.endsMessage (u.adopted n e h)) ∧
    (∀ source old, c.state ∈ [HandsetState.active, .pinned] → c.txn = none → c.serving = some source → source ≠ h →
      c.channel = some old → exec .access s = s.endsMessage (u.reestablishedAnew n source h old)) ∧
    ∀ e t source old, s.holds n e t → t.phase = .reserving ∨ t.phase = .commanded ∧ t.target ≠ some h →
      c.serving = some source → source ≠ h → c.channel = some old →
      exec .access s = s.endsMessage (u.reestablishedAgain n e t h old)

/-- R151, R152, R153, R154, R155: the counted failures of a transaction: REVERT from the source and CHANNEL_REFUSED
from the target in COMMANDED, and the deadlines of COMMANDED and RESERVING; a REVERT and a CHANNEL_REFUSED in any
other case are ignored, and a deadline that has not passed does nothing. The model's choice (log entry 10): a deadline
that has not passed does nothing. -/
def Obligations.FailuresAreCounted : Prop :=
  (∀ (s : State) (x : Head) (id : Identity) (n : Slot), s.delivers x id .revert n →
    let u := s.heard n
    (∀ e t, s.holds n e t → t.phase = .commanded → t.source = x → s.undamaged →
      exec .revert s = s.endsMessage (u.failedAt n e t 3)) ∧
    (∀ e t, s.holds n e t → t.phase ≠ .commanded ∨ t.source ≠ x → exec .revert s = s.endsMessage u) ∧
    ((u.ctx n).state ∉ [HandsetState.moving, .lost] → (u.ctx n).txn = none → exec .revert s = s.endsMessage u)) ∧
  (∀ (s : State) (x : Head) (id : Identity) (n : Slot) (y : Chan), s.delivers x id (.channelRefused y) n →
    let u := s.heard n
    (∀ e t, s.holds n e t → t.phase = .commanded → t.target = some x → t.targetChan = some y → s.undamaged →
      exec .channelRefused s = s.endsMessage (u.failedAt n e t 4)) ∧
    (∀ e t, s.holds n e t → t.phase ≠ .commanded ∨ t.target ≠ some x ∨ t.targetChan ≠ some y →
      exec .channelRefused s = s.endsMessage u) ∧
    ((u.ctx n).state ∉ [HandsetState.moving, .lost] → (u.ctx n).txn = none →
      exec .channelRefused s = s.endsMessage u)) ∧
  ∀ (s : State) (n : Slot) (e : EntryNo) (t : Handover), s.op = .running → s.readable n → s.holds n e t →
    (t.phase = .commanded → passed t.deadline s.timeBase = true → s.undamaged →
      exec (.commandedDeadline e) s = s.ends (s.failedAt n e t 2)) ∧
    (t.phase = .reserving → passed t.deadline s.timeBase = true → s.undamaged →
      exec (.reservingDeadline e) s = s.ends (s.failedAt n e t 1)) ∧
    (passed t.deadline s.timeBase = false →
      exec (.commandedDeadline e) s = s.ends s ∧ exec (.reservingDeadline e) s = s.ends s)

/-- R121, R138, R149, R150, R52: FORCE_HANDOVER: the refusals in the order of the checks, and the opening, which is granted
a free channel of its target or waits for one. -/
def Obligations.ForceHandoverOpens : Prop :=
  ∀ (s : State) (n : Slot) (target : Head), s.requested (.forceHandover n target) →
    let c := s.ctx n
    let refuses (r : Nat) : Prop := exec .forceHandover s = s.endsRequest (s.emit .requestRefused .none n.val 0x23 r)
    (c.state = .vacant → refuses 3) ∧
    (c.state ≠ .vacant → s.contained = true → refuses 9) ∧
    (s.contained = false →
      (c.state ∈ [HandsetState.provisioned, .barred, .quarantined, .queued, .offered] → refuses 2) ∧
      (c.state ∈ [HandsetState.idle, .doze, .lost] → refuses 5) ∧
      (c.state = .moving → refuses 1) ∧
      (c.state ∈ [HandsetState.active, .pinned] →
        (c.policy = .locked → refuses 6) ∧
        (c.policy ≠ .locked → c.serving = some target ∨ (s.head target).state ≠ .inService → refuses 7) ∧
        (c.policy ≠ .locked → (s.head target).state = .inService → s.undamaged → ∀ source, c.serving = some source →
          source ≠ target →
          (s.vacantEntry = none → refuses 8) ∧
          ∀ e, s.vacantEntry = some e →
            exec .forceHandover s = s.endsRequest (s.opened n source target .forced e))))

/-- R138, R141, R142, R143, R150, R133: the Reservation Wait Queue. A transaction that opens toward a full head IN_SERVICE stands
RESERVING in the queue, its order by rank, priority, opening time and slot kept. A call released at such a head, as by a
CALL_RELEASE, hands its channel to the first waiter, which is COMMANDED and leaves the queue; the entries behind it keep their
order. The last channel released at a DRAINING head takes the head OUT_OF_SERVICE. -/
def Obligations.WaitQueueIsServed : Prop :=
  (∀ (s : State) (n : Slot) (source target : Head) (e : EntryNo), s.requested (.forceHandover n target) → s.undamaged →
    s.contained = false → (s.ctx n).state ∈ [HandsetState.active, .pinned] → (s.ctx n).policy ≠ .locked →
    (s.ctx n).serving = some source → source ≠ target → (s.head target).state = .inService →
    (s.head target).freeCount = 0 → s.vacantEntry = some e →
    let w : WaitEntry :=
      { entry := e, slot := n, cause := .forced, priority := (s.ctx n).priority, opened := s.timeBase }
    ∃ t, exec .forceHandover s = .next t ∧ (t.head target).pool = (s.head target).pool ∧
      (∃ before behind, (s.head target).waitQ = before ++ behind ∧ (t.head target).waitQ = before ++ w :: behind ∧
        (∀ y ∈ before, ¬ w.ahead y) ∧ ∀ y ∈ behind.head?, w.ahead y) ∧
      ∃ x, (t.entry e).txn = some x ∧ x.slot = n ∧ x.phase = .reserving ∧ x.target = some target ∧
        x.deadline = s.timeBase + 2000 ∧ (t.ctx n).state = .moving) ∧
  (∀ (s : State) (x h : Head) (id : Identity) (n : Slot) (ch : Chan) (w : WaitEntry) (rest : List WaitEntry) (t : Handover),
    s.delivers x id .callRelease n → s.undamaged → (s.ctx n).state ∈ [HandsetState.active, .pinned] →
    (s.ctx n).txn = none → (s.ctx n).serving = some h → (s.ctx n).channel = some ch → (s.head h).state = .inService →
    (s.head h).waitQ = w :: rest → (s.entry w.entry).txn = some t → ch.val < (s.head h).capacity →
    (∀ j : Chan, j < ch → (s.head h).pool[j].isSome = true) →
    ∃ u, exec .callRelease s = .next u ∧ (u.head h).waitQ = rest ∧
      (u.head h).pool = (s.head h).pool.set ch (some (.reservation w.entry)) ∧
      (u.entry w.entry).txn = some { t with
        phase := .commanded, targetChan := some ch, deadline := s.timeBase + 300 } ∧
      (u.ctx n).state = .idle) ∧
  ∀ (s : State) (x h : Head) (id : Identity) (n : Slot) (ch : Chan), s.delivers x id .callRelease n → s.undamaged →
    (s.ctx n).state ∈ [HandsetState.active, .pinned] → (s.ctx n).txn = none → (s.ctx n).serving = some h →
    (s.ctx n).channel = some ch → (s.head h).state = .draining →
    (∀ j : Chan, j ≠ ch → (s.head h).pool[j] = none) →
    ∃ u, exec .callRelease s = .next u ∧ (u.head h).state = .outOfService ∧ (u.head h).liveness = none ∧
      (u.head h).staged = none ∧ (u.ctx n).state = .idle

/-- R83, R169, R183, R188: a PAGE and an UNPIN by the state of their slot; CLEAR_FAULT_LIST empties the list and its count;
ACK_FATAL clears FATAL_PENDING, or is refused with NOTHING_PENDING. -/
def Obligations.PageUnpinAndFaultRequestsAct : Prop :=
  (∀ (s : State) (n : Slot), s.requested (.page n) →
    let c := s.ctx n
    (c.state = .idle → exec .page s = s.endsRequest (s.tell .page c.serving n)) ∧
    (c.state = .doze → exec .page s = s.endsRequest (s.tell .page c.serving n fun d => { d with group := c.group })) ∧
    (c.state = .lost → exec .page s = s.endsRequest (s.tell .page none n)) ∧
    (c.state ∈ [HandsetState.active, .moving, .pinned] →
      exec .page s = s.endsRequest (s.emit .requestRefused .none n.val 0x21 1)) ∧
    (c.state ∈ [HandsetState.provisioned, .barred, .quarantined, .queued, .offered] →
      exec .page s = s.endsRequest (s.emit .requestRefused .none n.val 0x21 2)) ∧
    (c.state = .vacant → exec .page s = s.endsRequest (s.emit .requestRefused .none n.val 0x21 3))) ∧
  (∀ (s : State) (n : Slot), s.requested (.unpin n) →
    let c := s.ctx n
    (c.state = .pinned → exec .unpin s = s.endsRequest (s.setCtx n { c with
      state := .active, hoFail := 0, admissionHead := none, offerDeadline := none, txn := none })) ∧
    (c.state = .moving → exec .unpin s = s.endsRequest (s.emit .requestRefused .none n.val 0x24 1)) ∧
    (c.state ∈ [HandsetState.active, .idle, .doze, .lost] →
      exec .unpin s = s.endsRequest (s.emit .requestRefused .none n.val 0x24 5)) ∧
    (c.state ∈ [HandsetState.provisioned, .barred, .quarantined, .queued, .offered] →
      exec .unpin s = s.endsRequest (s.emit .requestRefused .none n.val 0x24 2)) ∧
    (c.state = .vacant → exec .unpin s = s.endsRequest (s.emit .requestRefused .none n.val 0x24 3))) ∧
  (∀ s : State, s.requested .clearFaultList →
    exec .clearFaultList s = s.endsRequest { s with faultList := [], corrected := 0 }) ∧
  ∀ s : State, s.requested .ackFatal →
    (s.fatalPending = true → exec .ackFatal s = s.endsRequest { s with fatalPending := false }) ∧
    (s.fatalPending = false → exec .ackFatal s = s.endsRequest (s.emit .requestRefused .none 0xFFFF 0x29 10))

end

namespace Sys2Proof.Machine

/-! ### Words of the statements about heads, deadlines and fatal faults -/

/-- R186: a fatal fault with FATAL_PENDING clear, in the structure with code `f`. -/
def State.faulted (s : State) (f e : Nat) : State :=
  State.emit { s with contained := true, fatalPending := true } .fatal .fatal 0xFFFF f e

/-- The command ends in HALTED, with ATTN asserted. -/
abbrev State.halts (s : State) (c : Instr) : Prop := ∃ t, exec c s = .next t ∧ t.op = .halted ∧ t.attn = true

/-- No RESERVING transaction targets the head. -/
abbrev State.untargeted (s : State) (h : Head) : Prop :=
  ∀ e t, (s.entry e).txn = some t → ¬ (t.target = some h ∧ t.phase = .reserving)

/-- The only Attach Queue entry of a slot is in the queue of `h`. -/
abbrev State.queuedAt (s : State) (n : Slot) (h : Head) (joined : Time) : Prop :=
  (n, joined) ∈ (s.att h).queue ∧ ∀ x, ∀ q ∈ (s.att x).queue, q.1 = n → x = h ∧ q = (n, joined)

end Sys2Proof.Machine

section
open Sys2Proof Sys2Proof.Machine

/-! ### Heads -/

/-- R126, R131, R74, R79: a HEAD_STATUS sets the last status time and the warning flag in every state, and acts on the state: it
brings a provisioned ABSENT or FAILED head into service, moves it between IN_SERVICE and DEGRADED, and refreshes the liveness
deadline. On the entry to IN_SERVICE the credits are refilled and the Attach Queue is served; on the entry to DEGRADED the
transactions that wait for the head are closed. The model's choice (log entry 23): HEAD_UP and HEAD_DEGRADED stand before the
records of the Attach Queue and of the closures. -/
def Obligations.HeadStatusIsTaken : Prop :=
  ∀ (s : State) (h : Head) (w : Bool), s.op = .running → s.uplink.head? = some (.headStatus h w) →
    s.uplinkWaits = false → s.undamaged →
    let x := s.head h
    let b := { x with lastStatus := s.timeBase, warning := w }
    let live := s.setHead h { b with liveness := some (s.timeBase + 3000) }
    (x.state = .outOfService ∨ x.state = .absent ∧ x.capacity = 0 → exec .headStatus s = s.endsMessage (s.setHead h b)) ∧
    (x.state = .draining ∨ x.state = .inService ∧ w = false ∨ x.state = .degraded ∧ w = true →
      exec .headStatus s = s.endsMessage live) ∧
    (x.state = .absent ∧ 1 ≤ x.capacity ∨ x.state = .failed →
      (w = false → exec .headStatus s = s.endsMessage (live.inService h x.state.code)) ∧
      (w = true → exec .headStatus s = s.endsMessage ((live.inService h x.state.code).degraded h 1))) ∧
    (x.state = .degraded → w = false → exec .headStatus s = s.endsMessage (live.inService h 2)) ∧
    (x.state = .inService → w = true → exec .headStatus s = s.endsMessage (live.degraded h 1))

/-- R132, R133, R134, R131, R79: DRAIN_HEAD and RESTORE_HEAD by the state of the head. A drain closes the transactions that wait
for the head, empties its Attach Queue with RESELECT, and ends at once where no channel is allocated; a restore refills and
serves the queue. The model's choice (log entry 23): the events of the head's state stand before the records of the Attach Queue
and of the closures that follow it. -/
def Obligations.HeadsDrainAndRestore : Prop :=
  (∀ (s : State) (h : Head), s.requested (.drainHead h) → s.undamaged →
    let x := s.head h
    (x.state ∈ [HeadState.inService, .degraded] →
      let a := ((s.setHead h { x with state := .draining, waitQ := [] }).unwaited h).emptied h true
      (0 < x.inUse → exec .drainHead s = s.endsRequest a) ∧
      (x.inUse = 0 → exec .drainHead s = s.endsRequest (a.drained h))) ∧
    (x.state = .absent → x.capacity = 0 → exec .drainHead s = s.endsRequest (s.emit .requestRefused .none h.val 0x26 4)) ∧
    (x.state ∈ [HeadState.draining, .failed, .outOfService] ∨ x.state = .absent ∧ x.capacity ≠ 0 →
      exec .drainHead s = s.endsRequest (s.emit .requestRefused .none h.val 0x26 5))) ∧
  ∀ (s : State) (h : Head), s.requested (.restoreHead h) → s.undamaged →
    let x := s.head h
    (x.state = .outOfService → exec .restoreHead s =
      s.endsRequest (s.setHead h { x.unstaged with state := .absent, failures := 0 })) ∧
    (x.state = .draining → x.warning = false → exec .restoreHead s = s.endsRequest (s.inService h 3)) ∧
    (x.state = .draining → x.warning = true → exec .restoreHead s = s.endsRequest ((s.inService h 3).degraded h 1)) ∧
    (x.state = .absent → x.capacity = 0 →
      exec .restoreHead s = s.endsRequest (s.emit .requestRefused .none h.val 0x27 4)) ∧
    (x.state ∈ [HeadState.inService, .degraded, .failed] ∨ x.state = .absent ∧ x.capacity ≠ 0 →
      exec .restoreHead s = s.endsRequest (s.emit .requestRefused .none h.val 0x27 5))

/-- R127, R129, R130, R131, R160, R162, R165, R79: the liveness deadline when it passes: the head is FAILED, or OUT_OF_SERVICE
at its fourth failure, and its channels are gone; its Attach Queue is emptied; the RESERVING and COMMANDED transactions that
target it close uncounted; the media holds that leave from it end with SOURCE_FAILED, the media head unchanged; the calls it
serves are orphaned, in place, in a new transaction, or dropped to LOST where the table is full. The model's choices: before it
passes a deadline does nothing (log entry 10), and a call dropped to LOST keeps the handover failure count (log entry 30). -/
def Obligations.HeadFailureEndsWork : Prop :=
  ∀ (s : State) (h : Head) (d : Time), s.op = .running → (s.head h).liveness = some d →
    (passed d s.timeBase = false → exec (.livenessDeadline h) s = s.ends s) ∧
    (passed d s.timeBase = true → s.undamaged → exec (.livenessDeadline h) s = s.ends (s.headFails h))

/-! ### Deadlines -/

/-- R74, R76, R78: the offer deadline, the age limit and the regain deadline when they pass, and before they pass. The
model's choice (log entry 10): a deadline that has not passed does nothing. -/
def Obligations.AdmissionDeadlinesPass : Prop :=
  ∀ (s : State), s.op = .running →
    (∀ n d, s.readable n → (s.ctx n).state = .offered → (s.ctx n).offerDeadline = some d →
      (passed d s.timeBase = true → exec (.offerDeadline n) s = s.ends
        ((s.setCtx n ((s.ctx n).away .provisioned)).emit .attachTimeout .none n.val (headCode (s.ctx n).admissionHead) 0)) ∧
      (passed d s.timeBase = false → exec (.offerDeadline n) s = s.ends s)) ∧
    (∀ n h joined, s.readable n → (s.ctx n).state = .queued → s.queuedAt n h joined →
      (passed (joined + 4000) s.timeBase = true → exec (.ageLimit n) s = s.ends
        (((s.unqueued n).setCtx n ((s.ctx n).away .provisioned)).reply .retryLater h (s.ctx n).identity n
          fun d => { d with backoff := 250 })) ∧
      (passed (joined + 4000) s.timeBase = false → exec (.ageLimit n) s = s.ends s)) ∧
    ∀ h d, (s.att h).regain = some d →
      let a := s.att h
      (passed d s.timeBase = false → exec (.regainDeadline h) s = s.ends s) ∧
      (passed d s.timeBase = true → a.credits < 4 →
        (a.queue = [] ∨ (s.head h).state ∉ [HeadState.inService, .degraded] → exec (.regainDeadline h) s = s.ends
          (s.setAtt h { a with
            credits := a.credits + 1, regain := if a.credits + 1 < 4 then some (s.timeBase + 25) else none })) ∧
        ∀ n joined rest, a.queue = (n, joined) :: rest → (s.head h).state ∈ [HeadState.inService, .degraded] →
          s.readable n → (s.ctx n).state = .queued → exec (.regainDeadline h) s = s.ends
            ((s.setAtt h { a with
              credits := a.credits + 1, regain := if a.credits + 1 < 4 then some (s.timeBase + 25) else none
              queue := rest }).offers n h (s.ctx n).identity))

/-- R95, R98, R101, R104, R120: the deadlines of the presence and quality contexts when they pass: a window, the call
presence, the grace period and the holdoff. The model's choices: a deadline that has not passed does nothing (log entry 10), of
the two channels of a MOVING call the call channel is released first (log entry 15), and a call dropped to LOST keeps the
handover failure count (log entry 30). -/
def Obligations.PresenceDeadlinesPass : Prop :=
  ∀ (s : State) (n : Slot), s.op = .running → s.readable n →
    let c := s.ctx n
    let p := c.presence
    let e := s.terms c
    let dozes := c.group ≠ 0 ∧ e.doze ≠ 15
    let grouped (d : Directive) : Directive := { d with group := if c.state = .doze then c.group else 0 }
    (∀ d, p.deadline = some d → passed d s.timeBase = false →
      exec (.windowDeadline n) s = s.ends s ∧ exec (.callPresenceDeadline n) s = s.ends s ∧
        exec (.graceDeadline n) s = s.ends s) ∧
    (∀ d, p.deadline = some d → passed d s.timeBase = true →
      (p.mode ∈ [PresenceMode.window, .timeout] → c.state ∈ [HandsetState.idle, .doze] →
        (p.missed = true → exec (.windowDeadline n) s = s.ends (State.emit
          ((s.setCtx n (c.settled .lost c.serving (windowOf .grace 120000 s.timeBase true))).tell .page none n grouped)
          .lost .none n.val (headCode c.serving) 9)) ∧
        (p.missed = false → c.state = .idle ∨ dozes → exec (.windowDeadline n) s = s.ends (State.emit
          ((s.setCtx n { c with presence :=
            if c.state = .idle then idleOf e s.timeBase true else { dozeOf e s.timeBase with missed := true } }).tell
            .page c.serving n grouped) .missed .none n.val (headCode c.serving) 0)) ∧
        (p.missed = false → c.state = .doze → ¬ dozes → exec (.windowDeadline n) s = s.ends (State.emit (State.tell
          (((s.tell .page c.serving n grouped).emit .missed .none n.val (headCode c.serving) 0).setCtx n
            (c.settled .idle c.serving (idleOf e s.timeBase true))) .presenceTerms c.serving n fun d =>
              { d with mode := BitVec.ofNat 8 e.mode, period := BitVec.ofNat 8 e.period })
          .dozeRefused .none n.val c.group.toNat e.doze))) ∧
      (p.mode = .call → c.state.inCall = true → s.undamaged → exec (.callPresenceDeadline n) s = s.ends (State.emit
        ((s.dropped n 4).setCtx n
          (c.unstaged.settled .lost c.serving (windowOf .grace 120000 s.timeBase p.missed))) .lost .none n.val
        (headCode c.serving) 4)) ∧
      (p.mode = .grace → c.state = .lost → exec (.graceDeadline n) s = s.ends
        ((s.setCtx n (c.away .provisioned)).emit .lostExpired .none n.val (headCode c.serving) 0))) ∧
    ∀ d, c.quality.holdoff = some d → exec (.holdoffDeadline n) s = s.ends (
      if passed d s.timeBase then s.setCtx n { c with quality := { c.quality with holdoff := none } } else s)

/-- R157, R159, R166: the media hold and ORPHANED deadlines when they pass: the hold ends with detail LATE, the media head becomes
the serving head and the source channel is released; the orphaned call is dropped to LOST. The model's choices: a deadline that
has not passed does nothing (log entry 10), and a call dropped to LOST keeps the handover failure count (log entry 30). -/
def Obligations.HandoverDeadlinesPass : Prop :=
  ∀ (s : State) (n : Slot) (e : EntryNo) (t : Handover), s.op = .running → s.readable n → s.holds n e t →
    let c := s.ctx n
    (t.phase = .switched → passed t.deadline s.timeBase = true → s.undamaged →
      exec (.mediaHoldDeadline e) s = s.ends (s.holdEnded e t c.serving 2)) ∧
    (t.phase = .orphaned → passed t.deadline s.timeBase = true → s.undamaged →
      exec (.orphanedDeadline e) s = s.ends ((s.dropped n 6).setCtx n
        (c.unstaged.settled .lost c.serving (windowOf .grace 120000 s.timeBase c.presence.missed)))) ∧
    (passed t.deadline s.timeBase = false →
      exec (.mediaHoldDeadline e) s = s.ends s ∧ exec (.orphanedDeadline e) s = s.ends s)

/-! ### Fatal faults and the part's own reads -/

/-- R186, R189, R20, R13: a parity fault of the Identity Map, the table or a Channel Pool that a block reads. With FATAL_PENDING
clear, CONTAINED and FATAL_PENDING are set, FATAL is reported, and the block goes on; with it set the part enters HALTED: the
waiting transactions are refused, the event HALTED goes to a free slot of the Event Ring or is lost, the status block is written,
ATTN is asserted, and nothing else changes but for a directive whose slot or producer word was being written, which memory may
have taken. The model's choices: a fault is found once, at the first read of its entry, and the mark is then cleared (log entry
9); whether memory had taken a write that the halt cuts off is a free value, and the statement holds for both (log entry 3); the
records accepted and not yet written are given up (log entry 17). -/
def Obligations.FatalFaultsContainAndHalt : Prop :=
  (∀ (s : State) (f : FaultyStructure) (e : Nat), s.fatalPending = false →
    fatalFault f e s = .ok () (s.faulted f.code e)) ∧
  (∀ (s : State) (f : FaultyStructure) (e : Nat), s.fatalPending = true →
    ∃ t, fatalFault f e s = .error () t ∧ t.op = .halted ∧ t.cpPort = s.cpPort.afterReset ∧ t.rlcPort = s.rlcPort.afterReset ∧
      t.heldCp = none ∧ t.heldRlc = none ∧ t.merge = none ∧ t.recordWrite = none ∧ t.ctxs = s.ctxs ∧ t.heads = s.heads ∧
      t.table = s.table ∧ t.attach = s.attach ∧ t.idMap = s.idMap ∧ t.uplink = s.uplink ∧ t.requests = s.requests ∧
      t.faultList = s.faultList ∧ t.corrected = s.corrected ∧ t.scrubPtr = s.scrubPtr ∧ t.contained = s.contained ∧
      t.fatalPending = true ∧ t.timeBase = s.timeBase ∧ t.backlog = s.backlog ∧ t.dirCons = s.dirCons ∧
      t.evCons = s.evCons ∧ t.evSent = false ∧ t.attnLevel = true ∧
      (unread t.evCount t.evProd t.evCons + 1 < t.evCount →
        t.eventsLost = s.eventsLost ∧ t.evOut =
          [{ kind := .halted, severity := .fatal, subject := 0xFFFF, time := s.timeBase
             detail1 := BitVec.ofNat 32 f.code, detail2 := BitVec.ofNat 32 e }]) ∧
      (¬ unread t.evCount t.evProd t.evCons + 1 < t.evCount →
        t.evOut = [] ∧ t.eventsLost = if s.eventsLost < 65535 then s.eventsLost + 1 else s.eventsLost) ∧
      (Memory.wf s.mem → ∀ i < 128, t.mem.readByte (0x180 + i) = byteAt t.statusBytes i) ∧
      ∃ m : Memory,
        (t.dirOut = s.dirOut ∧ t.dirProd = s.dirProd ∧ m = s.mem ∨ ∃ d rest, s.dirOut = d :: rest ∧
          (s.dirSent = false ∧ t.dirOut = s.dirOut ∧ t.dirProd = s.dirProd ∧
              m = s.mem.writeAll ((s.map.map RegionMap.directiveBase).getD 0 + 32 * s.dirProd) d.bytes ∨
            s.dirSent = true ∧ t.dirOut = rest ∧ t.dirProd = (s.dirProd + 1) % s.dirCount ∧
              m = s.mem.writeAll 0x100 (leBytes 4 ((s.dirProd + 1) % s.dirCount)))) ∧
        (Memory.wf s.mem → s.recordWrite = none → s.evOut = [] →
          t.evProd = s.evProd ∧ ∀ a, a < 0x180 ∨ 0x200 ≤ a → t.mem.readByte a = m.readByte a)) ∧
  (∀ (s : State) (h : Head) (id : Identity) (body : HandsetMsg) (n : Slot), s.op = .running →
    s.uplink.head? = some (.handset h id body) → s.uplinkWaits = false →
    (s.mapLookup id).map (fun e => (e.slot, e.parityBad)) = some (n, true) →
    (s.fatalPending = true → s.halts (commandOf body)) ∧
    (s.fatalPending = false → s.readable n → (s.ctx n).state = .barred → (∀ x, body ≠ .attach x) →
      exec (commandOf body) s = s.endsMessage (State.faulted
        { s with idMap := s.idMap.map fun e => if e.slot = n then { e with parityBad := false } else e } 1 n.val))) ∧
  (∀ (s : State) (h : Head) (id : Identity) (n : Slot), s.delivers h id .callRequest n →
    (s.ctx n).state ∈ [HandsetState.idle, .doze] → (s.head h).poolParityBad = true → s.fatalPending = true →
    s.halts .callRequest) ∧
  (∀ (s : State) (h : Head), s.requested (.drainHead h) → (s.head h).state = .inService → s.untargeted h →
    (s.att h).queue = [] → (s.head h).poolParityBad = true →
    (s.fatalPending = true → s.halts .drainHead) ∧
    (s.fatalPending = false → 0 < (s.head h).inUse →
      exec .drainHead s = s.endsRequest (State.faulted (s.setHead h { s.head h with
        state := .draining, waitQ := [], poolParityBad := false }) 3 h.val))) ∧
  (∀ (s : State) (e : EntryNo) (t : Handover), s.op = .running → s.entry e = { txn := some t, parityBad := true } →
    passed t.deadline s.timeBase = true → s.fatalPending = true →
    (t.phase = .reserving → s.halts (.reservingDeadline e)) ∧ (t.phase = .commanded → s.halts (.commandedDeadline e)) ∧
    (t.phase = .switched → s.halts (.mediaHoldDeadline e)) ∧ (t.phase = .orphaned → s.halts (.orphanedDeadline e))) ∧
  (∀ (s : State) (h : Head) (id : Identity) (n : Slot), s.op = .running →
    s.uplink.head? = some (.handset h id .keepalive) → s.uplinkWaits = false →
    (s.mapLookup id).map (fun e => (e.slot, e.parityBad)) = some (n, false) → s.rebuilding n = false →
    (s.ctx n).ctxParityBad = true → s.fatalPending = true →
    (∃ e, (s.entry e).parityBad = true) ∨ (∃ x, (s.head x).poolParityBad = true) → s.halts .keepalive) ∧
  ∀ (s : State) (n : Slot), s.op = .starting → s.startup = .scan 1023 → byteAt (s.recordImage 1023) 60 ≠ 0 →
    s.scanFatals = [n] → s.fatalPending = false →
    exec .scanRecordRead s = s.ends (State.faulted { State.scanGoesOn (s.setCtx 1023
      { scannedCtx (s.recordImage 1023) with state := .quarantined, poisoned := true }) 1023 with scanFatals := [] } 1 n.val)

/-- R180, R184, R185: the scrub reads the record at its pointer when its deadline passes; its reading is checked when it is
there, and the pointer moves on. A KEEPALIVE that meets a context with a parity fault, with nothing held elsewhere and no fault
in the table or a pool, begins its rebuild and waits. A rebuild checks its reading, sets the slot's context, identity and map
entry from it by the first row that applies, and reports. The model's choices: a deadline that has not passed does nothing (log
entry 10), the record is captured at SCRUB_DEADLINE (log entry 20), the parity mark is found once and cleared (log entry 9), and
a context under rebuild keeps its state, with no timer, transaction or channel (log entry 22). -/
def Obligations.ScrubAndRebuildRead : Prop :=
  (∀ (s : State) (d : Time), s.op = .running → s.scrubDeadline = some d → s.scrubRead = none →
    (passed d s.timeBase = false → exec .scrubDeadline s = s.ends s) ∧
    (passed d s.timeBase = true → s.cpPort.outstanding = none → exec .scrubDeadline s = s.ends { s with
      scrubDeadline := none
      scrubRead := some { slot := s.scrubPtr, image := s.recordImage s.scrubPtr, unanswered := [], taken := []
                          rewritten := false } })) ∧
  (∀ (s : State) (r : ScrubRead), s.op = .running → s.scrubRead = some r →
    exec .scrubReadDone s = s.ends { s.checked
      { slot := r.slot, source := .scrub, image := r.image, beats := [0, 1, 2, 3], overtaken := r.unanswered ++ r.taken
        replaced := r.taken, rewritten := r.rewritten } with
      scrubPtr := ⟨(s.scrubPtr.val + 1) % 1024, Nat.mod_lt _ (by decide)⟩, scrubRead := none
      scrubDeadline := some (s.timeBase + BitVec.ofNat 32 (2 ^ (s.params.globalBytes[2].toNat % 4))) }) ∧
  (∀ (s : State) (h : Head) (id : Identity) (n : Slot), s.op = .running →
    s.uplink.head? = some (.handset h id .keepalive) → s.uplinkWaits = false →
    (s.mapLookup id).map (fun e => (e.slot, e.parityBad)) = some (n, false) → s.rebuilding n = false →
    (s.ctx n).ctxParityBad = true → s.entryOfSlot n = none → s.channelsOfSlot n none = [] →
    (∀ e, (s.entry e).parityBad = false) → (∀ x, (s.head x).poolParityBad = false) →
    let c := s.ctx n
    exec .keepalive s = s.ends { (s.unqueued n).setCtx n { c with
        ctxParityBad := false, offerDeadline := none, presence := .idle, quality := { c.quality with holdoff := none }
        txn := none, channel := none } with
      rebuilds := s.rebuilds ++ [{ slot := n, dropped := false, waiting := [.uplink (.handset h id .keepalive) s.timeBase] }] }) ∧
  ∀ (s : State) (n : Slot) (dropped : Bool), s.op = .running → s.cpPort.outstanding = none →
    s.rebuilds = [{ slot := n, dropped := dropped, waiting := [] }] →
    let image := s.recordImage n
    let r := readingOf n .rebuild image [0, 1, 2, 3]
    let u := s.checked r
    let poisoned := (u.ctx n).poisoned
    let ends (c : HandsetCtx) (m : List MapEntry) (st : HandsetState) : Prop :=
      exec (.rebuildReadDone n) s = s.ends (State.emit
        (State.setCtx { u with rebuilds := [], idMap := m } n { c with state := st, poisoned := poisoned })
        .contextFault .uncorrected n.val st.code (if dropped then 1 else 0))
    let c := scannedCtx (correctedBytes image)
    (r.spoilt → ends { scannedCtx (u.recordImage n) with identity := ((s.mapEntryOf n).map MapEntry.identity).getD 0 }
      s.idMap .quarantined) ∧
    (¬ r.spoilt → poisoned = true →
      ends { c with identity := ((s.mapEntryOf n).map MapEntry.identity).getD 0 } s.idMap .quarantined) ∧
    (¬ r.spoilt → poisoned = false →
      (c.identity = 0 → ends c (mapRemove s.idMap n) .vacant) ∧
      (c.identity ≠ 0 → (∃ x, s.mapLookup c.identity = some x ∧ x.slot ≠ n) → ends c (mapRemove s.idMap n) .quarantined) ∧
      (c.identity ≠ 0 → (∀ x, s.mapLookup c.identity = some x → x.slot = n) →
        ends c (mapSet s.idMap n c.identity) .provisioned))

end

namespace Sys2Proof.Machine

/-! ### Words about what waits for a rebuild -/

/-- R185: the part after the rebuild of a slot's context, before anything that waited is handled. -/
def State.afterRebuild (s : State) (n : Slot) (dropped : Bool) (overtaken : List Nat) : State :=
  let image := s.recordImage n
  let r : Reading := { readingOf n .rebuild image [0, 1, 2, 3] with overtaken := overtaken }
  let u := s.checked r
  let poisoned := (u.ctx n).poisoned
  let kept := ((s.mapEntryOf n).map MapEntry.identity).getD 0
  let rebuilt (c : HandsetCtx) (m : List MapEntry) (st : HandsetState) : State := State.emit
    (State.setCtx { u with rebuilds := [], idMap := m } n { c with state := st, poisoned := poisoned })
    .contextFault .uncorrected n.val st.code (if dropped then 1 else 0)
  let c := scannedCtx (correctedBytes image)
  if r.spoilt then rebuilt { scannedCtx (u.recordImage n) with identity := kept } s.idMap .quarantined
  else if poisoned then rebuilt { c with identity := kept } s.idMap .quarantined
  else if c.identity = 0 then rebuilt c (mapRemove s.idMap n) .vacant
  else if (s.mapLookup c.identity).any fun x => x.slot != n then rebuilt c (mapRemove s.idMap n) .quarantined
  else rebuilt c (mapSet s.idMap n c.identity) .provisioned

/-- R61: the sighting of a slot that is not registered, at the time of the message's dispatch (R50). -/
def HandsetCtx.sightedAt (c : HandsetCtx) (dispatched : Time) : HandsetCtx :=
  if c.state = .quarantined then c else { c with lastSeen := dispatched }

/-- R63 to R67: a provisioning change for a slot that is VACANT, PROVISIONED or QUARANTINED. -/
def State.changed (s : State) (n : Slot) (c : ProvChange) : State :=
  let x := s.ctx n
  let id := c.identity.getD x.identity
  let filed : State := { s with idMap := if id = 0 then mapRemove s.idMap n else mapSet s.idMap n id }
  if x.state = .quarantined then
    if c.full then filed.setCtx n (x.renamed id c) else s.setCtx n (x.recorded c)
  else if id = x.identity then s.setCtx n ({ x with code := c.code.getD x.code }.fielded c)
  else if x.state = .vacant then filed.setCtx n (x.provisionedWith id c)
  else filed.setCtx n (x.renamed id c)

/-- R86, R167: what a message other than ATTACH does at a slot that is VACANT, PROVISIONED or QUARANTINED. -/
def State.unregisteredMessage (s : State) (n : Slot) (h : Head) (body : HandsetMsg) (dispatched : Time) : State :=
  let c := s.ctx n
  let v := s.setCtx n (c.sightedAt dispatched)
  if c.state ≠ .provisioned then v
  else match body with
    | .keepalive | .measurement _ | .callRequest | .dozeRequest | .callRelease => v.tell .detachOrder (some h) n
    | .access => (v.tell .channelRelease (some h) n).emit .staleAccess .none n.val h.val c.state.code
    | _ => v

/-- R51, R52: the refusal of a request that names a slot that is VACANT, PROVISIONED or QUARANTINED. -/
def State.unregisteredRequest (s : State) (n : Slot) (r : Request) : State :=
  let kind := match r with
    | .page _ => 0x21
    | .releaseCall _ => 0x22
    | .forceHandover _ _ => 0x23
    | .unpin _ => 0x24
    | _ => 0x25
  let contained := match r with
    | .forceHandover _ _ => s.contained
    | _ => false
  s.emit .requestRefused .none n.val kind (if (s.ctx n).state = .vacant then 3 else if contained then 9 else 2)

/-- R185: an event that waited is handled against the rebuilt context; an ATTACH and a transaction of the CP have clauses of
their own. -/
def State.served (n : Slot) (s : State) (w : Waiter) : State :=
  match w with
  | .uplink (.handset h _ body) dispatched =>
    let t := s.unregisteredMessage n h body dispatched
    { t with uplink := t.uplink.tail }
  | .request r =>
    let t := s.unregisteredRequest n r
    { t with requests := t.requests.tail }
  | .change c => (s.changed n c).answered .cp (.done [])
  | _ => s

/-- A message of a handset other than ATTACH, a request that names the slot, or a provisioning change for it. -/
def Waiter.plain (n : Slot) : Waiter → Prop
  | .uplink (.handset _ _ body) _ => ∀ code, body ≠ .attach code
  | .request r => r.slot? = some n
  | .change _ => True
  | _ => False

/-- R175: the provisioned beats of the slot that a CP write reaches which Record View has taken and not answered: one being
merged or sent to memory, or one that waits, itself or with its change, for the rebuild. -/
def State.beatsUnderWay (s : State) (n : Slot) (waiting : List Waiter) : List Nat :=
  let waits := waiting.any fun w => match w with
    | .change _ | .cp _ => true
    | _ => false
  match s.cpPort.outstanding with
  | none => []
  | some x =>
    if s.merge.isSome ∨ s.recordWrite.isSome ∨ waits = true then [0, 1, 2, 3].filter (beatTouched (s.recordBytes x n)) else []

end Sys2Proof.Machine

section
open Sys2Proof Sys2Proof.Machine

/-- R185, R50, R61, R69, R70, R72, R86, R121, R63 to R67, R23, R28 to R31, R35: what waited for a rebuild is handled when it
ends, against the rebuilt context: a message, sighted at the time of its dispatch, by R86, an ATTACH by its code; a request, which
is refused; a provisioning change; and a transaction of the CP, as if it were taken then. Several are handled in the order in which
they began to wait (the model's choice, log entry 29). The model's choices: an ATTACH with the right code and any other message
does nothing more at a VACANT slot (log entry 13), 0xFF stands for no serving head in a media head write (log entry 18), beat 7 of
a CP read is as the read found it (log entry 19), and the fields of a QUARANTINED slot are those of memory after the check (log
entry 22). -/
def Obligations.RebuildServesItsWaiter : Prop :=
  ∀ (s : State) (n : Slot) (dropped : Bool) (waiting : List Waiter), s.op = .running →
    s.rebuilds = [{ slot := n, dropped := dropped, waiting := waiting }] →
    let v := s.afterRebuild n dropped (s.beatsUnderWay n waiting)
    let c := v.ctx n
    ((∀ w ∈ waiting, w.plain n) → exec (.rebuildReadDone n) s = s.ends (waiting.foldl (State.served n) v)) ∧
    (∀ h id code dispatched, waiting = [.uplink (.handset h id (.attach code)) dispatched] →
      let u := v.setCtx n (c.sightedAt dispatched)
      let ends (t : State) : Prop := exec (.rebuildReadDone n) s = s.endsMessage t
      (c.state = .quarantined → ends (u.reply .rejectAttach h id n fun d => { d with reason := 4 })) ∧
      (c.state ≠ .quarantined → c.code ≠ code →
        ends ((u.setCtx n { c.sightedAt dispatched with accessFail := 1 }).reply .rejectAttach h id n fun d =>
          { d with reason := 2 })) ∧
      (c.state = .provisioned → c.code = code → ends (u.admitted n h id)) ∧
      (c.state = .vacant → c.code = code → ends u)) ∧
    ∀ x, waiting = [.cp x] → s.cpPort.outstanding = some x → x.initiator = .cp → s.merge = none → s.recordWrite = none →
      let ends (t : State) : Prop := exec (.rebuildReadDone n) s = s.ends t
      (x.isRead = true → (∀ p ∈ s.handsetBeats x, p.1 ≠ n → (s.ctx p.1).ctxParityBad = false) → ends (v.recordsRead x)) ∧
      (x.isRead = false → recordNumbers (recordOffsets (s.handsetAddr 0) 64 ((enabled x).map Prod.fst)) = [n.val] →
        let w := s.recordBytes x n
        let d := w.map fun b => b.getD 0
        let met := v.scrubRead.map fun r => r.overtakenBy n w
        (anyEnabled w 32 64 = false →
          (c.poisoned = true → fullRewrite w = false → ends (v.answered .cp .refused)) ∧
          (c.poisoned = false ∨ fullRewrite w = true →
            ((∃ b < 4, beatPartial w b = true) → ends { v with scrubRead := met, merge := some (.handset n x) }) ∧
            ((∀ b < 4, beatPartial w b = false) → v.identityFree n w d →
              ∃ out beats change, SentBytes w d out ∧ NamedFields w d change ∧
                ends { v with scrubRead := met, recordWrite := some (.handset n out beats change) }))) ∧
        ∀ value, w[35]? = some (some value) → (∀ i, i < 64 → i ≠ 35 → w[i]? = some none) →
          (value = 0xFF → ends (v.answered .cp (.done []))) ∧ (value ≠ 0xFF → ends (v.answered .cp .refused)))

/-! ### Codes -/

/-- R172, R203: a beat with its own check byte is CLEAN; with one inverted data bit or check bit it is CORRECTABLE to the
beat; with two inverted data bits it is UNCORRECTABLE. -/
def Obligations.CheckByteFindsErrors : Prop :=
  ∀ d : Beat,
    classifyBeat d (checkByte d) = .clean ∧
    (∀ i < 64, classifyBeat (d ^^^ BitVec.twoPow 64 i) (checkByte d) = .correctable d) ∧
    (∀ i < 8, classifyBeat d (checkByte d ^^^ BitVec.twoPow 8 i) = .correctable d) ∧
    ∀ i j, i < j → j < 64 →
      classifyBeat (d ^^^ BitVec.twoPow 64 i ^^^ BitVec.twoPow 64 j) (checkByte d) = .uncorrectable

end
end

