-- ==== Sys2Proof/Laws/State.lean ====
section
/-! SUPPORT. What each update of the state leaves alone, field by field, and what the tables read as after it. -/

namespace Sys2Proof.Machine

set_option Elab.async false


/-! ### A context set -/

section
variable (s : State)
@[simp] theorem setCtx_pending (n : Slot) (c : HandsetCtx) : (s.setCtx n c).pending = s.pending := rfl
@[simp] theorem setCtx_mem (n : Slot) (c : HandsetCtx) : (s.setCtx n c).mem = s.mem := rfl
@[simp] theorem setCtx_op (n : Slot) (c : HandsetCtx) : (s.setCtx n c).op = s.op := rfl
@[simp] theorem setCtx_resetCause (n : Slot) (c : HandsetCtx) : (s.setCtx n c).resetCause = s.resetCause := rfl
@[simp] theorem setCtx_powerCame (n : Slot) (c : HandsetCtx) : (s.setCtx n c).powerCame = s.powerCame := rfl
@[simp] theorem setCtx_startup (n : Slot) (c : HandsetCtx) : (s.setCtx n c).startup = s.startup := rfl
@[simp] theorem setCtx_map (n : Slot) (c : HandsetCtx) : (s.setCtx n c).map = s.map := rfl
@[simp] theorem setCtx_active (n : Slot) (c : HandsetCtx) : (s.setCtx n c).active = s.active := rfl
@[simp] theorem setCtx_staged (n : Slot) (c : HandsetCtx) : (s.setCtx n c).staged = s.staged := rfl
@[simp] theorem setCtx_mapChanged (n : Slot) (c : HandsetCtx) : (s.setCtx n c).mapChanged = s.mapChanged := rfl
@[simp] theorem setCtx_timeBase (n : Slot) (c : HandsetCtx) : (s.setCtx n c).timeBase = s.timeBase := rfl
@[simp] theorem setCtx_cpPort (n : Slot) (c : HandsetCtx) : (s.setCtx n c).cpPort = s.cpPort := rfl
@[simp] theorem setCtx_rlcPort (n : Slot) (c : HandsetCtx) : (s.setCtx n c).rlcPort = s.rlcPort := rfl
@[simp] theorem setCtx_heldCp (n : Slot) (c : HandsetCtx) : (s.setCtx n c).heldCp = s.heldCp := rfl
@[simp] theorem setCtx_heldRlc (n : Slot) (c : HandsetCtx) : (s.setCtx n c).heldRlc = s.heldRlc := rfl
@[simp] theorem setCtx_merge (n : Slot) (c : HandsetCtx) : (s.setCtx n c).merge = s.merge := rfl
@[simp] theorem setCtx_recordWrite (n : Slot) (c : HandsetCtx) : (s.setCtx n c).recordWrite = s.recordWrite := rfl
@[simp] theorem setCtx_uplink (n : Slot) (c : HandsetCtx) : (s.setCtx n c).uplink = s.uplink := rfl
@[simp] theorem setCtx_requests (n : Slot) (c : HandsetCtx) : (s.setCtx n c).requests = s.requests := rfl
@[simp] theorem setCtx_uplinkOverrun (n : Slot) (c : HandsetCtx) : (s.setCtx n c).uplinkOverrun = s.uplinkOverrun := rfl
@[simp] theorem setCtx_requestOverrun (n : Slot) (c : HandsetCtx) : (s.setCtx n c).requestOverrun = s.requestOverrun := rfl
@[simp] theorem setCtx_unknownIds (n : Slot) (c : HandsetCtx) : (s.setCtx n c).unknownIds = s.unknownIds := rfl
@[simp] theorem setCtx_idMap (n : Slot) (c : HandsetCtx) : (s.setCtx n c).idMap = s.idMap := rfl
@[simp] theorem setCtx_attach (n : Slot) (c : HandsetCtx) : (s.setCtx n c).attach = s.attach := rfl
@[simp] theorem setCtx_deferrals (n : Slot) (c : HandsetCtx) : (s.setCtx n c).deferrals = s.deferrals := rfl
@[simp] theorem setCtx_heads (n : Slot) (c : HandsetCtx) : (s.setCtx n c).heads = s.heads := rfl
@[simp] theorem setCtx_table (n : Slot) (c : HandsetCtx) : (s.setCtx n c).table = s.table := rfl
@[simp] theorem setCtx_contained (n : Slot) (c : HandsetCtx) : (s.setCtx n c).contained = s.contained := rfl
@[simp] theorem setCtx_fatalPending (n : Slot) (c : HandsetCtx) : (s.setCtx n c).fatalPending = s.fatalPending := rfl
@[simp] theorem setCtx_faultList (n : Slot) (c : HandsetCtx) : (s.setCtx n c).faultList = s.faultList := rfl
@[simp] theorem setCtx_corrected (n : Slot) (c : HandsetCtx) : (s.setCtx n c).corrected = s.corrected := rfl
@[simp] theorem setCtx_scrubPtr (n : Slot) (c : HandsetCtx) : (s.setCtx n c).scrubPtr = s.scrubPtr := rfl
@[simp] theorem setCtx_scrubDeadline (n : Slot) (c : HandsetCtx) : (s.setCtx n c).scrubDeadline = s.scrubDeadline := rfl
@[simp] theorem setCtx_scrubRead (n : Slot) (c : HandsetCtx) : (s.setCtx n c).scrubRead = s.scrubRead := rfl
@[simp] theorem setCtx_rebuilds (n : Slot) (c : HandsetCtx) : (s.setCtx n c).rebuilds = s.rebuilds := rfl
@[simp] theorem setCtx_scanFatals (n : Slot) (c : HandsetCtx) : (s.setCtx n c).scanFatals = s.scanFatals := rfl
@[simp] theorem setCtx_dirProd (n : Slot) (c : HandsetCtx) : (s.setCtx n c).dirProd = s.dirProd := rfl
@[simp] theorem setCtx_dirCons (n : Slot) (c : HandsetCtx) : (s.setCtx n c).dirCons = s.dirCons := rfl
@[simp] theorem setCtx_evProd (n : Slot) (c : HandsetCtx) : (s.setCtx n c).evProd = s.evProd := rfl
@[simp] theorem setCtx_evCons (n : Slot) (c : HandsetCtx) : (s.setCtx n c).evCons = s.evCons := rfl
@[simp] theorem setCtx_dirOut (n : Slot) (c : HandsetCtx) : (s.setCtx n c).dirOut = s.dirOut := rfl
@[simp] theorem setCtx_dirSent (n : Slot) (c : HandsetCtx) : (s.setCtx n c).dirSent = s.dirSent := rfl
@[simp] theorem setCtx_backlog (n : Slot) (c : HandsetCtx) : (s.setCtx n c).backlog = s.backlog := rfl
@[simp] theorem setCtx_evOut (n : Slot) (c : HandsetCtx) : (s.setCtx n c).evOut = s.evOut := rfl
@[simp] theorem setCtx_evSent (n : Slot) (c : HandsetCtx) : (s.setCtx n c).evSent = s.evSent := rfl
@[simp] theorem setCtx_eventsLost (n : Slot) (c : HandsetCtx) : (s.setCtx n c).eventsLost = s.eventsLost := rfl
@[simp] theorem setCtx_dirDropped (n : Slot) (c : HandsetCtx) : (s.setCtx n c).dirDropped = s.dirDropped := rfl
@[simp] theorem setCtx_attn (n : Slot) (c : HandsetCtx) : (s.setCtx n c).attn = s.attn := rfl
@[simp] theorem setCtx_free (n : Slot) (c : HandsetCtx) : (s.setCtx n c).free = s.free := rfl
end


/-! ### A head set -/

section
variable (s : State)
@[simp] theorem setHead_pending (h : Head) (c : HeadCtx) : (s.setHead h c).pending = s.pending := rfl
@[simp] theorem setHead_mem (h : Head) (c : HeadCtx) : (s.setHead h c).mem = s.mem := rfl
@[simp] theorem setHead_op (h : Head) (c : HeadCtx) : (s.setHead h c).op = s.op := rfl
@[simp] theorem setHead_resetCause (h : Head) (c : HeadCtx) : (s.setHead h c).resetCause = s.resetCause := rfl
@[simp] theorem setHead_powerCame (h : Head) (c : HeadCtx) : (s.setHead h c).powerCame = s.powerCame := rfl
@[simp] theorem setHead_startup (h : Head) (c : HeadCtx) : (s.setHead h c).startup = s.startup := rfl
@[simp] theorem setHead_map (h : Head) (c : HeadCtx) : (s.setHead h c).map = s.map := rfl
@[simp] theorem setHead_active (h : Head) (c : HeadCtx) : (s.setHead h c).active = s.active := rfl
@[simp] theorem setHead_staged (h : Head) (c : HeadCtx) : (s.setHead h c).staged = s.staged := rfl
@[simp] theorem setHead_mapChanged (h : Head) (c : HeadCtx) : (s.setHead h c).mapChanged = s.mapChanged := rfl
@[simp] theorem setHead_timeBase (h : Head) (c : HeadCtx) : (s.setHead h c).timeBase = s.timeBase := rfl
@[simp] theorem setHead_cpPort (h : Head) (c : HeadCtx) : (s.setHead h c).cpPort = s.cpPort := rfl
@[simp] theorem setHead_rlcPort (h : Head) (c : HeadCtx) : (s.setHead h c).rlcPort = s.rlcPort := rfl
@[simp] theorem setHead_heldCp (h : Head) (c : HeadCtx) : (s.setHead h c).heldCp = s.heldCp := rfl
@[simp] theorem setHead_heldRlc (h : Head) (c : HeadCtx) : (s.setHead h c).heldRlc = s.heldRlc := rfl
@[simp] theorem setHead_merge (h : Head) (c : HeadCtx) : (s.setHead h c).merge = s.merge := rfl
@[simp] theorem setHead_recordWrite (h : Head) (c : HeadCtx) : (s.setHead h c).recordWrite = s.recordWrite := rfl
@[simp] theorem setHead_uplink (h : Head) (c : HeadCtx) : (s.setHead h c).uplink = s.uplink := rfl
@[simp] theorem setHead_requests (h : Head) (c : HeadCtx) : (s.setHead h c).requests = s.requests := rfl
@[simp] theorem setHead_uplinkOverrun (h : Head) (c : HeadCtx) : (s.setHead h c).uplinkOverrun = s.uplinkOverrun := rfl
@[simp] theorem setHead_requestOverrun (h : Head) (c : HeadCtx) : (s.setHead h c).requestOverrun = s.requestOverrun := rfl
@[simp] theorem setHead_unknownIds (h : Head) (c : HeadCtx) : (s.setHead h c).unknownIds = s.unknownIds := rfl
@[simp] theorem setHead_ctxs (h : Head) (c : HeadCtx) : (s.setHead h c).ctxs = s.ctxs := rfl
@[simp] theorem setHead_idMap (h : Head) (c : HeadCtx) : (s.setHead h c).idMap = s.idMap := rfl
@[simp] theorem setHead_attach (h : Head) (c : HeadCtx) : (s.setHead h c).attach = s.attach := rfl
@[simp] theorem setHead_deferrals (h : Head) (c : HeadCtx) : (s.setHead h c).deferrals = s.deferrals := rfl
@[simp] theorem setHead_table (h : Head) (c : HeadCtx) : (s.setHead h c).table = s.table := rfl
@[simp] theorem setHead_contained (h : Head) (c : HeadCtx) : (s.setHead h c).contained = s.contained := rfl
@[simp] theorem setHead_fatalPending (h : Head) (c : HeadCtx) : (s.setHead h c).fatalPending = s.fatalPending := rfl
@[simp] theorem setHead_faultList (h : Head) (c : HeadCtx) : (s.setHead h c).faultList = s.faultList := rfl
@[simp] theorem setHead_corrected (h : Head) (c : HeadCtx) : (s.setHead h c).corrected = s.corrected := rfl
@[simp] theorem setHead_scrubPtr (h : Head) (c : HeadCtx) : (s.setHead h c).scrubPtr = s.scrubPtr := rfl
@[simp] theorem setHead_scrubDeadline (h : Head) (c : HeadCtx) : (s.setHead h c).scrubDeadline = s.scrubDeadline := rfl
@[simp] theorem setHead_scrubRead (h : Head) (c : HeadCtx) : (s.setHead h c).scrubRead = s.scrubRead := rfl
@[simp] theorem setHead_rebuilds (h : Head) (c : HeadCtx) : (s.setHead h c).rebuilds = s.rebuilds := rfl
@[simp] theorem setHead_scanFatals (h : Head) (c : HeadCtx) : (s.setHead h c).scanFatals = s.scanFatals := rfl
@[simp] theorem setHead_dirProd (h : Head) (c : HeadCtx) : (s.setHead h c).dirProd = s.dirProd := rfl
@[simp] theorem setHead_dirCons (h : Head) (c : HeadCtx) : (s.setHead h c).dirCons = s.dirCons := rfl
@[simp] theorem setHead_evProd (h : Head) (c : HeadCtx) : (s.setHead h c).evProd = s.evProd := rfl
@[simp] theorem setHead_evCons (h : Head) (c : HeadCtx) : (s.setHead h c).evCons = s.evCons := rfl
@[simp] theorem setHead_dirOut (h : Head) (c : HeadCtx) : (s.setHead h c).dirOut = s.dirOut := rfl
@[simp] theorem setHead_dirSent (h : Head) (c : HeadCtx) : (s.setHead h c).dirSent = s.dirSent := rfl
@[simp] theorem setHead_backlog (h : Head) (c : HeadCtx) : (s.setHead h c).backlog = s.backlog := rfl
@[simp] theorem setHead_evOut (h : Head) (c : HeadCtx) : (s.setHead h c).evOut = s.evOut := rfl
@[simp] theorem setHead_evSent (h : Head) (c : HeadCtx) : (s.setHead h c).evSent = s.evSent := rfl
@[simp] theorem setHead_eventsLost (h : Head) (c : HeadCtx) : (s.setHead h c).eventsLost = s.eventsLost := rfl
@[simp] theorem setHead_dirDropped (h : Head) (c : HeadCtx) : (s.setHead h c).dirDropped = s.dirDropped := rfl
@[simp] theorem setHead_attn (h : Head) (c : HeadCtx) : (s.setHead h c).attn = s.attn := rfl
@[simp] theorem setHead_free (h : Head) (c : HeadCtx) : (s.setHead h c).free = s.free := rfl
end


/-! ### Attach admission of a head set -/

section
variable (s : State)
@[simp] theorem setAtt_pending (h : Head) (a : AttachHead) : (s.setAtt h a).pending = s.pending := rfl
@[simp] theorem setAtt_mem (h : Head) (a : AttachHead) : (s.setAtt h a).mem = s.mem := rfl
@[simp] theorem setAtt_op (h : Head) (a : AttachHead) : (s.setAtt h a).op = s.op := rfl
@[simp] theorem setAtt_resetCause (h : Head) (a : AttachHead) : (s.setAtt h a).resetCause = s.resetCause := rfl
@[simp] theorem setAtt_powerCame (h : Head) (a : AttachHead) : (s.setAtt h a).powerCame = s.powerCame := rfl
@[simp] theorem setAtt_startup (h : Head) (a : AttachHead) : (s.setAtt h a).startup = s.startup := rfl
@[simp] theorem setAtt_map (h : Head) (a : AttachHead) : (s.setAtt h a).map = s.map := rfl
@[simp] theorem setAtt_active (h : Head) (a : AttachHead) : (s.setAtt h a).active = s.active := rfl
@[simp] theorem setAtt_staged (h : Head) (a : AttachHead) : (s.setAtt h a).staged = s.staged := rfl
@[simp] theorem setAtt_mapChanged (h : Head) (a : AttachHead) : (s.setAtt h a).mapChanged = s.mapChanged := rfl
@[simp] theorem setAtt_timeBase (h : Head) (a : AttachHead) : (s.setAtt h a).timeBase = s.timeBase := rfl
@[simp] theorem setAtt_cpPort (h : Head) (a : AttachHead) : (s.setAtt h a).cpPort = s.cpPort := rfl
@[simp] theorem setAtt_rlcPort (h : Head) (a : AttachHead) : (s.setAtt h a).rlcPort = s.rlcPort := rfl
@[simp] theorem setAtt_heldCp (h : Head) (a : AttachHead) : (s.setAtt h a).heldCp = s.heldCp := rfl
@[simp] theorem setAtt_heldRlc (h : Head) (a : AttachHead) : (s.setAtt h a).heldRlc = s.heldRlc := rfl
@[simp] theorem setAtt_merge (h : Head) (a : AttachHead) : (s.setAtt h a).merge = s.merge := rfl
@[simp] theorem setAtt_recordWrite (h : Head) (a : AttachHead) : (s.setAtt h a).recordWrite = s.recordWrite := rfl
@[simp] theorem setAtt_uplink (h : Head) (a : AttachHead) : (s.setAtt h a).uplink = s.uplink := rfl
@[simp] theorem setAtt_requests (h : Head) (a : AttachHead) : (s.setAtt h a).requests = s.requests := rfl
@[simp] theorem setAtt_uplinkOverrun (h : Head) (a : AttachHead) : (s.setAtt h a).uplinkOverrun = s.uplinkOverrun := rfl
@[simp] theorem setAtt_requestOverrun (h : Head) (a : AttachHead) : (s.setAtt h a).requestOverrun = s.requestOverrun := rfl
@[simp] theorem setAtt_unknownIds (h : Head) (a : AttachHead) : (s.setAtt h a).unknownIds = s.unknownIds := rfl
@[simp] theorem setAtt_ctxs (h : Head) (a : AttachHead) : (s.setAtt h a).ctxs = s.ctxs := rfl
@[simp] theorem setAtt_idMap (h : Head) (a : AttachHead) : (s.setAtt h a).idMap = s.idMap := rfl
@[simp] theorem setAtt_deferrals (h : Head) (a : AttachHead) : (s.setAtt h a).deferrals = s.deferrals := rfl
@[simp] theorem setAtt_heads (h : Head) (a : AttachHead) : (s.setAtt h a).heads = s.heads := rfl
@[simp] theorem setAtt_table (h : Head) (a : AttachHead) : (s.setAtt h a).table = s.table := rfl
@[simp] theorem setAtt_contained (h : Head) (a : AttachHead) : (s.setAtt h a).contained = s.contained := rfl
@[simp] theorem setAtt_fatalPending (h : Head) (a : AttachHead) : (s.setAtt h a).fatalPending = s.fatalPending := rfl
@[simp] theorem setAtt_faultList (h : Head) (a : AttachHead) : (s.setAtt h a).faultList = s.faultList := rfl
@[simp] theorem setAtt_corrected (h : Head) (a : AttachHead) : (s.setAtt h a).corrected = s.corrected := rfl
@[simp] theorem setAtt_scrubPtr (h : Head) (a : AttachHead) : (s.setAtt h a).scrubPtr = s.scrubPtr := rfl
@[simp] theorem setAtt_scrubDeadline (h : Head) (a : AttachHead) : (s.setAtt h a).scrubDeadline = s.scrubDeadline := rfl
@[simp] theorem setAtt_scrubRead (h : Head) (a : AttachHead) : (s.setAtt h a).scrubRead = s.scrubRead := rfl
@[simp] theorem setAtt_rebuilds (h : Head) (a : AttachHead) : (s.setAtt h a).rebuilds = s.rebuilds := rfl
@[simp] theorem setAtt_scanFatals (h : Head) (a : AttachHead) : (s.setAtt h a).scanFatals = s.scanFatals := rfl
@[simp] theorem setAtt_dirProd (h : Head) (a : AttachHead) : (s.setAtt h a).dirProd = s.dirProd := rfl
@[simp] theorem setAtt_dirCons (h : Head) (a : AttachHead) : (s.setAtt h a).dirCons = s.dirCons := rfl
@[simp] theorem setAtt_evProd (h : Head) (a : AttachHead) : (s.setAtt h a).evProd = s.evProd := rfl
@[simp] theorem setAtt_evCons (h : Head) (a : AttachHead) : (s.setAtt h a).evCons = s.evCons := rfl
@[simp] theorem setAtt_dirOut (h : Head) (a : AttachHead) : (s.setAtt h a).dirOut = s.dirOut := rfl
@[simp] theorem setAtt_dirSent (h : Head) (a : AttachHead) : (s.setAtt h a).dirSent = s.dirSent := rfl
@[simp] theorem setAtt_backlog (h : Head) (a : AttachHead) : (s.setAtt h a).backlog = s.backlog := rfl
@[simp] theorem setAtt_evOut (h : Head) (a : AttachHead) : (s.setAtt h a).evOut = s.evOut := rfl
@[simp] theorem setAtt_evSent (h : Head) (a : AttachHead) : (s.setAtt h a).evSent = s.evSent := rfl
@[simp] theorem setAtt_eventsLost (h : Head) (a : AttachHead) : (s.setAtt h a).eventsLost = s.eventsLost := rfl
@[simp] theorem setAtt_dirDropped (h : Head) (a : AttachHead) : (s.setAtt h a).dirDropped = s.dirDropped := rfl
@[simp] theorem setAtt_attn (h : Head) (a : AttachHead) : (s.setAtt h a).attn = s.attn := rfl
@[simp] theorem setAtt_free (h : Head) (a : AttachHead) : (s.setAtt h a).free = s.free := rfl
end


/-! ### A table entry set -/

section
variable (s : State)
@[simp] theorem setEntry_pending (e : EntryNo) (t : TableEntry) : (s.setEntry e t).pending = s.pending := rfl
@[simp] theorem setEntry_mem (e : EntryNo) (t : TableEntry) : (s.setEntry e t).mem = s.mem := rfl
@[simp] theorem setEntry_op (e : EntryNo) (t : TableEntry) : (s.setEntry e t).op = s.op := rfl
@[simp] theorem setEntry_resetCause (e : EntryNo) (t : TableEntry) : (s.setEntry e t).resetCause = s.resetCause := rfl
@[simp] theorem setEntry_powerCame (e : EntryNo) (t : TableEntry) : (s.setEntry e t).powerCame = s.powerCame := rfl
@[simp] theorem setEntry_startup (e : EntryNo) (t : TableEntry) : (s.setEntry e t).startup = s.startup := rfl
@[simp] theorem setEntry_map (e : EntryNo) (t : TableEntry) : (s.setEntry e t).map = s.map := rfl
@[simp] theorem setEntry_active (e : EntryNo) (t : TableEntry) : (s.setEntry e t).active = s.active := rfl
@[simp] theorem setEntry_staged (e : EntryNo) (t : TableEntry) : (s.setEntry e t).staged = s.staged := rfl
@[simp] theorem setEntry_mapChanged (e : EntryNo) (t : TableEntry) : (s.setEntry e t).mapChanged = s.mapChanged := rfl
@[simp] theorem setEntry_timeBase (e : EntryNo) (t : TableEntry) : (s.setEntry e t).timeBase = s.timeBase := rfl
@[simp] theorem setEntry_cpPort (e : EntryNo) (t : TableEntry) : (s.setEntry e t).cpPort = s.cpPort := rfl
@[simp] theorem setEntry_rlcPort (e : EntryNo) (t : TableEntry) : (s.setEntry e t).rlcPort = s.rlcPort := rfl
@[simp] theorem setEntry_heldCp (e : EntryNo) (t : TableEntry) : (s.setEntry e t).heldCp = s.heldCp := rfl
@[simp] theorem setEntry_heldRlc (e : EntryNo) (t : TableEntry) : (s.setEntry e t).heldRlc = s.heldRlc := rfl
@[simp] theorem setEntry_merge (e : EntryNo) (t : TableEntry) : (s.setEntry e t).merge = s.merge := rfl
@[simp] theorem setEntry_recordWrite (e : EntryNo) (t : TableEntry) : (s.setEntry e t).recordWrite = s.recordWrite := rfl
@[simp] theorem setEntry_uplink (e : EntryNo) (t : TableEntry) : (s.setEntry e t).uplink = s.uplink := rfl
@[simp] theorem setEntry_requests (e : EntryNo) (t : TableEntry) : (s.setEntry e t).requests = s.requests := rfl
@[simp] theorem setEntry_uplinkOverrun (e : EntryNo) (t : TableEntry) : (s.setEntry e t).uplinkOverrun = s.uplinkOverrun := rfl
@[simp] theorem setEntry_requestOverrun (e : EntryNo) (t : TableEntry) : (s.setEntry e t).requestOverrun = s.requestOverrun := rfl
@[simp] theorem setEntry_unknownIds (e : EntryNo) (t : TableEntry) : (s.setEntry e t).unknownIds = s.unknownIds := rfl
@[simp] theorem setEntry_ctxs (e : EntryNo) (t : TableEntry) : (s.setEntry e t).ctxs = s.ctxs := rfl
@[simp] theorem setEntry_idMap (e : EntryNo) (t : TableEntry) : (s.setEntry e t).idMap = s.idMap := rfl
@[simp] theorem setEntry_attach (e : EntryNo) (t : TableEntry) : (s.setEntry e t).attach = s.attach := rfl
@[simp] theorem setEntry_deferrals (e : EntryNo) (t : TableEntry) : (s.setEntry e t).deferrals = s.deferrals := rfl
@[simp] theorem setEntry_heads (e : EntryNo) (t : TableEntry) : (s.setEntry e t).heads = s.heads := rfl
@[simp] theorem setEntry_contained (e : EntryNo) (t : TableEntry) : (s.setEntry e t).contained = s.contained := rfl
@[simp] theorem setEntry_fatalPending (e : EntryNo) (t : TableEntry) : (s.setEntry e t).fatalPending = s.fatalPending := rfl
@[simp] theorem setEntry_faultList (e : EntryNo) (t : TableEntry) : (s.setEntry e t).faultList = s.faultList := rfl
@[simp] theorem setEntry_corrected (e : EntryNo) (t : TableEntry) : (s.setEntry e t).corrected = s.corrected := rfl
@[simp] theorem setEntry_scrubPtr (e : EntryNo) (t : TableEntry) : (s.setEntry e t).scrubPtr = s.scrubPtr := rfl
@[simp] theorem setEntry_scrubDeadline (e : EntryNo) (t : TableEntry) : (s.setEntry e t).scrubDeadline = s.scrubDeadline := rfl
@[simp] theorem setEntry_scrubRead (e : EntryNo) (t : TableEntry) : (s.setEntry e t).scrubRead = s.scrubRead := rfl
@[simp] theorem setEntry_rebuilds (e : EntryNo) (t : TableEntry) : (s.setEntry e t).rebuilds = s.rebuilds := rfl
@[simp] theorem setEntry_scanFatals (e : EntryNo) (t : TableEntry) : (s.setEntry e t).scanFatals = s.scanFatals := rfl
@[simp] theorem setEntry_dirProd (e : EntryNo) (t : TableEntry) : (s.setEntry e t).dirProd = s.dirProd := rfl
@[simp] theorem setEntry_dirCons (e : EntryNo) (t : TableEntry) : (s.setEntry e t).dirCons = s.dirCons := rfl
@[simp] theorem setEntry_evProd (e : EntryNo) (t : TableEntry) : (s.setEntry e t).evProd = s.evProd := rfl
@[simp] theorem setEntry_evCons (e : EntryNo) (t : TableEntry) : (s.setEntry e t).evCons = s.evCons := rfl
@[simp] theorem setEntry_dirOut (e : EntryNo) (t : TableEntry) : (s.setEntry e t).dirOut = s.dirOut := rfl
@[simp] theorem setEntry_dirSent (e : EntryNo) (t : TableEntry) : (s.setEntry e t).dirSent = s.dirSent := rfl
@[simp] theorem setEntry_backlog (e : EntryNo) (t : TableEntry) : (s.setEntry e t).backlog = s.backlog := rfl
@[simp] theorem setEntry_evOut (e : EntryNo) (t : TableEntry) : (s.setEntry e t).evOut = s.evOut := rfl
@[simp] theorem setEntry_evSent (e : EntryNo) (t : TableEntry) : (s.setEntry e t).evSent = s.evSent := rfl
@[simp] theorem setEntry_eventsLost (e : EntryNo) (t : TableEntry) : (s.setEntry e t).eventsLost = s.eventsLost := rfl
@[simp] theorem setEntry_dirDropped (e : EntryNo) (t : TableEntry) : (s.setEntry e t).dirDropped = s.dirDropped := rfl
@[simp] theorem setEntry_attn (e : EntryNo) (t : TableEntry) : (s.setEntry e t).attn = s.attn := rfl
@[simp] theorem setEntry_free (e : EntryNo) (t : TableEntry) : (s.setEntry e t).free = s.free := rfl
end


/-! ### A port set -/

section
variable (s : State)
@[simp] theorem setPort_pending (i : Initiator) (p : Port) : (s.setPort i p).pending = s.pending := by cases i <;> rfl
@[simp] theorem setPort_mem (i : Initiator) (p : Port) : (s.setPort i p).mem = s.mem := by cases i <;> rfl
@[simp] theorem setPort_op (i : Initiator) (p : Port) : (s.setPort i p).op = s.op := by cases i <;> rfl
@[simp] theorem setPort_resetCause (i : Initiator) (p : Port) : (s.setPort i p).resetCause = s.resetCause := by cases i <;> rfl
@[simp] theorem setPort_powerCame (i : Initiator) (p : Port) : (s.setPort i p).powerCame = s.powerCame := by cases i <;> rfl
@[simp] theorem setPort_startup (i : Initiator) (p : Port) : (s.setPort i p).startup = s.startup := by cases i <;> rfl
@[simp] theorem setPort_map (i : Initiator) (p : Port) : (s.setPort i p).map = s.map := by cases i <;> rfl
@[simp] theorem setPort_active (i : Initiator) (p : Port) : (s.setPort i p).active = s.active := by cases i <;> rfl
@[simp] theorem setPort_staged (i : Initiator) (p : Port) : (s.setPort i p).staged = s.staged := by cases i <;> rfl
@[simp] theorem setPort_mapChanged (i : Initiator) (p : Port) : (s.setPort i p).mapChanged = s.mapChanged := by cases i <;> rfl
@[simp] theorem setPort_timeBase (i : Initiator) (p : Port) : (s.setPort i p).timeBase = s.timeBase := by cases i <;> rfl
@[simp] theorem setPort_heldCp (i : Initiator) (p : Port) : (s.setPort i p).heldCp = s.heldCp := by cases i <;> rfl
@[simp] theorem setPort_heldRlc (i : Initiator) (p : Port) : (s.setPort i p).heldRlc = s.heldRlc := by cases i <;> rfl
@[simp] theorem setPort_merge (i : Initiator) (p : Port) : (s.setPort i p).merge = s.merge := by cases i <;> rfl
@[simp] theorem setPort_recordWrite (i : Initiator) (p : Port) : (s.setPort i p).recordWrite = s.recordWrite := by cases i <;> rfl
@[simp] theorem setPort_uplink (i : Initiator) (p : Port) : (s.setPort i p).uplink = s.uplink := by cases i <;> rfl
@[simp] theorem setPort_requests (i : Initiator) (p : Port) : (s.setPort i p).requests = s.requests := by cases i <;> rfl
@[simp] theorem setPort_uplinkOverrun (i : Initiator) (p : Port) : (s.setPort i p).uplinkOverrun = s.uplinkOverrun := by cases i <;> rfl
@[simp] theorem setPort_requestOverrun (i : Initiator) (p : Port) : (s.setPort i p).requestOverrun = s.requestOverrun := by cases i <;> rfl
@[simp] theorem setPort_unknownIds (i : Initiator) (p : Port) : (s.setPort i p).unknownIds = s.unknownIds := by cases i <;> rfl
@[simp] theorem setPort_ctxs (i : Initiator) (p : Port) : (s.setPort i p).ctxs = s.ctxs := by cases i <;> rfl
@[simp] theorem setPort_idMap (i : Initiator) (p : Port) : (s.setPort i p).idMap = s.idMap := by cases i <;> rfl
@[simp] theorem setPort_attach (i : Initiator) (p : Port) : (s.setPort i p).attach = s.attach := by cases i <;> rfl
@[simp] theorem setPort_deferrals (i : Initiator) (p : Port) : (s.setPort i p).deferrals = s.deferrals := by cases i <;> rfl
@[simp] theorem setPort_heads (i : Initiator) (p : Port) : (s.setPort i p).heads = s.heads := by cases i <;> rfl
@[simp] theorem setPort_table (i : Initiator) (p : Port) : (s.setPort i p).table = s.table := by cases i <;> rfl
@[simp] theorem setPort_contained (i : Initiator) (p : Port) : (s.setPort i p).contained = s.contained := by cases i <;> rfl
@[simp] theorem setPort_fatalPending (i : Initiator) (p : Port) : (s.setPort i p).fatalPending = s.fatalPending := by cases i <;> rfl
@[simp] theorem setPort_faultList (i : Initiator) (p : Port) : (s.setPort i p).faultList = s.faultList := by cases i <;> rfl
@[simp] theorem setPort_corrected (i : Initiator) (p : Port) : (s.setPort i p).corrected = s.corrected := by cases i <;> rfl
@[simp] theorem setPort_scrubPtr (i : Initiator) (p : Port) : (s.setPort i p).scrubPtr = s.scrubPtr := by cases i <;> rfl
@[simp] theorem setPort_scrubDeadline (i : Initiator) (p : Port) : (s.setPort i p).scrubDeadline = s.scrubDeadline := by cases i <;> rfl
@[simp] theorem setPort_scrubRead (i : Initiator) (p : Port) : (s.setPort i p).scrubRead = s.scrubRead := by cases i <;> rfl
@[simp] theorem setPort_rebuilds (i : Initiator) (p : Port) : (s.setPort i p).rebuilds = s.rebuilds := by cases i <;> rfl
@[simp] theorem setPort_scanFatals (i : Initiator) (p : Port) : (s.setPort i p).scanFatals = s.scanFatals := by cases i <;> rfl
@[simp] theorem setPort_dirProd (i : Initiator) (p : Port) : (s.setPort i p).dirProd = s.dirProd := by cases i <;> rfl
@[simp] theorem setPort_dirCons (i : Initiator) (p : Port) : (s.setPort i p).dirCons = s.dirCons := by cases i <;> rfl
@[simp] theorem setPort_evProd (i : Initiator) (p : Port) : (s.setPort i p).evProd = s.evProd := by cases i <;> rfl
@[simp] theorem setPort_evCons (i : Initiator) (p : Port) : (s.setPort i p).evCons = s.evCons := by cases i <;> rfl
@[simp] theorem setPort_dirOut (i : Initiator) (p : Port) : (s.setPort i p).dirOut = s.dirOut := by cases i <;> rfl
@[simp] theorem setPort_dirSent (i : Initiator) (p : Port) : (s.setPort i p).dirSent = s.dirSent := by cases i <;> rfl
@[simp] theorem setPort_backlog (i : Initiator) (p : Port) : (s.setPort i p).backlog = s.backlog := by cases i <;> rfl
@[simp] theorem setPort_evOut (i : Initiator) (p : Port) : (s.setPort i p).evOut = s.evOut := by cases i <;> rfl
@[simp] theorem setPort_evSent (i : Initiator) (p : Port) : (s.setPort i p).evSent = s.evSent := by cases i <;> rfl
@[simp] theorem setPort_eventsLost (i : Initiator) (p : Port) : (s.setPort i p).eventsLost = s.eventsLost := by cases i <;> rfl
@[simp] theorem setPort_dirDropped (i : Initiator) (p : Port) : (s.setPort i p).dirDropped = s.dirDropped := by cases i <;> rfl
@[simp] theorem setPort_attn (i : Initiator) (p : Port) : (s.setPort i p).attn = s.attn := by cases i <;> rfl
@[simp] theorem setPort_free (i : Initiator) (p : Port) : (s.setPort i p).free = s.free := by cases i <;> rfl
end


/-! ### An event taken -/

section
variable (s : State)
@[simp] theorem takeEvent_pending (e : Event) : (s.takeEvent e).pending = s.pending := by unfold State.takeEvent; split <;> rfl
@[simp] theorem takeEvent_mem (e : Event) : (s.takeEvent e).mem = s.mem := by unfold State.takeEvent; split <;> rfl
@[simp] theorem takeEvent_op (e : Event) : (s.takeEvent e).op = s.op := by unfold State.takeEvent; split <;> rfl
@[simp] theorem takeEvent_resetCause (e : Event) : (s.takeEvent e).resetCause = s.resetCause := by unfold State.takeEvent; split <;> rfl
@[simp] theorem takeEvent_powerCame (e : Event) : (s.takeEvent e).powerCame = s.powerCame := by unfold State.takeEvent; split <;> rfl
@[simp] theorem takeEvent_startup (e : Event) : (s.takeEvent e).startup = s.startup := by unfold State.takeEvent; split <;> rfl
@[simp] theorem takeEvent_map (e : Event) : (s.takeEvent e).map = s.map := by unfold State.takeEvent; split <;> rfl
@[simp] theorem takeEvent_active (e : Event) : (s.takeEvent e).active = s.active := by unfold State.takeEvent; split <;> rfl
@[simp] theorem takeEvent_staged (e : Event) : (s.takeEvent e).staged = s.staged := by unfold State.takeEvent; split <;> rfl
@[simp] theorem takeEvent_mapChanged (e : Event) : (s.takeEvent e).mapChanged = s.mapChanged := by unfold State.takeEvent; split <;> rfl
@[simp] theorem takeEvent_timeBase (e : Event) : (s.takeEvent e).timeBase = s.timeBase := by unfold State.takeEvent; split <;> rfl
@[simp] theorem takeEvent_cpPort (e : Event) : (s.takeEvent e).cpPort = s.cpPort := by unfold State.takeEvent; split <;> rfl
@[simp] theorem takeEvent_rlcPort (e : Event) : (s.takeEvent e).rlcPort = s.rlcPort := by unfold State.takeEvent; split <;> rfl
@[simp] theorem takeEvent_heldCp (e : Event) : (s.takeEvent e).heldCp = s.heldCp := by unfold State.takeEvent; split <;> rfl
@[simp] theorem takeEvent_heldRlc (e : Event) : (s.takeEvent e).heldRlc = s.heldRlc := by unfold State.takeEvent; split <;> rfl
@[simp] theorem takeEvent_merge (e : Event) : (s.takeEvent e).merge = s.merge := by unfold State.takeEvent; split <;> rfl
@[simp] theorem takeEvent_recordWrite (e : Event) : (s.takeEvent e).recordWrite = s.recordWrite := by unfold State.takeEvent; split <;> rfl
@[simp] theorem takeEvent_uplink (e : Event) : (s.takeEvent e).uplink = s.uplink := by unfold State.takeEvent; split <;> rfl
@[simp] theorem takeEvent_requests (e : Event) : (s.takeEvent e).requests = s.requests := by unfold State.takeEvent; split <;> rfl
@[simp] theorem takeEvent_uplinkOverrun (e : Event) : (s.takeEvent e).uplinkOverrun = s.uplinkOverrun := by unfold State.takeEvent; split <;> rfl
@[simp] theorem takeEvent_requestOverrun (e : Event) : (s.takeEvent e).requestOverrun = s.requestOverrun := by unfold State.takeEvent; split <;> rfl
@[simp] theorem takeEvent_unknownIds (e : Event) : (s.takeEvent e).unknownIds = s.unknownIds := by unfold State.takeEvent; split <;> rfl
@[simp] theorem takeEvent_ctxs (e : Event) : (s.takeEvent e).ctxs = s.ctxs := by unfold State.takeEvent; split <;> rfl
@[simp] theorem takeEvent_idMap (e : Event) : (s.takeEvent e).idMap = s.idMap := by unfold State.takeEvent; split <;> rfl
@[simp] theorem takeEvent_attach (e : Event) : (s.takeEvent e).attach = s.attach := by unfold State.takeEvent; split <;> rfl
@[simp] theorem takeEvent_deferrals (e : Event) : (s.takeEvent e).deferrals = s.deferrals := by unfold State.takeEvent; split <;> rfl
@[simp] theorem takeEvent_heads (e : Event) : (s.takeEvent e).heads = s.heads := by unfold State.takeEvent; split <;> rfl
@[simp] theorem takeEvent_table (e : Event) : (s.takeEvent e).table = s.table := by unfold State.takeEvent; split <;> rfl
@[simp] theorem takeEvent_contained (e : Event) : (s.takeEvent e).contained = s.contained := by unfold State.takeEvent; split <;> rfl
@[simp] theorem takeEvent_fatalPending (e : Event) : (s.takeEvent e).fatalPending = s.fatalPending := by unfold State.takeEvent; split <;> rfl
@[simp] theorem takeEvent_faultList (e : Event) : (s.takeEvent e).faultList = s.faultList := by unfold State.takeEvent; split <;> rfl
@[simp] theorem takeEvent_corrected (e : Event) : (s.takeEvent e).corrected = s.corrected := by unfold State.takeEvent; split <;> rfl
@[simp] theorem takeEvent_scrubPtr (e : Event) : (s.takeEvent e).scrubPtr = s.scrubPtr := by unfold State.takeEvent; split <;> rfl
@[simp] theorem takeEvent_scrubDeadline (e : Event) : (s.takeEvent e).scrubDeadline = s.scrubDeadline := by unfold State.takeEvent; split <;> rfl
@[simp] theorem takeEvent_scrubRead (e : Event) : (s.takeEvent e).scrubRead = s.scrubRead := by unfold State.takeEvent; split <;> rfl
@[simp] theorem takeEvent_rebuilds (e : Event) : (s.takeEvent e).rebuilds = s.rebuilds := by unfold State.takeEvent; split <;> rfl
@[simp] theorem takeEvent_scanFatals (e : Event) : (s.takeEvent e).scanFatals = s.scanFatals := by unfold State.takeEvent; split <;> rfl
@[simp] theorem takeEvent_dirProd (e : Event) : (s.takeEvent e).dirProd = s.dirProd := by unfold State.takeEvent; split <;> rfl
@[simp] theorem takeEvent_dirCons (e : Event) : (s.takeEvent e).dirCons = s.dirCons := by unfold State.takeEvent; split <;> rfl
@[simp] theorem takeEvent_evProd (e : Event) : (s.takeEvent e).evProd = s.evProd := by unfold State.takeEvent; split <;> rfl
@[simp] theorem takeEvent_evCons (e : Event) : (s.takeEvent e).evCons = s.evCons := by unfold State.takeEvent; split <;> rfl
@[simp] theorem takeEvent_dirOut (e : Event) : (s.takeEvent e).dirOut = s.dirOut := by unfold State.takeEvent; split <;> rfl
@[simp] theorem takeEvent_dirSent (e : Event) : (s.takeEvent e).dirSent = s.dirSent := by unfold State.takeEvent; split <;> rfl
@[simp] theorem takeEvent_backlog (e : Event) : (s.takeEvent e).backlog = s.backlog := by unfold State.takeEvent; split <;> rfl
@[simp] theorem takeEvent_evSent (e : Event) : (s.takeEvent e).evSent = s.evSent := by unfold State.takeEvent; split <;> rfl
@[simp] theorem takeEvent_dirDropped (e : Event) : (s.takeEvent e).dirDropped = s.dirDropped := by unfold State.takeEvent; split <;> rfl
@[simp] theorem takeEvent_attn (e : Event) : (s.takeEvent e).attn = s.attn := by unfold State.takeEvent; split <;> rfl
@[simp] theorem takeEvent_free (e : Event) : (s.takeEvent e).free = s.free := by unfold State.takeEvent; split <;> rfl
end


/-! ### A directive taken -/

section
variable (s : State)
@[simp] theorem takeDirective_pending (d : Directive) : (s.takeDirective d).pending = s.pending := by unfold State.takeDirective State.emit; dsimp only; split <;> [rfl; (split <;> [rfl; simp])]
@[simp] theorem takeDirective_mem (d : Directive) : (s.takeDirective d).mem = s.mem := by unfold State.takeDirective State.emit; dsimp only; split <;> [rfl; (split <;> [rfl; simp])]
@[simp] theorem takeDirective_op (d : Directive) : (s.takeDirective d).op = s.op := by unfold State.takeDirective State.emit; dsimp only; split <;> [rfl; (split <;> [rfl; simp])]
@[simp] theorem takeDirective_resetCause (d : Directive) : (s.takeDirective d).resetCause = s.resetCause := by unfold State.takeDirective State.emit; dsimp only; split <;> [rfl; (split <;> [rfl; simp])]
@[simp] theorem takeDirective_powerCame (d : Directive) : (s.takeDirective d).powerCame = s.powerCame := by unfold State.takeDirective State.emit; dsimp only; split <;> [rfl; (split <;> [rfl; simp])]
@[simp] theorem takeDirective_startup (d : Directive) : (s.takeDirective d).startup = s.startup := by unfold State.takeDirective State.emit; dsimp only; split <;> [rfl; (split <;> [rfl; simp])]
@[simp] theorem takeDirective_map (d : Directive) : (s.takeDirective d).map = s.map := by unfold State.takeDirective State.emit; dsimp only; split <;> [rfl; (split <;> [rfl; simp])]
@[simp] theorem takeDirective_active (d : Directive) : (s.takeDirective d).active = s.active := by unfold State.takeDirective State.emit; dsimp only; split <;> [rfl; (split <;> [rfl; simp])]
@[simp] theorem takeDirective_staged (d : Directive) : (s.takeDirective d).staged = s.staged := by unfold State.takeDirective State.emit; dsimp only; split <;> [rfl; (split <;> [rfl; simp])]
@[simp] theorem takeDirective_mapChanged (d : Directive) : (s.takeDirective d).mapChanged = s.mapChanged := by unfold State.takeDirective State.emit; dsimp only; split <;> [rfl; (split <;> [rfl; simp])]
@[simp] theorem takeDirective_timeBase (d : Directive) : (s.takeDirective d).timeBase = s.timeBase := by unfold State.takeDirective State.emit; dsimp only; split <;> [rfl; (split <;> [rfl; simp])]
@[simp] theorem takeDirective_cpPort (d : Directive) : (s.takeDirective d).cpPort = s.cpPort := by unfold State.takeDirective State.emit; dsimp only; split <;> [rfl; (split <;> [rfl; simp])]
@[simp] theorem takeDirective_rlcPort (d : Directive) : (s.takeDirective d).rlcPort = s.rlcPort := by unfold State.takeDirective State.emit; dsimp only; split <;> [rfl; (split <;> [rfl; simp])]
@[simp] theorem takeDirective_heldCp (d : Directive) : (s.takeDirective d).heldCp = s.heldCp := by unfold State.takeDirective State.emit; dsimp only; split <;> [rfl; (split <;> [rfl; simp])]
@[simp] theorem takeDirective_heldRlc (d : Directive) : (s.takeDirective d).heldRlc = s.heldRlc := by unfold State.takeDirective State.emit; dsimp only; split <;> [rfl; (split <;> [rfl; simp])]
@[simp] theorem takeDirective_merge (d : Directive) : (s.takeDirective d).merge = s.merge := by unfold State.takeDirective State.emit; dsimp only; split <;> [rfl; (split <;> [rfl; simp])]
@[simp] theorem takeDirective_recordWrite (d : Directive) : (s.takeDirective d).recordWrite = s.recordWrite := by unfold State.takeDirective State.emit; dsimp only; split <;> [rfl; (split <;> [rfl; simp])]
@[simp] theorem takeDirective_uplink (d : Directive) : (s.takeDirective d).uplink = s.uplink := by unfold State.takeDirective State.emit; dsimp only; split <;> [rfl; (split <;> [rfl; simp])]
@[simp] theorem takeDirective_requests (d : Directive) : (s.takeDirective d).requests = s.requests := by unfold State.takeDirective State.emit; dsimp only; split <;> [rfl; (split <;> [rfl; simp])]
@[simp] theorem takeDirective_uplinkOverrun (d : Directive) : (s.takeDirective d).uplinkOverrun = s.uplinkOverrun := by unfold State.takeDirective State.emit; dsimp only; split <;> [rfl; (split <;> [rfl; simp])]
@[simp] theorem takeDirective_requestOverrun (d : Directive) : (s.takeDirective d).requestOverrun = s.requestOverrun := by unfold State.takeDirective State.emit; dsimp only; split <;> [rfl; (split <;> [rfl; simp])]
@[simp] theorem takeDirective_unknownIds (d : Directive) : (s.takeDirective d).unknownIds = s.unknownIds := by unfold State.takeDirective State.emit; dsimp only; split <;> [rfl; (split <;> [rfl; simp])]
@[simp] theorem takeDirective_ctxs (d : Directive) : (s.takeDirective d).ctxs = s.ctxs := by unfold State.takeDirective State.emit; dsimp only; split <;> [rfl; (split <;> [rfl; simp])]
@[simp] theorem takeDirective_idMap (d : Directive) : (s.takeDirective d).idMap = s.idMap := by unfold State.takeDirective State.emit; dsimp only; split <;> [rfl; (split <;> [rfl; simp])]
@[simp] theorem takeDirective_attach (d : Directive) : (s.takeDirective d).attach = s.attach := by unfold State.takeDirective State.emit; dsimp only; split <;> [rfl; (split <;> [rfl; simp])]
@[simp] theorem takeDirective_deferrals (d : Directive) : (s.takeDirective d).deferrals = s.deferrals := by unfold State.takeDirective State.emit; dsimp only; split <;> [rfl; (split <;> [rfl; simp])]
@[simp] theorem takeDirective_heads (d : Directive) : (s.takeDirective d).heads = s.heads := by unfold State.takeDirective State.emit; dsimp only; split <;> [rfl; (split <;> [rfl; simp])]
@[simp] theorem takeDirective_table (d : Directive) : (s.takeDirective d).table = s.table := by unfold State.takeDirective State.emit; dsimp only; split <;> [rfl; (split <;> [rfl; simp])]
@[simp] theorem takeDirective_contained (d : Directive) : (s.takeDirective d).contained = s.contained := by unfold State.takeDirective State.emit; dsimp only; split <;> [rfl; (split <;> [rfl; simp])]
@[simp] theorem takeDirective_fatalPending (d : Directive) : (s.takeDirective d).fatalPending = s.fatalPending := by unfold State.takeDirective State.emit; dsimp only; split <;> [rfl; (split <;> [rfl; simp])]
@[simp] theorem takeDirective_faultList (d : Directive) : (s.takeDirective d).faultList = s.faultList := by unfold State.takeDirective State.emit; dsimp only; split <;> [rfl; (split <;> [rfl; simp])]
@[simp] theorem takeDirective_corrected (d : Directive) : (s.takeDirective d).corrected = s.corrected := by unfold State.takeDirective State.emit; dsimp only; split <;> [rfl; (split <;> [rfl; simp])]
@[simp] theorem takeDirective_scrubPtr (d : Directive) : (s.takeDirective d).scrubPtr = s.scrubPtr := by unfold State.takeDirective State.emit; dsimp only; split <;> [rfl; (split <;> [rfl; simp])]
@[simp] theorem takeDirective_scrubDeadline (d : Directive) : (s.takeDirective d).scrubDeadline = s.scrubDeadline := by unfold State.takeDirective State.emit; dsimp only; split <;> [rfl; (split <;> [rfl; simp])]
@[simp] theorem takeDirective_scrubRead (d : Directive) : (s.takeDirective d).scrubRead = s.scrubRead := by unfold State.takeDirective State.emit; dsimp only; split <;> [rfl; (split <;> [rfl; simp])]
@[simp] theorem takeDirective_rebuilds (d : Directive) : (s.takeDirective d).rebuilds = s.rebuilds := by unfold State.takeDirective State.emit; dsimp only; split <;> [rfl; (split <;> [rfl; simp])]
@[simp] theorem takeDirective_scanFatals (d : Directive) : (s.takeDirective d).scanFatals = s.scanFatals := by unfold State.takeDirective State.emit; dsimp only; split <;> [rfl; (split <;> [rfl; simp])]
@[simp] theorem takeDirective_dirProd (d : Directive) : (s.takeDirective d).dirProd = s.dirProd := by unfold State.takeDirective State.emit; dsimp only; split <;> [rfl; (split <;> [rfl; simp])]
@[simp] theorem takeDirective_dirCons (d : Directive) : (s.takeDirective d).dirCons = s.dirCons := by unfold State.takeDirective State.emit; dsimp only; split <;> [rfl; (split <;> [rfl; simp])]
@[simp] theorem takeDirective_evProd (d : Directive) : (s.takeDirective d).evProd = s.evProd := by unfold State.takeDirective State.emit; dsimp only; split <;> [rfl; (split <;> [rfl; simp])]
@[simp] theorem takeDirective_evCons (d : Directive) : (s.takeDirective d).evCons = s.evCons := by unfold State.takeDirective State.emit; dsimp only; split <;> [rfl; (split <;> [rfl; simp])]
@[simp] theorem takeDirective_dirSent (d : Directive) : (s.takeDirective d).dirSent = s.dirSent := by unfold State.takeDirective State.emit; dsimp only; split <;> [rfl; (split <;> [rfl; simp])]
@[simp] theorem takeDirective_evSent (d : Directive) : (s.takeDirective d).evSent = s.evSent := by unfold State.takeDirective State.emit; dsimp only; split <;> [rfl; (split <;> [rfl; simp])]
@[simp] theorem takeDirective_attn (d : Directive) : (s.takeDirective d).attn = s.attn := by unfold State.takeDirective State.emit; dsimp only; split <;> [rfl; (split <;> [rfl; simp])]
@[simp] theorem takeDirective_free (d : Directive) : (s.takeDirective d).free = s.free := by unfold State.takeDirective State.emit; dsimp only; split <;> [rfl; (split <;> [rfl; simp])]
end


/-! ### The tables read after an update -/

section
variable (s : State)
@[simp] theorem ctx_setCtx (n : Slot) (c : HandsetCtx) : (s.setCtx n c).ctx n = c := by simp [State.ctx, State.setCtx]
theorem ctx_setCtx_ne {n m : Slot} (c : HandsetCtx) (h : m ≠ n) : (s.setCtx n c).ctx m = s.ctx m := by
  have h' : n.val ≠ m.val := fun e => h (Fin.ext e.symm)
  simp [State.ctx, State.setCtx, Vector.getElem_set_ne _ _ h']
@[simp] theorem head_setHead (h : Head) (c : HeadCtx) : (s.setHead h c).head h = c := by simp [State.head, State.setHead]
theorem head_setHead_ne {h k : Head} (c : HeadCtx) (hk : k ≠ h) : (s.setHead h c).head k = s.head k := by
  have h' : h.val ≠ k.val := fun e => hk (Fin.ext e.symm)
  simp [State.head, State.setHead, Vector.getElem_set_ne _ _ h']
@[simp] theorem att_setAtt (h : Head) (a : AttachHead) : (s.setAtt h a).att h = a := by simp [State.att, State.setAtt]
theorem att_setAtt_ne {h k : Head} (a : AttachHead) (hk : k ≠ h) : (s.setAtt h a).att k = s.att k := by
  have h' : h.val ≠ k.val := fun e => hk (Fin.ext e.symm)
  simp [State.att, State.setAtt, Vector.getElem_set_ne _ _ h']
@[simp] theorem entry_setEntry (e : EntryNo) (t : TableEntry) : (s.setEntry e t).entry e = t := by
  simp [State.entry, State.setEntry]
theorem entry_setEntry_ne {e k : EntryNo} (t : TableEntry) (hk : k ≠ e) : (s.setEntry e t).entry k = s.entry k := by
  have h' : e.val ≠ k.val := fun x => hk (Fin.ext x.symm)
  simp [State.entry, State.setEntry, Vector.getElem_set_ne _ _ h']
end

@[simp] theorem ctx_setHead (s : State) (h : Head) (c : HeadCtx) (k : Slot) : (s.setHead h c).ctx k = s.ctx k := rfl
@[simp] theorem ctx_setAtt (s : State) (h : Head) (a : AttachHead) (k : Slot) : (s.setAtt h a).ctx k = s.ctx k := rfl
@[simp] theorem ctx_setEntry (s : State) (e : EntryNo) (t : TableEntry) (k : Slot) : (s.setEntry e t).ctx k = s.ctx k := rfl
@[simp] theorem ctx_setPort (s : State) (i : Initiator) (p : Port) (k : Slot) : (s.setPort i p).ctx k = s.ctx k := by simp [State.ctx]
@[simp] theorem ctx_takeEvent (s : State) (e : Event) (k : Slot) : (s.takeEvent e).ctx k = s.ctx k := by simp [State.ctx]
@[simp] theorem ctx_takeDirective (s : State) (d : Directive) (k : Slot) : (s.takeDirective d).ctx k = s.ctx k := by simp [State.ctx]
@[simp] theorem head_setCtx (s : State) (n : Slot) (c : HandsetCtx) (k : Head) : (s.setCtx n c).head k = s.head k := rfl
@[simp] theorem head_setAtt (s : State) (h : Head) (a : AttachHead) (k : Head) : (s.setAtt h a).head k = s.head k := rfl
@[simp] theorem head_setEntry (s : State) (e : EntryNo) (t : TableEntry) (k : Head) : (s.setEntry e t).head k = s.head k := rfl
@[simp] theorem head_setPort (s : State) (i : Initiator) (p : Port) (k : Head) : (s.setPort i p).head k = s.head k := by simp [State.head]
@[simp] theorem head_takeEvent (s : State) (e : Event) (k : Head) : (s.takeEvent e).head k = s.head k := by simp [State.head]
@[simp] theorem head_takeDirective (s : State) (d : Directive) (k : Head) : (s.takeDirective d).head k = s.head k := by simp [State.head]
@[simp] theorem att_setCtx (s : State) (n : Slot) (c : HandsetCtx) (k : Head) : (s.setCtx n c).att k = s.att k := rfl
@[simp] theorem att_setHead (s : State) (h : Head) (c : HeadCtx) (k : Head) : (s.setHead h c).att k = s.att k := rfl
@[simp] theorem att_setEntry (s : State) (e : EntryNo) (t : TableEntry) (k : Head) : (s.setEntry e t).att k = s.att k := rfl
@[simp] theorem att_setPort (s : State) (i : Initiator) (p : Port) (k : Head) : (s.setPort i p).att k = s.att k := by simp [State.att]
@[simp] theorem att_takeEvent (s : State) (e : Event) (k : Head) : (s.takeEvent e).att k = s.att k := by simp [State.att]
@[simp] theorem att_takeDirective (s : State) (d : Directive) (k : Head) : (s.takeDirective d).att k = s.att k := by simp [State.att]
@[simp] theorem entry_setCtx (s : State) (n : Slot) (c : HandsetCtx) (k : EntryNo) : (s.setCtx n c).entry k = s.entry k := rfl
@[simp] theorem entry_setHead (s : State) (h : Head) (c : HeadCtx) (k : EntryNo) : (s.setHead h c).entry k = s.entry k := rfl
@[simp] theorem entry_setAtt (s : State) (h : Head) (a : AttachHead) (k : EntryNo) : (s.setAtt h a).entry k = s.entry k := rfl
@[simp] theorem entry_setPort (s : State) (i : Initiator) (p : Port) (k : EntryNo) : (s.setPort i p).entry k = s.entry k := by simp [State.entry]
@[simp] theorem entry_takeEvent (s : State) (e : Event) (k : EntryNo) : (s.takeEvent e).entry k = s.entry k := by simp [State.entry]
@[simp] theorem entry_takeDirective (s : State) (d : Directive) (k : EntryNo) : (s.takeDirective d).entry k = s.entry k := by simp [State.entry]

end Sys2Proof.Machine
end

