-- ==== Sys2Proof/Laws/Memory.lean ====
section
/-! SUPPORT. Telephony memory: every write keeps the canonical form, and what a byte reads as after a write. -/

namespace Sys2Proof.Machine

set_option Elab.async false

/-! ### One byte -/

/-- The addresses of memory after a write of one byte are its own and those listed before. -/
theorem Memory.mem_writeByte (m : Memory) (a : Nat) (b : Byte) (c : Host.Cell) (h : c ∈ m.writeByte a b) :
    c = (a, b) ∧ b ≠ Config.unwrittenByte ∨ c ∈ m := by
  induction m with
  | nil =>
    rw [Memory.writeByte] at h
    split at h
    · cases h
    · exact Or.inl ⟨by simpa using h, by assumption⟩
  | cons x rest ih =>
    obtain ⟨y, d⟩ := x
    rw [Memory.writeByte] at h
    split at h
    · split at h
      · exact Or.inr h
      · rcases List.mem_cons.mp h with h | h
        · exact Or.inl ⟨h, by assumption⟩
        · exact Or.inr h
    · split at h
      · split at h
        · exact Or.inr (List.mem_cons_of_mem _ h)
        · rcases List.mem_cons.mp h with h | h
          · exact Or.inl ⟨h, by assumption⟩
          · exact Or.inr (List.mem_cons_of_mem _ h)
      · rcases List.mem_cons.mp h with h | h
        · exact Or.inr (by simp [h])
        · rcases ih h with h | h
          · exact Or.inl h
          · exact Or.inr (List.mem_cons_of_mem _ h)

/-- A write of one byte keeps the canonical form. -/
theorem Memory.wf_writeByte (m : Memory) (a : Nat) (b : Byte) (h : m.wf) : (m.writeByte a b).wf := by
  refine ⟨?_, fun c hc => ?_⟩
  · induction m with
    | nil =>
      rw [Memory.writeByte]
      split <;> simp
    | cons x rest ih =>
      obtain ⟨y, d⟩ := x
      have hrest : rest.Pairwise (fun x y => x.1 < y.1) := (List.pairwise_cons.mp h.1).2
      have hlow : ∀ z ∈ rest, y < z.1 := (List.pairwise_cons.mp h.1).1
      rw [Memory.writeByte]
      split
      · split
        · exact h.1
        · refine List.pairwise_cons.mpr ⟨fun z hz => ?_, h.1⟩
          rcases List.mem_cons.mp hz with hz | hz
          · subst hz; assumption
          · exact lt_trans (by assumption) (hlow z hz)
      · split
        · next heq =>
          subst heq
          split
          · exact hrest
          · exact List.pairwise_cons.mpr ⟨hlow, hrest⟩
        · refine List.pairwise_cons.mpr ⟨fun z hz => ?_, ih ⟨hrest, fun c hc => h.2 c (List.mem_cons_of_mem _ hc)⟩⟩
          rcases Memory.mem_writeByte rest a b z hz with hz | hz
          · have : z.1 = a := by rw [hz.1]
            have := lt_of_le_of_ne (not_lt.mp (by assumption)) (Ne.symm (by assumption))
            simp only [hz.1]; omega
          · exact hlow z hz
  · rcases Memory.mem_writeByte m a b c hc with hc | hc
    · rw [hc.1]; exact hc.2
    · exact h.2 c hc

/-- An address below every listed one is unlisted. -/
theorem Memory.readByte_of_lt (m : Memory) (a : Nat) (h : ∀ c ∈ m, a < c.1) : m.readByte a = Config.unwrittenByte := by
  induction m with
  | nil => rfl
  | cons x rest ih =>
    obtain ⟨y, d⟩ := x
    have : a ≠ y := ne_of_lt (h _ (List.mem_cons_self ..))
    rw [Memory.readByte, if_neg this]
    exact ih fun c hc => h c (List.mem_cons_of_mem _ hc)

/-- What a byte reads as after a write of one byte. -/
theorem Memory.readByte_writeByte (m : Memory) (a : Nat) (b : Byte) (x : Nat) (h : m.wf) :
    (m.writeByte a b).readByte x = if x = a then b else m.readByte x := by
  induction m with
  | nil =>
    rw [Memory.writeByte]
    split
    · next hb => simp only [Memory.readByte]; split <;> simp_all
    · rfl
  | cons y rest ih =>
    obtain ⟨y, d⟩ := y
    have hlow : ∀ z ∈ rest, y < z.1 := (List.pairwise_cons.mp h.1).1
    have hwf : Memory.wf rest := ⟨(List.pairwise_cons.mp h.1).2, fun c hc => h.2 c (List.mem_cons_of_mem _ hc)⟩
    rw [Memory.writeByte]
    split
    · next hlt =>
      split
      · next hb =>
        split
        · next hx =>
          subst hx
          rw [hb]
          refine Memory.readByte_of_lt _ _ fun c hc => ?_
          rcases List.mem_cons.mp hc with hc | hc
          · subst hc; exact hlt
          · exact lt_trans hlt (hlow c hc)
        · rfl
      · rfl
    · split
      · next heq =>
        subst heq
        split
        · next hb =>
          split
          · next hx =>
            subst hx
            rw [hb]
            exact Memory.readByte_of_lt _ _ hlow
          · next hx => rw [Memory.readByte, if_neg hx]
        · simp only [Memory.readByte]
          split <;> rfl
      · next hne =>
        simp only [Memory.readByte]
        rw [ih hwf]
        split
        · next hx =>
          split
          · next hxa => exact absurd (hxa.symm.trans hx) hne
          · rfl
        · rfl

/-! ### Runs of bytes -/

/-- A write of a run keeps the canonical form. -/
theorem Memory.wf_writeEnabled (m : Memory) (a : Nat) (bytes : List (Option Byte)) (h : m.wf) :
    (m.writeEnabled a bytes).wf := by
  induction bytes generalizing m a with
  | nil => exact h
  | cons b rest ih =>
    cases b with
    | none => exact ih m (a + 1) h
    | some b => exact ih _ (a + 1) (Memory.wf_writeByte m a b h)

/-- A write of every byte of a run keeps the canonical form. -/
theorem Memory.wf_writeAll (m : Memory) (a : Nat) (bytes : List Byte) (h : m.wf) : (m.writeAll a bytes).wf :=
  Memory.wf_writeEnabled m a _ h

/-- What a byte reads as after a write of a run: the run's byte where it has one enabled, what it was elsewhere. -/
theorem Memory.readByte_writeEnabled (m : Memory) (a : Nat) (bytes : List (Option Byte)) (x : Nat) (h : m.wf) :
    (m.writeEnabled a bytes).readByte x =
      if a ≤ x then ((bytes[x - a]?).join).getD (m.readByte x) else m.readByte x := by
  induction bytes generalizing m a with
  | nil => simp [Memory.writeEnabled]
  | cons b rest ih =>
    have split_at (hx : a < x) : (b :: rest)[x - a]? = rest[x - (a + 1)]? := by
      obtain ⟨k, rfl⟩ : ∃ k, x = a + 1 + k := ⟨x - (a + 1), by omega⟩
      simp [show a + 1 + k - a = k + 1 from by omega]
    cases b with
    | none =>
      rw [Memory.writeEnabled, ih m (a + 1) h]
      rcases lt_trichotomy a x with hx | hx | hx
      · rw [if_pos (by omega), if_pos (by omega), split_at hx]
      · subst hx; simp
      · rw [if_neg (by omega), if_neg (by omega)]
    | some b =>
      rw [Memory.writeEnabled, ih _ (a + 1) (Memory.wf_writeByte m a b h), Memory.readByte_writeByte m a b x h]
      rcases lt_trichotomy a x with hx | hx | hx
      · simp only [if_pos (show a + 1 ≤ x by omega), if_pos (show a ≤ x by omega), split_at hx,
          if_neg (show ¬ x = a by omega)]
      · subst hx; simp
      · simp only [if_neg (show ¬ a + 1 ≤ x by omega), if_neg (show ¬ a ≤ x by omega),
          if_neg (show ¬ x = a by omega)]

/-- A byte outside a run reads as before. -/
theorem Memory.readByte_writeEnabled_of_outside (m : Memory) (a : Nat) (bytes : List (Option Byte)) (x : Nat) (h : m.wf)
    (hx : x < a ∨ a + bytes.length ≤ x) : (m.writeEnabled a bytes).readByte x = m.readByte x := by
  rw [Memory.readByte_writeEnabled m a bytes x h]
  split
  · have : bytes[x - a]? = none := List.getElem?_eq_none (by omega)
    simp [this]
  · rfl

/-- A byte outside a whole run reads as before. -/
theorem Memory.readByte_writeAll_of_outside (m : Memory) (a : Nat) (bytes : List Byte) (x : Nat) (h : m.wf)
    (hx : x < a ∨ a + bytes.length ≤ x) : (m.writeAll a bytes).readByte x = m.readByte x :=
  Memory.readByte_writeEnabled_of_outside m a _ x h (by simpa using hx)

/-- A byte of a whole run reads as written. -/
theorem Memory.readByte_writeAll (m : Memory) (a : Nat) (bytes : List Byte) (i : Nat) (h : m.wf) (hi : i < bytes.length) :
    (m.writeAll a bytes).readByte (a + i) = bytes[i] := by
  rw [Memory.writeAll, Memory.readByte_writeEnabled m a _ _ h]
  simp [hi]

end Sys2Proof.Machine
end

