-- ==== Sys2Proof/Laws/Act.lean ====
section
/-! SUPPORT. Reasoning about pieces of the part's work: the state a piece leaves, what a piece keeps, and how the state it
leaves stands to the one it found. -/

namespace Sys2Proof.Machine

set_option Elab.async false

/-- The state a piece of work leaves, whether it ends or the part halts in it. -/
def after {α : Type} (a : Act α) (s : State) : State :=
  match a s with
  | .ok _ t => t
  | .error _ t => t

/-- A piece of work keeps a condition. -/
def Keeps {α : Type} (P : State → Prop) (a : Act α) : Prop := ∀ s, P s → P (after a s)

/-- A piece of work leaves a state that stands in a relation to the one it found. -/
def Moves {α : Type} (R : State → State → Prop) (a : Act α) : Prop := ∀ s, R s (after a s)

/-- A whole step answers the state its work leaves, settled. -/
theorem perform_eq (a : Act Unit) (s : State) : perform a s = .next (State.settle s (after a s)) := by
  unfold perform after; split <;> rename_i h <;> rw [h]

section
variable {α β : Type}

theorem after_bind (a : Act α) (f : α → Act β) (s : State) :
    after (a >>= f) s = match a s with | .ok x t => after (f x) t | .error _ t => t := by
  show (match EStateM.bind a f s with | .ok _ t => t | .error _ t => t) = _
  unfold EStateM.bind
  cases a s <;> rfl

@[simp] theorem after_pure (x : α) (s : State) : after (pure x : Act α) s = s := rfl
@[simp] theorem after_get (s : State) : after (get : Act State) s = s := rfl
@[simp] theorem after_modify (g : State → State) (s : State) : after (modify g : Act Unit) s = g s := rfl
@[simp] theorem after_throw (s : State) : after (throw () : Act α) s = s := rfl
@[simp] theorem after_modCtx (n : Slot) (g : HandsetCtx → HandsetCtx) (s : State) :
    after (modCtx n g) s = s.setCtx n (g (s.ctx n)) := rfl
@[simp] theorem after_modHead (h : Head) (g : HeadCtx → HeadCtx) (s : State) :
    after (modHead h g) s = s.setHead h (g (s.head h)) := rfl
@[simp] theorem after_modAtt (h : Head) (g : AttachHead → AttachHead) (s : State) :
    after (modAtt h g) s = s.setAtt h (g (s.att h)) := rfl
@[simp] theorem after_getCtx (n : Slot) (s : State) : after (getCtx n) s = s := rfl
@[simp] theorem after_getHead (h : Head) (s : State) : after (getHead h) s = s := rfl
@[simp] theorem after_getAtt (h : Head) (s : State) : after (getAtt h) s = s := rfl

@[simp] theorem after_pure_bind (x : α) (f : α → Act β) (s : State) : after (pure x >>= f) s = after (f x) s := rfl
@[simp] theorem after_get_bind (f : State → Act β) (s : State) : after (get >>= f) s = after (f s) s := rfl
@[simp] theorem after_modify_bind (g : State → State) (f : Unit → Act β) (s : State) :
    after ((modify g : Act Unit) >>= f) s = after (f ()) (g s) := rfl
@[simp] theorem after_getCtx_bind (n : Slot) (f : HandsetCtx → Act β) (s : State) :
    after (getCtx n >>= f) s = after (f (s.ctx n)) s := rfl
@[simp] theorem after_getHead_bind (h : Head) (f : HeadCtx → Act β) (s : State) :
    after (getHead h >>= f) s = after (f (s.head h)) s := rfl
@[simp] theorem after_getAtt_bind (h : Head) (f : AttachHead → Act β) (s : State) :
    after (getAtt h >>= f) s = after (f (s.att h)) s := rfl
@[simp] theorem after_modCtx_bind (n : Slot) (g : HandsetCtx → HandsetCtx) (f : Unit → Act β) (s : State) :
    after (modCtx n g >>= f) s = after (f ()) (s.setCtx n (g (s.ctx n))) := rfl
@[simp] theorem after_modHead_bind (h : Head) (g : HeadCtx → HeadCtx) (f : Unit → Act β) (s : State) :
    after (modHead h g >>= f) s = after (f ()) (s.setHead h (g (s.head h))) := rfl
@[simp] theorem after_modAtt_bind (h : Head) (g : AttachHead → AttachHead) (f : Unit → Act β) (s : State) :
    after (modAtt h g >>= f) s = after (f ()) (s.setAtt h (g (s.att h))) := rfl

/-- A condition after a sequence: it holds after the first piece, and the second keeps it from there. -/
theorem after_bind_of {P : State → Prop} {a : Act α} {f : α → Act β} {s : State} (ha : P (after a s))
    (hf : ∀ x t, a s = .ok x t → P t → P (after (f x) t)) : P (after (a >>= f) s) := by
  rw [after_bind]
  have h : after a s = match a s with | .ok _ t => t | .error _ t => t := rfl
  cases hx : a s with
  | ok x t => rw [hx] at h; exact hf x t hx (by rw [h] at ha; exact ha)
  | error x t => rw [hx] at h; rw [h] at ha; exact ha

/-- A condition after a sequence: another one holds after the first piece, and gives it. -/
theorem after_bind_to {P Q : State → Prop} {a : Act α} {f : α → Act β} {s : State} (ha : P (after a s))
    (hpq : ∀ t, P t → Q t) (hf : ∀ x t, a s = .ok x t → P t → Q (after (f x) t)) : Q (after (a >>= f) s) := by
  rw [after_bind]
  have h : after a s = match a s with | .ok _ t => t | .error _ t => t := rfl
  cases hx : a s with
  | ok x t => rw [hx] at h; exact hf x t hx (by rw [h] at ha; exact ha)
  | error x t => rw [hx] at h; rw [h] at ha; exact hpq t ha

theorem Keeps.bind {P : State → Prop} {a : Act α} {f : α → Act β} (ha : Keeps P a) (hf : ∀ x, Keeps P (f x)) :
    Keeps P (a >>= f) := fun s hs => after_bind_of (ha s hs) fun x t _ ht => hf x t ht

theorem Keeps.pure {P : State → Prop} (x : α) : Keeps P (Pure.pure x : Act α) := fun _ h => h

/-- A condition after a branch. -/
theorem Keeps.ite {P : State → Prop} {c : Prop} [Decidable c] {a b : Act α} (ha : Keeps P a) (hb : Keeps P b) :
    Keeps P (if c then a else b) := by split <;> assumption

/-- A condition after work that may be left out, and what follows. -/
theorem Keeps.step {P : State → Prop} {c : Prop} [Decidable c] {a : Act Unit} {f : Unit → Act β} (ha : Keeps P a)
    (hf : ∀ y, Keeps P (f y)) : Keeps P (if c then a >>= f else f ()) := Keeps.ite (Keeps.bind ha hf) (hf ())

/-- Work on each item of a list keeps what the work on one item keeps. -/
theorem Keeps.forEach {P : State → Prop} (f : α → Act Unit) (hf : ∀ x, Keeps P (f x)) (xs : List α) :
    Keeps P (forEach xs f) := by
  induction xs with
  | nil => exact Keeps.pure ()
  | cons x rest ih => exact Keeps.bind (hf x) fun _ => ih

theorem Keeps.whenRunning {P : State → Prop} {a : Act Unit} (ha : Keeps P a) : Keeps P (whenRunning a) := by
  intro s hs
  unfold Machine.whenRunning
  simp only [after_get_bind]
  split
  · exact ha s hs
  · exact hs

theorem Moves.bind {R : State → State → Prop} (htrans : ∀ s t u, R s t → R t u → R s u) {a : Act α} {f : α → Act β}
    (ha : Moves R a) (hf : ∀ x, Moves R (f x)) : Moves R (a >>= f) := fun s =>
  after_bind_of (P := fun t => R s t) (ha s) fun x t _ ht => htrans _ _ _ ht (hf x t)

theorem Moves.ite {R : State → State → Prop} {c : Prop} [Decidable c] {a b : Act α} (ha : Moves R a) (hb : Moves R b) :
    Moves R (if c then a else b) := by split <;> assumption

theorem Moves.forEach {R : State → State → Prop} (hrefl : ∀ s, R s s) (htrans : ∀ s t u, R s t → R t u → R s u)
    (f : α → Act Unit) (hf : ∀ x, Moves R (f x)) (xs : List α) : Moves R (forEach xs f) := by
  induction xs with
  | nil => exact hrefl
  | cons x rest ih => exact Moves.bind htrans (hf x) fun _ => ih
end

end Sys2Proof.Machine
end

