-- ==== Sys2Proof/Laws/Sound.lean ====
section
/-! SUPPORT. The joint conditions: they hold of a state that agrees where they look, and each update of a table keeps them
when the new entry is sound. -/

namespace Sys2Proof.Machine

set_option Elab.async false

variable {s t : State}

/-! ### Agreement where a condition looks -/

theorem State.ListsSound.same (h : s.ListsSound) (h1 : t.uplink = s.uplink := by rfl)
    (h2 : t.requests = s.requests := by rfl) (h3 : t.backlog = s.backlog := by rfl)
    (h4 : t.faultList = s.faultList := by rfl) : t.ListsSound := by
  obtain ⟨a, b, c, d, e⟩ := h
  exact ⟨h1 ▸ a, h2 ▸ b, h3 ▸ c, h4 ▸ d, h4 ▸ e⟩

theorem State.CountersSound.same (h : s.CountersSound) (h1 : t.uplinkOverrun = s.uplinkOverrun := by rfl)
    (h2 : t.requestOverrun = s.requestOverrun := by rfl) (h3 : t.unknownIds = s.unknownIds := by rfl)
    (h4 : t.deferrals = s.deferrals := by rfl) (h5 : t.corrected = s.corrected := by rfl)
    (h6 : t.eventsLost = s.eventsLost := by rfl) (h7 : t.dirDropped = s.dirDropped := by rfl) : t.CountersSound := by
  obtain ⟨a, b, c, d, e, f, g⟩ := h
  exact ⟨h1 ▸ a, h2 ▸ b, h3 ▸ c, h4 ▸ d, h5 ▸ e, h6 ▸ f, h7 ▸ g⟩

theorem State.ConfigSound.same (h : s.ConfigSound) (h1 : t.map = s.map := by rfl) (h2 : t.active = s.active := by rfl)
    (h3 : t.op = s.op := by rfl) (h4 : t.startup = s.startup := by rfl)
    (h5 : t.recordWrite = s.recordWrite := by rfl) : t.ConfigSound where
  map m hm := h.map m (h1 ▸ hm)
  active p hp := h.active p (h2 ▸ hp)
  running hr := by rw [h1, h2]; exact h.running (h3 ▸ hr)
  scanning n hn := by rw [h1, h2]; exact h.scanning n (h4 ▸ hn)
  headWrite x b c g hw := h.headWrite x b c g (h5 ▸ hw)

theorem State.RingsSound.same (h : s.RingsSound) (h1 : t.map = s.map := by rfl) (h2 : t.dirProd = s.dirProd := by rfl)
    (h3 : t.dirCons = s.dirCons := by rfl) (h4 : t.evProd = s.evProd := by rfl) (h5 : t.evCons = s.evCons := by rfl)
    (h6 : t.dirOut = s.dirOut := by rfl) (h7 : t.evOut = s.evOut := by rfl) (h8 : t.backlog = s.backlog := by rfl) :
    t.RingsSound where
  directive hm := by
    simpa only [State.dirCount, h1, h2, h3, h6] using h.directive (h1 ▸ hm)
  event hm := by
    simpa only [State.evCount, h1, h4, h5, h7] using h.event (h1 ▸ hm)
  backlog hm hb := by
    simpa only [State.dirRoom, State.dirUnread, State.dirCount, h1, h2, h3, h6] using h.backlog (h1 ▸ hm) (h8 ▸ hb)

/-- The joint conditions hold of a state that agrees where they look, memory and the rings apart. -/
theorem State.Sound.same (h : s.Sound) (hmem : Memory.wf t.mem) (hrings : t.RingsSound)
    (h1 : t.ctxs = s.ctxs := by rfl) (h2 : t.attach = s.attach := by rfl) (h3 : t.heads = s.heads := by rfl)
    (h4 : t.idMap = s.idMap := by rfl) (h5 : t.fatalPending = s.fatalPending := by rfl)
    (h6 : t.contained = s.contained := by rfl) (lists : t.ListsSound := by exact State.ListsSound.same (by assumption))
    (counters : t.CountersSound := by exact State.CountersSound.same (by assumption))
    (config : t.ConfigSound := by exact State.ConfigSound.same (by assumption)) : t.Sound where
  mem := hmem
  ctxs n := by unfold State.ctx; rw [h1]; exact h.ctxs n
  attach x := by unfold State.att; rw [h2]; exact h.attach x
  heads x := by unfold State.head; rw [h3]; exact h.heads x
  idMap := h4 ▸ h.idMap
  lists := lists
  counters := counters
  config := config
  rings := hrings
  pendingFault hp := by rw [h6]; exact h.pendingFault (h5 ▸ hp)

/-! ### Tables -/

theorem State.Sound.setCtx (h : s.Sound) (n : Slot) {c : HandsetCtx} (hc : c.Sound) : (s.setCtx n c).Sound where
  mem := h.mem
  ctxs m := by
    by_cases hm : m = n
    · subst hm; rw [ctx_setCtx]; exact hc
    · rw [ctx_setCtx_ne _ _ hm]; exact h.ctxs m
  attach := h.attach
  heads := h.heads
  idMap := h.idMap
  lists := h.lists.same
  counters := h.counters.same
  config := h.config.same
  rings := h.rings.same
  pendingFault := h.pendingFault

theorem State.Sound.setHead (h : s.Sound) (x : Head) {c : HeadCtx} (hc : c.Sound) : (s.setHead x c).Sound where
  mem := h.mem
  ctxs := h.ctxs
  attach := h.attach
  heads m := by
    by_cases hm : m = x
    · subst hm; rw [head_setHead]; exact hc
    · rw [head_setHead_ne _ _ hm]; exact h.heads m
  idMap := h.idMap
  lists := h.lists.same
  counters := h.counters.same
  config := h.config.same
  rings := h.rings.same
  pendingFault := h.pendingFault

theorem State.Sound.setAtt (h : s.Sound) (x : Head) {a : AttachHead} (ha : a.Sound) : (s.setAtt x a).Sound where
  mem := h.mem
  ctxs := h.ctxs
  attach m := by
    by_cases hm : m = x
    · subst hm; rw [att_setAtt]; exact ha
    · rw [att_setAtt_ne _ _ hm]; exact h.attach m
  heads := h.heads
  idMap := h.idMap
  lists := h.lists.same
  counters := h.counters.same
  config := h.config.same
  rings := h.rings.same
  pendingFault := h.pendingFault

/-- The joint conditions say nothing of the Handover Transaction Table. -/
theorem State.Sound.setEntry (h : s.Sound) (e : EntryNo) (x : TableEntry) : (s.setEntry e x).Sound :=
  ⟨h.mem, h.ctxs, h.attach, h.heads, h.idMap, h.lists.same, h.counters.same, h.config.same, h.rings.same, h.pendingFault⟩

/-- Memory may take any write. -/
theorem State.Sound.withMem (h : s.Sound) {m : Memory} (hm : m.wf) : State.Sound { s with mem := m } :=
  ⟨hm, h.ctxs, h.attach, h.heads, h.idMap, h.lists.same, h.counters.same, h.config.same, h.rings.same, h.pendingFault⟩

theorem Keeps.modCtx {n : Slot} {f : HandsetCtx → HandsetCtx} (hf : ∀ c, c.Sound → (f c).Sound) :
    Keeps State.Sound (modCtx n f) := fun _ h => h.setCtx n (hf _ (h.ctxs n))

theorem Keeps.modHead {x : Head} {f : HeadCtx → HeadCtx} (hf : ∀ c, c.Sound → (f c).Sound) :
    Keeps State.Sound (modHead x f) := fun _ h => h.setHead x (hf _ (h.heads x))

theorem Keeps.modAtt {x : Head} {f : AttachHead → AttachHead} (hf : ∀ a, a.Sound → (f a).Sound) :
    Keeps State.Sound (modAtt x f) := fun _ h => h.setAtt x (hf _ (h.attach x))

/-- An empty Candidate List, a quality context outside a call, a head after power-on and its attach admission are
sound. -/
theorem CandidatesSound.nil (serving : Option Head) : CandidatesSound [] serving where
  entries c h := by cases h
  few := by simp
  order := List.Pairwise.nil
  once := by simp
  others c h := by cases h

theorem Quality.sound_idle (serving : Option Head) : Quality.idle.Sound serving where
  level l h := by simp [Quality.idle] at h
  list := CandidatesSound.nil serving

theorem AttachHead.sound_reset : AttachHead.reset.Sound where
  credits := by decide
  queue := by decide
  regain := by decide

theorem ChannelLimits.zero : ChannelLimits 0 0 := ⟨by omega, by omega, by omega⟩

theorem emptyPool_get (c : Chan) : emptyPool[c] = none := by simp [emptyPool]

theorem HeadCtx.sound_powerOn : HeadCtx.powerOn.Sound where
  limits := ChannelLimits.zero
  staged c g h := by simp [HeadCtx.powerOn] at h
  failures := by decide
  numbers c h := by simp [HeadCtx.powerOn, emptyPool] at h
  empty _ c := by simp [HeadCtx.powerOn, emptyPool]
  waiting _ := rfl
  liveness := rfl
  waitOrder := .nil

end Sys2Proof.Machine
end

