-- ==== Sys2Proof/Laws/Rings.lean ====
section
/-! SUPPORT. The output rings: what taking a record, writing it and moving a consumer keep, and how a step ends. -/

namespace Sys2Proof.Machine

set_option Elab.async false

/-! ### Positions -/

/-- The unread records of a ring are fewer than its slots. -/
theorem unread_lt {n prod cons : Nat} (h : 0 < n) : unread n prod cons < n := Nat.mod_lt _ h

/-- R192: a producer position that advances in a ring with room adds one unread record. -/
theorem unread_next {n prod cons : Nat} (hp : prod < n) (hc : cons < n) (hu : unread n prod cons + 1 < n) :
    unread n (nextPosition n prod) cons = unread n prod cons + 1 := by
  unfold unread nextPosition at *
  rcases Nat.lt_or_ge (prod + 1) n with h1 | h1
  · rw [Nat.mod_eq_of_lt h1]
    rcases Nat.lt_or_ge prod cons with h2 | h2
    · rw [Nat.mod_eq_of_lt (by omega)] at hu ⊢
      rw [Nat.mod_eq_of_lt (by omega)]; omega
    · have e : (prod + n - cons) % n = prod - cons := by
        rw [show prod + n - cons = (prod - cons) + n by omega, Nat.add_mod_right, Nat.mod_eq_of_lt (by omega)]
      rw [e] at hu ⊢
      rw [show prod + 1 + n - cons = (prod - cons + 1) + n by omega, Nat.add_mod_right, Nat.mod_eq_of_lt (by omega)]
  · have hp' : prod = n - 1 := by omega
    have e1 : (prod + 1) % n = 0 := by rw [show prod + 1 = n by omega, Nat.mod_self]
    rw [e1]
    rcases Nat.eq_zero_or_pos cons with hz | hz
    · subst hz
      rw [show prod + n - 0 = prod + n by omega, Nat.add_mod_right, Nat.mod_eq_of_lt hp] at hu
      omega
    · have e : (prod + n - cons) % n = prod - cons := by
        rw [show prod + n - cons = (prod - cons) + n by omega, Nat.add_mod_right, Nat.mod_eq_of_lt (by omega)]
      rw [e, Nat.mod_eq_of_lt (by omega)]; omega

/-- R193: an accepted consumer value leaves the unread records less the distance moved. -/
theorem unread_moved {n prod cons v : Nat} (hp : prod < n) (hc : cons < n) (hv : v < n)
    (hd : unread n v cons ≤ unread n prod cons) :
    unread n prod v = unread n prod cons - unread n v cons := by
  have key (a b : Nat) (ha : a < n) (hb : b < n) : unread n a b = if b ≤ a then a - b else a + n - b := by
    unfold unread
    split
    · rw [show a + n - b = (a - b) + n by omega, Nat.add_mod_right, Nat.mod_eq_of_lt (by omega)]
    · rw [Nat.mod_eq_of_lt (by omega)]
  rw [key prod v hp hv]
  rw [key v cons hv hc, key prod cons hp hc] at *
  split_ifs at * <;> omega

/-- R193: the distance from a position to itself is 0. -/
theorem unread_self {n p : Nat} : unread n p p = 0 := by
  unfold unread; rw [show p + n - p = n by omega, Nat.mod_self]

/-! ### Records taken -/

variable {s : State}

theorem satInc_le {n : Nat} (h : n ≤ 65535) : satInc n ≤ 65535 := by
  unfold satInc Config.counterMax; split <;> omega

theorem State.Sound.takeEvent (h : s.Sound) (e : Event) : (s.takeEvent e).Sound := by
  unfold State.takeEvent
  split
  · next hr =>
    refine ⟨h.mem, h.ctxs, h.attach, h.heads, h.idMap, h.lists.same, h.counters.same, h.config.same, ?_, h.pendingFault⟩
    refine ⟨h.rings.directive, fun hm => ?_, h.rings.backlog⟩
    have he := h.rings.event hm
    refine ⟨he.prodBelow, he.consBelow, ?_⟩
    have hroom := hr.1
    unfold State.evRoom at hroom
    simp only [List.length_append, List.length_singleton]
    show unread s.evCount s.evProd s.evCons + (s.evOut.length + 1) ≤ s.evCount - 1
    unfold State.evUnread at hroom
    omega
  · refine ⟨h.mem, h.ctxs, h.attach, h.heads, h.idMap, h.lists.same, ?_, h.config.same, h.rings.same, h.pendingFault⟩
    obtain ⟨a, b, c, d, e, f, g⟩ := h.counters
    exact ⟨a, b, c, d, e, satInc_le f, g⟩

theorem State.Sound.emit (h : s.Sound) (k : EventKind) (v : Severity) (subject d1 d2 : Nat) :
    (s.emit k v subject d1 d2).Sound := h.takeEvent _

theorem State.Sound.takeDirective (h : s.Sound) (d : Directive) : (s.takeDirective d).Sound := by
  unfold State.takeDirective
  dsimp only
  split
  · next hr =>
    refine ⟨h.mem, h.ctxs, h.attach, h.heads, h.idMap, h.lists.same, h.counters.same, h.config.same, ?_, h.pendingFault⟩
    refine ⟨fun hm => ?_, h.rings.event, fun _ hb => absurd hr.1 hb⟩
    have he := h.rings.directive hm
    refine ⟨he.prodBelow, he.consBelow, ?_⟩
    have hroom := hr.2
    unfold State.dirRoom State.dirUnread at hroom
    simp only [List.length_append, List.length_singleton]
    show unread s.dirCount s.dirProd s.dirCons + (s.dirOut.length + 1) ≤ s.dirCount - 1
    omega
  · next hr =>
    split
    · next hb =>
      have hlen : s.backlog.length < 16 := hb
      refine ⟨h.mem, h.ctxs, h.attach, h.heads, h.idMap, ?_, h.counters.same, h.config.same, ?_, h.pendingFault⟩
      · obtain ⟨a, b, c, d', e⟩ := h.lists
        refine ⟨a, b, ?_, d', e⟩
        simp only [List.length_append, List.length_singleton]
        omega
      · refine ⟨h.rings.directive, h.rings.event, fun hm _ => ?_⟩
        by_cases hb' : s.backlog = []
        · have : ¬ 0 < s.dirRoom := fun h0 => hr ⟨hb', h0⟩
          exact Nat.eq_zero_of_not_pos this
        · exact h.rings.backlog hm hb'
    · refine State.Sound.emit ?_ _ _ _ _ _
      refine ⟨h.mem, h.ctxs, h.attach, h.heads, h.idMap, h.lists.same, ?_, h.config.same, h.rings.same, h.pendingFault⟩
      obtain ⟨a, b, c, d', e, f, g⟩ := h.counters
      exact ⟨a, b, c, d', e, f, satInc_le g⟩

theorem keeps_note (k : EventKind) (subject d1 d2 : Nat) : Keeps State.Sound (note k subject d1 d2) :=
  fun _ h => h.emit _ _ _ _ _

theorem keeps_report (k : EventKind) (v : Severity) (subject d1 d2 : Nat) :
    Keeps State.Sound (report k v subject d1 d2) := fun _ h => h.emit _ _ _ _ _

theorem keeps_send (d : Directive) : Keeps State.Sound (send d) := fun _ h => h.takeDirective d

/-! ### Records written -/

theorem State.Sound.directiveInSlot (h : s.Sound) : s.directiveInSlot.Sound := by
  unfold State.directiveInSlot
  split
  · exact h
  · next d _ _ =>
    split
    · exact h
    · have hw : Memory.wf (s.mem.writeAll s.dirSlotAddr d.bytes) := Memory.wf_writeAll _ _ _ h.mem
      generalize s.mem.writeAll s.dirSlotAddr d.bytes = m at hw ⊢
      exact h.same hw h.rings.same (lists := h.lists.same) (counters := h.counters.same) (config := h.config.same)

theorem State.Sound.eventInSlot (h : s.Sound) : s.eventInSlot.Sound := by
  unfold State.eventInSlot
  split
  · exact h
  · next e _ _ =>
    split
    · exact h
    · have hw : Memory.wf (s.mem.writeAll s.evSlotAddr e.bytes) := Memory.wf_writeAll _ _ _ h.mem
      generalize s.mem.writeAll s.evSlotAddr e.bytes = m at hw ⊢
      exact h.same hw h.rings.same (lists := h.lists.same) (counters := h.counters.same) (config := h.config.same)

/-- The producer word write turns a record being written into an unread one. -/
theorem RingSound.counted {n prod cons k : Nat} (h : RingSound n prod cons (k + 1)) :
    RingSound n (nextPosition n prod) cons k ∧
      n - 1 - unread n (nextPosition n prod) cons - k = n - 1 - unread n prod cons - (k + 1) := by
  have hp := h.prodBelow
  have hf := h.fits
  have hu := unread_next hp h.consBelow (by omega)
  refine ⟨⟨Nat.mod_lt _ (by omega), h.consBelow, by omega⟩, by omega⟩

theorem State.Sound.directiveCounted (h : s.Sound) : s.directiveCounted.Sound := by
  unfold State.directiveCounted
  split
  · exact h
  · next d rest hd =>
    dsimp only
    split
    · refine ⟨Memory.wf_writeAll _ _ _ h.mem, h.ctxs, h.attach, h.heads, h.idMap, h.lists.same, h.counters.same,
        h.config.same, ⟨fun hm => ?_, h.rings.event, fun hm hb => ?_⟩, h.pendingFault⟩
      · have hr := h.rings.directive hm
        rw [hd] at hr
        exact hr.counted.1
      · have hr := h.rings.directive hm
        have hz := h.rings.backlog hm hb
        rw [hd] at hr
        unfold State.dirRoom State.dirUnread at hz ⊢
        rw [hd] at hz
        exact hr.counted.2.trans hz
    · exact h

theorem State.Sound.eventCounted (h : s.Sound) : s.eventCounted.Sound := by
  unfold State.eventCounted
  split
  · exact h
  · next e rest he =>
    dsimp only
    split
    · refine ⟨Memory.wf_writeAll _ _ _ h.mem, h.ctxs, h.attach, h.heads, h.idMap, h.lists.same, h.counters.same,
        h.config.same, ⟨h.rings.directive, fun hm => ?_, h.rings.backlog⟩, h.pendingFault⟩
      have hr := h.rings.event hm
      rw [he] at hr
      exact hr.counted.1
    · exact h

/-! ### Consumer index writes -/

theorem consumerAccepts_iff {n copy u v : Nat} : consumerAccepts n copy u v = true ↔ v < n ∧ unread n v copy ≤ u := by
  simp [consumerAccepts]

theorem State.Sound.moveDirectiveConsumer (h : s.Sound) {v : Nat}
    (hv : consumerAccepts s.dirCount s.dirCons s.dirUnread v = true) : (s.moveDirectiveConsumer v).Sound := by
  obtain ⟨hvn, hd⟩ := consumerAccepts_iff.mp hv
  have hlen : (s.backlog.drop (State.dirRoom { s with dirCons := v })).length ≤ 16 := by
    rw [List.length_drop]; have := h.lists.backlog; omega
  refine ⟨h.mem, h.ctxs, h.attach, h.heads, h.idMap,
    ⟨h.lists.uplink, h.lists.requests, hlen, h.lists.faultList, h.lists.faultOnce⟩, h.counters.same, h.config.same,
    ⟨fun hm => ?_, h.rings.event, fun hm hb => ?_⟩, h.pendingFault⟩
  · have hr := h.rings.directive hm
    have hu := unread_moved hr.prodBelow hr.consBelow hvn hd
    refine ⟨hr.prodBelow, hvn, ?_⟩
    have hf := hr.fits
    show unread s.dirCount s.dirProd v + (s.dirOut ++ s.backlog.take (State.dirRoom { s with dirCons := v })).length ≤ _
    rw [List.length_append, List.length_take]
    have hk : State.dirRoom { s with dirCons := v } = s.dirCount - 1 - unread s.dirCount s.dirProd v - s.dirOut.length := rfl
    have hN : State.dirCount (s.moveDirectiveConsumer v) = s.dirCount := rfl
    rw [hk, hN]; omega
  · have hk : State.dirRoom { s with dirCons := v } = s.dirCount - 1 - unread s.dirCount s.dirProd v - s.dirOut.length := rfl
    have hb' : State.dirRoom { s with dirCons := v } < s.backlog.length := by
      by_contra hge
      exact hb (List.drop_eq_nil_of_le (not_lt.mp hge))
    show s.dirCount - 1 - unread s.dirCount s.dirProd v
      - (s.dirOut ++ s.backlog.take (State.dirRoom { s with dirCons := v })).length = 0
    rw [List.length_append, List.length_take, Nat.min_eq_left (by omega), hk]; omega

theorem State.Sound.moveEventConsumer (h : s.Sound) {v : Nat}
    (hv : consumerAccepts s.evCount s.evCons s.evUnread v = true) : (s.moveEventConsumer v).Sound := by
  obtain ⟨hvn, hd⟩ := consumerAccepts_iff.mp hv
  have moved (hm : s.map.isSome = true) : RingSound s.evCount s.evProd v s.evOut.length ∧
      unread s.evCount s.evProd v = s.evUnread - unread s.evCount v s.evCons := by
    have hr := h.rings.event hm
    have hu := unread_moved hr.prodBelow hr.consBelow hvn hd
    exact ⟨⟨hr.prodBelow, hvn, by have := hr.fits; omega⟩, hu⟩
  have plain : State.Sound { s with evCons := v } :=
    ⟨h.mem, h.ctxs, h.attach, h.heads, h.idMap, h.lists.same, h.counters.same, h.config.same,
      ⟨h.rings.directive, fun hm => (moved hm).1, h.rings.backlog⟩, h.pendingFault⟩
  unfold State.moveEventConsumer
  dsimp only
  split
  · exact plain
  · next hne =>
    unfold State.reportLost
    split
    · exact plain
    · obtain ⟨a, b, c, d, e, f, g⟩ := h.counters
      refine ⟨plain.mem, plain.ctxs, plain.attach, plain.heads, plain.idMap, plain.lists.same,
        ⟨a, b, c, d, e, Nat.zero_le _, g⟩, plain.config.same,
        ⟨plain.rings.directive, fun hm => ⟨(moved hm).1.prodBelow, hvn, ?_⟩, plain.rings.backlog⟩, plain.pendingFault⟩
      have hf := (h.rings.event hm).fits
      have hu := (moved hm).2
      unfold State.evUnread at hu
      have hN : State.evCount { s with evCons := v } = s.evCount := rfl
      simp only [List.length_append, List.length_singleton]
      show unread s.evCount s.evProd v + (s.evOut.length + 1) ≤ s.evCount - 1
      have hle : unread s.evCount v s.evCons ≤ unread s.evCount s.evProd s.evCons := hd
      omega

/-! ### The end of a step -/

theorem State.Sound.writeStatus (h : s.Sound) : s.writeStatus.Sound := h.withMem (Memory.wf_writeAll _ _ _ h.mem)

theorem State.Sound.settle (before : State) (h : s.Sound) : (State.settle before s).Sound := by
  have key (t : State) (ht : t.Sound) : State.Sound { t with attn := t.attnLevel } :=
    ⟨ht.mem, ht.ctxs, ht.attach, ht.heads, ht.idMap, ht.lists.same, ht.counters.same, ht.config.same, ht.rings.same,
      ht.pendingFault⟩
  unfold State.settle
  dsimp only
  split
  · exact key _ h.writeStatus
  · exact key _ h

/-- R198: after a step ATTN stands at its level. -/
theorem State.settle_attnRight (before after : State) : (State.settle before after).attnRight := by
  unfold State.settle State.attnRight
  rfl

/-- A step whose work keeps the joint conditions answers a safe state. -/
theorem safe_perform {a : Act Unit} (ha : Keeps State.Sound a) {s t : State} (h : s.Sound)
    (ht : perform a s = .next t) : t.Safe := by
  rw [perform_eq] at ht
  cases ht
  exact ⟨(ha s h).settle s, State.settle_attnRight _ _⟩

end Sys2Proof.Machine
end

