-- ==== Sys2Proof/Laws/Faults.lean ====
section
/-! SUPPORT. The Integrity Unit's work keeps the joint conditions: halts and fatal faults, look-ups and checked readings. -/

namespace Sys2Proof.Machine

set_option Elab.async false

variable {s : State}

/-! ### Halts -/

theorem State.Sound.cutOff (h : s.Sound) {taken : State → State} (ht : (taken s).Sound) : (s.cutOff taken).Sound := by
  have hm : (if Config.memoryHadTaken s.free then taken s else s).Sound := by split; exacts [ht, h]
  unfold State.cutOff
  generalize (if Config.memoryHadTaken s.free then taken s else s) = t at hm ⊢
  exact hm.same hm.mem hm.rings.same (lists := hm.lists.same) (counters := hm.counters.same) (config := hm.config.same)

theorem State.Sound.cutRings (h : s.Sound) : s.cutRings.Sound := by
  have first : State.Sound (if s.dirOut = [] ∨ s.op = .halted then s
      else s.cutOff fun s => if s.dirSent then s.directiveCounted else s.directiveInSlot) := by
    split
    · exact h
    · exact h.cutOff (by split; exacts [h.directiveCounted, h.directiveInSlot])
  unfold State.cutRings
  dsimp only
  generalize (if s.dirOut = [] ∨ s.op = .halted then s
      else s.cutOff fun s => if s.dirSent then s.directiveCounted else s.directiveInSlot) = t at first ⊢
  split
  · exact first
  · exact first.cutOff (by split; exacts [first.eventCounted, first.eventInSlot])

theorem State.Sound.recordWritten (h : s.Sound) (w : RecordWrite) : (s.recordWritten w).wf := by
  unfold State.recordWritten
  split <;> exact Memory.wf_writeEnabled _ _ _ h.mem

/-- The configuration conditions of a state with no record write waiting. -/
theorem State.ConfigSound.noWrite {t : State} (h : s.ConfigSound) (h5 : t.recordWrite = none := by rfl)
    (h1 : t.map = s.map := by rfl) (h2 : t.active = s.active := by rfl) (h3 : t.op = s.op := by rfl)
    (h4 : t.startup = s.startup := by rfl) : t.ConfigSound where
  map m hm := h.map m (h1 ▸ hm)
  active p hp := h.active p (h2 ▸ hp)
  running hr := by rw [h1, h2]; exact h.running (h3 ▸ hr)
  scanning n hn := by rw [h1, h2]; exact h.scanning n (h4 ▸ hn)
  headWrite x b c g hw := by rw [h5] at hw; cases hw

theorem State.Sound.cutRecordWrite (h : s.Sound) : s.cutRecordWrite.Sound := by
  unfold State.cutRecordWrite
  split
  · exact h
  · next w _ =>
    have hc : (s.cutOff fun s => { s with mem := s.recordWritten w }).Sound := h.cutOff (h.withMem (h.recordWritten w))
    exact hc.same hc.mem hc.rings.same (lists := hc.lists.same) (counters := hc.counters.same)
      (config := hc.config.noWrite)

theorem State.Sound.refuseUnanswered (h : s.Sound) : s.refuseUnanswered.Sound := by
  have hc := h.cutRecordWrite
  unfold State.refuseUnanswered
  exact hc.same hc.mem hc.rings.same (lists := hc.lists.same) (counters := hc.counters.same) (config := hc.config.same)

theorem State.Sound.haltEvent (h : s.Sound) (f : FaultyStructure) (entry : Nat) : (s.haltEvent f entry).Sound := by
  unfold State.haltEvent
  split
  · next hr =>
    refine h.same h.mem ⟨h.rings.directive, fun hm => ?_, h.rings.backlog⟩ (lists := h.lists.same)
      (counters := h.counters.same) (config := h.config.same)
    have he := h.rings.event hm
    refine ⟨he.prodBelow, he.consBelow, ?_⟩
    have : s.evUnread + 1 ≤ s.evCount - 1 := by omega
    exact this
  · obtain ⟨a, b, c, d, e, f, g⟩ := h.counters
    refine h.same h.mem ⟨h.rings.directive, fun hm => ?_, h.rings.backlog⟩ (lists := h.lists.same)
      (counters := ⟨a, b, c, d, e, satInc_le f, g⟩) (config := h.config.same)
    have he := h.rings.event hm
    refine ⟨he.prodBelow, he.consBelow, ?_⟩
    have := he.fits
    show unread s.evCount s.evProd s.evCons + 0 ≤ s.evCount - 1
    omega

theorem State.Sound.enterHalted (h : s.Sound) (f : FaultyStructure) (entry : Nat) : (s.enterHalted f entry).Sound := by
  have hc := h.refuseUnanswered.cutRings
  unfold State.enterHalted
  generalize s.refuseUnanswered.cutRings = t at hc ⊢
  have last : State.Sound { t with op := .halted } := by
    refine hc.same hc.mem hc.rings.same (lists := hc.lists.same) (counters := hc.counters.same) (config := ?_)
    exact ⟨hc.config.map, hc.config.active, (by intro hr; cases hr), hc.config.scanning, hc.config.headWrite⟩
  exact (last.haltEvent f entry).writeStatus

theorem keeps_fatalFault (f : FaultyStructure) (entry : Nat) : Keeps State.Sound (fatalFault f entry) := by
  intro s h
  unfold fatalFault
  simp only [after_get_bind]
  split
  · exact h.enterHalted f entry
  · simp only [after_modify_bind]
    refine keeps_report _ _ _ _ _ _ ?_
    exact ⟨h.mem, h.ctxs, h.attach, h.heads, h.idMap, h.lists.same, h.counters.same, h.config.same, h.rings.same,
      fun _ => rfl⟩

/-! ### The parity-protected structures -/

theorem IdMapSound.mapFound {m : List MapEntry} (h : IdMapSound m) (n : Slot) : IdMapSound (mapFound m n) := by
  have keep (e : MapEntry) : (if e.slot = n then { e with parityBad := false } else e).slot = e.slot ∧
      (if e.slot = n then { e with parityBad := false } else e).identity = e.identity := by split <;> simp
  refine ⟨?_, fun e he => ?_⟩
  · unfold Machine.mapFound
    rw [List.pairwise_map]
    refine h.order.imp fun {a b} hab => ?_
    rw [(keep a).1, (keep b).1]; exact hab
  · obtain ⟨x, hx, rfl⟩ := List.mem_map.mp he
    rw [(keep x).2]; exact h.nonzero x hx

theorem State.Sound.withIdMap (h : s.Sound) {m : List MapEntry} (hm : IdMapSound m) : State.Sound { s with idMap := m } :=
  ⟨h.mem, h.ctxs, h.attach, h.heads, hm, h.lists.same, h.counters.same, h.config.same, h.rings.same, h.pendingFault⟩

theorem keeps_lookupIdentity (id : Identity) : Keeps State.Sound (lookupIdentity id) := by
  intro s h
  unfold lookupIdentity
  simp only [after_get_bind]
  split
  · exact h
  · split
    · simp only [after_modify_bind]
      exact after_bind_of (keeps_fatalFault _ _ _ (h.withIdMap (h.idMap.mapFound _))) fun _ _ _ ht => ht
    · exact h

theorem keeps_useEntry (e : EntryNo) : Keeps State.Sound (useEntry e) := by
  intro s h
  unfold useEntry
  simp only [after_get_bind]
  split
  · simp only [after_modify_bind]
    exact keeps_fatalFault _ _ _ (h.setEntry _ _)
  · exact h

theorem HeadCtx.Sound.parity {c : HeadCtx} (h : c.Sound) : HeadCtx.Sound { c with poolParityBad := false } :=
  ⟨h.limits, h.staged, h.failures, h.numbers, h.empty, h.waiting, h.liveness, h.waitOrder⟩

theorem keeps_usePool (x : Head) : Keeps State.Sound (usePool x) := by
  intro s h
  unfold usePool
  simp only [after_getHead_bind]
  split
  · simp only [after_modHead_bind]
    exact keeps_fatalFault _ _ _ (h.setHead _ (h.heads x).parity)
  · exact h

/-! ### Checked readings -/

theorem State.Sound.writeMarker (h : s.Sound) (n : Slot) : (s.writeMarker n).Sound :=
  h.withMem (Memory.wf_writeByte _ _ _ h.mem)

theorem State.Sound.writeBack (h : s.Sound) (n : Slot) (b : Nat) (d : Beat) : (s.writeBack n b d).Sound :=
  h.withMem (Memory.wf_writeByte _ _ _ (Memory.wf_writeAll _ _ _ h.mem))

theorem HandsetCtx.Sound.poison {c : HandsetCtx} (h : c.Sound) (p : Bool) : HandsetCtx.Sound { c with poisoned := p } :=
  ⟨h.accessFail, h.hoFail, h.offered, h.admission, h.moving, h.calling, h.media, h.silent, h.quality⟩

theorem keeps_account (n : Slot) (b : Nat) (v : Source) : Keeps State.Sound (account n b v) := by
  intro s h
  unfold account
  simp only [after_get_bind]
  split
  · exact h
  · next hc =>
    simp only [after_modify_bind]
    refine after_bind_of (keeps_report _ _ _ _ _ _ ?_) fun _ t _ ht => ?_
    · obtain ⟨a, b, c, d, e⟩ := h.lists
      obtain ⟨a', b', c', d', e', f', g'⟩ := h.counters
      refine ⟨h.mem, h.ctxs, h.attach, h.heads, h.idMap, ⟨a, b, c, ?_, ?_⟩, ⟨a', b', c', d', satInc_le e', f', g'⟩,
        h.config.same, h.rings.same, h.pendingFault⟩
      · show (if s.faultList.length < Config.faultListSize then s.faultList ++ [n] else s.faultList).length ≤ 16
        split
        · next hl =>
          simp only [List.length_append, List.length_singleton]
          have : s.faultList.length < 16 := hl
          omega
        · exact d
      · show (if s.faultList.length < Config.faultListSize then s.faultList ++ [n] else s.faultList).Nodup
        split
        · rw [List.nodup_append]
          refine ⟨e, List.nodup_singleton n, ?_⟩
          intro x hx y hy
          rw [List.mem_singleton] at hy
          subst hy
          rintro rfl
          exact hc (by simpa using hx)
        · exact e
    · simp only [after_get_bind]
      split
      · exact keeps_report _ _ _ _ _ _ ht
      · exact ht

theorem keeps_judgeMarker (r : Reading) : Keeps State.Sound (judgeMarker r) := by
  intro s h
  unfold judgeMarker
  simp only [after_getCtx_bind]
  split
  · simp only [after_modCtx_bind]
    have h1 := h.setCtx r.slot ((h.ctxs r.slot).poison true)
    split
    · refine after_bind_of (keeps_report _ _ _ _ _ _ h1) fun _ t _ ht => ?_
      split
      · exact ht.writeMarker r.slot
      · exact ht
    · split
      · exact h1.writeMarker r.slot
      · exact h1
  · split
    · exact h.writeMarker r.slot
    · exact h

theorem keeps_checkBeat (r : Reading) (p : Bool) (b : Nat) : Keeps State.Sound (checkBeat r p b) := by
  intro s h
  unfold checkBeat
  split
  · exact h
  · next d _ =>
    dsimp only
    split
    · split
      · simp only [after_modify_bind]
        exact after_bind_of (keeps_account _ _ _ _ (h.writeBack _ _ _)) fun _ _ _ ht => ht
      · exact after_bind_of (keeps_account _ _ _ _ h) fun _ _ _ ht => ht
    · exact h
  · split
    · exact h
    · simp only [after_modify_bind, after_modCtx_bind]
      refine after_bind_of (keeps_report _ _ _ _ _ _ ?_) fun _ _ _ ht => ht
      exact (h.writeMarker _).setCtx _ (((h.writeMarker _).ctxs _).poison true)

theorem keeps_checkBeats (r : Reading) (p : Bool) (bs : List Nat) : Keeps State.Sound (checkBeats r p bs) := by
  induction bs generalizing p with
  | nil => exact Keeps.pure ()
  | cons b rest ih => exact Keeps.bind (keeps_checkBeat r p b) fun q => ih q

theorem keeps_checkReading (r : Reading) : Keeps State.Sound (checkReading r) :=
  Keeps.bind (keeps_judgeMarker r) fun p => keeps_checkBeats r p r.beats

theorem keeps_endPoison (n : Slot) : Keeps State.Sound (endPoison n) := by
  intro s h
  unfold endPoison
  simp only [after_modCtx_bind, after_modify]
  have h1 := h.setCtx n ((h.ctxs n).poison false)
  obtain ⟨a, b, c, d, e⟩ := h1.lists
  exact ⟨h1.mem, h1.ctxs, h1.attach, h1.heads, h1.idMap,
    ⟨a, b, c, (List.length_filter_le ..).trans d, e.filter _⟩, h1.counters.same, h1.config.same, h1.rings.same,
    h1.pendingFault⟩

end Sys2Proof.Machine
end

