-- ==== Sys2Proof/Laws/Candidates.lean ====
section
/-! SUPPORT. The level filter and the Candidate List: the filter stays between the two levels, and every change of a list
keeps what R111 says of it. -/

namespace Sys2Proof.Machine

set_option Elab.async false

/-! ### The level filter (R109) -/

theorem filterStep_le (k d : Nat) : filterStep k d ≤ d := by
  unfold filterStep
  split
  · omega
  · have := Nat.div_le_self d (2 ^ k)
    omega

theorem filterLevel_le {k old entering m : Nat} (ho : old ≤ m) (he : entering ≤ m) : filterLevel k old entering ≤ m := by
  unfold filterLevel
  split
  · have := filterStep_le k (entering - old); omega
  · omega

/-! ### The order -/

theorem Candidate.before_iff {x y : Candidate} :
    x.before y = true ↔ y.level < x.level ∨ x.level = y.level ∧ x.head < y.head := by
  simp [Candidate.before]

theorem Candidate.before_trans {x y z : Candidate} (h : x.before y = true) (h' : y.before z = true) :
    x.before z = true := by
  rw [Candidate.before_iff] at *
  rcases h with h | ⟨h, h1⟩ <;> rcases h' with h' | ⟨h', h2⟩
  · left; omega
  · left; omega
  · left; omega
  · right; exact ⟨h.trans h', lt_trans h1 h2⟩

theorem Candidate.before_of_not {x y : Candidate} (h : ¬ x.before y = true) (hne : x.head ≠ y.head) :
    y.before x = true := by
  rw [Candidate.before_iff] at *
  push Not at h
  rcases lt_trichotomy x.level y.level with hl | hl | hl
  · exact Or.inl hl
  · exact Or.inr ⟨hl.symm, lt_of_le_of_ne (h.2 hl) (Ne.symm hne)⟩
  · omega

/-! ### Placing -/

theorem placeCandidate_perm (x : Candidate) (cs : List Candidate) : (placeCandidate x cs).Perm (x :: cs) := by
  induction cs with
  | nil => exact List.Perm.refl _
  | cons y rest ih =>
    rw [placeCandidate]
    split
    · exact List.Perm.refl _
    · exact (List.Perm.cons y ih).trans (List.Perm.swap x y rest)

theorem placeCandidate_inOrder {x : Candidate} {cs : List Candidate} (h : inOrder cs)
    (hx : ∀ c ∈ cs, x.head ≠ c.head) : inOrder (placeCandidate x cs) := by
  induction cs with
  | nil => exact List.pairwise_singleton _ _
  | cons y rest ih =>
    have hy := List.pairwise_cons.mp h
    rw [placeCandidate]
    split
    · next hb =>
      refine List.pairwise_cons.mpr ⟨fun z hz => ?_, h⟩
      rcases List.mem_cons.mp hz with rfl | hz
      · exact hb
      · exact Candidate.before_trans hb (hy.1 z hz)
    · next hb =>
      refine List.pairwise_cons.mpr ⟨fun z hz => ?_, ih hy.2 fun c hc => hx c (List.mem_cons_of_mem _ hc)⟩
      rcases List.mem_cons.mp ((placeCandidate_perm x rest).mem_iff.mp hz) with rfl | hz
      · exact Candidate.before_of_not hb (hx y (List.mem_cons_self ..))
      · exact hy.1 z hz

theorem orderCandidates_perm (cs : List Candidate) : (orderCandidates cs).Perm cs := by
  induction cs with
  | nil => exact List.Perm.refl _
  | cons x rest ih => exact (placeCandidate_perm x _).trans (List.Perm.cons x ih)

theorem orderCandidates_inOrder {cs : List Candidate} (h : (cs.map Candidate.head).Nodup) :
    inOrder (orderCandidates cs) := by
  induction cs with
  | nil => exact List.Pairwise.nil
  | cons x rest ih =>
    have hx := List.nodup_cons.mp h
    refine placeCandidate_inOrder (ih hx.2) fun c hc heq => hx.1 ?_
    rw [heq]
    exact List.mem_map_of_mem ((orderCandidates_perm rest).mem_iff.mp hc)

/-! ### Changes of a list -/

variable {cs : List Candidate} {serving : Option Head}

/-- A sample's levels and flags as Quality reads it. -/
theorem Sample.read_le (p : Head × Nat) : (Sample.read p).level ≤ 126 := Nat.min_le_right _ _

theorem not_listed_iff {h : Head} : listed cs h = false ↔ ∀ c ∈ cs, h ≠ c.head := by
  simp only [listed, List.any_eq_false, beq_iff_eq]
  exact ⟨fun a c hc e => a c hc e.symm, fun a c hc e => a c hc e.symm⟩

/-- A new head takes its place (R113). -/
theorem CandidatesSound.place (h : CandidatesSound cs serving) {x : Sample} (hx : x.level ≤ 126)
    (hnew : listed cs x.head = false) (hs : serving ≠ some x.head) (hroom : cs.length < 4) :
    CandidatesSound (placeCandidate x.candidate cs) serving := by
  have hp := placeCandidate_perm x.candidate cs
  have hne : ∀ c ∈ cs, x.candidate.head ≠ c.head := not_listed_iff.mp hnew
  refine ⟨fun c hc => ?_, ?_, placeCandidate_inOrder h.order hne, ?_, fun c hc => ?_⟩
  · rcases List.mem_cons.mp (hp.mem_iff.mp hc) with rfl | hc
    · exact ⟨hx, Nat.zero_le _, Nat.zero_le _⟩
    · exact h.entries c hc
  · rw [hp.length_eq]; exact hroom
  · rw [(hp.map Candidate.head).nodup_iff]
    refine List.nodup_cons.mpr ⟨fun hm => ?_, h.once⟩
    obtain ⟨c, hc, he⟩ := List.mem_map.mp hm
    exact hne c hc he.symm
  · rcases List.mem_cons.mp (hp.mem_iff.mp hc) with rfl | hc
    · exact hs
    · exact h.others c hc

/-- Fewer entries in the same order. -/
theorem CandidatesSound.sublist (h : CandidatesSound cs serving) {ds : List Candidate} (hd : ds.Sublist cs) :
    CandidatesSound ds serving :=
  ⟨fun c hc => h.entries c (hd.subset hc), hd.length_le.trans h.few, List.Pairwise.sublist hd h.order,
    (hd.map Candidate.head).nodup h.once, fun c hc => h.others c (hd.subset hc)⟩

theorem CandidatesSound.offer (h : CandidatesSound cs serving) {x : Sample} (hx : x.level ≤ 126)
    (hs : serving ≠ some x.head) : CandidatesSound (offerSample cs x) serving := by
  unfold offerSample
  split
  · exact h
  · next hl =>
    have hl' : listed cs x.head = false := by simpa using hl
    split
    · next hr => exact h.place hx hl' hs hr
    · split
      · exact h
      · split
        · have hd : cs.dropLast.Sublist cs := List.dropLast_sublist cs
          refine (h.sublist hd).place hx ?_ hs ?_
          · exact not_listed_iff.mpr fun c hc => not_listed_iff.mp hl' c (hd.subset hc)
          · rw [List.length_dropLast]; have := h.few; omega
        · exact h

theorem CandidatesSound.offerAll (h : CandidatesSound cs serving) (xs : List Sample)
    (hx : ∀ x ∈ xs, x.level ≤ 126 ∧ serving ≠ some x.head) : CandidatesSound (xs.foldl offerSample cs) serving := by
  induction xs generalizing cs with
  | nil => exact h
  | cons x rest ih =>
    have := hx x (List.mem_cons_self ..)
    exact ih (h.offer this.1 this.2) fun y hy => hx y (List.mem_cons_of_mem _ hy)

theorem refreshCandidate_head {k : Nat} {xs : List Sample} {c d : Candidate} (h : refreshCandidate k xs c = some d) :
    d.head = c.head := by
  unfold refreshCandidate at h
  split at h
  · cases h; rfl
  · split at h
    · cases h
    · cases h; rfl

theorem refreshCandidate_sound {k : Nat} {xs : List Sample} {c d : Candidate} (hc : c.Sound)
    (hx : ∀ x ∈ xs, x.level ≤ 126) (h : refreshCandidate k xs c = some d) : d.Sound := by
  unfold refreshCandidate at h
  split at h
  · next x hf =>
    cases h
    exact ⟨filterLevel_le hc.level (hx x (List.mem_of_find?_eq_some hf)), Nat.zero_le _, hc.dwell⟩
  · split at h
    · cases h
    · cases h
      exact ⟨hc.level, by simp only; omega, hc.dwell⟩

theorem filterMap_refresh_heads (k : Nat) (xs : List Sample) (cs : List Candidate) :
    ((cs.filterMap (refreshCandidate k xs)).map Candidate.head).Sublist (cs.map Candidate.head) := by
  induction cs with
  | nil => exact List.Sublist.refl _
  | cons c rest ih =>
    rw [List.filterMap_cons]
    split
    · exact ih.cons _
    · next d hd =>
      rw [List.map_cons, List.map_cons, refreshCandidate_head hd]
      exact ih.cons_cons _

/-- R112, R113: a processed report keeps what R111 says of the list. -/
theorem CandidatesSound.update (h : CandidatesSound cs serving) (k : Nat) (xs : List Sample)
    (hx : ∀ x ∈ xs, x.level ≤ 126 ∧ serving ≠ some x.head) : CandidatesSound (updateCandidates k xs cs) serving := by
  have hsub := filterMap_refresh_heads k xs cs
  have hperm := orderCandidates_perm (cs.filterMap (refreshCandidate k xs))
  have hnodup : ((cs.filterMap (refreshCandidate k xs)).map Candidate.head).Nodup := hsub.nodup h.once
  have hlen := hsub.length_le
  rw [List.length_map, List.length_map] at hlen
  have back (c : Candidate) (hc : c ∈ orderCandidates (cs.filterMap (refreshCandidate k xs))) :
      ∃ a ∈ cs, refreshCandidate k xs a = some c := List.mem_filterMap.mp (hperm.mem_iff.mp hc)
  have kept : CandidatesSound (orderCandidates (cs.filterMap (refreshCandidate k xs))) serving := by
    refine ⟨fun c hc => ?_, ?_, orderCandidates_inOrder hnodup, ?_, fun c hc => ?_⟩
    · obtain ⟨a, ha, he⟩ := back c hc
      exact refreshCandidate_sound (h.entries a ha) (fun x hx' => (hx x hx').1) he
    · rw [hperm.length_eq]; have := h.few; omega
    · rw [(hperm.map Candidate.head).nodup_iff]; exact hnodup
    · obtain ⟨a, ha, he⟩ := back c hc
      rw [refreshCandidate_head he]; exact h.others a ha
  unfold updateCandidates
  exact kept.offerAll _ fun x hx' => hx x (List.mem_of_mem_filter hx')

/-- A change of dwell alone. -/
theorem CandidatesSound.dwell (h : CandidatesSound cs serving) {f : Candidate → Candidate}
    (hf : ∀ c, (f c).head = c.head ∧ (f c).level = c.level ∧ (f c).staleness = c.staleness ∧ (c.dwell ≤ 8 → (f c).dwell ≤ 8)) :
    CandidatesSound (cs.map f) serving := by
  refine ⟨fun c hc => ?_, by rw [List.length_map]; exact h.few, ?_, ?_, fun c hc => ?_⟩
  · obtain ⟨a, ha, rfl⟩ := List.mem_map.mp hc
    have hs := h.entries a ha
    have := hf a
    exact ⟨this.2.1 ▸ hs.level, this.2.2.1 ▸ hs.staleness, this.2.2.2 hs.dwell⟩
  · unfold inOrder
    rw [List.pairwise_map]
    refine h.order.imp fun {a b} hab => ?_
    rw [Candidate.before_iff] at *
    rw [(hf a).1, (hf a).2.1, (hf b).1, (hf b).2.1]; exact hab
  · rw [List.map_map, show Candidate.head ∘ f = Candidate.head from funext fun c => (hf c).1]
    exact h.once
  · obtain ⟨a, ha, rfl⟩ := List.mem_map.mp hc
    rw [(hf a).1]; exact h.others a ha

theorem CandidatesSound.clearDwell (h : CandidatesSound cs serving) : CandidatesSound (clearDwell cs) serving :=
  h.dwell fun _ => ⟨rfl, rfl, rfl, fun _ => Nat.zero_le _⟩

theorem CandidatesSound.countDwell (h : CandidatesSound cs serving) (x : Head) :
    CandidatesSound (countDwell x cs) serving :=
  h.dwell fun c => ⟨rfl, rfl, rfl, fun _ => by dsimp only; split <;> omega⟩

/-! ### The quality context -/

variable {q : Quality}

/-- R107: a processed report keeps the quality context sound. -/
theorem Quality.Sound.report (h : q.Sound serving) {head : Head} (hh : serving = some head) (k : Nat)
    (samples : List (Head × Nat)) : (q.report k head samples).Sound serving := by
  have hserv : (servingSample head (samples.map Sample.read)).level ≤ 126 := by
    unfold servingSample
    cases hf : (samples.map Sample.read).find? fun x => x.head == head with
    | none => simp
    | some x =>
      obtain ⟨p, _, rfl⟩ := List.mem_map.mp (List.mem_of_find?_eq_some hf)
      exact Sample.read_le p
  refine ⟨fun l hl => ?_, ?_⟩
  · unfold Quality.report Quality.withServing at hl
    simp only [Option.some.injEq] at hl
    subst hl
    split
    · exact hserv
    · next old ho => exact filterLevel_le (h.level old ho) hserv
  · refine h.list.update k _ fun x hx => ?_
    obtain ⟨hx, hne⟩ := List.mem_filter.mp hx
    obtain ⟨p, _, rfl⟩ := List.mem_map.mp hx
    refine ⟨Sample.read_le p, ?_⟩
    rw [hh]
    intro e
    simp only [Option.some.injEq] at e
    rw [e] at hne
    simp at hne

/-- R114: the change of serving head keeps the quality context sound for the new one. -/
theorem Quality.Sound.moveServing (h : q.Sound serving) (new : Head) :
    (q.moveServing serving new).Sound (some new) := by
  have rest : CandidatesSound (q.candidates.filter fun c => c.head != new) (some new) := by
    have hr := h.list.sublist (List.filter_sublist (l := q.candidates) (p := fun c => c.head != new))
    refine ⟨hr.entries, hr.few, hr.order, hr.once, fun c hc e => ?_⟩
    have := (List.mem_filter.mp hc).2
    simp only [Option.some.injEq] at e
    simp [e] at this
  refine ⟨fun l hl => ?_, ?_⟩
  · unfold Quality.moveServing at hl
    simp only [Option.map_eq_some_iff] at hl
    obtain ⟨c, hc, rfl⟩ := hl
    exact (h.list.entries c (List.mem_of_find?_eq_some hc)).level
  · unfold Quality.moveServing
    refine CandidatesSound.clearDwell ?_
    split
    · next hl =>
      split
      · exact rest
      · next hne =>
        refine rest.offer (h.level _ hl) ?_
        simp only [ne_eq, Option.some.injEq]
        exact fun e => hne e.symm
    · exact rest

/-- R120: the failure notice keeps the quality context sound. -/
theorem Quality.Sound.failed (h : q.Sound serving) (now : Time) (target : Head) : (q.failed now target).Sound serving :=
  ⟨h.level, h.list.dwell fun c => by split <;> simp⟩

end Sys2Proof.Machine
end

