-- ==== Sys2Proof/Laws/Contexts.lean ====
section
/-! SUPPORT. Handset contexts: every change of state and every change of a context by itself leaves a sound context. -/

namespace Sys2Proof.Machine

set_option Elab.async false

variable {s : State}

theorem HandsetCtx.sound_vacant : HandsetCtx.vacant.Sound where
  accessFail := by decide
  hoFail := by decide
  offered h := by cases h
  admission h := by cases h
  moving h := by cases h
  calling h := by cases h
  media h := by cases h
  silent _ := ⟨rfl, rfl⟩
  quality := Quality.sound_idle _

/-! ### The change of state (R56, R57) -/

theorem HandsetCtx.applyStaged_counts (c : HandsetCtx) :
    c.applyStaged.accessFail = c.accessFail ∧ c.applyStaged.hoFail = c.hoFail := by
  unfold HandsetCtx.applyStaged; split <;> exact ⟨rfl, rfl⟩

/-- The entry actions raise no count. -/
theorem HandsetCtx.entryActions_counts (c : HandsetCtx) (old new : HandsetState) :
    (c.entryActions old new).accessFail ≤ c.accessFail ∧ (c.entryActions old new).hoFail ≤ c.hoFail := by
  have hs := c.applyStaged_counts
  unfold HandsetCtx.entryActions
  cases new <;> cases old <;>
    simp [HandsetState.inCall, HandsetState.registered, HandsetCtx.vacant, hs]

/-- The entry actions of a call state change nothing. -/
theorem HandsetCtx.entryActions_inCall (c : HandsetCtx) (old : HandsetState) {new : HandsetState}
    (h : new.inCall = true) : c.entryActions old new = c := by
  unfold HandsetCtx.entryActions
  cases new <;> cases old <;> simp_all [HandsetState.inCall, HandsetState.registered]

/-- R57: the context that a change of state leaves is sound when the change of the other fields keeps the counts in
range, and the quality context fits the serving head in a call. -/
theorem State.Sound.entered (h : s.Sound) (n : Slot) (new : HandsetState) (f : HandsetCtx → HandsetCtx)
    (ha : (f (s.ctx n)).accessFail ≤ 2) (hf : (f (s.ctx n)).hoFail ≤ 3)
    (hq : new.inCall = true → (s.ctx n).state.inCall = true → (f (s.ctx n)).quality.Sound (f (s.ctx n)).serving) :
    (s.entered n new f).Sound := by
  refine h.setCtx n ?_
  have hcounts := (f (s.ctx n)).entryActions_counts (s.ctx n).state new
  have hcall := fun hi : new.inCall = true => (f (s.ctx n)).entryActions_inCall (s.ctx n).state hi
  generalize (f (s.ctx n)) = d at *
  generalize he : d.entryActions (s.ctx n).state new = c at *
  generalize (s.ctx n).state = old at *
  have hqual : new.inCall = true → (qualityNotice old new c.quality).Sound c.serving := by
    intro hi
    have hc := hcall hi
    unfold qualityNotice
    split
    · next hb => rw [hc]; exact hq hi (by simp_all)
    · exact Quality.sound_idle _
  have hidle : new.inCall = false → ∀ q, qualityNotice old new q = .idle := by
    intro hi q; simp [qualityNotice, hi]
  refine ⟨?_, ?_, ?_, ?_, ?_, ?_, ?_, fun hi => ?_, ?_⟩
  · have : (c.shaped new).accessFail = c.accessFail := by unfold HandsetCtx.shaped; cases new <;> rfl
    show (c.shaped new).accessFail ≤ 2
    omega
  · have : (c.shaped new).hoFail = c.hoFail := by unfold HandsetCtx.shaped; cases new <;> rfl
    show (c.shaped new).hoFail ≤ 3
    omega
  · show (c.shaped new).offerDeadline.isSome = true → new = .offered
    unfold HandsetCtx.shaped; cases new <;> simp
  · show (c.shaped new).admissionHead.isSome = true → new = .queued ∨ new = .offered
    unfold HandsetCtx.shaped; cases new <;> simp
  · show (c.shaped new).txn.isSome = true → new = .moving
    unfold HandsetCtx.shaped; cases new <;> simp
  · show (c.shaped new).channel.isSome = true → new.inCall = true
    unfold HandsetCtx.shaped; cases new <;> simp [HandsetState.inCall]
  · show (c.shaped new).media.isSome = true → new.inCall = true
    unfold HandsetCtx.shaped; cases new <;> simp [HandsetState.inCall]
  · show (qualityNotice old new _).candidates = [] ∧ (qualityNotice old new _).level = none
    rw [hidle hi]; exact ⟨rfl, rfl⟩
  · show (qualityNotice old new (c.shaped new).quality).Sound (c.shaped new).serving
    by_cases hi : new.inCall = true
    · have e : (c.shaped new).quality = c.quality ∧ (c.shaped new).serving = c.serving := by
        unfold HandsetCtx.shaped; cases new <;> simp_all [HandsetState.inCall]
      rw [e.1, e.2]; exact hqual hi
    · rw [hidle (by simpa using hi)]; exact Quality.sound_idle _

/-- A change of state that does not end in a call, or that leaves the serving head and the quality context alone. -/
theorem keeps_enterWith (n : Slot) (new : HandsetState) (f : HandsetCtx → HandsetCtx)
    (ha : ∀ c, c.Sound → (f c).accessFail ≤ 2) (hf : ∀ c, c.Sound → (f c).hoFail ≤ 3)
    (hq : new.inCall = true → ∀ c, c.Sound → c.state.inCall = true → (f c).quality.Sound (f c).serving) :
    Keeps State.Sound (enterWith n new f) := fun _ h =>
  h.entered n new f (ha _ (h.ctxs n)) (hf _ (h.ctxs n)) fun hi => hq hi _ (h.ctxs n)

theorem keeps_enter (n : Slot) (new : HandsetState) : Keeps State.Sound (enter n new) :=
  keeps_enterWith n new id (fun _ h => h.accessFail) (fun _ h => h.hoFail) fun _ _ h _ => h.quality

/-! ### Changes of a context by itself -/

variable {c : HandsetCtx}

/-- A context that agrees where the joint conditions look. -/
theorem HandsetCtx.Sound.same {d : HandsetCtx} (h : c.Sound) (h1 : d.accessFail = c.accessFail := by rfl)
    (h2 : d.hoFail = c.hoFail := by rfl) (h3 : d.offerDeadline = c.offerDeadline := by rfl)
    (h4 : d.admissionHead = c.admissionHead := by rfl) (h5 : d.txn = c.txn := by rfl)
    (h6 : d.channel = c.channel := by rfl) (h7 : d.media = c.media := by rfl) (h8 : d.state = c.state := by rfl)
    (h9 : d.quality = c.quality := by rfl) (h10 : d.serving = c.serving := by rfl) : d.Sound where
  accessFail := h1 ▸ h.accessFail
  hoFail := h2 ▸ h.hoFail
  offered x := h8 ▸ h.offered (h3 ▸ x)
  admission x := by rw [h8]; exact h.admission (h4 ▸ x)
  moving x := h8 ▸ h.moving (h5 ▸ x)
  calling x := h8 ▸ h.calling (h6 ▸ x)
  media x := h8 ▸ h.media (h7 ▸ x)
  silent x := by rw [h9]; exact h.silent (h8 ▸ x)
  quality := by rw [h9, h10]; exact h.quality

theorem HandsetCtx.Sound.presence (h : c.Sound) (p : Presence) : HandsetCtx.Sound { c with presence := p } := h.same

theorem HandsetCtx.Sound.ctxParity (h : c.Sound) (b : Bool) : HandsetCtx.Sound { c with ctxParityBad := b } := h.same

theorem HandsetCtx.Sound.withAccessFail (h : c.Sound) {k : Nat} (hk : k ≤ 2) :
    HandsetCtx.Sound { c with accessFail := k } :=
  ⟨hk, h.hoFail, h.offered, h.admission, h.moving, h.calling, h.media, h.silent, h.quality⟩

/-- A quality context that fits the serving head. -/
theorem HandsetCtx.Sound.withQuality (h : c.Sound) {q : Quality} (hq : q.Sound c.serving)
    (hs : c.state.inCall = false → q.candidates = [] ∧ q.level = none) : HandsetCtx.Sound { c with quality := q } :=
  ⟨h.accessFail, h.hoFail, h.offered, h.admission, h.moving, h.calling, h.media, hs, hq⟩

theorem HandsetCtx.Sound.holdoff (h : c.Sound) (d : Option Time) :
    HandsetCtx.Sound { c with quality := { c.quality with holdoff := d } } :=
  h.withQuality ⟨h.quality.level, h.quality.list⟩ h.silent

/-- The serving head of a handset with no call moves freely. -/
theorem HandsetCtx.Sound.withServing (h : c.Sound) (hc : c.state.inCall = false) (x : Option Head) :
    HandsetCtx.Sound { c with serving := x } := by
  refine ⟨h.accessFail, h.hoFail, h.offered, h.admission, h.moving, h.calling, h.media, h.silent, ?_⟩
  have := h.silent hc
  refine ⟨h.quality.level, ?_⟩
  rw [show ({ c with serving := x } : HandsetCtx).quality.candidates = [] from this.1]
  exact CandidatesSound.nil _

/-- The channel and the media head change in a call, or are dropped. -/
theorem HandsetCtx.Sound.withChannel (h : c.Sound) (x : Option Chan) (hx : x.isSome = true → c.state.inCall = true) :
    HandsetCtx.Sound { c with channel := x } :=
  ⟨h.accessFail, h.hoFail, h.offered, h.admission, h.moving, hx, h.media, h.silent, h.quality⟩

theorem HandsetCtx.Sound.withMedia (h : c.Sound) (x : Option Head) (hx : c.state.inCall = true) :
    HandsetCtx.Sound { c with media := x } :=
  ⟨h.accessFail, h.hoFail, h.offered, h.admission, h.moving, h.calling, fun _ => hx, h.silent, h.quality⟩

/-- R114: a call moves to a new serving head. -/
theorem HandsetCtx.Sound.moveCall (h : c.Sound) (hc : c.state.inCall = true) (x : Head) (ch : Chan) :
    (c.moveCall x ch).Sound := by
  refine ⟨h.accessFail, h.hoFail, h.offered, h.admission, h.moving, fun _ => hc, h.media, fun hi => ?_,
    h.quality.moveServing x⟩
  have : c.state.inCall = false := hi
  rw [hc] at this; cases this

theorem HandsetCtx.Sound.dropTimers (h : c.Sound) : c.dropTimers.Sound :=
  ⟨h.accessFail, h.hoFail, (by intro x; cases x), h.admission, (by intro x; cases x), (by intro x; cases x), h.media, h.silent,
    ⟨h.quality.level, h.quality.list⟩⟩

theorem HandsetCtx.Sound.sighted (h : c.Sound) (now : Time) : (c.sighted now).Sound := by
  unfold HandsetCtx.sighted
  dsimp only
  split <;> split <;> exact h.same

/-- The cached fields are the record's own. -/
theorem HandsetCtx.Sound.cacheAll (h : c.Sound) (x : ProvChange) : (c.cacheAll x).Sound := h.same

theorem HandsetCtx.Sound.takeFields (h : c.Sound) (x : ProvChange) : (c.takeFields x).Sound := by
  unfold HandsetCtx.takeFields
  dsimp only
  split
  · split <;> exact h.same
  · exact h.same

/-- A context that the scan or a rebuild makes. -/
theorem HandsetCtx.sound_scanned (d : List Byte) (st : HandsetState) (id : Identity)
    (p : Bool) : HandsetCtx.Sound { scannedCtx d with state := st, identity := id, poisoned := p } where
  accessFail := Nat.zero_le _
  hoFail := Nat.zero_le _
  offered h := by cases h
  admission h := by cases h
  moving h := by cases h
  calling h := by cases h
  media h := by cases h
  silent _ := ⟨rfl, rfl⟩
  quality := Quality.sound_idle _

end Sys2Proof.Machine
end

