-- ==== Sys2Proof/Laws/Pools.lean ====
section
/-! SUPPORT. Heads and channels: every change of a head context leaves it sound, and the work of Head Manager's pools keeps
the joint conditions. -/

namespace Sys2Proof.Machine

set_option Elab.async false

variable {s : State} {c : HeadCtx}

/-! ### The order of a wait queue (R142) -/

theorem WaitEntry.mayPrecede.trans {x y z : WaitEntry} (h : x.mayPrecede y) (h' : y.mayPrecede z) : x.mayPrecede z := by
  unfold WaitEntry.mayPrecede at *
  rcases h with h | ⟨h, hp⟩ <;> rcases h' with h' | ⟨h', hp'⟩
  · exact Or.inl (by omega)
  · exact Or.inl (by omega)
  · exact Or.inl (by omega)
  · exact Or.inr ⟨by omega, BitVec.le_def.mpr ((BitVec.le_def.mp hp').trans (BitVec.le_def.mp hp))⟩

theorem WaitEntry.mayPrecede_of_before {x y : WaitEntry} (h : x.before y = true) : x.mayPrecede y := by
  unfold WaitEntry.before at h
  unfold WaitEntry.mayPrecede
  split at h
  · exact Or.inl (by simpa using h)
  · next hr =>
    refine Or.inr ⟨not_not.mp hr, ?_⟩
    split at h
    · exact BitVec.le_def.mpr (BitVec.lt_def.mp (by simpa using h)).le
    · next hp => rw [not_not.mp hp]; exact BitVec.le_def.mpr le_rfl

theorem WaitEntry.mayPrecede_of_not_before {x y : WaitEntry} (h : ¬ x.before y = true) : y.mayPrecede x := by
  unfold WaitEntry.before at h
  unfold WaitEntry.mayPrecede
  split at h
  · next hr =>
    refine Or.inl ?_
    have : ¬ x.cause.rank < y.cause.rank := by simpa using h
    omega
  · next hr =>
    refine Or.inr ⟨(not_not.mp hr).symm, ?_⟩
    split at h
    · exact BitVec.le_def.mpr (not_lt.mp fun hl => h (by simpa using BitVec.lt_def.mpr hl))
    · next hp => rw [not_not.mp hp]; exact BitVec.le_def.mpr le_rfl

theorem mem_joinWait {x z : WaitEntry} {q : List WaitEntry} : z ∈ joinWait x q ↔ z = x ∨ z ∈ q := by
  induction q with
  | nil => simp [joinWait]
  | cons y rest ih =>
    unfold joinWait
    split
    · simp
    · simp only [List.mem_cons, ih]; tauto

theorem joinWait_order {x : WaitEntry} {q : List WaitEntry} (h : q.Pairwise WaitEntry.mayPrecede) :
    (joinWait x q).Pairwise WaitEntry.mayPrecede := by
  induction q with
  | nil => simp [joinWait]
  | cons y rest ih =>
    obtain ⟨h1, h2⟩ := List.pairwise_cons.mp h
    unfold joinWait
    split
    · next hb =>
      refine List.pairwise_cons.mpr ⟨fun z hz => ?_, h⟩
      rcases List.mem_cons.mp hz with rfl | hz
      · exact WaitEntry.mayPrecede_of_before hb
      · exact (WaitEntry.mayPrecede_of_before hb).trans (h1 z hz)
    · next hb =>
      refine List.pairwise_cons.mpr ⟨fun z hz => ?_, ih h2⟩
      rcases mem_joinWait.mp hz with rfl | hz
      · exact WaitEntry.mayPrecede_of_not_before hb
      · exact h1 z hz

/-! ### Head contexts -/

theorem HeadCtx.lowestFree_lt {n : Chan} (h : c.lowestFree = some n) : n.val < c.capacity := by
  have := List.find?_some h
  simp only [Bool.and_eq_true, decide_eq_true_eq] at this
  exact this.1

theorem HeadCtx.pool_of_allocated_zero (h : c.allocated = 0) (n : Chan) : c.pool[n] = none := by
  have hl : c.pool.toList.filter Option.isSome = [] := List.eq_nil_of_length_eq_zero h
  have hm : c.pool[n] ∈ c.pool.toList := by simp
  have := List.filter_eq_nil_iff.mp hl _ hm
  simpa using this

theorem HeadCtx.withOwner_pool (n m : Chan) (o : Option Owner) :
    (c.withOwner n o).pool[m] = if m = n then o else c.pool[m] := by
  show (c.pool.set n o)[m] = _
  by_cases h : m = n
  · subst h; simp
  · rw [if_neg h]
    have h' : n.val ≠ m.val := fun e => h (Fin.ext e.symm)
    simp [Vector.getElem_set_ne _ _ h']

/-- A channel number of the head is allocated or freed. -/
theorem HeadCtx.Sound.withOwner (h : c.Sound) (n : Chan) (o : Option Owner)
    (ho : o.isSome = true → n.val < c.capacity ∧ c.state.alive = true) : (c.withOwner n o).Sound := by
  refine ⟨h.limits, h.staged, h.failures, fun m hm => ?_, fun ha m => ?_, h.waiting, h.liveness, h.waitOrder⟩
  · rw [HeadCtx.withOwner_pool] at hm
    split at hm
    · next e => subst e; exact (ho hm).1
    · exact h.numbers m hm
  · rw [HeadCtx.withOwner_pool]
    split
    · cases o with
      | none => rfl
      | some x =>
        have h1 := (ho rfl).2
        have h2 : c.state.alive = false := ha
        rw [h1] at h2; cases h2
    · exact h.empty ha m

theorem HeadCtx.Sound.reown (h : c.Sound) (n : Chan) (o : Owner) : (c.reown n o).Sound := by
  unfold HeadCtx.reown
  split
  · next hs =>
    refine h.withOwner n (some o) fun _ => ⟨h.numbers n hs, ?_⟩
    by_contra ha
    rw [h.empty (by simpa using ha) n] at hs
    cases hs
  · exact h

theorem HeadCtx.Sound.withWaitQ (h : c.Sound) (q : List WaitEntry) (hq : c.state ≠ .inService → q = [])
    (ho : q.Pairwise WaitEntry.mayPrecede) : HeadCtx.Sound { c with waitQ := q } :=
  ⟨h.limits, h.staged, h.failures, h.numbers, h.empty, hq, h.liveness, ho⟩

theorem ChannelLimits.applyStaged (h : c.Sound) : ChannelLimits c.applyStaged.capacity c.applyStaged.guard := by
  unfold HeadCtx.applyStaged
  cases hs : c.staged with
  | none => exact h.limits
  | some p => exact h.staged p.1 p.2 hs

theorem HeadCtx.applyStaged_same : c.applyStaged.staged = none ∧ c.applyStaged.pool = c.pool ∧
    c.applyStaged.waitQ = c.waitQ ∧ c.applyStaged.failures = c.failures ∧ c.applyStaged.liveness = c.liveness := by
  unfold HeadCtx.applyStaged
  cases hs : c.staged with
  | none => exact ⟨hs, rfl, rfl, rfl, rfl⟩
  | some p => exact ⟨rfl, rfl, rfl, rfl, rfl⟩

/-- R135: a head with an empty pool and an empty wait queue enters ABSENT or OUT_OF_SERVICE with its staged values. -/
theorem HeadCtx.Sound.rest (h : c.Sound) {st : HeadState} {k : Nat} (hst : st = .absent ∨ st = .outOfService) (hk : k ≤ 3)
    (hp : ∀ n : Chan, c.pool[n] = none) (hw : c.waitQ = []) :
    HeadCtx.Sound { c.applyStaged with state := st, liveness := none, failures := k } := by
  obtain ⟨e1, e2, e3, e4, e5⟩ := c.applyStaged_same
  have hpool (n : Chan) : c.applyStaged.pool[n] = none := by rw [e2]; exact hp n
  refine ⟨ChannelLimits.applyStaged h, fun a b hab => ?_, hk, fun n hn => ?_, fun _ n => hpool n, fun _ => ?_, ?_, ?_⟩
  · have : c.applyStaged.staged = some (a, b) := hab
    rw [e1] at this; cases this
  · have : c.applyStaged.pool[n].isSome = true := hn
    rw [hpool] at this; cases this
  · show c.applyStaged.waitQ = []
    rw [e3]; exact hw
  · rcases hst with rfl | rfl <;> rfl
  · show c.applyStaged.waitQ.Pairwise _
    rw [e3]; exact h.waitOrder

/-- R127, R129: a head that fails. -/
theorem HeadCtx.Sound.fail (h : c.Sound) : c.fail.Sound := by
  unfold HeadCtx.fail
  dsimp only
  split
  · next hf =>
    exact ⟨h.limits, h.staged, by show c.failures + 1 ≤ 3; omega, by intro n hn; simp [emptyPool] at hn,
      fun _ n => emptyPool_get n, fun _ => rfl, rfl, .nil⟩
  · have hs : HeadCtx.Sound { c with state := .failed, liveness := none, pool := emptyPool, waitQ := [] } :=
      ⟨h.limits, h.staged, h.failures, by intro n hn; simp [emptyPool] at hn, fun _ n => emptyPool_get n, fun _ => rfl,
        rfl, .nil⟩
    have hr := hs.rest (st := .outOfService) (k := 0) (Or.inr rfl) (by omega) (fun n => emptyPool_get n) rfl
    unfold HeadCtx.applyStaged at hr ⊢
    dsimp only at hr ⊢
    cases hst : c.staged with
    | none => rw [hst] at hr; exact hr
    | some p => rw [hst] at hr; exact hr

/-- R126, R134: a head enters IN_SERVICE with a running liveness deadline. -/
theorem HeadCtx.Sound.serve (h : c.Sound) {d : Option Time}
    (hd : d.isSome = true) : HeadCtx.Sound { c with state := .inService, liveness := d } :=
  ⟨h.limits, h.staged, h.failures, h.numbers, (by intro x; cases x), fun x => absurd rfl x, hd, h.waitOrder⟩

/-- R131: a head that is up becomes no target. -/
theorem HeadCtx.Sound.ineligible (h : c.Sound) {st : HeadState} (hst : st = .degraded ∨ st = .draining)
    (ha : c.state.alive = true) : (c.ineligible st).Sound := by
  refine ⟨h.limits, h.staged, h.failures, h.numbers, fun x => ?_, fun _ => rfl, ?_, .nil⟩
  · have : st.alive = false := x
    rcases hst with rfl | rfl <;> cases this
  · show c.liveness.isSome = st.alive
    rw [h.liveness, ha]
    rcases hst with rfl | rfl <;> rfl

theorem HeadCtx.Sound.status (h : c.Sound) (now : Time) (w : Bool) :
    HeadCtx.Sound { c with lastStatus := now, warning := w } :=
  ⟨h.limits, h.staged, h.failures, h.numbers, h.empty, h.waiting, h.liveness, h.waitOrder⟩

theorem HeadCtx.Sound.refresh (h : c.Sound) (ha : c.state.alive = true) (d : Time) :
    HeadCtx.Sound { c with liveness := some d } :=
  ⟨h.limits, h.staged, h.failures, h.numbers, h.empty, h.waiting, ha.symm, h.waitOrder⟩

/-- R135: a provisioning change with values in their ranges. -/
theorem HeadCtx.Sound.provision (h : c.Sound) {a b : Nat} (hab : ChannelLimits a b) : (c.provision a b).Sound := by
  unfold HeadCtx.provision
  split
  · next hs =>
    have ha : c.state.alive = false := by rcases hs with hs | hs <;> rw [hs] <;> rfl
    refine ⟨hab, (by intro _ _ x; cases x), h.failures, fun n hn => ?_, h.empty, h.waiting, h.liveness, h.waitOrder⟩
    have : c.pool[n].isSome = true := hn
    rw [h.empty ha n] at this; cases this
  · split
    · exact h
    · refine ⟨h.limits, fun x y e => ?_, h.failures, h.numbers, h.empty, h.waiting, h.liveness, h.waitOrder⟩
      cases e; exact hab

/-! ### What the pools' work leaves alone -/

/-- The map, the active set and every head in service stay, and no context changes. -/
structure Steady (s t : State) : Prop where
  map : t.map = s.map
  active : t.active = s.active
  ctxs : t.ctxs = s.ctxs
  heads : ∀ h, (t.head h).state = (s.head h).state

theorem Steady.of {t : State} (h1 : t.map = s.map := by rfl) (h2 : t.active = s.active := by rfl)
    (h3 : t.ctxs = s.ctxs := by rfl) (h4 : t.heads = s.heads := by rfl) : Steady s t :=
  ⟨h1, h2, h3, fun x => by unfold State.head; rw [h4]⟩

theorem Steady.refl (s : State) : Steady s s := .of

theorem Steady.trans (s t u : State) (h : Steady s t) (h' : Steady t u) : Steady s u :=
  ⟨h'.map.trans h.map, h'.active.trans h.active, h'.ctxs.trans h.ctxs, fun x => (h'.heads x).trans (h.heads x)⟩

theorem Steady.ctx {t : State} (h : Steady s t) (n : Slot) : t.ctx n = s.ctx n := by unfold State.ctx; rw [h.ctxs]

theorem steady_emit (k : EventKind) (v : Severity) (a b d : Nat) (s : State) : Steady s (s.emit k v a b d) := by
  unfold State.emit
  exact ⟨by simp, by simp, by simp, fun x => by simp⟩

theorem steady_takeDirective (d : Directive) (s : State) : Steady s (s.takeDirective d) :=
  ⟨by simp, by simp, by simp, fun x => by simp⟩

theorem steady_cutOff {f : State → State} {s : State} (h : Steady s (f s)) : Steady s (s.cutOff f) := by
  have h' : Steady s (if Config.memoryHadTaken s.free then f s else s) := by split; exacts [h, Steady.refl s]
  unfold State.cutOff
  generalize (if Config.memoryHadTaken s.free then f s else s) = t at h' ⊢
  exact h'.trans _ _ _ .of

theorem steady_ringWrites (s : State) : Steady s s.directiveInSlot ∧ Steady s s.eventInSlot ∧
    Steady s s.directiveCounted ∧ Steady s s.eventCounted := by
  refine ⟨?_, ?_, ?_, ?_⟩
  · unfold State.directiveInSlot; split
    · exact Steady.refl s
    · split; exacts [Steady.refl s, .of]
  · unfold State.eventInSlot; split
    · exact Steady.refl s
    · split; exacts [Steady.refl s, .of]
  · unfold State.directiveCounted; split
    · exact Steady.refl s
    · dsimp only; split; exacts [.of, Steady.refl s]
  · unfold State.eventCounted; split
    · exact Steady.refl s
    · dsimp only; split; exacts [.of, Steady.refl s]

theorem steady_cutRings (s : State) : Steady s s.cutRings := by
  have first : Steady s (if s.dirOut = [] ∨ s.op = .halted then s
      else s.cutOff fun s => if s.dirSent then s.directiveCounted else s.directiveInSlot) := by
    split
    · exact Steady.refl s
    · exact steady_cutOff (by split; exacts [(steady_ringWrites s).2.2.1, (steady_ringWrites s).1])
  unfold State.cutRings
  dsimp only
  generalize (if s.dirOut = [] ∨ s.op = .halted then s
      else s.cutOff fun s => if s.dirSent then s.directiveCounted else s.directiveInSlot) = t at first ⊢
  split
  · exact first
  · exact first.trans _ _ _ (steady_cutOff (by split; exacts [(steady_ringWrites t).2.2.2, (steady_ringWrites t).2.1]))

theorem steady_refuseUnanswered (s : State) : Steady s s.refuseUnanswered := by
  have first : Steady s s.cutRecordWrite := by
    unfold State.cutRecordWrite
    split
    · exact Steady.refl s
    · next w _ =>
      have h : Steady s (s.cutOff fun s => { s with mem := s.recordWritten w }) := steady_cutOff .of
      exact h.trans _ _ _ .of
  unfold State.refuseUnanswered
  generalize s.cutRecordWrite = t at first ⊢
  exact first.trans _ _ _ .of

theorem steady_haltEvent (f : FaultyStructure) (e : Nat) (s : State) : Steady s (s.haltEvent f e) := by
  unfold State.haltEvent
  split <;> exact .of

theorem steady_writeStatus (s : State) : Steady s s.writeStatus := by
  unfold State.writeStatus
  generalize s.mem.writeAll statusBase s.statusBytes = m
  exact .of

theorem steady_enterHalted (f : FaultyStructure) (e : Nat) (s : State) : Steady s (s.enterHalted f e) := by
  have h1 := (steady_refuseUnanswered s).trans _ _ _ (steady_cutRings _)
  have h2 : Steady s { s.refuseUnanswered.cutRings with op := .halted } := h1.trans _ _ _ .of
  have h3 := h2.trans _ _ _ (steady_haltEvent f e _)
  exact h3.trans _ _ _ (steady_writeStatus _)

theorem steady_fatalFault (f : FaultyStructure) (e : Nat) : Moves Steady (fatalFault f e) := by
  intro s
  unfold fatalFault
  simp only [after_get_bind]
  split
  · exact steady_enterHalted f e s
  · simp only [after_modify_bind]
    refine Steady.trans _ _ _ ?_ (steady_emit _ _ _ _ _ _)
    exact .of

theorem steady_useEntry (e : EntryNo) : Moves Steady (useEntry e) := by
  intro s
  unfold useEntry
  simp only [after_get_bind]
  split
  · simp only [after_modify_bind]
    refine Steady.trans _ _ _ ?_ (steady_fatalFault _ _ _)
    exact .of
  · exact Steady.refl s

theorem steady_setHead {x : Head} {d : HeadCtx} (h : d.state = (s.head x).state) : Steady s (s.setHead x d) := by
  refine ⟨rfl, rfl, rfl, fun y => ?_⟩
  by_cases hy : y = x
  · subst hy; rw [head_setHead]; exact h
  · rw [head_setHead_ne _ _ hy]

theorem steady_usePool (x : Head) : Moves Steady (usePool x) := by
  intro s
  unfold usePool
  simp only [after_getHead_bind]
  split
  · simp only [after_modHead_bind]
    refine Steady.trans _ _ _ ?_ (steady_fatalFault _ _ _)
    exact steady_setHead rfl
  · exact Steady.refl s

theorem steady_slotEntry (n : Slot) : Moves Steady (slotEntry n) := by
  intro s
  unfold slotEntry
  simp only [after_getCtx_bind]
  split
  · exact Steady.refl s
  · exact after_bind_of (P := fun t => Steady s t) (steady_useEntry _ s) fun _ _ _ ht => ht

theorem steady_sendAbout (k : DirectiveKind) (d : Option Head) (n : Slot) (f : Directive → Directive) :
    Moves Steady (sendAbout k d n f) := by
  intro s
  unfold sendAbout
  simp only [after_getCtx_bind]
  exact steady_takeDirective _ s

/-- Everything a reservation's grant does: its transaction, and two directives. -/
theorem steady_enterCommanded (e : EntryNo) (x : Head) (n : Chan) : Moves Steady (enterCommanded e x n) := by
  intro s
  unfold enterCommanded
  refine after_bind_of (P := fun t => Steady s t) (steady_useEntry _ s) fun _ t _ ht => ?_
  simp only [after_get_bind, modTxn, after_modify_bind]
  have h1 : Steady s (t.setEntry e { t.entry e with
      txn := (t.txnOf e).map fun u => { u with phase := .commanded, targetChan := some n, deadline := t.timeBase + Config.commandedTime } }) :=
    Steady.trans _ _ _ ht .of
  split
  · exact h1
  · exact after_bind_of (P := fun t => Steady s t) (Steady.trans _ _ _ h1 (steady_sendAbout _ _ _ _ _)) fun _ _ _ hu =>
      Steady.trans _ _ _ hu (steady_sendAbout _ _ _ _ _)

/-! ### The pools' work keeps the joint conditions -/

theorem keeps_sendAbout (k : DirectiveKind) (d : Option Head) (n : Slot) (f : Directive → Directive) :
    Keeps State.Sound (sendAbout k d n f) := by
  intro s h
  unfold sendAbout
  simp only [after_getCtx_bind]
  exact keeps_send _ s h

theorem keeps_modTxn (e : EntryNo) (f : Handover → Handover) : Keeps State.Sound (modTxn e f) :=
  fun _ h => h.setEntry _ _

theorem keeps_freeEntry (e : EntryNo) : Keeps State.Sound (freeEntry e) := fun _ h => h.setEntry _ _

theorem keeps_readTable : Keeps State.Sound readTable := Keeps.forEach useEntry keeps_useEntry _

theorem keeps_seekFree (es : List EntryNo) : Keeps State.Sound (seekFree es) := by
  induction es with
  | nil => exact Keeps.pure _
  | cons e rest ih =>
    unfold seekFree
    refine Keeps.bind (keeps_useEntry e) fun _ s h => ?_
    rw [after_get_bind]
    exact Keeps.ite (Keeps.pure _) ih s h

theorem keeps_seekEntry : Keeps State.Sound seekEntry := keeps_seekFree _

theorem keeps_putTxn (e : EntryNo) (t : Handover) : Keeps State.Sound (putTxn e t) := fun _ h => h.setEntry _ _

theorem keeps_slotEntry (n : Slot) : Keeps State.Sound (slotEntry n) := by
  intro s h
  unfold slotEntry
  simp only [after_getCtx_bind]
  split
  · exact h
  · exact after_bind_of (keeps_useEntry _ _ h) fun _ _ _ ht => ht

theorem keeps_leaveWait (x : Head) (e : EntryNo) : Keeps State.Sound (leaveWait x e) :=
  Keeps.modHead fun _ h => h.withWaitQ _ (fun hn => by rw [h.waiting hn]; rfl) (h.waitOrder.filter _)

theorem keeps_enterCommanded (e : EntryNo) (x : Head) (n : Chan) : Keeps State.Sound (enterCommanded e x n) := by
  intro s h
  unfold enterCommanded
  refine after_bind_of (keeps_useEntry _ _ h) fun _ t _ ht => ?_
  simp only [after_get_bind, modTxn, after_modify_bind]
  have h1 := ht.setEntry e { t.entry e with
      txn := (t.txnOf e).map fun u => { u with phase := .commanded, targetChan := some n, deadline := t.timeBase + Config.commandedTime } }
  split
  · exact h1
  · exact after_bind_of (keeps_sendAbout _ _ _ _ _ h1) fun _ _ _ hu => keeps_sendAbout _ _ _ _ _ hu

theorem keeps_judgeDrain (x : Head) : Keeps State.Sound (judgeDrain x) := by
  intro s h
  unfold judgeDrain
  simp only [after_getHead_bind]
  split
  · next hd =>
    unfold endDrain
    simp only [after_modHead_bind, after_getHead_bind]
    refine keeps_note _ _ _ _ _ ?_
    have hx := h.heads x
    refine h.setHead x ?_
    have hw := hx.waiting (by rw [hd.1]; decide)
    have hr := hx.rest (st := .outOfService) (k := (s.head x).failures) (Or.inr rfl) hx.failures
      (HeadCtx.pool_of_allocated_zero hd.2) hw
    have e : (s.head x).applyStaged.failures = (s.head x).failures := HeadCtx.applyStaged_same.2.2.2.1
    rw [← e] at hr
    exact hr
  · exact h

/-- R141, R143: a release keeps the joint conditions, whatever it grants. -/
theorem keeps_releaseChannel (x : Head) (n : Chan) : Keeps State.Sound (releaseChannel x n) := by
  intro s h
  unfold releaseChannel
  refine after_bind_of (keeps_usePool _ _ h) fun _ t _ ht => ?_
  simp only [after_modHead_bind, after_getHead_bind, head_setHead]
  have h1 := ht.setHead x ((ht.heads x).withOwner n none (by intro e; cases e))
  split
  · next hin =>
    split
    · next w rest ch hq hl =>
      simp only [after_modHead_bind, head_setHead]
      refine keeps_enterCommanded _ _ _ _ (h1.setHead x ?_)
      have hx := h1.heads x
      rw [head_setHead] at hx
      exact (hx.withOwner ch (some (.reservation w.entry)) fun _ =>
        ⟨HeadCtx.lowestFree_lt hl, by rw [hin]; rfl⟩).withWaitQ rest (fun hn => absurd hin hn)
          (List.pairwise_cons.mp (hq ▸ hx.waitOrder)).2
    · exact h1
  · exact keeps_judgeDrain _ _ h1

theorem keeps_releaseAt (n : Slot) (x : Head) (ch : Chan) : Keeps State.Sound (releaseAt n x ch) := by
  intro s h
  unfold releaseAt
  simp only [after_getHead_bind]
  split
  · exact after_bind_of (keeps_send _ _ h) fun _ _ _ ht => keeps_releaseChannel _ _ _ ht
  · exact h

theorem keeps_releaseAll (n : Slot) (cs : List (Head × Chan)) : Keeps State.Sound (releaseAll n cs) :=
  Keeps.forEach (fun p => releaseAt n p.1 p.2) (fun p => keeps_releaseAt n p.1 p.2) cs

theorem keeps_newCallChannel (n : Slot) (x : Head) : Keeps State.Sound (newCallChannel n x) := by
  intro s h
  unfold newCallChannel
  refine after_bind_of (keeps_usePool _ _ h) fun _ t _ ht => ?_
  simp only [after_getHead_bind]
  split
  · next hc =>
    split
    · exact ht
    · next ch hl =>
      simp only [after_modHead_bind, after_pure]
      exact ht.setHead x ((ht.heads x).withOwner ch _ fun _ => ⟨HeadCtx.lowestFree_lt hl, by rw [hc.1]; rfl⟩)
  · exact ht

theorem keeps_reserve (e : EntryNo) (w : WaitEntry) (x : Head) : Keeps State.Sound (reserve e w x) := by
  intro s h
  unfold reserve
  refine after_bind_of (keeps_usePool _ _ h) fun _ t _ ht => ?_
  simp only [after_getHead_bind]
  split
  · next hc =>
    split
    · next ch hl =>
      simp only [after_modHead_bind, after_pure]
      have hl' : (t.head x).lowestFree = some ch := by
        split at hl
        · exact hl
        · cases hl
      exact ht.setHead x ((ht.heads x).withOwner ch _ fun _ => ⟨HeadCtx.lowestFree_lt hl', by rw [hc]; rfl⟩)
    · simp only [after_modHead_bind, after_pure]
      exact ht.setHead x ((ht.heads x).withWaitQ _ (fun hn => absurd hc hn) (joinWait_order (ht.heads x).waitOrder))
  · exact ht

theorem keeps_reestablishChannel (o : Owner) (x : Head) : Keeps State.Sound (reestablishChannel o x) := by
  intro s h
  unfold reestablishChannel
  refine after_bind_of (keeps_usePool _ _ h) fun _ t _ ht => ?_
  simp only [after_getHead_bind]
  split
  · next hc =>
    split
    · exact ht
    · next ch hl =>
      simp only [after_modHead_bind, after_pure]
      refine ht.setHead x ((ht.heads x).withOwner ch _ fun _ => ⟨HeadCtx.lowestFree_lt hl, ?_⟩)
      have := hc.1
      cases hst : (t.head x).state <;> simp_all [HeadState.admits, HeadState.alive]
  · exact ht

end Sys2Proof.Machine
end

