-- ==== Sys2Proof/Laws/Calls.lean ====
section
/-! SUPPORT. Calls, context faults and attach admission keep the joint conditions, and no head leaves service through a
context fault or an offer. -/

namespace Sys2Proof.Machine

set_option Elab.async false

variable {s : State}

/-! ### How a call ends -/

theorem keeps_withdrawWait (e : EntryNo) (t : Handover) : Keeps State.Sound (withdrawWait e t) := by
  unfold withdrawWait
  split
  · exact keeps_leaveWait _ _
  · exact Keeps.pure ()

theorem keeps_closeForEnd (n : Slot) (a : Bool) : Keeps State.Sound (closeForEnd n a) := by
  unfold closeForEnd
  refine Keeps.bind (keeps_slotEntry n) fun x => ?_
  split
  · exact Keeps.pure _
  · refine Keeps.bind (keeps_withdrawWait _ _) fun _ => Keeps.bind (keeps_freeEntry _) fun _ => ?_
    split
    · exact Keeps.bind (keeps_note _ _ _ _) fun _ => Keeps.pure _
    · exact Keeps.pure _

theorem keeps_endCall (n : Slot) (a : Bool) : Keeps State.Sound (endCall n a) := by
  intro s h
  unfold endCall
  simp only [after_getCtx_bind]
  exact after_bind_of (keeps_closeForEnd n a s h) fun _ _ _ ht => keeps_releaseAll _ _ _ ht

theorem keeps_dropCall (n : Slot) (d : DropCause) : Keeps State.Sound (dropCall n d) := by
  unfold dropCall
  exact Keeps.bind (keeps_endCall n false) fun _ s h => keeps_note _ _ _ _ s h

theorem keeps_releaseCall (n : Slot) (o : ReleaseOrigin) : Keeps State.Sound (releaseCall n o) := by
  unfold releaseCall
  exact Keeps.bind (keeps_endCall n true) fun _ => Keeps.bind (keeps_enter n _) fun _ s h => keeps_note _ _ _ _ s h

/-! ### Context faults (R184) -/

theorem keeps_leaveAttachQueues (n : Slot) : Keeps State.Sound (leaveAttachQueues n) := by
  intro s h
  refine ⟨h.mem, h.ctxs, fun x => ?_, h.heads, h.idMap, h.lists.same, h.counters.same, h.config.same, h.rings.same,
    h.pendingFault⟩
  have hx := h.attach x
  have e : State.att (after (leaveAttachQueues n) s) x = { s.att x with queue := (s.att x).queue.filter fun q => q.1 != n } := by
    simp [State.att, leaveAttachQueues]
  rw [e]
  exact ⟨hx.credits, (List.length_filter_le ..).trans hx.queue, hx.regain⟩

theorem keeps_endFaulty (n : Slot) : Keeps State.Sound (endFaulty n) := by
  have tail (b : Bool) (cs : List (Head × Chan × Bool)) (o : Option (EntryNo × Handover)) : Keeps State.Sound (do
      releaseAll n (releaseOrder cs)
      if b then
        let callHead := (cs.find? fun p => p.2.2).map fun p => p.1
        let head := match callHead with
          | some h => some h
          | none => o.map fun x => x.2.source
        note .callDropped n.val (headCode head) DropCause.contextFault.code
      leaveAttachQueues n
      modCtx n HandsetCtx.dropTimers
      return b) := by
    have last : Keeps State.Sound (do
        leaveAttachQueues n
        modCtx n HandsetCtx.dropTimers
        return b) :=
      Keeps.bind (keeps_leaveAttachQueues n) fun _ =>
        Keeps.bind (Keeps.modCtx fun _ hc => hc.dropTimers) fun _ => Keeps.pure _
    refine Keeps.bind (keeps_releaseAll n _) fun _ => ?_
    dsimp only
    split
    · exact Keeps.bind (keeps_note _ _ _ _) fun _ => last
    · exact last
  unfold endFaulty
  refine Keeps.bind keeps_readTable fun _ => Keeps.bind (Keeps.forEach usePool keeps_usePool _) fun _ s h => ?_
  simp only [after_get_bind]
  split
  · exact tail _ _ _ s h
  · exact Keeps.bind (keeps_withdrawWait _ _) (fun _ => Keeps.bind (keeps_freeEntry _) fun _ => tail _ _ _) s h

theorem keeps_waitForRebuild (n : Slot) (w : Option Waiter) : Keeps State.Sound (waitForRebuild n w) := by
  unfold waitForRebuild
  split
  · exact Keeps.pure ()
  · exact fun s h => ⟨h.mem, h.ctxs, h.attach, h.heads, h.idMap, h.lists.same, h.counters.same, h.config.same,
      h.rings.same, h.pendingFault⟩

theorem keeps_contextSound (n : Slot) (w : Option Waiter) : Keeps State.Sound (contextSound n w) := by
  intro s h
  unfold contextSound
  simp only [after_get_bind]
  split
  · exact after_bind_of (keeps_waitForRebuild n w s h) fun _ _ _ ht => ht
  · simp only [after_getCtx_bind]
    split
    · simp only [after_modCtx_bind]
      refine after_bind_of (keeps_endFaulty n _ (h.setCtx n ((h.ctxs n).ctxParity false))) fun b t _ ht => ?_
      simp only [after_modify_bind]
      refine after_bind_of (keeps_waitForRebuild n w _ ?_) fun _ _ _ hu => hu
      exact ⟨ht.mem, ht.ctxs, ht.attach, ht.heads, ht.idMap, ht.lists.same, ht.counters.same, ht.config.same,
        ht.rings.same, ht.pendingFault⟩
    · exact h

theorem keeps_withSound (n : Slot) {a : Act Unit} (ha : Keeps State.Sound a) : Keeps State.Sound (withSound n a) := by
  unfold withSound
  refine Keeps.bind (keeps_contextSound n none) fun b => ?_
  split
  · exact ha
  · exact Keeps.pure ()

/-- R184: a sound context is used as it stands. -/
theorem contextSound_of_sound {n : Slot} {w : Option Waiter} (hr : s.rebuilding n = false)
    (hp : (s.ctx n).ctxParityBad = false) : contextSound n w s = .ok true s := by
  show (if s.rebuilding n = true then _ else (do
    if (← getCtx n).ctxParityBad then _ else _) : Act Bool) s = _
  rw [if_neg (by simp [hr])]
  show (if (s.ctx n).ctxParityBad = true then _ else _ : Act Bool) s = _
  rw [if_neg (by simp [hp])]
  rfl

/-! ### No head leaves service -/

/-- Every head in service stays in service. -/
def Serving (s t : State) : Prop := ∀ x, (s.head x).state = .inService → (t.head x).state = .inService

theorem Serving.refl (s : State) : Serving s s := fun _ h => h

theorem Serving.trans (s t u : State) (h : Serving s t) (h' : Serving t u) : Serving s u := fun x hx => h' x (h x hx)

theorem Steady.serving {t : State} (h : Steady s t) : Serving s t := fun x hx => by rw [h.heads]; exact hx

theorem Serving.of {t : State} (h : t.heads = s.heads := by rfl) : Serving s t := fun x hx => by
  have e : t.head x = s.head x := by unfold State.head; rw [h]
  rw [e]; exact hx

/-- A head changed without leaving service. -/
theorem Serving.setHead {x : Head} {d : HeadCtx} (h : (s.head x).state = .inService → d.state = .inService) :
    Serving s (s.setHead x d) := fun y hy => by
  by_cases hyx : y = x
  · subst hyx; rw [head_setHead]; exact h hy
  · rw [head_setHead_ne _ _ hyx]; exact hy

theorem serving_note (k : EventKind) (a b d : Nat) : Moves Serving (note k a b d) :=
  fun s => (steady_emit _ _ _ _ _ s).serving

theorem serving_send (d : Directive) : Moves Serving (send d) := fun s => (steady_takeDirective d s).serving

theorem serving_releaseChannel (x : Head) (n : Chan) : Moves Serving (releaseChannel x n) := by
  intro s
  unfold releaseChannel
  refine after_bind_of (P := fun t => Serving s t) (steady_usePool x s).serving fun _ t _ ht => ?_
  simp only [after_modHead_bind, after_getHead_bind, head_setHead]
  have h1 : Serving s (t.setHead x ((t.head x).withOwner n none)) := ht.trans _ _ _ (.setHead fun h => h)
  split
  · split
    · simp only [after_modHead_bind, head_setHead]
      refine Serving.trans _ _ _ (h1.trans _ _ _ (.setHead ?_)) (steady_enterCommanded _ _ _ _).serving
      rw [head_setHead]; exact fun h => h
    · exact h1
  · next hn =>
    unfold judgeDrain
    simp only [after_getHead_bind, head_setHead]
    split
    · unfold endDrain
      simp only [after_modHead_bind, after_getHead_bind, head_setHead]
      refine Serving.trans _ _ _ (h1.trans _ _ _ (.setHead ?_)) (serving_note _ _ _ _ _)
      rw [head_setHead]; exact fun h => absurd h hn
    · exact h1

theorem serving_releaseAll (n : Slot) (cs : List (Head × Chan)) : Moves Serving (releaseAll n cs) := by
  have one (p : Head × Chan) : Moves Serving (releaseAt n p.1 p.2) := by
    intro s
    unfold releaseAt
    simp only [after_getHead_bind]
    split
    · exact after_bind_of (P := fun t => Serving s t) (serving_send _ s) fun _ _ _ ht =>
        ht.trans _ _ _ (serving_releaseChannel _ _ _)
    · exact Serving.refl s
  unfold releaseAll
  exact Moves.forEach Serving.refl Serving.trans _ one cs

theorem serving_withdrawWait (e : EntryNo) (t : Handover) : Moves Serving (withdrawWait e t) := by
  intro s
  unfold withdrawWait
  split
  · exact .setHead fun h => h
  · exact Serving.refl s

theorem serving_endFaulty (n : Slot) : Moves Serving (endFaulty n) := by
  have tail (b : Bool) (cs : List (Head × Chan × Bool)) (o : Option (EntryNo × Handover)) : Moves Serving (do
      releaseAll n (releaseOrder cs)
      if b then
        let callHead := (cs.find? fun p => p.2.2).map fun p => p.1
        let head := match callHead with
          | some h => some h
          | none => o.map fun x => x.2.source
        note .callDropped n.val (headCode head) DropCause.contextFault.code
      leaveAttachQueues n
      modCtx n HandsetCtx.dropTimers
      return b) := by
    have last : Moves Serving (do
        leaveAttachQueues n
        modCtx n HandsetCtx.dropTimers
        return b) := fun s => .of
    refine Moves.bind Serving.trans (serving_releaseAll n _) fun _ => ?_
    dsimp only
    split
    · exact Moves.bind Serving.trans (serving_note _ _ _ _) fun _ => last
    · exact last
  unfold endFaulty
  refine Moves.bind Serving.trans
    (Moves.forEach Serving.refl Serving.trans useEntry (fun e s => (steady_useEntry e s).serving) _) fun _ =>
    Moves.bind Serving.trans
      (Moves.forEach Serving.refl Serving.trans usePool (fun x s => (steady_usePool x s).serving) _) fun _ s => ?_
  simp only [after_get_bind]
  split
  · exact tail _ _ _ s
  · exact Moves.bind Serving.trans (serving_withdrawWait _ _) (fun _ =>
      Moves.bind Serving.trans (fun _ => .of) fun _ => tail _ _ _) s

theorem serving_contextSound (n : Slot) (w : Option Waiter) : Moves Serving (contextSound n w) := by
  have wait (u : State) : Serving u (after (waitForRebuild n w) u) := by
    unfold waitForRebuild
    split
    · exact Serving.refl u
    · exact .of
  intro s
  unfold contextSound
  simp only [after_get_bind]
  split
  · exact after_bind_of (P := fun t => Serving s t) (wait s) fun _ _ _ ht => ht
  · simp only [after_getCtx_bind]
    split
    · simp only [after_modCtx_bind]
      refine after_bind_of (P := fun t => Serving s t) ?_ fun b t _ ht => ?_
      · exact Serving.trans _ _ _ .of (serving_endFaulty n _)
      · simp only [after_modify_bind]
        refine after_bind_of (P := fun t => Serving s t) ?_ fun _ _ _ hu => hu
        exact Serving.trans _ _ _ (Serving.trans _ _ _ ht .of) (wait _)
    · exact Serving.refl s

end Sys2Proof.Machine
end

