-- ==== Sys2Proof/Laws/Offers.lean ====
section
/-! SUPPORT. Attach admission keeps the joint conditions, and no head leaves service through it. -/

namespace Sys2Proof.Machine

set_option Elab.async false

variable {s : State}

/-! ### Credits and queues -/

theorem AttachHead.Sound.consume {a : AttachHead} (h : a.Sound) (now : Time) : (a.consume now).Sound :=
  ⟨by show a.credits - 1 ≤ 4; have := h.credits; omega, h.queue,
    ⟨fun _ => by show a.credits - 1 < 4; have := h.credits; omega, fun _ => rfl⟩⟩

theorem AttachHead.Sound.regained {a : AttachHead} (h : a.Sound) (now : Time) : (a.regained now).Sound := by
  have hc := h.credits
  unfold AttachHead.regained
  dsimp only
  refine ⟨?_, h.queue, ?_⟩
  · show (if a.credits < Config.maxCredits then a.credits + 1 else a.credits) ≤ 4
    unfold Config.maxCredits; split <;> omega
  · show (if (if a.credits < Config.maxCredits then a.credits + 1 else a.credits) < Config.maxCredits then
        some (now + Config.regainTime) else none).isSome = true ↔
      (if a.credits < Config.maxCredits then a.credits + 1 else a.credits) < 4
    unfold Config.maxCredits
    split <;> simp_all

theorem AttachHead.Sound.full {a : AttachHead} (h : a.Sound) :
    AttachHead.Sound { a with credits := Config.maxCredits, regain := none } :=
  ⟨(by show Config.maxCredits ≤ 4; decide), h.queue, ⟨(by intro x; cases x), fun x => absurd (show (4 : Nat) < 4 from x) (Nat.lt_irrefl 4)⟩⟩

theorem AttachHead.Sound.withQueue {a : AttachHead} (h : a.Sound) {q : List (Slot × Time)} (hq : q.length ≤ 8) :
    AttachHead.Sound { a with queue := q } := ⟨h.credits, hq, h.regain⟩

/-! ### Offers -/

theorem keeps_attachReply (k : DirectiveKind) (x : Head) (id : Identity) (n : Option Slot) (f : Directive → Directive) :
    Keeps State.Sound (attachReply k x id n f) := keeps_send _

theorem keeps_acceptAttach (x : Head) (n : Slot) (id : Identity) : Keeps State.Sound (acceptAttach x n id) := by
  intro s h
  unfold acceptAttach
  simp only [after_get_bind]
  exact keeps_attachReply _ _ _ _ _ _ h

theorem keeps_offer (n : Slot) (x : Head) (id : Identity) : Keeps State.Sound (offer n x id) := by
  intro s h
  unfold offer
  simp only [after_get_bind, after_modAtt_bind]
  refine after_bind_of (keeps_enterWith n .offered
    (fun c => { c with admissionHead := some x, offerDeadline := some (s.timeBase + Config.offerTime) })
    (fun _ hc => hc.accessFail) (fun _ hc => hc.hoFail) (by intro hi; cases hi) _
    (h.setAtt x ((h.attach x).consume s.timeBase))) fun _ _ _ ht => keeps_acceptAttach _ _ _ _ ht

theorem keeps_offerOldest (x : Head) (fuel : Nat) : Keeps State.Sound (offerOldest x fuel) := by
  induction fuel with
  | zero => exact Keeps.pure ()
  | succ k ih =>
    intro s h
    unfold offerOldest
    simp only [after_getAtt_bind]
    split
    · exact h
    · next n j rest hq =>
      simp only [after_modAtt_bind]
      have hlen := (h.attach x).queue
      rw [hq] at hlen
      refine after_bind_of (keeps_contextSound n none _ (h.setAtt x ((h.attach x).withQueue
        (by simp only [List.length_cons] at hlen; omega)))) fun b t _ ht => ?_
      split
      · rw [after_getCtx_bind]; exact keeps_offer _ _ _ _ ht
      · exact ih _ ht

theorem keeps_serveQueue (x : Head) (fuel : Nat) : Keeps State.Sound (serveQueue x fuel) := by
  induction fuel with
  | zero => exact Keeps.pure ()
  | succ k ih =>
    intro s h
    unfold serveQueue
    simp only [after_getAtt_bind]
    split
    · exact after_bind_of (keeps_offerOldest x _ _ h) fun _ _ _ ht => ih _ ht
    · exact h

theorem keeps_refillCredits (x : Head) : Keeps State.Sound (refillCredits x) := by
  intro s h
  unfold refillCredits
  simp only [after_modAtt_bind]
  exact keeps_serveQueue x _ _ (h.setAtt x (h.attach x).full)

theorem keeps_admit (n : Slot) (x : Head) (id : Identity) : Keeps State.Sound (admitAt n x id) := by
  intro s h
  unfold admitAt
  simp only [after_getAtt_bind, after_getHead_bind]
  have back (f : Act Unit) (hf : Keeps State.Sound f) : Keeps State.Sound (do enter n .provisioned; f) :=
    Keeps.bind (keeps_enter n _) fun _ => hf
  split
  · exact back _ (keeps_attachReply _ _ _ _ _) s h
  · simp only [after_get_bind]
    split
    · exact back _ (keeps_attachReply _ _ _ _ _) s h
    · split
      · exact keeps_offer n x _ s h
      · split
        · next hl =>
          unfold joinQueue
          simp only [after_get_bind, after_modAtt_bind]
          have hl' : (s.att x).queue.length < 8 := hl
          have hj : ((s.att x).queue ++ [(n, s.timeBase)]).length ≤ 8 := by rw [List.length_append]; exact hl'
          exact keeps_enterWith n .queued (fun c => { c with admissionHead := some x }) (fun _ hc => hc.accessFail)
            (fun _ hc => hc.hoFail) (by intro hi; cases hi) _ (h.setAtt x ((h.attach x).withQueue hj))
        · exact back _ (keeps_attachReply _ _ _ _ _) s h

theorem keeps_emptyQueue (x : Head) (b : Bool) : Keeps State.Sound (emptyQueue x b) := by
  intro s h
  unfold emptyQueue
  simp only [after_getAtt_bind, after_modAtt_bind]
  refine Keeps.forEach (fun q : Slot × Time => withSound q.1 do
      enter q.1 .provisioned
      if b then sendAbout .reselect (some x) q.1 fun d => d)
    (fun q => keeps_withSound q.1 (Keeps.bind (keeps_enter q.1 _) fun _ => ?_)) _ _
    (h.setAtt x ((h.attach x).withQueue (Nat.zero_le _)))
  split
  · exact keeps_sendAbout _ _ _ _
  · exact Keeps.pure ()

theorem keeps_regainCredit (x : Head) : Keeps State.Sound (regainCredit x) := by
  intro s h
  unfold regainCredit
  simp only [after_get_bind, after_getAtt_bind]
  split
  · exact h
  · split
    · simp only [after_modAtt_bind, after_getHead_bind]
      have h1 := h.setAtt x ((h.attach x).regained s.timeBase)
      split
      · exact keeps_offerOldest x _ _ h1
      · exact h1
    · exact h

theorem keeps_ageOut (n : Slot) : Keeps State.Sound (ageOut n) := by
  intro s h
  unfold ageOut
  simp only [after_get_bind]
  split
  · exact h
  · split
    · refine keeps_withSound n (Keeps.bind (keeps_leaveAttachQueues n) fun _ => Keeps.bind (keeps_enter n _) fun _ => ?_) s h
      intro t ht
      simp only [after_getCtx_bind]
      exact keeps_attachReply _ _ _ _ _ _ ht
    · exact h

theorem keeps_offerTimeout (n : Slot) : Keeps State.Sound (offerTimeout n) := by
  intro s h
  unfold offerTimeout
  simp only [after_get_bind]
  split
  · exact h
  · split
    · exact keeps_withSound n (Keeps.bind (keeps_enter n _) fun _ => keeps_note _ _ _ _) s h
    · exact h

/-! ### No head leaves service through an offer -/

theorem serving_offer (n : Slot) (x : Head) (id : Identity) : Moves Serving (offer n x id) := by
  intro s
  unfold offer
  simp only [after_get_bind, after_modAtt_bind]
  refine after_bind_of (P := fun t => Serving s t) .of fun _ t _ ht => ?_
  unfold acceptAttach
  simp only [after_get_bind]
  exact ht.trans _ _ _ (steady_takeDirective _ t).serving

theorem serving_offerOldest (x : Head) (fuel : Nat) : Moves Serving (offerOldest x fuel) := by
  induction fuel with
  | zero => exact Serving.refl
  | succ k ih =>
    intro s
    unfold offerOldest
    simp only [after_getAtt_bind]
    split
    · exact Serving.refl s
    · simp only [after_modAtt_bind]
      refine after_bind_of (P := fun t => Serving s t) (Serving.trans _ _ _ .of (serving_contextSound _ _ _)) fun b t _ ht => ?_
      split
      · rw [after_getCtx_bind]; exact ht.trans _ _ _ (serving_offer _ _ _ t)
      · exact ht.trans _ _ _ (ih t)

theorem serving_refillCredits (x : Head) : Moves Serving (refillCredits x) := by
  have serve (fuel : Nat) : Moves Serving (serveQueue x fuel) := by
    induction fuel with
    | zero => exact Serving.refl
    | succ k ih =>
      intro s
      unfold serveQueue
      simp only [after_getAtt_bind]
      split
      · exact after_bind_of (P := fun t => Serving s t) (serving_offerOldest x _ s) fun _ t _ ht => ht.trans _ _ _ (ih t)
      · exact Serving.refl s
  intro s
  unfold refillCredits
  simp only [after_modAtt_bind]
  exact Serving.trans _ _ _ .of (serve _ _)

end Sys2Proof.Machine
end

