-- ==== Sys2Proof/Laws/Handover.lean ====
section
/-! SUPPORT. The Handover Engine's work keeps the joint conditions. -/

namespace Sys2Proof.Machine

set_option Elab.async false

variable {s : State}

/-! ### Closings -/

theorem keeps_closeUncounted (e : EntryNo) (r : FailReason) : Keeps State.Sound (closeUncounted e r) := by
  unfold closeUncounted
  refine Keeps.bind (keeps_useEntry e) fun _ s h => ?_
  simp only [after_get_bind]
  split
  · exact h
  · exact Keeps.bind (keeps_freeEntry _) (fun _ => Keeps.bind (keeps_enter _ _) fun _ => keeps_note _ _ _ _) s h

/-- A return to a state with a count in range. -/
theorem keeps_returnHandset (n : Slot) (st : HandsetState) {k : Nat} (hk : k ≤ 3) : Keeps State.Sound (returnHandset n st k) :=
  keeps_enterWith n st (fun c => { c with hoFail := k }) (fun _ h => h.accessFail) (fun _ _ => hk) fun _ _ h _ => h.quality

theorem keeps_countFailure (n : Slot) (o : Origin) (r : FailReason) : Keeps State.Sound (countFailure n o r) := by
  intro s h
  unfold countFailure
  simp only [after_getCtx_bind]
  split
  · exact keeps_enter _ _ _ h
  · split
    · exact keeps_returnHandset _ _ (by omega) _ h
    · exact Keeps.bind (keeps_returnHandset _ _ (by omega)) (fun _ => keeps_note _ _ _ _) s h

theorem keeps_noticeFailure (n : Slot) (x : Option Head) : Keeps State.Sound (noticeFailure n x) := by
  intro s h
  unfold noticeFailure
  simp only [after_get_bind]
  split
  · exact h
  · next y =>
    refine h.setCtx n ((h.ctxs n).withQuality ((h.ctxs n).quality.failed s.timeBase y) fun hi => ?_)
    obtain ⟨e1, e2⟩ := (h.ctxs n).silent hi
    unfold Quality.failed
    exact ⟨by rw [e1]; rfl, e2⟩

theorem keeps_failCounted (e : EntryNo) (t : Handover) (r : FailReason) : Keeps State.Sound (failCounted e t r) := by
  unfold failCounted
  exact Keeps.bind (keeps_withdrawWait _ _) fun _ => Keeps.bind (keeps_releaseAll _ _) fun _ =>
    Keeps.bind (keeps_freeEntry _) fun _ => Keeps.bind (keeps_note _ _ _ _) fun _ =>
      Keeps.bind (keeps_noticeFailure _ _) fun _ => keeps_countFailure _ _ _

/-! ### Openings -/

/-- A call enters MOVING with a transaction. -/
theorem keeps_enterMoving (n : Slot) (x : EntryNo × Origin) :
    Keeps State.Sound (enterWith n .moving fun c => { c with txn := some x }) :=
  keeps_enterWith n .moving (fun c => { c with txn := some x }) (fun _ h => h.accessFail) (fun _ h => h.hoFail)
    fun _ _ h _ => h.quality

theorem keeps_openHandover (n : Slot) (k : Cause) (x : Head) : Keeps State.Sound (openHandover n k x) := by
  unfold openHandover
  refine Keeps.bind keeps_seekEntry fun fe s h => ?_
  rw [after_get_bind]
  dsimp only
  generalize (s.ctx n).serving = sv
  rcases fe with _ | e
  · exact h
  rcases sv with _ | source
  · exact h
  refine Keeps.bind (keeps_putTxn _ _) (fun _ => Keeps.bind (keeps_enterMoving n _) fun _ =>
    Keeps.bind (keeps_note _ _ _ _) fun _ => Keeps.bind (keeps_reserve _ _ _) fun a => ?_) s h
  cases a with
  | granted ch => exact Keeps.bind (keeps_enterCommanded _ _ _) fun _ => Keeps.pure _
  | waits => exact Keeps.pure _
  | refused => exact Keeps.bind (keeps_closeUncounted _ _) fun _ => Keeps.pure _

/-! ### The switch and the media hold -/

theorem keeps_reown (x : Head) (ch : Chan) (o : Owner) : Keeps State.Sound (modHead x fun h => h.reown ch o) :=
  Keeps.modHead (f := fun h => h.reown ch o) fun _ hc => hc.reown ch o

theorem keeps_switchChannels (e : EntryNo) (n : Slot) (x y : Head) (a b : Chan) :
    Keeps State.Sound (switchChannels e n x y a b) := by
  unfold switchChannels
  exact Keeps.bind (keeps_usePool _) fun _ => Keeps.bind (keeps_reown _ _ _) fun _ =>
    Keeps.bind (keeps_usePool _) fun _ => keeps_reown _ _ _

theorem HeadCtx.reown_state (c : HeadCtx) (ch : Chan) (o : Owner) : (c.reown ch o).state = c.state := by
  unfold HeadCtx.reown; split <;> rfl

/-- The switch leaves every handset context and every head's state alone. -/
theorem steady_switchChannels (e : EntryNo) (n : Slot) (x y : Head) (a b : Chan) :
    Moves Steady (switchChannels e n x y a b) := by
  unfold switchChannels
  have own (x : Head) (ch : Chan) (o : Owner) : Moves Steady (modHead x fun h => h.reown ch o) :=
    fun s => steady_setHead (HeadCtx.reown_state _ _ _)
  exact Moves.bind Steady.trans (steady_usePool _) fun _ => Moves.bind Steady.trans (own _ _ _) fun _ =>
    Moves.bind Steady.trans (steady_usePool _) fun _ => own _ _ _

theorem keeps_switchCall (e : EntryNo) (t : Handover) : Keeps State.Sound (switchCall e t) := by
  intro s h
  have hch := (h.ctxs t.slot).calling
  unfold switchCall
  rw [after_get_bind]
  dsimp only
  generalize t.target = tg
  generalize t.targetChan = tc
  generalize hold : (s.ctx t.slot).channel = oc
  rw [hold] at hch
  rcases tg with _ | target
  · exact h
  rcases tc with _ | new
  · exact h
  rcases oc with _ | old
  · exact h
  refine after_bind_to (P := fun u => u.Sound ∧ (u.ctx t.slot).state.inCall = true) ⟨keeps_switchChannels _ _ _ _ _ _ s h, ?_⟩
    (fun _ hu => hu.1) fun _ u _ hu => ?_
  · rw [(steady_switchChannels e t.slot t.source target old new s).ctx]; exact hch rfl
  · simp only [modTxn, after_modify_bind, after_modCtx_bind]
    refine keeps_note _ _ _ _ _ ((hu.1.setEntry e _).setCtx _ ?_)
    exact ((hu.1.setEntry e _).ctxs t.slot).moveCall hu.2 target new

theorem keeps_endHold (e : EntryNo) (t : Handover) (d : MediaEnd) (m : Option Head) : Keeps State.Sound (endHold e t d m) := by
  unfold endHold
  refine Keeps.bind (keeps_freeEntry _) fun _ => Keeps.bind ?_ fun _ =>
    Keeps.bind (keeps_releaseAll _ _) fun _ => keeps_note _ _ _ _
  exact keeps_enterWith _ .active (fun c => { c with media := m, hoFail := 0 }) (fun _ h => h.accessFail)
    (fun _ _ => Nat.zero_le _) fun _ _ h _ => h.quality

/-- R158, R161: a media acknowledgement in a call. -/
theorem State.Sound.mediaAcknowledged (h : s.Sound) {n : Slot} (hc : (s.ctx n).state.inCall = true) (v : Head) :
    (after (mediaAcknowledgement n v) s).Sound := by
  unfold mediaAcknowledgement
  refine after_bind_to (P := fun u => u.Sound ∧ (u.ctx n).state.inCall = true) ⟨keeps_slotEntry n s h, ?_⟩
    (fun _ hu => hu.1) fun x u _ hu => ?_
  · rw [(steady_slotEntry n s).ctx]; exact hc
  · have plain : (after (modCtx n fun c => { c with media := some v }) u).Sound :=
      hu.1.setCtx n ((hu.1.ctxs n).withMedia _ hu.2)
    rcases x with _ | ⟨e, t⟩
    · exact plain
    · dsimp only
      split
      · exact keeps_endHold _ _ _ _ _ hu.1
      · exact plain

/-! ### Orphaned calls -/

theorem keeps_openOrphan (n : Slot) (e : EntryNo) (x : Head) : Keeps State.Sound (openOrphan n e x) := by
  intro s h
  unfold openOrphan
  rw [after_get_bind]
  dsimp only
  refine Keeps.bind (keeps_putTxn _ _) (fun _ => Keeps.bind ?_ fun _ => keeps_note _ _ _ _) s h
  exact keeps_enterWith n .moving
    (fun c => { c with txn := some (e, (s.ctx n).state.origin), channel := none }) (fun _ h => h.accessFail)
    (fun _ h => h.hoFail) fun _ _ h _ => h.quality

theorem keeps_orphanInPlace (n : Slot) (e : EntryNo) (t : Handover) (x : Head) :
    Keeps State.Sound (orphanInPlace n e t x) := by
  intro s h
  unfold orphanInPlace
  rw [after_get_bind]
  refine Keeps.bind (keeps_withdrawWait _ _) (fun _ => Keeps.bind (keeps_modTxn _ _) fun _ => Keeps.bind ?_ fun _ =>
    keeps_releaseAll _ _) s h
  exact Keeps.modCtx (f := fun c => { c with channel := none }) fun _ hc => hc.withChannel none (by intro x; cases x)

theorem keeps_orphanCall (x : Head) (n : Slot) : Keeps State.Sound (orphanCall x n) := by
  unfold orphanCall
  refine Keeps.bind (keeps_slotEntry n) fun o => ?_
  rcases o with _ | ⟨e, t⟩
  · refine Keeps.bind keeps_seekEntry fun fe => ?_
    rcases fe with _ | e
    · exact Keeps.bind (keeps_dropCall _ _) fun _ => keeps_enter _ _
    · exact keeps_openOrphan _ _ _
  · dsimp only
    exact Keeps.ite (keeps_orphanInPlace _ _ _ _) (Keeps.pure _)

/-! ### Access outside the plan -/

/-- A change of state with a new serving head, out of a call. -/
theorem keeps_enterServing (n : Slot) {st : HandsetState} (hst : st.inCall = false) (x : Head) :
    Keeps State.Sound (enterWith n st fun c => { c with serving := some x }) :=
  keeps_enterWith n st (fun c => { c with serving := some x }) (fun _ h => h.accessFail) (fun _ h => h.hoFail)
    (by intro hi; rw [hst] at hi; cases hi)

theorem keeps_dropReestablish (n : Slot) (x : Head) : Keeps State.Sound (dropReestablish n x) := by
  unfold dropReestablish
  exact Keeps.bind (keeps_dropCall _ _) fun _ => keeps_enterServing n rfl x

theorem keeps_assignChannel (n : Slot) (x : Head) (ch : Chan) : Keeps State.Sound (assignChannel n x ch) :=
  keeps_sendAbout _ _ _ _

theorem keeps_reestablishAlive (n : Slot) (e : EntryNo) (x : Head) (ch : Chan) :
    Keeps State.Sound (reestablishAlive n e x ch) := by
  unfold reestablishAlive
  refine Keeps.bind (keeps_assignChannel _ _ _) fun _ => Keeps.bind (keeps_modTxn _ _) fun _ s h => ?_
  rw [after_get_bind]
  generalize s.txnOf e = o
  rcases o with _ | t
  · exact h
  · exact keeps_switchCall _ _ _ h

theorem keeps_reestablishNew (n : Slot) (x : Head) : Keeps State.Sound (reestablishNew n x) := by
  unfold reestablishNew
  refine Keeps.bind keeps_seekEntry fun fe s h => ?_
  rw [after_get_bind]
  dsimp only
  generalize (s.ctx n).serving = sv
  rcases fe with _ | e
  · exact keeps_dropReestablish _ _ _ h
  rcases sv with _ | source
  · exact keeps_dropReestablish _ _ _ h
  refine Keeps.bind (keeps_reestablishChannel _ _) (fun o => ?_) s h
  rcases o with _ | ch
  · exact keeps_dropReestablish _ _
  · exact Keeps.bind (keeps_putTxn _ _) fun _ => Keeps.bind (keeps_enterMoving n _) fun _ =>
      Keeps.bind (keeps_note _ _ _ _) fun _ => keeps_reestablishAlive _ _ _ _

theorem keeps_withdrawTarget (n : Slot) (e : EntryNo) (t : Handover) : Keeps State.Sound (withdrawTarget n e t) := by
  unfold withdrawTarget
  exact Keeps.bind (keeps_withdrawWait _ _) fun _ => Keeps.bind (keeps_modTxn _ _) fun _ => keeps_releaseAll _ _

theorem keeps_reestablishReused (n : Slot) (e : EntryNo) (t : Handover) (x : Head) :
    Keeps State.Sound (reestablishReused n e t x) := by
  unfold reestablishReused
  refine Keeps.bind (keeps_withdrawTarget _ _ _) fun _ => Keeps.bind (keeps_reestablishChannel _ _) fun o => ?_
  rcases o with _ | ch
  · exact keeps_dropReestablish _ _
  · exact Keeps.bind (keeps_modTxn _ _) fun _ => keeps_reestablishAlive _ _ _ _

theorem keeps_reestablishOrphan (n : Slot) (e : EntryNo) (x : Head) : Keeps State.Sound (reestablishOrphan n e x) := by
  unfold reestablishOrphan
  refine Keeps.bind (keeps_reestablishChannel _ _) fun o => ?_
  rcases o with _ | ch
  · exact keeps_dropReestablish _ _
  · refine Keeps.bind (keeps_assignChannel _ _ _) fun _ => Keeps.bind ?_ fun _ =>
      Keeps.bind (keeps_freeEntry _) fun _ => keeps_note _ _ _ _
    exact keeps_enterWith n .active (fun c => { c.moveCall x ch with hoFail := 0 }) (fun _ h => h.accessFail)
      (fun _ _ => Nat.zero_le _) fun _ _ h hi => (h.moveCall hi x ch).quality

theorem keeps_staleAccess (n : Slot) (x : Head) : Keeps State.Sound (staleAccess n x) := by
  intro s h
  unfold staleAccess
  rw [after_getCtx_bind]
  exact Keeps.bind (keeps_sendAbout _ _ _ _) (fun _ => keeps_note _ _ _ _) s h

theorem keeps_takeAccess (n : Slot) (x : Head) : Keeps State.Sound (takeAccess n x) := by
  intro s h
  unfold takeAccess
  rw [after_getCtx_bind]
  refine Keeps.ite (keeps_staleAccess _ _) (Keeps.bind (keeps_slotEntry _) fun o => ?_) s h
  rcases o with _ | ⟨e, t⟩
  · exact Keeps.ite (Keeps.pure _) (keeps_reestablishNew _ _)
  · exact Keeps.ite (keeps_switchCall _ _) (Keeps.ite (keeps_reestablishOrphan _ _ _)
      (Keeps.ite (Keeps.pure _) (keeps_reestablishReused _ _ _ _)))

theorem keeps_takeRevert (n : Slot) (x : Head) : Keeps State.Sound (takeRevert n x) := by
  intro s h
  unfold takeRevert
  rw [after_getCtx_bind]
  refine Keeps.ite (Keeps.bind (keeps_slotEntry _) fun o => ?_) (Keeps.pure _) s h
  rcases o with _ | ⟨e, t⟩
  · exact Keeps.pure _
  · exact Keeps.ite (keeps_failCounted _ _ _) (Keeps.pure _)

theorem keeps_takeChannelRefused (n : Slot) (x : Head) (ch : Chan) : Keeps State.Sound (takeChannelRefused n x ch) := by
  intro s h
  unfold takeChannelRefused
  rw [after_getCtx_bind]
  refine Keeps.ite (Keeps.bind (keeps_slotEntry _) fun o => ?_) (Keeps.pure _) s h
  rcases o with _ | ⟨e, t⟩
  · exact Keeps.pure _
  · exact Keeps.ite (keeps_failCounted _ _ _) (Keeps.pure _)

/-! ### The deadlines of the phases -/

theorem keeps_phaseDeadline (e : EntryNo) (p : Phase) {f : Handover → Act Unit} (hf : ∀ t, Keeps State.Sound (f t)) :
    Keeps State.Sound (phaseDeadline e p f) := by
  intro s h
  unfold phaseDeadline
  rw [after_get_bind]
  generalize s.txnOf e = o
  rcases o with _ | t
  · exact h
  · exact Keeps.ite (Keeps.bind (keeps_useEntry _) fun _ => keeps_withSound _ (hf t)) (Keeps.pure _) s h

theorem keeps_reservingTimeout (e : EntryNo) : Keeps State.Sound (reservingTimeout e) :=
  keeps_phaseDeadline _ _ fun _ => keeps_failCounted _ _ _

theorem keeps_commandedTimeout (e : EntryNo) : Keeps State.Sound (commandedTimeout e) :=
  keeps_phaseDeadline _ _ fun _ => keeps_failCounted _ _ _

theorem keeps_mediaHoldTimeout (e : EntryNo) : Keeps State.Sound (mediaHoldTimeout e) :=
  keeps_phaseDeadline _ _ fun t => fun s h => by
    rw [after_getCtx_bind]
    exact keeps_endHold _ _ _ _ s h

theorem keeps_orphanedTimeout (e : EntryNo) : Keeps State.Sound (orphanedTimeout e) :=
  keeps_phaseDeadline _ _ fun _ => Keeps.bind (keeps_dropCall _ _) fun _ => keeps_enter _ _

end Sys2Proof.Machine
end

