-- ==== Sys2Proof/Laws/Heads.lean ====
section
/-! SUPPORT. Head Manager's work on heads keeps the joint conditions. -/

namespace Sys2Proof.Machine

set_option Elab.async false

variable {s : State}

/-! ### Sweeps -/

theorem keeps_withTxn (e : EntryNo) {f : Handover → Act Unit} (hf : ∀ t, Keeps State.Sound (f t)) :
    Keeps State.Sound (withTxn e f) := by
  intro s h
  unfold withTxn
  rw [after_get_bind]
  generalize s.txnOf e = o
  rcases o with _ | t
  · exact h
  · exact keeps_withSound _ (hf t) s h

theorem keeps_closeReserving (x : Head) : Keeps State.Sound (closeReserving x) := by
  intro s h
  unfold closeReserving
  rw [after_get_bind]
  exact Keeps.forEach (fun e => withTxn e fun _ => closeUncounted e .targetUnavailable)
    (fun e => keeps_withTxn e fun _ => keeps_closeUncounted e _) _ s h

/-! ### Changes of head state -/

theorem State.Sound.enterInService (h : s.Sound) (x : Head) {d : Option Time} (hd : d.isSome = true) :
    (after (enterInService x d) s).Sound := by
  unfold Machine.enterInService
  rw [after_getHead_bind, after_modHead_bind]
  exact Keeps.bind (keeps_note _ _ _ _) (fun _ => keeps_refillCredits x) _ (h.setHead x ((h.heads x).serve hd))

/-- A head that enters IN_SERVICE is in service when its queue has been served. -/
theorem enterInService_inService (x : Head) (d : Option Time) (s : State) :
    ((after (enterInService x d) s).head x).state = .inService := by
  unfold Machine.enterInService
  rw [after_getHead_bind, after_modHead_bind]
  refine Moves.bind Serving.trans (serving_note _ _ _ _) (fun _ => serving_refillCredits x) _ x ?_
  rw [head_setHead]

theorem State.Sound.enterDegraded (h : s.Sound) {x : Head} (ha : (s.head x).state.alive = true) :
    (after (enterDegraded x) s).Sound := by
  unfold Machine.enterDegraded
  refine after_bind_to (P := fun t => t.Sound ∧ (t.head x).state.alive = true)
    ⟨keeps_usePool x s h, by rw [(steady_usePool x s).heads]; exact ha⟩ (fun _ ht => ht.1) fun _ t _ ht => ?_
  rw [after_getHead_bind, after_modHead_bind]
  exact Keeps.bind (keeps_note _ _ _ _) (fun _ => keeps_closeReserving x) _
    (ht.1.setHead x ((ht.1.heads x).ineligible (Or.inl rfl) ht.2))

/-- A head up and serving may go on to DEGRADED. -/
theorem degradeIf {w : Bool} {x : Head} {t : State} (ht : t.Sound) (hx : (t.head x).state = .inService) :
    (after (if w then enterDegraded x else pure ()) t).Sound := by
  split
  · exact ht.enterDegraded (by rw [hx]; rfl)
  · exact ht

theorem keeps_comeUp (x : Head) (w : Bool) : Keeps State.Sound (comeUp x w) := by
  intro s h
  unfold comeUp
  rw [after_get_bind]
  exact after_bind_to (P := fun t => t.Sound ∧ (t.head x).state = .inService)
    ⟨h.enterInService x rfl, enterInService_inService _ _ _⟩ (fun _ ht => ht.1) fun _ _ _ ht => degradeIf ht.1 ht.2

theorem State.Sound.refreshLiveness (h : s.Sound) {x : Head} (ha : (s.head x).state.alive = true) :
    (after (refreshLiveness x) s).Sound ∧ ((after (refreshLiveness x) s).head x).state = (s.head x).state := by
  unfold Machine.refreshLiveness
  rw [after_get_bind, after_modHead]
  exact ⟨h.setHead x ((h.heads x).refresh ha _), by rw [head_setHead]⟩

theorem keeps_takeHeadStatus (x : Head) (w : Bool) : Keeps State.Sound (takeHeadStatus x w) := by
  intro s h
  unfold takeHeadStatus
  rw [after_get_bind, after_modHead_bind, after_getHead_bind]
  have h1 := h.setHead x ((h.heads x).status s.timeBase w)
  generalize s.setHead x { s.head x with lastStatus := s.timeBase, warning := w } = t at h1 ⊢
  cases hst : (t.head x).state with
  | absent => exact Keeps.ite (keeps_comeUp _ _) (Keeps.pure _) _ h1
  | failed => exact keeps_comeUp _ _ _ h1
  | outOfService => exact h1
  | draining => exact (h1.refreshLiveness (by rw [hst]; rfl)).1
  | inService =>
    have hr := h1.refreshLiveness (x := x) (by rw [hst]; rfl)
    rw [hst] at hr
    exact after_bind_to (P := fun t => t.Sound ∧ (t.head x).state = .inService) hr (fun _ ht => ht.1)
      fun _ _ _ ht => degradeIf ht.1 ht.2
  | degraded =>
    have hr := h1.refreshLiveness (x := x) (by rw [hst]; rfl)
    rw [hst] at hr
    refine after_bind_to (P := fun t => t.Sound ∧ (t.head x).state = .degraded) hr (fun _ ht => ht.1)
      fun _ u _ hu => ?_
    split
    · rw [after_getHead_bind]
      refine hu.1.enterInService x ?_
      rw [(hu.1.heads x).liveness, hu.2]; rfl
    · exact hu.1

/-! ### Head failure -/

theorem keeps_declareFailed (x : Head) : Keeps State.Sound (declareFailed x) := by
  unfold declareFailed
  refine Keeps.bind (keeps_usePool x) fun _ s h => ?_
  rw [after_getHead_bind, after_modHead_bind]
  exact Keeps.ite (keeps_note _ _ _ _) (keeps_note _ _ _ _) _ (h.setHead x (h.heads x).fail)

theorem keeps_closeForFailure (x : Head) : Keeps State.Sound (closeForFailure x) := by
  intro s h
  unfold closeForFailure
  rw [after_get_bind]
  dsimp only
  refine Keeps.bind (Keeps.forEach (fun e => withTxn e fun _ => closeUncounted e .targetFailed)
      (fun e => keeps_withTxn e fun _ => keeps_closeUncounted e _) _)
    (fun _ => Keeps.forEach (fun e => withTxn e fun t => do
      useEntry e
      endHold e t .sourceFailed (← getCtx t.slot).media) (fun e => keeps_withTxn e fun t => ?_) _) s h
  refine Keeps.bind (keeps_useEntry e) fun _ u hu => ?_
  rw [after_getCtx_bind]
  exact keeps_endHold _ _ _ _ u hu

theorem keeps_orphanCalls (x : Head) : Keeps State.Sound (orphanCalls x) := by
  intro s h
  unfold orphanCalls
  rw [after_get_bind]
  exact Keeps.forEach (fun n => withSound n (orphanCall x n)) (fun n => keeps_withSound n (keeps_orphanCall x n)) _ s h

theorem keeps_failHead (x : Head) : Keeps State.Sound (failHead x) := by
  unfold failHead
  exact Keeps.bind (keeps_declareFailed x) fun _ => Keeps.bind (keeps_emptyQueue x _) fun _ =>
    Keeps.bind (keeps_closeForFailure x) fun _ => keeps_orphanCalls x

theorem keeps_livenessTimeout (x : Head) : Keeps State.Sound (livenessTimeout x) := by
  intro s h
  unfold livenessTimeout
  rw [after_get_bind]
  generalize (s.head x).liveness = o
  rcases o with _ | d
  · exact h
  · exact Keeps.ite (keeps_failHead x) (Keeps.pure _) s h

/-! ### Drain and restore -/

theorem State.Sound.startDrain (h : s.Sound) {x : Head} (ha : (s.head x).state.alive = true) :
    (after (startDrain x) s).Sound := by
  unfold Machine.startDrain
  rw [after_modHead_bind]
  exact Keeps.bind (keeps_closeReserving x) (fun _ => Keeps.bind (keeps_emptyQueue x _) fun _ =>
    Keeps.bind (keeps_usePool x) fun _ => keeps_judgeDrain x) _ (h.setHead x ((h.heads x).ineligible (Or.inr rfl) ha))

/-- R134: a head out of service has an empty pool and an empty wait queue, and becomes ABSENT. -/
theorem State.Sound.restoreAbsent (h : s.Sound) {x : Head} (ho : (s.head x).state = .outOfService) :
    (after (restoreAbsent x) s).Sound := by
  have hx := h.heads x
  have hr := hx.rest (st := .absent) (k := 0) (Or.inl rfl) (Nat.zero_le _) (hx.empty (by rw [ho]; rfl))
    (hx.waiting (by rw [ho]; decide))
  have e : (s.head x).applyStaged.liveness = none := by
    rw [HeadCtx.applyStaged_same.2.2.2.2]
    have := hx.liveness
    rw [ho] at this
    exact Option.not_isSome_iff_eq_none.mp (by rw [this]; decide)
  refine h.setHead x ?_
  rw [← e] at hr
  exact hr

theorem State.Sound.restoreDraining (h : s.Sound) {x : Head} (hd : (s.head x).state = .draining) :
    (after (restoreDraining x) s).Sound := by
  unfold Machine.restoreDraining
  rw [after_getHead_bind]
  have hl : (s.head x).liveness.isSome = true := by rw [(h.heads x).liveness, hd]; rfl
  refine after_bind_to (P := fun t => t.Sound ∧ (t.head x).state = .inService)
    ⟨h.enterInService x hl, enterInService_inService _ _ _⟩ (fun _ ht => ht.1) fun _ t _ ht => ?_
  rw [after_getHead_bind]
  exact degradeIf ht.1 ht.2

end Sys2Proof.Machine
end

