-- ==== Sys2Proof/Laws/Provisioning.lean ====
section
/-! SUPPORT. Provisioning changes and trigger evaluation keep the joint conditions. -/

namespace Sys2Proof.Machine

set_option Elab.async false

variable {s : State}

/-! ### The Identity Map -/

theorem IdMapSound.remove {m : List MapEntry} (h : IdMapSound m) (n : Slot) : IdMapSound (mapRemove m n) := by
  unfold mapRemove
  exact ⟨h.order.filter _, fun e he => h.nonzero e (List.mem_filter.mp he).1⟩

theorem mapInsert_mem {m : List MapEntry} {x e : MapEntry} (h : e ∈ mapInsert x m) : e = x ∨ e ∈ m := by
  induction m with
  | nil => exact Or.inl (by simpa [mapInsert] using h)
  | cons y rest ih =>
    unfold mapInsert at h
    split at h
    · exact List.mem_cons.mp h
    · rcases List.mem_cons.mp h with h | h
      · exact Or.inr (h ▸ List.mem_cons_self)
      · rcases ih h with h | h
        · exact Or.inl h
        · exact Or.inr (List.mem_cons_of_mem _ h)

/-- An entry of a slot that the map does not hold goes into its place. -/
theorem mapInsert_order {m : List MapEntry} (h : m.Pairwise fun x y => x.slot < y.slot) {x : MapEntry}
    (hx : ∀ e ∈ m, e.slot ≠ x.slot) : (mapInsert x m).Pairwise fun x y => x.slot < y.slot := by
  induction m with
  | nil => exact List.pairwise_singleton _ _
  | cons y rest ih =>
    obtain ⟨hy, hr⟩ := List.pairwise_cons.mp h
    unfold mapInsert
    split
    · next hlt =>
      refine List.pairwise_cons.mpr ⟨fun e he => ?_, h⟩
      rcases List.mem_cons.mp he with rfl | he
      · exact hlt
      · exact lt_trans hlt (hy e he)
    · next hge =>
      refine List.pairwise_cons.mpr ⟨fun e he => ?_, ih hr fun e he => hx e (List.mem_cons_of_mem _ he)⟩
      rcases mapInsert_mem he with rfl | he
      · exact lt_of_le_of_ne (not_lt.mp hge) (hx y List.mem_cons_self)
      · exact hy e he

theorem IdMapSound.set {m : List MapEntry} (h : IdMapSound m) (n : Slot) {id : Identity} (hid : id ≠ 0) :
    IdMapSound (mapSet m n id) := by
  unfold mapSet
  refine ⟨mapInsert_order (h.remove n).order fun e he => ?_, fun e he => ?_⟩
  · have := (List.mem_filter.mp he).2
    simpa using this
  · rcases mapInsert_mem he with rfl | he
    · exact hid
    · exact (h.remove n).nonzero e he

/-! ### Provisioning changes -/

theorem keeps_setMapEntry (n : Slot) (id : Identity) : Keeps State.Sound (setMapEntry n id) := by
  intro s h
  unfold setMapEntry
  rw [after_modify]
  by_cases hid : id = 0
  · rw [if_pos hid]; exact h.withIdMap (h.idMap.remove n)
  · rw [if_neg hid]; exact h.withIdMap (h.idMap.set n hid)

theorem keeps_orderDetach (n : Slot) : Keeps State.Sound (orderDetach n) := by
  intro s h
  unfold orderDetach
  rw [after_get_bind]
  exact keeps_sendAbout _ _ _ _ _ h

theorem keeps_takeIdentity (n : Slot) (id : Identity) (c : ProvChange) : Keeps State.Sound (takeIdentity n id c) := by
  unfold takeIdentity
  refine Keeps.bind (keeps_setMapEntry _ _) fun _ => Keeps.bind (keeps_enter _ _) fun _ => ?_
  exact Keeps.modCtx (f := fun x => { x.cacheAll c with accessFail := 0 }) fun _ hx =>
    (hx.cacheAll c).withAccessFail (Nat.zero_le _)

theorem keeps_tearDown (n : Slot) (id : Identity) (c : ProvChange) : Keeps State.Sound (tearDown n id c) := by
  intro s h
  unfold tearDown
  rw [after_getCtx_bind]
  generalize s.ctx n = x
  exact Keeps.step (keeps_dropCall _ _) (fun _ => Keeps.step (keeps_leaveAttachQueues n) fun _ =>
    Keeps.step (keeps_orderDetach n) fun _ => keeps_takeIdentity _ _ _) s h

theorem keeps_takeCode (n : Slot) (c : ProvChange) : Keeps State.Sound (takeCode n c) := by
  unfold takeCode
  rcases c.code with _ | code
  · exact Keeps.pure _
  · refine Keeps.bind (Keeps.modCtx (f := fun x => { x with code := code }) fun _ hx => hx.same) fun _ s h => ?_
    rw [after_getCtx_bind]
    exact Keeps.ite (keeps_enterWith n .provisioned (fun x => { x with accessFail := 0 }) (fun _ _ => Nat.zero_le _)
      (fun _ h => h.hoFail) (by intro hi; cases hi)) (Keeps.pure _) s h

theorem keeps_takeQuarantined (n : Slot) (c : ProvChange) : Keeps State.Sound (takeQuarantined n c) := by
  unfold takeQuarantined
  refine Keeps.ite (fun s h => ?_) (Keeps.modCtx (f := fun x => x.cacheAll c) fun _ hx => hx.cacheAll c)
  rw [after_getCtx_bind]
  exact keeps_takeIdentity _ _ _ s h

theorem keeps_takeChange (n : Slot) (c : ProvChange) : Keeps State.Sound (takeChange n c) := by
  intro s h
  unfold takeChange
  rw [after_getCtx_bind]
  generalize s.ctx n = x
  dsimp only
  refine Keeps.ite (keeps_takeQuarantined _ _) (Keeps.ite (Keeps.ite (keeps_takeIdentity _ _ _) (keeps_tearDown _ _ _)) ?_) s h
  exact Keeps.bind (keeps_takeCode _ _) fun _ => Keeps.modCtx (f := fun x => x.takeFields c) fun _ hx => hx.takeFields c

/-! ### Reports and triggers -/

theorem keeps_requestOpening (n : Slot) (k : Cause) (x : Head) : Keeps State.Sound (requestOpening n k x) := by
  unfold requestOpening
  refine Keeps.bind (keeps_openHandover _ _ _) fun b => Keeps.ite (fun s h => ?_) (Keeps.pure _)
  obtain ⟨a, b, c, d, e, f, g⟩ := h.counters
  exact ⟨h.mem, h.ctxs, h.attach, h.heads, h.idMap, h.lists.same, ⟨a, b, c, satInc_le d, e, f, g⟩, h.config.same,
    h.rings.same, h.pendingFault⟩

/-- A change of the dwells alone. -/
theorem keeps_modCandidates (n : Slot) {f : List Candidate → List Candidate} (hf : ∀ cs x, CandidatesSound cs x → CandidatesSound (f cs) x)
    (hn : f [] = []) : Keeps State.Sound (modCandidates n f) := by
  unfold modCandidates
  refine Keeps.modCtx (f := fun c => { c with quality := { c.quality with candidates := f c.quality.candidates } })
    fun c hc => hc.withQuality ⟨hc.quality.level, hf _ _ hc.quality.list⟩ fun hi => ?_
  obtain ⟨e1, e2⟩ := hc.silent hi
  exact ⟨by show f c.quality.candidates = []; rw [e1, hn], e2⟩

theorem keeps_clearDwells (n : Slot) : Keeps State.Sound (modCandidates n clearDwell) :=
  keeps_modCandidates n (fun _ _ h => h.clearDwell) rfl

theorem keeps_judgeQuality (n : Slot) (e : ClassEntry) (o : Option Candidate) : Keeps State.Sound (judgeQuality n e o) := by
  intro s h
  unfold judgeQuality
  rw [after_getCtx_bind]
  dsimp only
  rcases o with _ | x
  · exact keeps_clearDwells n s h
  · exact Keeps.ite (keeps_clearDwells n) (Keeps.bind (keeps_modCandidates n (fun _ _ h => h.countDwell _) rfl) fun _ =>
      Keeps.ite (keeps_requestOpening _ _ _) (Keeps.pure _)) s h

theorem keeps_drainTrigger (c : HandsetCtx) (x : Head) : Keeps State.Sound (drainTrigger c x) := by
  intro s h
  unfold drainTrigger
  rw [after_getHead_bind]
  exact Keeps.ite (Keeps.bind keeps_readTable fun _ _ ht => by rw [after_get_bind]; exact ht) (Keeps.pure _) s h

theorem keeps_evaluate (n : Slot) (x : Head) : Keeps State.Sound (evaluate n x) := by
  intro s h
  unfold evaluate
  rw [after_get_bind]
  dsimp only
  generalize s.choice (s.ctx n).quality = o
  rcases o with _ | y
  · exact Keeps.ite (keeps_judgeQuality _ _ _) (Keeps.pure _) s h
  · exact Keeps.bind (keeps_drainTrigger _ _) (fun _ => Keeps.ite (keeps_requestOpening _ _ _)
      (Keeps.ite (keeps_requestOpening _ _ _) (Keeps.ite (keeps_judgeQuality _ _ _) (Keeps.pure _)))) s h

theorem keeps_takeReport (n : Slot) (x : Head) (xs : List (Head × Nat)) : Keeps State.Sound (takeReport n x xs) := by
  intro s h
  unfold takeReport
  rw [after_get_bind]
  dsimp only
  by_cases hc : (s.ctx n).state.inCall = true ∧ (s.ctx n).serving = some x
  · rw [if_pos hc, after_modCtx_bind]
    refine Keeps.ite (keeps_evaluate n x) (Keeps.pure _) _ (h.setCtx n ?_)
    exact (h.ctxs n).withQuality ((h.ctxs n).quality.report hc.2 _ _) fun hi => by rw [hc.1] at hi; cases hi
  · rw [if_neg hc]; exact h

theorem keeps_endHoldoff (n : Slot) : Keeps State.Sound (endHoldoff n) := by
  intro s h
  unfold endHoldoff
  rw [after_get_bind]
  generalize (s.ctx n).quality.holdoff = o
  rcases o with _ | d
  · exact h
  · exact Keeps.ite (keeps_withSound n (Keeps.modCtx
      (f := fun c => { c with quality := { c.quality with holdoff := none } }) fun _ hc => hc.holdoff none)) (Keeps.pure _) s h

end Sys2Proof.Machine
end

