-- ==== Sys2Proof/Laws/Messages.lean ====
section
/-! SUPPORT. The handset messages, their deadlines and the requests keep the joint conditions. -/

namespace Sys2Proof.Machine

set_option Elab.async false

variable {s : State}

/-! ### Windows at work -/

theorem keeps_sendIdleTerms (n : Slot) : Keeps State.Sound (sendIdleTerms n) := by
  intro s h
  unfold sendIdleTerms
  rw [after_get_bind]
  exact keeps_sendAbout _ _ _ _ _ h

theorem keeps_sendDozeTerms (n : Slot) : Keeps State.Sound (sendDozeTerms n) := by
  intro s h
  unfold sendDozeTerms
  rw [after_get_bind]
  exact keeps_sendAbout _ _ _ _ _ h

theorem keeps_noteDoze (k : EventKind) (n : Slot) : Keeps State.Sound (noteDoze k n) := by
  intro s h
  unfold noteDoze
  rw [after_get_bind]
  exact keeps_note _ _ _ _ _ h

theorem keeps_refuseDoze (n : Slot) : Keeps State.Sound (refuseDoze n) :=
  Keeps.bind (keeps_sendIdleTerms n) fun _ => keeps_noteDoze _ n

/-- A change of the presence context alone. -/
theorem keeps_modPresence (n : Slot) (f : HandsetCtx → Presence) :
    Keeps State.Sound (modCtx n fun c => { c with presence := f c }) :=
  Keeps.modCtx (f := fun c => { c with presence := f c }) fun _ hc => hc.presence _

theorem keeps_setPresence (n : Slot) (p : Presence) : Keeps State.Sound (setPresence n p) := keeps_modPresence n fun _ => p

theorem keeps_leaveDoze (n : Slot) (b : Bool) : Keeps State.Sound (leaveDoze n b) :=
  Keeps.bind (keeps_enter _ _) fun _ => Keeps.bind (keeps_modPresence n fun c => { c.presence with missed := b }) fun _ =>
    keeps_refuseDoze n

theorem keeps_restartWindow (n : Slot) (b : Bool) : Keeps State.Sound (restartWindow n b) := by
  intro s h
  unfold restartWindow
  rw [after_get_bind]
  exact Keeps.ite (Keeps.ite (keeps_setPresence _ _) (keeps_leaveDoze _ _)) (keeps_setPresence _ _) s h

theorem keeps_pageOnMiss (n : Slot) (d : Option Head) (c : HandsetCtx) : Keeps State.Sound (pageOnMiss n d c) :=
  keeps_sendAbout _ _ _ _

theorem keeps_expire (n : Slot) : Keeps State.Sound (expire n) := by
  intro s h
  unfold expire
  rw [after_get_bind]
  refine Keeps.ite ?_ (Keeps.ite ?_ ?_) s h
  · exact Keeps.bind (keeps_enter _ _) fun _ => Keeps.bind (keeps_pageOnMiss _ _ _) fun _ => keeps_note _ _ _ _
  · exact Keeps.bind (keeps_pageOnMiss _ _ _) fun _ => Keeps.bind (keeps_note _ _ _ _) fun _ => keeps_leaveDoze _ _
  · exact Keeps.bind (keeps_restartWindow _ _) fun _ => Keeps.bind (keeps_pageOnMiss _ _ _) fun _ => keeps_note _ _ _ _

/-- R92, R102: the judgement of a reporting head at a handset with no call; it leaves the state alone. -/
theorem State.Sound.judgeHead (h : s.Sound) {n : Slot} (hc : (s.ctx n).state.inCall = false) (x : Head) :
    (after (judgeHead n x) s).Sound := by
  unfold Machine.judgeHead
  rw [after_getHead_bind]
  split
  · exact Keeps.bind (keeps_sendAbout _ _ _ _) (fun _ => Keeps.pure _) s h
  · rw [after_modCtx_bind]
    exact h.setCtx n ((h.ctxs n).withServing hc _)

theorem keeps_judgeKeepalive (n : Slot) (x : Head) : Keeps State.Sound (judgeKeepalive n x) := by
  intro s h
  unfold judgeKeepalive
  rw [after_get_bind]
  exact Keeps.ite (Keeps.ite (keeps_expire n) (Keeps.bind (keeps_setPresence _ _) fun _ => keeps_note _ _ _ _))
    (keeps_restartWindow _ _) s h

theorem State.Sound.takeKeepalive (h : s.Sound) {n : Slot} (hc : (s.ctx n).state.inCall = false) (x : Head) :
    (after (takeKeepalive n x) s).Sound :=
  after_bind_of (h.judgeHead hc x) fun _ _ _ ht => keeps_judgeKeepalive n x _ ht

theorem State.Sound.takeDozeRequest (h : s.Sound) {n : Slot} (hc : (s.ctx n).state.inCall = false) (x : Head) :
    (after (takeDozeRequest n x) s).Sound := by
  unfold Machine.takeDozeRequest
  refine after_bind_of (h.judgeHead hc x) fun b t _ ht => ?_
  refine Keeps.ite (fun t ht => ?_) (Keeps.pure _) t ht
  rw [after_get_bind]
  refine Keeps.ite (Keeps.ite (Keeps.bind (keeps_restartWindow _ _) fun _ => keeps_sendDozeTerms _) ?_) ?_ t ht
  · exact Keeps.bind (keeps_enter _ _) fun _ => Keeps.bind (keeps_sendDozeTerms _) fun _ => keeps_noteDoze _ _
  · exact Keeps.ite (Keeps.bind (keeps_enter _ _) fun _ => keeps_refuseDoze _)
      (Keeps.bind (keeps_restartWindow _ _) fun _ => keeps_refuseDoze _)

theorem keeps_recover (n : Slot) (x : Head) (k : UplinkKind) : Keeps State.Sound (recover n x k) :=
  Keeps.bind (keeps_enterServing n rfl x) fun _ => keeps_note _ _ _ _

/-! ### Attach -/

theorem keeps_rejectAttach (x : Head) (id : Identity) (n : Option Slot) (r : RejectReason) :
    Keeps State.Sound (rejectAttach x id n r) := keeps_attachReply _ _ _ _ _

theorem keeps_bar (n : Slot) (x : Head) (id : Identity) : Keeps State.Sound (bar n x id) := by
  intro s h
  unfold bar
  rw [after_getCtx_bind]
  refine Keeps.step (keeps_dropCall _ _) (fun _ => Keeps.step (keeps_leaveAttachQueues n) fun _ => Keeps.bind ?_ fun _ =>
    Keeps.bind (keeps_rejectAttach _ _ _ _) fun _ => keeps_note _ _ _ _) s h
  exact keeps_enterWith n .barred (fun c => { c with accessFail := 0 }) (fun _ _ => Nat.zero_le _) (fun _ h => h.hoFail)
    (by intro hi; cases hi)

theorem keeps_takeMatching (n : Slot) (x : Head) (id : Identity) : Keeps State.Sound (takeMatching n x id) := by
  intro s h
  unfold takeMatching
  rw [after_getCtx_bind]
  cases (s.ctx n).state with
  | offered => exact keeps_acceptAttach _ _ _ s h
  | queued => exact Keeps.ite (Keeps.bind (keeps_leaveAttachQueues n) fun _ => keeps_admit _ _ _) (Keeps.pure _) s h
  | active | moving | pinned => exact Keeps.bind (keeps_dropCall _ _) (fun _ => keeps_admit _ _ _) s h
  | provisioned | idle | doze | lost => exact keeps_admit _ _ _ s h
  | vacant | barred | quarantined => exact h

theorem keeps_takeAttach (n : Slot) (x : Head) (id : Identity) (code : BitVec 16) :
    Keeps State.Sound (takeAttach n x id code) := by
  intro s h
  unfold takeAttach
  rw [after_getCtx_bind]
  have judged : (after (if (s.ctx n).code = code then do
        modCtx n fun c => { c with accessFail := 0 }
        takeMatching n x id
      else if (s.ctx n).accessFail < 2 then do
        modCtx n fun c => { c with accessFail := c.accessFail + 1 }
        rejectAttach x id (some n) .badCode
      else bar n x id) s).Sound := by
    split
    · rw [after_modCtx_bind]
      exact keeps_takeMatching _ _ _ _ (h.setCtx n ((h.ctxs n).withAccessFail (Nat.zero_le _)))
    · split
      · rw [after_modCtx_bind]
        exact keeps_rejectAttach _ _ _ _ _ (h.setCtx n ((h.ctxs n).withAccessFail (by omega)))
      · exact keeps_bar _ _ _ s h
  cases (s.ctx n).state with
  | barred | quarantined => exact keeps_rejectAttach _ _ _ _ s h
  | _ => exact judged

theorem keeps_takeConfirm (n : Slot) (x : Head) : Keeps State.Sound (takeConfirm n x) := by
  intro s h
  unfold takeConfirm
  rw [after_getCtx_bind]
  refine Keeps.ite (Keeps.bind (keeps_enterServing n rfl x) fun _ t ht => ?_) (Keeps.pure _) s h
  rw [after_getCtx_bind]
  exact keeps_note _ _ _ _ _ ht

/-! ### Calls and detach -/

theorem State.Sound.takeCallRequest (h : s.Sound) {n : Slot} (hc : (s.ctx n).state.inCall = false) (x : Head) :
    (after (takeCallRequest n x) s).Sound := by
  unfold Machine.takeCallRequest
  rw [after_modCtx_bind]
  refine Keeps.bind (keeps_newCallChannel n x) (fun o => ?_) _ (h.setCtx n ((h.ctxs n).withServing hc _))
  rcases o with _ | ch
  · exact Keeps.bind (keeps_sendAbout _ _ _ _) fun _ => keeps_note _ _ _ _
  · refine Keeps.bind ?_ fun _ => Keeps.bind (keeps_assignChannel _ _ _) fun _ => keeps_note _ _ _ _
    exact keeps_enterWith n .active (fun c => { c with channel := some ch, media := some x }) (fun _ h => h.accessFail)
      (fun _ h => h.hoFail) fun _ _ h _ => h.quality

theorem keeps_noteDetached (n : Slot) (st : HandsetState) (o : ReleaseOrigin) : Keeps State.Sound (noteDetached n st o) :=
  keeps_note _ _ _ _

theorem keeps_releaseForDetach (n : Slot) (o : ReleaseOrigin) : Keeps State.Sound (releaseForDetach n o) := by
  unfold releaseForDetach
  refine Keeps.bind (keeps_endCall _ _) fun _ s h => ?_
  rw [after_getCtx_bind]
  exact keeps_note _ _ _ _ _ h

theorem keeps_takeDetach (n : Slot) : Keeps State.Sound (takeDetach n) := by
  intro s h
  unfold takeDetach
  rw [after_getCtx_bind]
  dsimp only
  have leave (st : HandsetState) : Keeps State.Sound (do enter n .provisioned; noteDetached n st .handset) :=
    Keeps.bind (keeps_enter _ _) fun _ => keeps_noteDetached _ _ _
  generalize (s.ctx n).state = st
  cases st with
  | idle | doze | offered | lost => exact leave _ s h
  | queued => exact Keeps.bind (keeps_leaveAttachQueues n) (fun _ => leave _) s h
  | active | moving | pinned => exact Keeps.bind (keeps_releaseForDetach _ _) (fun _ => leave _) s h
  | vacant | provisioned | barred | quarantined => exact h

/-! ### Every message -/

theorem keeps_orderAway (n : Slot) (x : Head) : Keeps State.Sound (orderAway n x) := keeps_sendAbout _ _ _ _

theorem keeps_takeBody (n : Slot) (x : Head) (b : Bool) (body : HandsetMsg) : Keeps State.Sound (takeBody n x b body) := by
  intro s h
  unfold takeBody
  rw [after_getCtx_bind]
  dsimp only
  have quiet (f : Act Unit) (hf : (s.ctx n).state.inCall = false → (after f s).Sound) :
      (after (if (s.ctx n).state.unattached then orderAway n x
        else if (s.ctx n).state.inCall then pure () else f) s).Sound := by
    split
    · exact keeps_orderAway _ _ s h
    · split
      · exact h
      · next hi => exact hf (by simpa using hi)
  cases body with
  | attach code => exact h
  | attachConfirm => exact keeps_takeConfirm _ _ s h
  | detach => exact keeps_takeDetach _ s h
  | keepalive =>
    refine quiet _ fun hi => ?_
    split
    · rw [after_getHead_bind]
      exact Keeps.ite (keeps_sendAbout _ _ _ _) (Keeps.pure _) s h
    · exact h.takeKeepalive hi x
  | dozeRequest => exact quiet _ fun hi => h.takeDozeRequest hi x
  | callRequest => exact quiet _ fun hi => h.takeCallRequest hi x
  | callRelease => exact Keeps.ite (keeps_orderAway _ _) (Keeps.ite (keeps_releaseCall _ _) (Keeps.pure _)) s h
  | measurement xs => exact Keeps.ite (keeps_orderAway _ _) (keeps_takeReport _ _ _) s h
  | access => exact keeps_takeAccess _ _ s h
  | revert => exact keeps_takeRevert _ _ s h
  | channelRefused ch => exact keeps_takeChannelRefused _ _ _ s h

theorem keeps_handleMessage (n : Slot) (x : Head) (id : Identity) (body : HandsetMsg) (now : Time) :
    Keeps State.Sound (handleMessage n x id body now) := by
  intro s h
  unfold handleMessage
  rw [after_modCtx_bind]
  have h1 := h.setCtx n ((h.ctxs n).sighted now)
  generalize s.setCtx n ((s.ctx n).sighted now) = t at h1 ⊢
  have others : (after (do
      match (← getCtx n).state with
      | .vacant | .barred | .quarantined => pure ()
      | .lost =>
        recover n x body.kind
        takeBody n x true body
      | _ => takeBody n x false body) t).Sound := by
    rw [after_getCtx_bind]
    cases (t.ctx n).state with
    | vacant | barred | quarantined => exact h1
    | lost => exact Keeps.bind (keeps_recover _ _ _) (fun _ => keeps_takeBody _ _ _ _) t h1
    | _ => exact keeps_takeBody _ _ _ _ t h1
  cases body with
  | attach code => exact keeps_takeAttach _ _ _ _ t h1
  | _ => exact others

/-! ### Dispatch of the Uplink Intake Queue -/

theorem keeps_takeUnknown (x : Head) (id : Identity) (body : HandsetMsg) : Keeps State.Sound (takeUnknown x id body) := by
  intro s h
  unfold takeUnknown
  rw [after_modify_bind]
  obtain ⟨a, b, c, d, e, f, g⟩ := h.counters
  have h1 : State.Sound { s with unknownIds := satInc s.unknownIds } :=
    ⟨h.mem, h.ctxs, h.attach, h.heads, h.idMap, h.lists.same, ⟨a, b, satInc_le c, d, e, f, g⟩, h.config.same,
      h.rings.same, h.pendingFault⟩
  cases body with
  | attach code => exact keeps_rejectAttach _ _ _ _ _ h1
  | _ => exact h1

theorem keeps_takeUplink (m : UplinkMsg) : Keeps State.Sound (takeUplink m) := by
  cases m with
  | headStatus x w => exact Keeps.bind (keeps_takeHeadStatus _ _) fun _ => Keeps.pure _
  | handset x id body =>
    refine Keeps.bind (keeps_lookupIdentity id) fun o => ?_
    rcases o with _ | n
    · exact Keeps.bind (keeps_takeUnknown _ _ _) fun _ => Keeps.pure _
    · intro s h
      dsimp only
      rw [after_get_bind]
      exact Keeps.bind (keeps_contextSound _ _) (fun b => Keeps.ite
        (Keeps.bind (keeps_handleMessage _ _ _ _ _) fun _ => Keeps.pure _) (Keeps.pure _)) s h

theorem keeps_popUplink : Keeps State.Sound popUplink := by
  intro s h
  obtain ⟨a, b, c, d, e⟩ := h.lists
  refine ⟨h.mem, h.ctxs, h.attach, h.heads, h.idMap, ⟨?_, b, c, d, e⟩, h.counters.same, h.config.same, h.rings.same,
    h.pendingFault⟩
  show s.uplink.tail.length ≤ 32
  rw [List.length_tail]; omega

/-- R48: what a dispatch keeps, whatever the head of the queue. -/
theorem keeps_dispatchUplink (k : UplinkKind) : Keeps State.Sound (dispatchUplink k) := by
  unfold dispatchUplink
  refine Keeps.whenRunning fun s h => ?_
  rw [after_get_bind]
  generalize s.uplink = q
  rcases q with _ | ⟨m, rest⟩
  · exact h
  · exact Keeps.ite (Keeps.bind (keeps_takeUplink m) fun b => Keeps.ite keeps_popUplink (Keeps.pure _)) (Keeps.pure _) s h

/-! ### The deadlines of Presence and Registration -/

theorem keeps_presenceDeadline (n : Slot) (ms : List PresenceMode) {a : Act Unit} (ha : Keeps State.Sound a) :
    Keeps State.Sound (presenceDeadline n ms a) := by
  intro s h
  unfold presenceDeadline
  rw [after_get_bind]
  dsimp only
  generalize (s.ctx n).presence.deadline = o
  rcases o with _ | d
  · exact h
  · exact Keeps.ite (keeps_withSound n ha) (Keeps.pure _) s h

theorem keeps_callPresenceExpired (n : Slot) : Keeps State.Sound (callPresenceExpired n) := by
  unfold callPresenceExpired
  refine Keeps.bind (keeps_dropCall _ _) fun _ => Keeps.bind (keeps_enter _ _) fun _ s h => ?_
  rw [after_getCtx_bind]
  exact keeps_note _ _ _ _ _ h

theorem keeps_graceExpired (n : Slot) : Keeps State.Sound (graceExpired n) := by
  intro s h
  unfold graceExpired
  rw [after_getCtx_bind]
  exact Keeps.bind (keeps_enter _ _) (fun _ => keeps_note _ _ _ _) s h

/-! ### Requests -/

theorem keeps_refuseRequest (r : Request) (x : RefusalReason) : Keeps State.Sound (refuseRequest r x) := keeps_note _ _ _ _

theorem keeps_takePage (n : Slot) : Keeps State.Sound (takePage n) := by
  intro s h
  unfold takePage
  rw [after_getCtx_bind]
  generalize (s.ctx n).state = st
  cases st with
  | idle | doze | lost => exact keeps_sendAbout _ _ _ _ s h
  | _ => exact keeps_refuseRequest _ _ s h

theorem keeps_takeReleaseCall (n : Slot) : Keeps State.Sound (takeReleaseCall n) := by
  intro s h
  unfold takeReleaseCall
  rw [after_getCtx_bind]
  generalize (s.ctx n).state = st
  cases st with
  | active | moving | pinned => exact keeps_releaseCall _ _ s h
  | _ => exact keeps_refuseRequest _ _ s h

theorem keeps_takeForceHandover (n : Slot) (x : Head) : Keeps State.Sound (takeForceHandover n x) := by
  intro s h
  unfold takeForceHandover
  rw [after_get_bind]
  generalize s.forceRefusal n x = o
  rcases o with _ | r
  · exact Keeps.bind (keeps_openHandover _ _ _) (fun _ => Keeps.ite (keeps_refuseRequest _ _) (Keeps.pure _)) s h
  · exact keeps_refuseRequest _ _ s h

theorem keeps_takeUnpin (n : Slot) : Keeps State.Sound (takeUnpin n) := by
  intro s h
  unfold takeUnpin
  rw [after_getCtx_bind]
  generalize (s.ctx n).state = st
  cases st with
  | pinned => exact keeps_returnHandset _ _ (Nat.zero_le _) s h
  | _ => exact keeps_refuseRequest _ _ s h

theorem keeps_takeDetachHandset (n : Slot) : Keeps State.Sound (takeDetachHandset n) := by
  intro s h
  unfold takeDetachHandset
  rw [after_getCtx_bind]
  generalize (s.ctx n).state = st
  refine Keeps.ite (Keeps.step (keeps_releaseForDetach _ _) fun _ => Keeps.bind (keeps_orderDetach _) fun _ =>
    Keeps.bind (keeps_enter _ _) fun _ => keeps_noteDetached _ _ _) (keeps_refuseRequest _ _) s h

theorem keeps_takeDrainHead (x : Head) : Keeps State.Sound (takeDrainHead x) := by
  intro s h
  unfold takeDrainHead
  rw [after_getHead_bind]
  cases hst : (s.head x).state with
  | inService | degraded => exact h.startDrain (by rw [hst]; rfl)
  | absent | draining | failed | outOfService => exact keeps_refuseRequest _ _ s h

theorem keeps_takeRestoreHead (x : Head) : Keeps State.Sound (takeRestoreHead x) := by
  intro s h
  unfold takeRestoreHead
  rw [after_getHead_bind]
  cases hst : (s.head x).state with
  | outOfService => exact h.restoreAbsent hst
  | draining => exact h.restoreDraining hst
  | absent | inService | degraded | failed => exact keeps_refuseRequest _ _ s h

theorem keeps_takeClearFaultList : Keeps State.Sound takeClearFaultList := by
  intro s h
  obtain ⟨a, b, c, d, e⟩ := h.lists
  obtain ⟨a', b', c', d', e', f', g'⟩ := h.counters
  exact ⟨h.mem, h.ctxs, h.attach, h.heads, h.idMap, ⟨a, b, c, Nat.zero_le _, List.nodup_nil⟩,
    ⟨a', b', c', d', Nat.zero_le _, f', g'⟩, h.config.same, h.rings.same, h.pendingFault⟩

theorem keeps_takeAckFatal : Keeps State.Sound takeAckFatal := by
  intro s h
  unfold takeAckFatal
  rw [after_get_bind]
  split
  · exact ⟨h.mem, h.ctxs, h.attach, h.heads, h.idMap, h.lists.same, h.counters.same, h.config.same, h.rings.same,
      fun x => by cases x⟩
  · exact keeps_refuseRequest _ _ s h

theorem keeps_ownRequest (r : Request) : Keeps State.Sound (ownRequest r) := by
  cases r with
  | page n => exact keeps_takePage n
  | releaseCall n => exact keeps_takeReleaseCall n
  | forceHandover n x => exact keeps_takeForceHandover n x
  | unpin n => exact keeps_takeUnpin n
  | detachHandset n => exact keeps_takeDetachHandset n
  | drainHead x => exact keeps_takeDrainHead x
  | restoreHead x => exact keeps_takeRestoreHead x
  | clearFaultList => exact keeps_takeClearFaultList
  | ackFatal => exact keeps_takeAckFatal

theorem keeps_handleRequest (r : Request) : Keeps State.Sound (handleRequest r) := by
  unfold handleRequest
  generalize r.slot? = o
  rcases o with _ | n
  · exact keeps_ownRequest r
  · intro s h
    dsimp only
    rw [after_getCtx_bind]
    exact Keeps.ite (keeps_refuseRequest _ _) (keeps_ownRequest r) s h

theorem keeps_takeRequest (r : Request) : Keeps State.Sound (takeRequest r) := by
  unfold takeRequest
  generalize r.slot? = o
  rcases o with _ | n
  · exact Keeps.bind (keeps_handleRequest r) fun _ => Keeps.pure _
  · refine Keeps.bind (keeps_contextSound _ _) fun b => Keeps.ite ?_ (Keeps.pure _)
    exact Keeps.bind (keeps_handleRequest r) fun _ => Keeps.pure _

theorem keeps_popRequest : Keeps State.Sound popRequest := by
  intro s h
  obtain ⟨a, b, c, d, e⟩ := h.lists
  refine ⟨h.mem, h.ctxs, h.attach, h.heads, h.idMap, ⟨a, ?_, c, d, e⟩, h.counters.same, h.config.same, h.rings.same,
    h.pendingFault⟩
  show s.requests.tail.length ≤ 8
  rw [List.length_tail]; omega

theorem keeps_dispatchRequest (k : RequestKind) : Keeps State.Sound (dispatchRequest k) := by
  unfold dispatchRequest
  refine Keeps.whenRunning fun s h => ?_
  rw [after_get_bind]
  generalize s.requests = q
  rcases q with _ | ⟨r, rest⟩
  · exact h
  · exact Keeps.ite (Keeps.bind (keeps_takeRequest r) fun b => Keeps.ite keeps_popRequest (Keeps.pure _)) (Keeps.pure _) s h

end Sys2Proof.Machine
end

