-- ==== Sys2Proof/Laws/Records.lean ====
section
/-! SUPPORT. The ports, Record View and Intake keep the joint conditions. -/

namespace Sys2Proof.Machine

set_option Elab.async false

variable {s : State}

/-! ### The ports -/

/-- The joint conditions say nothing of the ports. -/
theorem State.Sound.setPort (h : s.Sound) (i : Initiator) (p : Port) : (s.setPort i p).Sound := by
  cases i <;> exact ⟨h.mem, h.ctxs, h.attach, h.heads, h.idMap, h.lists.same, h.counters.same, h.config.same,
    h.rings.same, h.pendingFault⟩

theorem keeps_answer (i : Initiator) (a : Answer) : Keeps State.Sound (answer i a) := fun _ h => h.setPort _ _

theorem keeps_refuse (i : Initiator) : Keeps State.Sound (refuse i) := keeps_answer _ _

theorem keeps_pass (t : Transaction) : Keeps State.Sound (pass t) := by
  intro s h
  unfold pass
  rw [after_modify]
  unfold State.passed
  split
  · exact h.setPort _ _
  · exact (h.withMem (Memory.wf_writeEnabled _ _ _ h.mem)).setPort _ _

theorem State.Sound.takeAtPort (h : s.Sound) (t : Transaction) : (s.takeAtPort t).Sound := h.setPort _ _

/-! ### Composed reads -/

theorem keeps_allSound (t : Transaction) (ns : List Slot) : Keeps State.Sound (allSound t ns) := by
  induction ns with
  | nil => exact Keeps.pure _
  | cons n rest ih => exact Keeps.bind (keeps_contextSound _ _) fun b => Keeps.ite ih (Keeps.pure _)

theorem keeps_takeHandsetRead (t : Transaction) : Keeps State.Sound (takeHandsetRead t) := by
  intro s h
  unfold takeHandsetRead
  rw [after_get_bind]
  generalize s.handsetBeats t = bs
  refine Keeps.bind (keeps_allSound _ _) (fun b => Keeps.ite (fun s h => ?_) (Keeps.pure _)) s h
  rw [after_get_bind]
  generalize s.cpReadings bs = rs
  refine Keeps.bind (Keeps.forEach checkReading keeps_checkReading _) (fun _ s h => ?_) s h
  rw [after_get_bind]
  exact keeps_answer _ _ s h

theorem keeps_takeHeadRead (t : Transaction) : Keeps State.Sound (takeHeadRead t) := by
  intro s h
  unfold takeHeadRead
  rw [after_get_bind]
  refine Keeps.bind (Keeps.forEach usePool keeps_usePool _) (fun _ s h => ?_) s h
  rw [after_get_bind]
  exact keeps_answer _ _ s h

/-! ### Provisioned writes -/

/-- A state that differs in the merge, the scrub read and a handset record's write alone. -/
theorem keeps_noteTaken (n : Slot) (w : List (Option Byte)) : Keeps State.Sound (noteTaken n w) := fun _ h =>
  ⟨h.mem, h.ctxs, h.attach, h.heads, h.idMap, h.lists.same, h.counters.same, h.config.same, h.rings.same, h.pendingFault⟩

theorem State.Sound.withMerge (h : s.Sound) (m : Option Merge) : State.Sound { s with merge := m } :=
  ⟨h.mem, h.ctxs, h.attach, h.heads, h.idMap, h.lists.same, h.counters.same, h.config.same, h.rings.same, h.pendingFault⟩

/-- An accepted record write, a head record's with values in their ranges. -/
theorem State.Sound.withRecordWrite (h : s.Sound) {o : Option RecordWrite}
    (ho : ∀ x b c g, o = some (.head x b c g) → ChannelLimits c g) : State.Sound { s with recordWrite := o } :=
  ⟨h.mem, h.ctxs, h.attach, h.heads, h.idMap, h.lists.same, h.counters.same,
    ⟨h.config.map, h.config.active, h.config.running, h.config.scanning, ho⟩, h.rings.same, h.pendingFault⟩

theorem keeps_identityHeld (n : Slot) (w : List (Option Byte)) (d : List Byte) :
    Keeps State.Sound (identityHeld n w d) := by
  unfold identityHeld
  refine Keeps.ite (Keeps.bind (keeps_lookupIdentity _) fun o => ?_) (Keeps.pure _)
  rcases o with _ | m <;> exact Keeps.pure _

theorem keeps_finishProvisioned (n : Slot) (w : List (Option Byte)) (d : List Byte) :
    Keeps State.Sound (finishProvisioned n w d) := by
  unfold finishProvisioned
  refine Keeps.bind (keeps_identityHeld _ _ _) fun b => Keeps.ite (fun s h => ?_) (fun s h => ?_)
  · rw [after_modify_bind]
    exact keeps_refuse _ _ (h.withMerge none)
  · rw [after_modify]
    exact (h.withMerge none).withRecordWrite fun _ _ _ _ e => by cases e

theorem keeps_takeProvisioned (n : Slot) (t : Transaction) (w : List (Option Byte)) :
    Keeps State.Sound (takeProvisioned n t w) := by
  intro s h
  unfold takeProvisioned
  rw [after_getCtx_bind]
  refine Keeps.ite (keeps_refuse _) (Keeps.ite (Keeps.bind (keeps_noteTaken _ _) fun _ s h => ?_)
    (Keeps.bind (keeps_finishProvisioned _ _ _) fun _ s h => ?_)) s h
  · exact h.withMerge _
  · rw [after_get_bind]
    exact Keeps.ite (keeps_noteTaken _ _) (Keeps.pure _) s h

theorem keeps_takeMediaHead (n : Slot) (t : Transaction) (v : Byte) : Keeps State.Sound (takeMediaHead n t v) := by
  unfold takeMediaHead
  refine Keeps.bind (keeps_contextSound _ _) fun b => Keeps.ite (fun s h => ?_) (Keeps.pure _)
  rw [after_getCtx_bind]
  split
  · have answered : Keeps State.Sound (answer t.initiator (.done [])) := keeps_answer _ _
    generalize (s.ctx n).serving = o
    rcases o with _ | x
    · exact answered s h
    · dsimp only
      split
      · next hc => exact after_bind_of (h.mediaAcknowledged hc x) fun _ _ _ ht => answered _ ht
      · exact answered s h
  · exact keeps_refuse _ s h

theorem keeps_sortHandsetWrite (n : Slot) (t : Transaction) : Keeps State.Sound (sortHandsetWrite n t) := by
  intro s h
  unfold sortHandsetWrite
  rw [after_get_bind]
  generalize bytesFor t (s.handsetAddr n) 64 = w
  refine Keeps.ite (keeps_refuse _) (fun s h => ?_) s h
  generalize (w[mediaOffset]?).join = o
  rcases o with _ | v
  · exact Keeps.ite (Keeps.bind (keeps_noteTaken _ _) fun _ => keeps_waitForRebuild _ _) (keeps_takeProvisioned _ _ _) s h
  · exact Keeps.ite (keeps_refuse _) (keeps_takeMediaHead _ _ _) s h

theorem keeps_takeHandsetWrite (t : Transaction) : Keeps State.Sound (takeHandsetWrite t) := by
  intro s h
  unfold takeHandsetWrite
  rw [after_get_bind]
  generalize recordNumbers (recordOffsets (s.handsetAddr 0) 64 ((enabled t).map Prod.fst)) = rs
  rcases rs with _ | ⟨r, _ | ⟨q, rest⟩⟩
  · exact keeps_answer _ _ s h
  · dsimp only
    generalize toSlot? r = o
    rcases o with _ | n
    · exact keeps_refuse _ s h
    · exact keeps_sortHandsetWrite _ _ s h
  · exact keeps_refuse _ s h

theorem keeps_takeHandsetRecord (t : Transaction) : Keeps State.Sound (takeHandsetRecord t) :=
  Keeps.ite (keeps_takeHandsetRead t) (keeps_takeHandsetWrite t)

theorem keeps_refuseMerge : Keeps State.Sound refuseMerge := by
  intro s h
  unfold refuseMerge
  rw [after_modify_bind]
  exact keeps_refuse _ _ (h.withMerge none)

theorem keeps_finishMerge (n : Slot) (t : Transaction) : Keeps State.Sound (finishMerge n t) := by
  intro s h
  unfold finishMerge
  rw [after_get_bind]
  dsimp only
  generalize bytesFor t (s.handsetAddr n) 64 = w
  generalize mergeReading n (s.recordImage n) w = r
  refine Keeps.bind (keeps_checkReading r) (fun _ => Keeps.ite keeps_refuseMerge fun s h => ?_) s h
  rw [after_getCtx_bind]
  exact Keeps.ite keeps_refuseMerge (keeps_finishProvisioned _ _ _) s h

/-! ### Writes to the head record -/

theorem keeps_finishHeadWrite (x : Head) (bs : List (Option Byte)) (a b : Nat) :
    Keeps State.Sound (finishHeadWrite x bs a b) := by
  unfold finishHeadWrite
  split
  · exact keeps_refuseMerge
  · next hr =>
    intro s h
    rw [after_modify]
    refine (h.withMerge none).withRecordWrite fun _ _ _ _ e => ?_
    cases e
    exact ⟨by omega, by omega, by omega⟩

theorem keeps_sortHeadWrite (x : Head) (t : Transaction) : Keeps State.Sound (sortHeadWrite x t) := by
  intro s h
  unfold sortHeadWrite
  rw [after_get_bind]
  generalize bytesFor t (s.headAddr x) 32 = w
  refine Keeps.ite (keeps_refuse _) (Keeps.ite (keeps_finishHeadWrite _ _ _ _) fun s h => ?_) s h
  exact h.withMerge _

theorem keeps_takeHeadWrite (t : Transaction) : Keeps State.Sound (takeHeadWrite t) := by
  intro s h
  unfold takeHeadWrite
  rw [after_get_bind]
  generalize recordNumbers (recordOffsets (s.headAddr 0) 32 ((enabled t).map Prod.fst)) = rs
  rcases rs with _ | ⟨r, _ | ⟨q, rest⟩⟩
  · exact keeps_answer _ _ s h
  · dsimp only
    generalize toHead? r = o
    rcases o with _ | n
    · exact keeps_refuse _ s h
    · exact keeps_sortHeadWrite _ _ s h
  · exact keeps_refuse _ s h

theorem keeps_takeHeadRecord (t : Transaction) : Keeps State.Sound (takeHeadRecord t) :=
  Keeps.ite (keeps_takeHeadRead t) (keeps_takeHeadWrite t)

theorem keeps_finishHeadMerge (x : Head) (t : Transaction) : Keeps State.Sound (finishHeadMerge x t) := by
  intro s h
  unfold finishHeadMerge
  rw [after_get_bind]
  exact keeps_finishHeadWrite _ _ _ _ s h

/-! ### Memory has taken a record write -/

theorem keeps_handsetWriteTaken (n : Slot) (c : ProvChange) : Keeps State.Sound (handsetWriteTaken n c) := by
  unfold handsetWriteTaken
  refine Keeps.step (keeps_endPoison n) fun _ => Keeps.bind (keeps_contextSound _ _) fun b => Keeps.ite ?_ (Keeps.pure _)
  exact Keeps.bind (keeps_takeChange _ _) fun _ => keeps_answer _ _

theorem keeps_recordTaken : Keeps State.Sound recordTaken := by
  intro s h
  unfold recordTaken
  rw [after_get_bind]
  have hlim := h.config.headWrite
  generalize hw : s.recordWrite = o
  rw [hw] at hlim
  rcases o with _ | w
  · exact h
  · dsimp only
    rw [after_modify_bind]
    have hm := h.recordWritten w
    have h1 : State.Sound { s with mem := s.recordWritten w, recordWrite := none } := by
      generalize s.recordWritten w = m at hm ⊢
      exact (h.withMem hm).withRecordWrite fun _ _ _ _ e => by cases e
    cases w with
    | handset n bs ts c => exact keeps_handsetWriteTaken _ _ _ h1
    | head x bs a b =>
      refine Keeps.bind ?_ (fun _ => keeps_answer _ _) _ h1
      exact Keeps.modHead (f := fun c => c.provision a b) fun _ hc => hc.provision (hlim _ _ _ _ rfl)

theorem keeps_mergeRead : Keeps State.Sound mergeRead := by
  intro s h
  unfold mergeRead
  rw [after_get_bind]
  generalize s.merge = o
  rcases o with _ | ⟨n, t⟩ | ⟨x, t⟩
  · exact h
  · exact keeps_finishMerge _ _ s h
  · exact h

theorem keeps_headMergeRead : Keeps State.Sound headMergeRead := by
  intro s h
  unfold headMergeRead
  rw [after_get_bind]
  generalize s.merge = o
  rcases o with _ | ⟨n, t⟩ | ⟨x, t⟩
  · exact h
  · exact h
  · exact keeps_finishHeadMerge _ _ s h

/-! ### Intake -/

theorem keeps_passMalformed (r : IntakeRing) (t : Transaction) (x : MalformedReason) :
    Keeps State.Sound (passMalformed r t x) := by
  intro s h
  unfold passMalformed
  rw [after_get_bind]
  exact Keeps.bind (keeps_note _ _ _ _) (fun _ => keeps_pass _) s h

/-- A message joins an Uplink Intake Queue that has room. -/
theorem State.Sound.joinUplink (h : s.Sound) (hl : s.uplink.length < 32) (m : UplinkMsg) :
    State.Sound { s with uplink := s.uplink ++ [m] } := by
  obtain ⟨a, b, c, d, e⟩ := h.lists
  refine ⟨h.mem, h.ctxs, h.attach, h.heads, h.idMap, ⟨?_, b, c, d, e⟩, h.counters.same, h.config.same, h.rings.same,
    h.pendingFault⟩
  show (s.uplink ++ [m]).length ≤ 32
  rw [List.length_append]; exact hl

/-- A request joins a Request Intake Queue that has room. -/
theorem State.Sound.joinRequest (h : s.Sound) (hl : s.requests.length < 8) (r : Request) :
    State.Sound { s with requests := s.requests ++ [r] } := by
  obtain ⟨a, b, c, d, e⟩ := h.lists
  refine ⟨h.mem, h.ctxs, h.attach, h.heads, h.idMap, ⟨a, ?_, c, d, e⟩, h.counters.same, h.config.same, h.rings.same,
    h.pendingFault⟩
  show (s.requests ++ [r]).length ≤ 8
  rw [List.length_append]; exact hl

/-- The joint conditions say nothing of the held writes. -/
theorem State.Sound.withHeld (h : s.Sound) (p : Option HeldRequest) (q : Option HeldUplink) :
    State.Sound { s with heldCp := p, heldRlc := q } :=
  ⟨h.mem, h.ctxs, h.attach, h.heads, h.idMap, h.lists.same, h.counters.same, h.config.same, h.rings.same, h.pendingFault⟩

theorem keeps_takeOrHoldUplink (t : Transaction) (m : UplinkMsg) : Keeps State.Sound (takeOrHoldUplink t m) := by
  intro s h
  unfold takeOrHoldUplink
  rw [after_get_bind]
  split
  · next hl =>
    rw [after_modify_bind]
    exact keeps_pass _ _ (h.joinUplink hl m)
  · exact h.withHeld s.heldCp _

theorem keeps_takeOrHoldRequest (t : Transaction) (r : Request) : Keeps State.Sound (takeOrHoldRequest t r) := by
  intro s h
  unfold takeOrHoldRequest
  rw [after_get_bind]
  split
  · next hl =>
    rw [after_modify_bind]
    exact keeps_pass _ _ (h.joinRequest hl r)
  · exact h.withHeld _ s.heldRlc

theorem keeps_sortUplinkWrite (t : Transaction) : Keeps State.Sound (sortUplinkWrite t) := by
  unfold sortUplinkWrite
  refine Keeps.ite (keeps_answer _ _) fun s h => ?_
  rw [after_get_bind]
  refine Keeps.ite (keeps_passMalformed _ _ _) (fun s h => ?_) s h
  generalize parseUplink (slotBytes t) = p
  rcases p with r | m
  · exact keeps_passMalformed _ _ _ s h
  · exact keeps_takeOrHoldUplink _ _ s h

theorem keeps_sortRequestWrite (t : Transaction) : Keeps State.Sound (sortRequestWrite t) := by
  unfold sortRequestWrite
  refine Keeps.ite (keeps_answer _ _) fun s h => ?_
  rw [after_get_bind]
  refine Keeps.ite (keeps_passMalformed _ _ _) (fun s h => ?_) s h
  generalize parseRequest (slotBytes t) = p
  rcases p with r | m
  · exact keeps_passMalformed _ _ _ s h
  · exact keeps_takeOrHoldRequest _ _ s h

theorem keeps_takeHeld (r : IntakeRing) : Keeps State.Sound (takeHeld r) := by
  cases r with
  | uplink =>
    intro s h
    show (after takeHeldUplink s).Sound
    unfold takeHeldUplink
    rw [after_get_bind]
    generalize s.heldRlc = o
    rcases o with _ | w
    · exact h
    · dsimp only
      split
      · next hl =>
        rw [after_modify_bind]
        exact keeps_pass _ _ ((h.joinUplink hl _).withHeld s.heldCp none)
      · exact h
  | request =>
    intro s h
    show (after takeHeldRequest s).Sound
    unfold takeHeldRequest
    rw [after_get_bind]
    generalize s.heldCp = o
    rcases o with _ | w
    · exact h
    · dsimp only
      split
      · next hl =>
        rw [after_modify_bind]
        exact keeps_pass _ _ ((h.joinRequest hl _).withHeld none s.heldRlc)
      · exact h

/-- The overrun counters count up to 65,535. -/
theorem State.Sound.countOverrun (h : s.Sound) (r : IntakeRing) :
    State.Sound (match r with
      | .uplink => { s with uplinkOverrun := satInc s.uplinkOverrun }
      | .request => { s with requestOverrun := satInc s.requestOverrun }) := by
  obtain ⟨a, b, c, d, e, f, g⟩ := h.counters
  cases r with
  | uplink => exact ⟨h.mem, h.ctxs, h.attach, h.heads, h.idMap, h.lists.same, ⟨satInc_le a, b, c, d, e, f, g⟩,
      h.config.same, h.rings.same, h.pendingFault⟩
  | request => exact ⟨h.mem, h.ctxs, h.attach, h.heads, h.idMap, h.lists.same, ⟨a, satInc_le b, c, d, e, f, g⟩,
      h.config.same, h.rings.same, h.pendingFault⟩

theorem keeps_holdTimeout (r : IntakeRing) : Keeps State.Sound (holdTimeout r) := by
  have close (t : Transaction) (k : EventKind) (a b : Nat) (g : State → Nat) : Keeps State.Sound (do
      note k a b (g (← get))
      pass t) := by
    intro s h
    rw [after_get_bind]
    exact Keeps.bind (keeps_note _ _ _ _) (fun _ => keeps_pass _) s h
  cases r with
  | uplink =>
    intro s h
    show (after uplinkHoldTimeout s).Sound
    unfold uplinkHoldTimeout
    rw [after_get_bind]
    generalize s.heldRlc = o
    rcases o with _ | w
    · exact h
    · dsimp only
      split
      · rw [after_modify_bind]
        exact close w.write .intakeOverrun _ _ State.uplinkOverrun _ ((h.countOverrun .uplink).withHeld s.heldCp none)
      · exact h
  | request =>
    intro s h
    show (after requestHoldTimeout s).Sound
    unfold requestHoldTimeout
    rw [after_get_bind]
    generalize s.heldCp = o
    rcases o with _ | w
    · exact h
    · dsimp only
      split
      · rw [after_modify_bind]
        exact close w.write .intakeOverrun _ _ State.requestOverrun _ ((h.countOverrun .request).withHeld none s.heldRlc)
      · exact h

end Sys2Proof.Machine
end

