-- ==== Sys2Proof/Laws/Startup.lean ====
section
/-! SUPPORT. Resets, start-up, the scan, the scrub and the context rebuilds keep the joint conditions. -/

namespace Sys2Proof.Machine

set_option Elab.async false

variable {s : State}

/-! ### Resets -/

theorem HeadCtx.Sound.externalReset {c : HeadCtx} (h : c.Sound) : c.externalReset.Sound := by
  have e (n : Chan) : c.externalReset.pool[n] = none := emptyPool_get n
  refine ⟨?_, (by intro a b x; cases x), h.failures, fun n hn => ?_, fun _ n => e n, fun _ => rfl, rfl, .nil⟩
  · unfold HeadCtx.externalReset
    cases hs : c.staged with
    | none => exact h.limits
    | some p => exact h.staged p.1 p.2 hs
  · rw [e] at hn; cases hn

/-- What a reset leaves, with sound head contexts and a fault list and a count in range. -/
theorem State.Sound.cleared (h : s.Sound) {hs : Vector HeadCtx 64} {fl : List Slot} {k : Nat}
    (hhs : ∀ x : Head, (hs[x]).Sound) (hfl : fl.length ≤ 16) (hnd : fl.Nodup) (hk : k ≤ 65535) (hr : s.op ≠ .running) :
    State.Sound { s.clearBlocks with heads := hs, faultList := fl, corrected := k } where
  mem := h.mem
  ctxs n := by
    have e : State.ctx { s.clearBlocks with heads := hs, faultList := fl, corrected := k } n = .vacant := by
      simp [State.ctx, State.clearBlocks]
    rw [e]; exact HandsetCtx.sound_vacant
  attach x := by
    have e : State.att { s.clearBlocks with heads := hs, faultList := fl, corrected := k } x = .reset := by
      simp [State.att, State.clearBlocks]
    rw [e]; exact AttachHead.sound_reset
  heads x := hhs x
  idMap := ⟨List.Pairwise.nil, fun e he => by cases he⟩
  lists := ⟨Nat.zero_le _, Nat.zero_le _, Nat.zero_le _, hfl, hnd⟩
  counters := ⟨Nat.zero_le _, Nat.zero_le _, Nat.zero_le _, Nat.zero_le _, hk, Nat.zero_le _, Nat.zero_le _⟩
  config := ⟨(by intro m x; cases x), (by intro p x; cases x), fun x => absurd x hr, (by intro n x; cases x),
    (by intro a b c d x; cases x)⟩
  rings := ⟨(by intro x; cases x), (by intro x; cases x), (by intro x; cases x)⟩
  pendingFault := by intro x; cases x

theorem State.Sound.keptReset (h : s.Sound) (hr : s.op ≠ .running) : s.keptReset.Sound := by
  have := h.cleared (hs := s.heads.map HeadCtx.externalReset) (fl := s.faultList) (k := s.corrected) (fun x => ?_)
    h.lists.faultList h.lists.faultOnce h.counters.corrected hr
  · exact this
  · have e : (s.heads.map HeadCtx.externalReset)[x] = (s.head x).externalReset := by simp [State.head]
    rw [e]; exact (h.heads x).externalReset

theorem State.Sound.powerReset (h : s.Sound) (hr : s.op ≠ .running) : s.powerReset.Sound := by
  refine h.cleared (hs := Vector.replicate 64 .powerOn) (fl := []) (k := 0) (fun x => ?_) (Nat.zero_le _) List.nodup_nil
    (Nat.zero_le _) hr
  have e : (Vector.replicate 64 HeadCtx.powerOn)[x] = .powerOn := by simp
  rw [e]; exact HeadCtx.sound_powerOn

/-- An operating state other than RUNNING. -/
theorem State.Sound.withOp (h : s.Sound) {o : OpState} (ho : o ≠ .running) : State.Sound { s with op := o } :=
  ⟨h.mem, h.ctxs, h.attach, h.heads, h.idMap, h.lists.same, h.counters.same,
    ⟨h.config.map, h.config.active, fun x => absurd x ho, h.config.scanning, h.config.headWrite⟩, h.rings.same,
    h.pendingFault⟩

theorem State.Sound.enterReset (h : s.Sound) : s.enterReset.Sound :=
  h.refuseUnanswered.cutRings.withOp (by decide)

theorem keeps_powerUp : Keeps State.Sound powerUp := by
  intro s h
  have h1 := h.enterReset.powerReset (by intro x; cases x)
  exact ⟨h1.mem, h1.ctxs, h1.attach, h1.heads, h1.idMap, h1.lists.same, h1.counters.same, h1.config.same, h1.rings.same,
    h1.pendingFault⟩

theorem keeps_assertReset : Keeps State.Sound assertReset := fun _ h => h.enterReset.keptReset (by intro x; cases x)

/-! ### Start-up -/

theorem State.Sound.beginStartup (h : s.Sound) (c : ResetCause) : (s.beginStartup c).Sound :=
  ⟨h.mem, h.ctxs, h.attach, h.heads, h.idMap, h.lists.same, h.counters.same,
    ⟨h.config.map, h.config.active, (by intro x; cases x), (by intro n x; cases x), h.config.headWrite⟩, h.rings.same,
    h.pendingFault⟩

theorem keeps_releaseReset : Keeps State.Sound releaseReset := by
  intro s h
  unfold releaseReset
  rw [after_get_bind]
  split
  · exact h.beginStartup _
  · exact h

theorem keeps_tick : Keeps State.Sound tick := by
  intro s h
  unfold tick
  rw [after_modify]
  split
  · exact ⟨h.mem, h.ctxs, h.attach, h.heads, h.idMap, h.lists.same, h.counters.same, h.config.same, h.rings.same,
      h.pendingFault⟩
  · exact h

/-- R10: a valid map gives both output rings slots. -/
theorem RegionMap.valid_counts {m : RegionMap} (h : m.valid = true) : 0 < m.directiveCount ∧ 0 < m.eventCount := by
  have pos (k : Nat) (hk : powerOfTwoIn 64 4096 k = true) : 0 < k := by
    unfold powerOfTwoIn at hk
    simp only [Bool.and_eq_true, decide_eq_true_eq] at hk
    omega
  unfold RegionMap.valid at h
  simp only [Bool.and_eq_true] at h
  exact ⟨pos _ (by tauto), pos _ (by tauto)⟩

theorem State.Sound.takeConfig (h : s.Sound) {m : RegionMap} {p : ParamSet} (hm : m.valid = true)
    (hp : p.firstInvalid = none) (hr : s.op ≠ .running) : (s.takeConfig m p).Sound := by
  have hc := RegionMap.valid_counts hm
  have hw : Memory.wf s.zeroIndexWords.mem :=
    Memory.wf_writeAll _ _ _ (Memory.wf_writeAll _ _ _ (Memory.wf_writeAll _ _ _ (Memory.wf_writeAll _ _ _ h.mem)))
  unfold State.takeConfig
  unfold State.zeroIndexWords at hw ⊢
  dsimp only at hw ⊢
  generalize (((s.mem.writeAll dirProdWord (leBytes 4 0)).writeAll evProdWord (leBytes 4 0)).writeAll dirConsWord
    (leBytes 4 0)).writeAll evConsWord (leBytes 4 0) = mem at hw ⊢
  refine State.Sound.writeStatus ?_
  obtain ⟨a, b, c, d, e⟩ := h.lists
  refine ⟨hw, h.ctxs, h.attach, h.heads, h.idMap, ⟨a, b, Nat.zero_le _, d, e⟩, h.counters.same,
    ⟨?_, ?_, fun x => absurd x hr, fun _ _ => ⟨rfl, rfl⟩, h.config.headWrite⟩,
    ⟨fun _ => ⟨hc.1, hc.1, ?_⟩, fun _ => ⟨hc.2, hc.2, ?_⟩, fun _ x => absurd rfl x⟩, h.pendingFault⟩
  · intro m' e'; cases e'; exact hm
  · intro p' e'; cases e'; exact hp
  · show unread m.directiveCount 0 0 + 0 ≤ m.directiveCount - 1
    unfold unread; rw [Nat.zero_add, Nat.sub_zero, Nat.mod_self]; omega
  · show unread m.eventCount 0 0 + 0 ≤ m.eventCount - 1
    unfold unread; rw [Nat.zero_add, Nat.sub_zero, Nat.mod_self]; omega

theorem State.Sound.faultConfig (h : s.Sound) : s.faultConfig.Sound := by
  refine State.Sound.writeStatus ?_
  exact ⟨h.mem, h.ctxs, h.attach, h.heads, h.idMap, h.lists.same, h.counters.same,
    ⟨h.config.map, h.config.active, (by intro x; cases x), (by intro n x; cases x), h.config.headWrite⟩, h.rings.same,
    h.pendingFault⟩

theorem State.Sound.configured (h : s.Sound) (hr : s.op ≠ .running) (d : List Byte) : (s.configured d).Sound := by
  unfold State.configured
  dsimp only
  split
  · next hv =>
    rw [Bool.and_eq_true] at hv
    exact h.takeConfig hv.1 (by simpa using hv.2) hr
  · exact h.faultConfig

theorem keeps_descriptorRead : Keeps State.Sound descriptorRead := by
  intro s h
  unfold descriptorRead
  rw [after_modify]
  split
  · next hs => exact h.configured (by rw [hs.1]; decide) _
  · exact h

/-! ### The scan -/

/-- A map is active and a set is in force. -/
def InForce (s : State) : Prop := s.map.isSome = true ∧ s.active.isSome = true

theorem Steady.inForce {t : State} (h : Steady s t) (hs : InForce s) : InForce t := by
  unfold InForce; rw [h.map, h.active]; exact hs

theorem inForce_report (k : EventKind) (v : Severity) (a b d : Nat) : Keeps InForce (report k v a b d) :=
  fun s h => (steady_emit k v a b d s).inForce h

theorem inForce_account (n : Slot) (b : Nat) (v : Source) : Keeps InForce (account n b v) := by
  intro s h
  unfold account
  rw [after_get_bind]
  split
  · exact h
  · rw [after_modify_bind]
    refine Keeps.bind (inForce_report _ _ _ _ _) (fun _ t ht => ?_) _ h
    rw [after_get_bind]
    exact Keeps.ite (inForce_report _ _ _ _ _) (Keeps.pure _) t ht

theorem inForce_judgeMarker (r : Reading) : Keeps InForce (judgeMarker r) := by
  intro s h
  unfold judgeMarker
  rw [after_getCtx_bind]
  have last (f : Bool) : Keeps InForce (do
      if !r.marked && f && !r.rewritten then modify fun s => s.writeMarker r.slot
      return r.marked || f : Act Bool) :=
    Keeps.step (f := fun _ => pure _) (fun _ h => h) fun _ => Keeps.pure _
  dsimp only
  refine Keeps.ite (Keeps.bind (fun s h => h) fun _ => ?_) (last _) s h
  exact Keeps.step (inForce_report _ _ _ _ _) fun _ => last _

theorem inForce_checkBeat (r : Reading) (p : Bool) (b : Nat) : Keeps InForce (checkBeat r p b) := by
  unfold checkBeat
  split
  · exact Keeps.pure _
  · refine Keeps.ite ?_ (Keeps.pure _)
    exact Keeps.step (f := fun _ => account _ _ _ >>= fun _ => pure p) (fun _ h => h) fun _ =>
      Keeps.bind (inForce_account _ _ _) fun _ => Keeps.pure _
  · refine Keeps.ite (Keeps.pure _) (Keeps.bind (fun _ h => h) fun _ => Keeps.bind (fun _ h => h) fun _ =>
      Keeps.bind (inForce_report _ _ _ _ _) fun _ => Keeps.pure _)

theorem inForce_checkReading (r : Reading) : Keeps InForce (checkReading r) := by
  have beats (bs : List Nat) : ∀ p, Keeps InForce (checkBeats r p bs) := by
    induction bs with
    | nil => exact fun _ => Keeps.pure _
    | cons b rest ih => exact fun p => Keeps.bind (inForce_checkBeat r p b) fun q => ih q
  exact Keeps.bind (inForce_judgeMarker r) fun p => beats r.beats p

/-- The joint conditions, and a configuration in force. -/
def Scanning (s : State) : Prop := s.Sound ∧ InForce s

theorem Keeps.both {α : Type} {a : Act α} (h : Keeps State.Sound a) (h' : Keeps InForce a) : Keeps Scanning a :=
  fun s hs => ⟨h s hs.1, h' s hs.2⟩

theorem Scanning.withIdMap (h : Scanning s) {m : List MapEntry} (hm : IdMapSound m) : Scanning { s with idMap := m } :=
  ⟨h.1.withIdMap hm, h.2⟩

theorem scanning_scanState (n : Slot) (q : Bool) (id : Identity) : Keeps Scanning (scanState n q id) := by
  unfold scanState
  refine Keeps.ite (Keeps.pure _) ?_
  by_cases hid : id = 0
  · rw [if_pos hid]; exact Keeps.pure _
  · rw [if_neg hid]
    refine Keeps.bind (fun s h => ?_) fun o => ?_
    · unfold scanLookup
      rw [after_get_bind]
      generalize s.mapLookup id = e
      rcases e with _ | e
      · exact h
      · dsimp only
        split
        · rw [after_modify_bind]
          have h1 := h.withIdMap (h.1.idMap.mapFound e.slot)
          exact ⟨⟨h1.1.mem, h1.1.ctxs, h1.1.attach, h1.1.heads, h1.1.idMap, h1.1.lists.same, h1.1.counters.same,
            h1.1.config.same, h1.1.rings.same, h1.1.pendingFault⟩, h1.2⟩
        · exact h
    · rcases o with _ | m
      · intro s h
        dsimp only
        rw [after_modify_bind]
        exact h.withIdMap (h.1.idMap.set n hid)
      · exact Keeps.pure _

theorem HandsetCtx.sound_afterScan (d : List Byte) (st : HandsetState) (p : Bool) :
    HandsetCtx.Sound { scannedCtx d with state := st, poisoned := p } :=
  HandsetCtx.sound_scanned d st (scannedCtx d).identity p

theorem scanning_scanRecord (n : Slot) : Keeps Scanning (scanRecord n) := by
  intro s h
  unfold scanRecord
  rw [after_get_bind]
  dsimp only
  generalize s.recordImage n = image
  split
  · rw [after_modify]
    exact ⟨h.1.setCtx n (HandsetCtx.sound_afterScan _ _ _), h.2⟩
  · refine Keeps.bind (Keeps.both (keeps_checkReading _) (inForce_checkReading _)) (fun _ t ht => ?_) s h
    rw [after_getCtx_bind]
    refine Keeps.bind (scanning_scanState _ _ _) (fun st t ht => ?_) t ht
    rw [after_modify]
    exact ⟨ht.1.setCtx n (HandsetCtx.sound_afterScan _ _ _), ht.2⟩

/-- A start-up stage with a configuration in force. -/
theorem Scanning.withStartup (h : Scanning s) (u : Startup) : State.Sound { s with startup := u } :=
  ⟨h.1.mem, h.1.ctxs, h.1.attach, h.1.heads, h.1.idMap, h.1.lists.same, h.1.counters.same,
    ⟨h.1.config.map, h.1.config.active, h.1.config.running, fun _ _ => h.2, h.1.config.headWrite⟩, h.1.rings.same,
    h.1.pendingFault⟩

theorem Scanning.endScan (h : Scanning s) : (after endScan s).Sound := by
  unfold Machine.endScan
  rw [after_modify_bind, after_get_bind]
  refine Keeps.bind (keeps_note _ _ _ _) (fun _ t ht => ?_) _ ?_
  · rw [after_modify_bind]
    refine Keeps.forEach (fun n : Slot => fatalFault .identityMap n.val) (fun n => keeps_fatalFault _ _) _ _ ?_
    exact ⟨ht.mem, ht.ctxs, ht.attach, ht.heads, ht.idMap, ht.lists.same, ht.counters.same, ht.config.same,
      ht.rings.same, ht.pendingFault⟩
  · exact ⟨h.1.mem, h.1.ctxs, h.1.attach, h.1.heads, h.1.idMap, h.1.lists.same, h.1.counters.same,
      ⟨h.1.config.map, h.1.config.active, fun _ => h.2, (by intro n x; cases x), h.1.config.headWrite⟩, h.1.rings.same,
      h.1.pendingFault⟩

theorem keeps_scanRead : Keeps State.Sound scanRead := by
  intro s h
  have hf := h.config.scanning
  unfold scanRead
  rw [after_get_bind]
  generalize s.op = o
  generalize s.startup = u at hf
  cases o <;> cases u <;> try exact h
  next n =>
    refine after_bind_to (P := Scanning) (scanning_scanRecord n s ⟨h, hf n rfl⟩) (fun _ ht => ht.1) fun _ t _ ht => ?_
    split
    · exact ht.withStartup _
    · exact ht.endScan

/-! ### The scrub -/

/-- The joint conditions say nothing of the scrub. -/
theorem State.Sound.withScrub (h : s.Sound) (p : Slot) (d : Option Time) (r : Option ScrubRead) :
    State.Sound { s with scrubPtr := p, scrubDeadline := d, scrubRead := r } :=
  ⟨h.mem, h.ctxs, h.attach, h.heads, h.idMap, h.lists.same, h.counters.same, h.config.same, h.rings.same, h.pendingFault⟩

theorem keeps_scrubDue : Keeps State.Sound scrubDue := by
  intro s h
  unfold scrubDue
  rw [after_get_bind]
  generalize s.scrubDeadline = d
  generalize s.scrubRead = r
  rcases d with _ | d <;> rcases r with _ | r <;> try exact h
  dsimp only
  split
  · exact h.withScrub s.scrubPtr _ _
  · exact h

theorem keeps_scrubDone : Keeps State.Sound scrubDone := by
  intro s h
  unfold scrubDone
  rw [after_get_bind]
  generalize s.scrubRead = r
  rcases r with _ | r
  · exact h
  · refine Keeps.bind (keeps_checkReading _) (fun _ t ht => ?_) s h
    rw [after_modify]
    exact ht.withScrub _ _ _

/-! ### Context rebuilds -/

theorem State.Sound.rebuilt (h : s.Sound) (n : Slot) (r : Reading) : (s.rebuilt n r).Sound := by
  have row (q : Bool) (id : Identity) : IdMapSound (s.rebuildRow n q id).2.2 := by
    unfold State.rebuildRow
    by_cases hid : id = 0
    · simp only [hid]
      split
      · exact h.idMap
      · exact h.idMap.remove n
    · rw [if_neg hid]
      split
      · exact h.idMap
      · split
        · split
          · exact h.idMap.set n hid
          · exact h.idMap.remove n
        · exact h.idMap.set n hid
  unfold State.rebuilt
  dsimp only
  exact (h.withIdMap (row _ _)).setCtx n (HandsetCtx.sound_scanned _ _ _ _)

theorem keeps_resume (n : Slot) (w : Waiter) : Keeps State.Sound (resume n w) := by
  cases w with
  | uplink m =>
    cases m with
    | handset x id body => exact Keeps.bind (keeps_handleMessage _ _ _ _ _) fun _ => keeps_popUplink
    | headStatus x w => exact keeps_popUplink
  | request r => exact Keeps.bind (keeps_handleRequest r) fun _ => keeps_popRequest
  | cp t => exact keeps_takeHandsetRecord t
  | change c => exact Keeps.bind (keeps_takeChange _ _) fun _ => keeps_answer _ _

theorem keeps_finishRebuild (b : Rebuild) : Keeps State.Sound (finishRebuild b) := by
  intro s h
  unfold finishRebuild
  rw [after_get_bind]
  dsimp only
  generalize ownReading b.slot .rebuild (s.recordImage b.slot) (s.unansweredBeats b.slot) = r
  refine Keeps.bind (keeps_checkReading r) (fun _ t ht => ?_) s h
  rw [after_modify_bind, after_getCtx_bind]
  refine Keeps.bind (fun u hu => keeps_report _ _ _ _ _ u hu) (fun _ => Keeps.forEach (resume b.slot) (keeps_resume _) _) _ ?_
  refine State.Sound.rebuilt ?_ _ _
  exact ⟨ht.mem, ht.ctxs, ht.attach, ht.heads, ht.idMap, ht.lists.same, ht.counters.same, ht.config.same, ht.rings.same,
    ht.pendingFault⟩

theorem keeps_rebuildRead (n : Slot) : Keeps State.Sound (rebuildRead n) := by
  intro s h
  unfold rebuildRead
  rw [after_get_bind]
  generalize (s.rebuilds.find? fun b => b.slot == n) = o
  rcases o with _ | b
  · exact h
  · exact keeps_finishRebuild b s h

end Sys2Proof.Machine
end

