-- ==== Sys2Proof/Laws/Path.lean ====
section
/-! SUPPORT. The treatment of every upstream transaction and the output rings' writes keep the joint conditions, and what
each command of the queue comes to. -/

namespace Sys2Proof.Machine

set_option Elab.async false

variable {s : State}

/-! ### Consumer index writes -/

/-- What passes at the port moves no ring. -/
theorem State.passed_rings (s : State) (t : Transaction) :
    (s.passed t).op = s.op ∧ (s.passed t).map = s.map ∧
    (s.passed t).dirProd = s.dirProd ∧ (s.passed t).dirCons = s.dirCons ∧ (s.passed t).dirOut = s.dirOut ∧
    (s.passed t).evProd = s.evProd ∧ (s.passed t).evCons = s.evCons ∧ (s.passed t).evOut = s.evOut := by
  unfold State.passed State.answered State.written
  cases t.access <;> cases t.initiator <;> exact ⟨rfl, rfl, rfl, rfl, rfl, rfl, rfl, rfl⟩

theorem keeps_refuseIndex (t : Transaction) (r : OutRing) (v : Nat) : Keeps State.Sound (refuseIndex t r v) :=
  Keeps.bind (keeps_refuse _) fun _ => keeps_note _ _ _ _

theorem keeps_takeDirectiveConsumer (t : Transaction) : Keeps State.Sound (takeDirectiveConsumer t) := by
  intro s h
  unfold takeDirectiveConsumer
  rw [after_get_bind]
  dsimp only
  generalize consumerValue t dirConsWord s.dirCons = v
  split
  · next hv =>
    have hp := keeps_pass t s h
    unfold pass at hp ⊢
    rw [after_modify] at hp
    rw [after_modify_bind, after_modify]
    obtain ⟨_, e1, e2, e3, _⟩ := s.passed_rings t
    refine hp.moveDirectiveConsumer ?_
    unfold State.dirUnread State.dirCount at hv ⊢
    rw [e1, e2, e3]; exact hv
  · exact keeps_refuseIndex _ _ _ s h

theorem keeps_takeEventConsumer (t : Transaction) : Keeps State.Sound (takeEventConsumer t) := by
  intro s h
  unfold takeEventConsumer
  rw [after_get_bind]
  dsimp only
  generalize consumerValue t evConsWord s.evCons = v
  split
  · next hv =>
    have hp := keeps_pass t s h
    unfold pass at hp ⊢
    rw [after_modify] at hp
    rw [after_modify_bind, after_modify_bind]
    obtain ⟨_, e1, _, _, _, e2, e3, _⟩ := s.passed_rings t
    refine hp.moveEventConsumer ?_
    unfold State.evUnread State.evCount at hv ⊢
    rw [e1, e2, e3]; exact hv
  · exact Keeps.bind (keeps_refuseIndex _ _ _) (fun _ => Keeps.pure _) s h

/-! ### Staging and configuration writes -/

theorem keeps_configEvent (k : EventKind) (d : Nat) : Keeps State.Sound (configEvent k d) := keeps_note _ _ _ _

/-- The joint conditions say nothing of the staged set and the map-changed flag. -/
theorem State.Sound.withStaged (h : s.Sound) (p : Option ParamSet) (b : Bool) :
    State.Sound { s with staged := p, mapChanged := b } :=
  ⟨h.mem, h.ctxs, h.attach, h.heads, h.idMap, h.lists.same, h.counters.same, h.config.same, h.rings.same, h.pendingFault⟩

theorem keeps_takeParams (t : Transaction) : Keeps State.Sound (takeParams t) := by
  intro s h
  unfold takeParams
  rw [after_get_bind]
  generalize s.staged = o
  rcases o with _ | p
  · exact keeps_configEvent _ _ s h
  · exact h.withStaged _ s.mapChanged

theorem keeps_takeApply : Keeps State.Sound takeApply := by
  intro s h
  unfold takeApply
  rw [after_get_bind]
  generalize s.staged = o
  rcases o with _ | p
  · exact keeps_configEvent _ _ s h
  · dsimp only
    rw [after_modify_bind]
    have h1 := h.withStaged none s.mapChanged
    cases hp : p.firstInvalid with
    | some c => exact keeps_configEvent _ _ _ h1
    | none =>
      dsimp only
      rw [after_modify_bind]
      refine keeps_configEvent _ _ _ ⟨h1.mem, h1.ctxs, h1.attach, h1.heads, h1.idMap, h1.lists.same, h1.counters.same,
        ⟨h1.config.map, ?_, fun x => ⟨(h1.config.running x).1, rfl⟩, fun n x => ⟨(h1.config.scanning n x).1, rfl⟩,
          h1.config.headWrite⟩, h1.rings.same, h1.pendingFault⟩
      intro q e; cases e; exact hp

theorem keeps_takeStaging (t : Transaction) : Keeps State.Sound (takeStaging t) := by
  unfold takeStaging
  generalize stagingBits t = b
  rcases b with ⟨_ | _, _ | _, _ | _⟩
  · exact Keeps.pure _
  · exact keeps_configEvent _ _
  · exact keeps_takeApply
  · exact keeps_takeApply
  all_goals exact fun s h => h.withStaged _ s.mapChanged

theorem keeps_actOnAreas (t : Transaction) : Keeps State.Sound (actOnAreas t) := by
  unfold actOnAreas
  exact Keeps.step (keeps_takeParams t) fun _ =>
    Keeps.step (f := fun _ => takeStaging t) (fun s h => h.withStaged s.staged true) fun _ => keeps_takeStaging t

/-! ### The treatments -/

theorem keeps_cpDescriptorWrite (t : Transaction) : Keeps State.Sound (cpDescriptorWrite t) := by
  unfold cpDescriptorWrite
  refine Keeps.ite (keeps_refuse _) (Keeps.ite (Keeps.bind (keeps_takeEventConsumer t) fun b => ?_) ?_)
  · exact Keeps.ite (keeps_actOnAreas t) (Keeps.pure _)
  · exact Keeps.bind (keeps_pass t) fun _ => keeps_actOnAreas t

theorem keeps_rlcDescriptorWrite (t : Transaction) : Keeps State.Sound (rlcDescriptorWrite t) :=
  Keeps.ite (keeps_takeDirectiveConsumer t) (keeps_refuse _)

theorem keeps_cpStartingWrite (t : Transaction) : Keeps State.Sound (cpStartingWrite t) := by
  unfold cpStartingWrite
  exact Keeps.ite (keeps_refuse _) (Keeps.ite (Keeps.bind (keeps_takeEventConsumer t) fun _ => Keeps.pure _) (keeps_pass t))

theorem keeps_takeDescriptor (t : Transaction) : Keeps State.Sound (takeDescriptor t) := by
  unfold takeDescriptor
  refine Keeps.ite (keeps_pass t) ?_
  split
  · exact keeps_cpDescriptorWrite t
  · exact keeps_rlcDescriptorWrite t

theorem keeps_takeDescriptorStarting (t : Transaction) : Keeps State.Sound (takeDescriptorStarting t) := by
  unfold takeDescriptorStarting
  refine Keeps.ite (keeps_pass t) fun s h => ?_
  rw [after_get_bind]
  generalize s.startup = u
  cases u with
  | none => cases t.initiator <;> exact keeps_pass t s h
  | descriptor => cases t.initiator <;> exact keeps_pass t s h
  | scan n =>
    cases t.initiator
    · exact keeps_cpStartingWrite t s h
    · exact keeps_rlcDescriptorWrite t s h

theorem keeps_onlyFor (i : Initiator) (t : Transaction) {a : Act Unit} (ha : Keeps State.Sound a) :
    Keeps State.Sound (onlyFor i t a) := Keeps.ite ha (keeps_refuse _)

theorem keeps_takeRunning (r : Region) (t : Transaction) : Keeps State.Sound (takeRunning r t) := by
  cases r with
  | descriptor => exact keeps_takeDescriptor t
  | handsetArray => exact keeps_onlyFor _ _ (keeps_takeHandsetRecord t)
  | headArray => exact keeps_onlyFor _ _ (keeps_takeHeadRecord t)
  | uplinkRing => exact Keeps.ite (keeps_pass t) (keeps_onlyFor _ _ (keeps_sortUplinkWrite t))
  | requestRing => exact Keeps.ite (keeps_pass t) (keeps_onlyFor _ _ (keeps_sortRequestWrite t))
  | directiveRing | eventRing => exact Keeps.ite (keeps_pass t) (keeps_refuse _)
  | ordinary => exact keeps_pass t

theorem keeps_takeStarting (r : Region) (t : Transaction) : Keeps State.Sound (takeStarting r t) := by
  cases r with
  | descriptor => exact keeps_takeDescriptorStarting t
  | handsetArray | headArray | uplinkRing | requestRing => exact keeps_refuse _
  | directiveRing | eventRing | ordinary => exact keeps_pass t

theorem keeps_takeHalted (r : Region) (t : Transaction) : Keeps State.Sound (takeHalted r t) := by
  cases r <;> first | exact keeps_pass t | exact keeps_refuse _

theorem State.Sound.takeConfigFault (h : s.Sound) (hr : s.op ≠ .running) (t : Transaction) :
    (after (takeConfigFault t) s).Sound := by
  have hp := keeps_pass t s h
  unfold Machine.takeConfigFault
  unfold pass at hp ⊢
  rw [after_modify] at hp
  rw [after_modify_bind]
  split
  · exact (hp.keptReset (by rw [(s.passed_rings t).1]; exact hr)).beginStartup _
  · exact hp

theorem keeps_takeClassified (o : OpState) (r : Option Region) (t : Transaction) :
    Keeps State.Sound (takeClassified o r t) := by
  rcases r with _ | r
  · exact keeps_refuse _
  · cases o <;> first | exact keeps_takeStarting r t | exact keeps_takeHalted r t | exact keeps_takeRunning r t

theorem keeps_takeTransaction (t : Transaction) : Keeps State.Sound (takeTransaction t) := by
  intro s h
  unfold takeTransaction
  rw [after_get_bind]
  split
  · exact keeps_refuse _ s h
  · cases ho : s.op with
    | reset => exact keeps_refuse _ s h
    | configFault => exact h.takeConfigFault (by rw [ho]; decide) t
    | starting | running | halted => exact keeps_takeClassified _ _ t s h

theorem keeps_ring (f : State → State) (hf : ∀ s : State, s.Sound → (f s).Sound) : Keeps State.Sound (modify f : Act Unit) :=
  fun s h => hf s h

theorem State.Sound.slotWritten (h : s.Sound) (r : OutRing) : (s.slotWritten r).Sound := by
  cases r
  · exact h.directiveInSlot
  · exact h.eventInSlot

theorem State.Sound.producerWritten (h : s.Sound) (r : OutRing) : (s.producerWritten r).Sound := by
  cases r
  · exact h.directiveCounted
  · exact h.eventCounted

end Sys2Proof.Machine
end

