-- ==== Sys2Proof/Laws/PerInstr.lean ====
section
/-! SUPPORT. PerInstr: a statement about every command as syntax, one lemma for each constructor. -/

namespace Sys2Proof.Laws.Carried

set_option Elab.async false

/-- A well-formed command that carries a transaction carries one of the board memory link: its address is a multiple of 8,
it has 1 to 8 beats, and a write has 8 bytes for each beat (R1). -/
def Statement (i : Instr) : Prop :=
  i.wellFormed = true → ∀ t, transactionOf i = some t →
    t.addr.toNat % 8 = 0 ∧ 1 ≤ t.beatCount ∧ t.beatCount ≤ 8 ∧
      ∀ bytes, t.access = .write bytes → bytes.length = 8 * t.beatCount

/-- What the check of a transaction says. -/
theorem of_wellFormed {t : Transaction} (h : t.wellFormed = true) :
    t.addr.toNat % 8 = 0 ∧ 1 ≤ t.beatCount ∧ t.beatCount ≤ 8 ∧
      ∀ bytes, t.access = .write bytes → bytes.length = 8 * t.beatCount := by
  simp only [Transaction.wellFormed, Transaction.aligned, Transaction.countOk, Bool.and_eq_true, beq_iff_eq,
    decide_eq_true_eq] at h
  obtain ⟨⟨ha, h1, h8⟩, hb⟩ := h
  refine ⟨ha, h1, h8, fun bytes hw => ?_⟩
  simp only [Transaction.bytesOk, hw, beq_iff_eq] at hb
  simp only [Transaction.beatCount, hw]
  omega

/-- A command with no transaction. -/
theorem of_none {i : Instr} (h : transactionOf i = none) : Statement i := by
  intro _ t ht
  rw [h] at ht
  cases ht

/-- A command whose check holds the check of its transaction. -/
theorem of_some {i : Instr} {t : Transaction} (h : transactionOf i = some t)
    (hw : i.wellFormed = true → t.wellFormed = true) : Statement i := by
  intro hi u hu
  rw [h] at hu
  cases hu
  exact of_wellFormed (hw hi)

theorem powerUp : Statement .powerUp := of_none rfl
theorem rstinAsserted : Statement .rstinAsserted := of_none rfl
theorem resetRelease : Statement .resetRelease := of_none rfl
theorem descriptorRead : Statement .descriptorRead := of_none rfl
theorem scanRecordRead : Statement .scanRecordRead := of_none rfl
theorem timeBaseTick : Statement .timeBaseTick := of_none rfl
theorem upstreamTransaction (t : Transaction) : Statement (.upstreamTransaction t) := of_some rfl id
theorem descriptorWrite (t : Transaction) : Statement (.descriptorWrite t) := of_some rfl fun h => (Bool.and_eq_true_iff.mp h).1
theorem classOrParameterWrite (t : Transaction) : Statement (.classOrParameterWrite t) := of_some rfl fun h => (Bool.and_eq_true_iff.mp h).1
theorem regionMapWrite (t : Transaction) : Statement (.regionMapWrite t) := of_some rfl fun h => (Bool.and_eq_true_iff.mp h).1
theorem beginStaging (t : Transaction) : Statement (.beginStaging t) := of_some rfl fun h => (Bool.and_eq_true_iff.mp h).1
theorem applyStaging (t : Transaction) : Statement (.applyStaging t) := of_some rfl fun h => (Bool.and_eq_true_iff.mp h).1
theorem restart (t : Transaction) : Statement (.restart t) := of_some rfl fun h => (Bool.and_eq_true_iff.mp h).1
theorem directiveConsumerWrite (t : Transaction) : Statement (.directiveConsumerWrite t) := of_some rfl fun h => (Bool.and_eq_true_iff.mp h).1
theorem eventConsumerWrite (t : Transaction) : Statement (.eventConsumerWrite t) := of_some rfl fun h => (Bool.and_eq_true_iff.mp h).1
theorem ringSlotWritten (r : OutRing) : Statement (.ringSlotWritten r) := of_none rfl
theorem producerWordWritten (r : OutRing) : Statement (.producerWordWritten r) := of_none rfl
theorem handsetRecordRead (t : Transaction) : Statement (.handsetRecordRead t) := of_some rfl fun h => (Bool.and_eq_true_iff.mp h).1
theorem handsetRecordWrite (t : Transaction) : Statement (.handsetRecordWrite t) := of_some rfl fun h => (Bool.and_eq_true_iff.mp h).1
theorem mergeReadDone : Statement .mergeReadDone := of_none rfl
theorem mediaHeadWrite (t : Transaction) : Statement (.mediaHeadWrite t) := of_some rfl fun h => (Bool.and_eq_true_iff.mp h).1
theorem headRecordRead (t : Transaction) : Statement (.headRecordRead t) := of_some rfl fun h => (Bool.and_eq_true_iff.mp h).1
theorem headRecordWrite (t : Transaction) : Statement (.headRecordWrite t) := of_some rfl fun h => (Bool.and_eq_true_iff.mp h).1
theorem headMergeReadDone : Statement .headMergeReadDone := of_none rfl
theorem uplinkRingWrite (t : Transaction) : Statement (.uplinkRingWrite t) := of_some rfl fun h => (Bool.and_eq_true_iff.mp h).1
theorem requestRingWrite (t : Transaction) : Statement (.requestRingWrite t) := of_some rfl fun h => (Bool.and_eq_true_iff.mp h).1
theorem heldWriteTaken (r : IntakeRing) : Statement (.heldWriteTaken r) := of_none rfl
theorem intakeHoldDeadline (r : IntakeRing) : Statement (.intakeHoldDeadline r) := of_none rfl
theorem attach : Statement .attach := of_none rfl
theorem attachConfirm : Statement .attachConfirm := of_none rfl
theorem detach : Statement .detach := of_none rfl
theorem keepalive : Statement .keepalive := of_none rfl
theorem dozeRequest : Statement .dozeRequest := of_none rfl
theorem callRequest : Statement .callRequest := of_none rfl
theorem callRelease : Statement .callRelease := of_none rfl
theorem measurement : Statement .measurement := of_none rfl
theorem access : Statement .access := of_none rfl
theorem revert : Statement .revert := of_none rfl
theorem channelRefused : Statement .channelRefused := of_none rfl
theorem headStatus : Statement .headStatus := of_none rfl
theorem page : Statement .page := of_none rfl
theorem releaseCall : Statement .releaseCall := of_none rfl
theorem forceHandover : Statement .forceHandover := of_none rfl
theorem unpin : Statement .unpin := of_none rfl
theorem detachHandset : Statement .detachHandset := of_none rfl
theorem drainHead : Statement .drainHead := of_none rfl
theorem restoreHead : Statement .restoreHead := of_none rfl
theorem clearFaultList : Statement .clearFaultList := of_none rfl
theorem ackFatal : Statement .ackFatal := of_none rfl
theorem offerDeadline (slot : Slot) : Statement (.offerDeadline slot) := of_none rfl
theorem ageLimit (slot : Slot) : Statement (.ageLimit slot) := of_none rfl
theorem regainDeadline (head : Head) : Statement (.regainDeadline head) := of_none rfl
theorem windowDeadline (slot : Slot) : Statement (.windowDeadline slot) := of_none rfl
theorem callPresenceDeadline (slot : Slot) : Statement (.callPresenceDeadline slot) := of_none rfl
theorem graceDeadline (slot : Slot) : Statement (.graceDeadline slot) := of_none rfl
theorem holdoffDeadline (slot : Slot) : Statement (.holdoffDeadline slot) := of_none rfl
theorem livenessDeadline (head : Head) : Statement (.livenessDeadline head) := of_none rfl
theorem reservingDeadline (entry : EntryNo) : Statement (.reservingDeadline entry) := of_none rfl
theorem commandedDeadline (entry : EntryNo) : Statement (.commandedDeadline entry) := of_none rfl
theorem mediaHoldDeadline (entry : EntryNo) : Statement (.mediaHoldDeadline entry) := of_none rfl
theorem orphanedDeadline (entry : EntryNo) : Statement (.orphanedDeadline entry) := of_none rfl
theorem scrubDeadline : Statement .scrubDeadline := of_none rfl
theorem scrubReadDone : Statement .scrubReadDone := of_none rfl
theorem rebuildReadDone (slot : Slot) : Statement (.rebuildReadDone slot) := of_none rfl
theorem recordWriteTaken : Statement .recordWriteTaken := of_none rfl

end Sys2Proof.Laws.Carried
end

