-- ==== Sys2Proof/Laws/Runs.lean ====
section
/-! SUPPORT. Runs: what a piece of the part's work answers, piece by piece, and what a dispatch and a transaction row come
to when nothing stands in their way. -/

namespace Sys2Proof.Machine

set_option Elab.async false

/-! ### The work of each command -/

/-- The work of a command that is no transaction row. -/
def workOf : Instr → Option (Act Unit)
  | .powerUp => some powerUp
  | .rstinAsserted => some assertReset
  | .resetRelease => some releaseReset
  | .descriptorRead => some descriptorRead
  | .scanRecordRead => some scanRead
  | .timeBaseTick => some tick
  | .ringSlotWritten r => some (modify fun s => if s.ringLive r then s.slotWritten r else s)
  | .producerWordWritten r => some (modify fun s => if s.ringLive r then s.producerWritten r else s)
  | .mergeReadDone => some (whenRunning mergeRead)
  | .headMergeReadDone => some (whenRunning headMergeRead)
  | .heldWriteTaken r => some (whenRunning (takeHeld r))
  | .intakeHoldDeadline r => some (whenRunning (holdTimeout r))
  | .attach => some (dispatchUplink .attach)
  | .attachConfirm => some (dispatchUplink .attachConfirm)
  | .detach => some (dispatchUplink .detach)
  | .keepalive => some (dispatchUplink .keepalive)
  | .dozeRequest => some (dispatchUplink .dozeRequest)
  | .callRequest => some (dispatchUplink .callRequest)
  | .callRelease => some (dispatchUplink .callRelease)
  | .measurement => some (dispatchUplink .measurement)
  | .access => some (dispatchUplink .access)
  | .revert => some (dispatchUplink .revert)
  | .channelRefused => some (dispatchUplink .channelRefused)
  | .headStatus => some (dispatchUplink .headStatus)
  | .page => some (dispatchRequest .page)
  | .releaseCall => some (dispatchRequest .releaseCall)
  | .forceHandover => some (dispatchRequest .forceHandover)
  | .unpin => some (dispatchRequest .unpin)
  | .detachHandset => some (dispatchRequest .detachHandset)
  | .drainHead => some (dispatchRequest .drainHead)
  | .restoreHead => some (dispatchRequest .restoreHead)
  | .clearFaultList => some (dispatchRequest .clearFaultList)
  | .ackFatal => some (dispatchRequest .ackFatal)
  | .offerDeadline n => some (whenRunning (offerTimeout n))
  | .ageLimit n => some (whenRunning (ageOut n))
  | .regainDeadline x => some (whenRunning (regainCredit x))
  | .windowDeadline n => some (whenRunning (presenceDeadline n [.window, .timeout] (expire n)))
  | .callPresenceDeadline n => some (whenRunning (presenceDeadline n [.call] (callPresenceExpired n)))
  | .graceDeadline n => some (whenRunning (presenceDeadline n [.grace] (graceExpired n)))
  | .holdoffDeadline n => some (whenRunning (endHoldoff n))
  | .livenessDeadline x => some (whenRunning (livenessTimeout x))
  | .reservingDeadline e => some (whenRunning (reservingTimeout e))
  | .commandedDeadline e => some (whenRunning (commandedTimeout e))
  | .mediaHoldDeadline e => some (whenRunning (mediaHoldTimeout e))
  | .orphanedDeadline e => some (whenRunning (orphanedTimeout e))
  | .scrubDeadline => some (whenRunning scrubDue)
  | .scrubReadDone => some (whenRunning scrubDone)
  | .rebuildReadDone n => some (whenRunning (rebuildRead n))
  | .recordWriteTaken => some (whenRunning recordTaken)
  | _ => none

/-- A command that is no transaction row is its work as a whole step. -/
theorem exec_work {c : Instr} {a : Act Unit} (h : workOf c = some a) (s : State) : exec c s = perform a s := by
  cases c <;> cases h <;> rfl

/-- The work of every command keeps the joint conditions. -/
theorem keeps_workOf {c : Instr} {a : Act Unit} (h : workOf c = some a) : Keeps State.Sound a := by
  cases c <;> cases h
  case powerUp => exact keeps_powerUp
  case rstinAsserted => exact keeps_assertReset
  case resetRelease => exact keeps_releaseReset
  case descriptorRead => exact keeps_descriptorRead
  case scanRecordRead => exact keeps_scanRead
  case timeBaseTick => exact keeps_tick
  case ringSlotWritten r =>
    exact keeps_ring (fun s => if s.ringLive r then s.slotWritten r else s) fun s h => by split; exacts [h.slotWritten r, h]
  case producerWordWritten r =>
    exact keeps_ring (fun s => if s.ringLive r then s.producerWritten r else s) fun s h => by
      split; exacts [h.producerWritten r, h]
  case mergeReadDone => exact Keeps.whenRunning keeps_mergeRead
  case headMergeReadDone => exact Keeps.whenRunning keeps_headMergeRead
  case heldWriteTaken r => exact Keeps.whenRunning (keeps_takeHeld r)
  case intakeHoldDeadline r => exact Keeps.whenRunning (keeps_holdTimeout r)
  case offerDeadline n => exact Keeps.whenRunning (keeps_offerTimeout n)
  case ageLimit n => exact Keeps.whenRunning (keeps_ageOut n)
  case regainDeadline x => exact Keeps.whenRunning (keeps_regainCredit x)
  case windowDeadline n => exact Keeps.whenRunning (keeps_presenceDeadline n _ (keeps_expire n))
  case callPresenceDeadline n => exact Keeps.whenRunning (keeps_presenceDeadline n _ (keeps_callPresenceExpired n))
  case graceDeadline n => exact Keeps.whenRunning (keeps_presenceDeadline n _ (keeps_graceExpired n))
  case holdoffDeadline n => exact Keeps.whenRunning (keeps_endHoldoff n)
  case livenessDeadline x => exact Keeps.whenRunning (keeps_livenessTimeout x)
  case reservingDeadline e => exact Keeps.whenRunning (keeps_reservingTimeout e)
  case commandedDeadline e => exact Keeps.whenRunning (keeps_commandedTimeout e)
  case mediaHoldDeadline e => exact Keeps.whenRunning (keeps_mediaHoldTimeout e)
  case orphanedDeadline e => exact Keeps.whenRunning (keeps_orphanedTimeout e)
  case scrubDeadline => exact Keeps.whenRunning keeps_scrubDue
  case scrubReadDone => exact Keeps.whenRunning keeps_scrubDone
  case rebuildReadDone n => exact Keeps.whenRunning (keeps_rebuildRead n)
  case recordWriteTaken => exact Keeps.whenRunning keeps_recordTaken
  all_goals first | exact keeps_dispatchUplink _ | exact keeps_dispatchRequest _

/-! ### The upstream port -/

/-- A transaction is answered from the state before it was taken at the port. -/
theorem State.takeAtPort_answered (s : State) (x : Transaction) (a : Answer) :
    (s.takeAtPort x).answered x.initiator a = s.answered x.initiator a := by
  unfold State.takeAtPort State.answered
  cases x.initiator <;> rfl

theorem State.takeAtPort_passed (s : State) (x : Transaction) : (s.takeAtPort x).passed x = s.passed x := by
  unfold State.passed
  cases x.access with
  | read n =>
    dsimp only
    rw [State.takeAtPort_answered]
    unfold State.takeAtPort State.readData
    cases x.initiator <;> rfl
  | write b =>
    dsimp only
    unfold State.written State.takeAtPort State.answered
    cases x.initiator
    · show State.answered { State.setPort s .cp _ with mem := s.mem.writeEnabled _ _ } .cp _ = _
      generalize s.mem.writeEnabled _ _ = m
      rfl
    · show State.answered { State.setPort s .rlc _ with mem := s.mem.writeEnabled _ _ } .rlc _ = _
      generalize s.mem.writeEnabled _ _ = m
      rfl

/-- A transaction row on a transaction of the link, at a port with nothing outstanding, is the treatment of it. -/
theorem run_takeAtUpstream {s : State} {l : Bool} {x : Transaction} (hl : l = true)
    (ho : (s.port x.initiator).outstanding = none) (f : Transaction → Act Unit) :
    takeAtUpstream l x f s = perform (do modify (fun s => s.takeAtPort x); f x) s := by
  unfold takeAtUpstream
  rw [hl, ho]; rfl

/-! ### The end of a step -/

/-- The end of a step: memory with the status block written if one of its fields changed, and ATTN at its level. -/
theorem State.settle_cases (b s : State) : ∃ m l, State.settle b s = { s with mem := m, attn := l } ∧ l = s.attnLevel ∧
    (m = if s.statusLive ∧ b.statusFields ≠ s.statusFields then s.mem.writeAll statusBase s.statusBytes else s.mem) := by
  unfold State.settle
  by_cases h : s.statusLive ∧ b.statusFields ≠ s.statusFields
  · rw [if_pos h, if_pos h]
    unfold State.writeStatus
    generalize s.mem.writeAll statusBase s.statusBytes = m
    exact ⟨m, s.attnLevel, rfl, rfl, rfl⟩
  · rw [if_neg h, if_neg h]
    exact ⟨s.mem, s.attnLevel, rfl, rfl, rfl⟩

/-- The end of a step changes no field that the status block shows. -/
theorem State.settle_shown (b s : State) : (State.settle b s).statusFields = s.statusFields ∧
    (State.settle b s).statusLive = s.statusLive ∧ (State.settle b s).statusBytes = s.statusBytes := by
  obtain ⟨m, l, e, -, -⟩ := State.settle_cases b s
  rw [e]
  exact ⟨rfl, rfl, rfl⟩

theorem State.statusBytes_length (s : State) : s.statusBytes.length = 128 := by
  unfold State.statusBytes State.statusFields
  simp [leBytes]
section
variable {α β : Type} (s : State)

theorem run_bind (a : Act α) (f : α → Act β) :
    (a >>= f) s = match a s with | .ok x t => f x t | .error e t => .error e t := by
  show EStateM.bind a f s = _
  unfold EStateM.bind
  cases a s <;> rfl

@[simp] theorem run_pure (x : α) : (pure x : Act α) s = .ok x s := rfl
@[simp] theorem run_get : (get : Act State) s = .ok s s := rfl
@[simp] theorem run_get_bind (f : State → Act β) : (get >>= f) s = f s s := rfl
@[simp] theorem run_modify (g : State → State) : (modify g : Act Unit) s = .ok () (g s) := rfl
@[simp] theorem run_modify_bind (g : State → State) (f : Unit → Act β) : ((modify g : Act Unit) >>= f) s = f () (g s) := rfl
@[simp] theorem run_pure_bind (x : α) (f : α → Act β) : (pure x >>= f) s = f x s := rfl
@[simp] theorem run_getCtx_bind (n : Slot) (f : HandsetCtx → Act β) : (getCtx n >>= f) s = f (s.ctx n) s := rfl
@[simp] theorem run_getHead_bind (x : Head) (f : HeadCtx → Act β) : (getHead x >>= f) s = f (s.head x) s := rfl
@[simp] theorem run_getAtt_bind (x : Head) (f : AttachHead → Act β) : (getAtt x >>= f) s = f (s.att x) s := rfl
@[simp] theorem run_modCtx (n : Slot) (g : HandsetCtx → HandsetCtx) :
    modCtx n g s = .ok () (s.setCtx n (g (s.ctx n))) := rfl
@[simp] theorem run_modCtx_bind (n : Slot) (g : HandsetCtx → HandsetCtx) (f : Unit → Act β) :
    (modCtx n g >>= f) s = f () (s.setCtx n (g (s.ctx n))) := rfl
@[simp] theorem run_modHead (x : Head) (g : HeadCtx → HeadCtx) :
    modHead x g s = .ok () (s.setHead x (g (s.head x))) := rfl
@[simp] theorem run_modHead_bind (x : Head) (g : HeadCtx → HeadCtx) (f : Unit → Act β) :
    (modHead x g >>= f) s = f () (s.setHead x (g (s.head x))) := rfl
@[simp] theorem run_modAtt (x : Head) (g : AttachHead → AttachHead) :
    modAtt x g s = .ok () (s.setAtt x (g (s.att x))) := rfl
@[simp] theorem run_modAtt_bind (x : Head) (g : AttachHead → AttachHead) (f : Unit → Act β) :
    (modAtt x g >>= f) s = f () (s.setAtt x (g (s.att x))) := rfl
@[simp] theorem run_note (k : EventKind) (a b d : Nat) : note k a b d s = .ok () (s.emit k .none a b d) := rfl
@[simp] theorem run_note_bind (k : EventKind) (a b d : Nat) (f : Unit → Act β) :
    (note k a b d >>= f) s = f () (s.emit k .none a b d) := rfl
@[simp] theorem run_report (k : EventKind) (v : Severity) (a b d : Nat) :
    report k v a b d s = .ok () (s.emit k v a b d) := rfl
@[simp] theorem run_report_bind (k : EventKind) (v : Severity) (a b d : Nat) (f : Unit → Act β) :
    (report k v a b d >>= f) s = f () (s.emit k v a b d) := rfl
@[simp] theorem run_send (d : Directive) : send d s = .ok () (s.takeDirective d) := rfl
@[simp] theorem run_send_bind (d : Directive) (f : Unit → Act β) : (send d >>= f) s = f () (s.takeDirective d) := rfl
@[simp] theorem run_answer (i : Initiator) (a : Answer) : answer i a s = .ok () (s.answered i a) := rfl
@[simp] theorem run_answer_bind (i : Initiator) (a : Answer) (f : Unit → Act β) :
    (answer i a >>= f) s = f () (s.answered i a) := rfl
@[simp] theorem run_refuse (i : Initiator) : refuse i s = .ok () (s.answered i .refused) := rfl
@[simp] theorem run_refuse_bind (i : Initiator) (f : Unit → Act β) :
    (refuse i >>= f) s = f () (s.answered i .refused) := rfl
@[simp] theorem run_pass (t : Transaction) : pass t s = .ok () (s.passed t) := rfl
@[simp] theorem run_pass_bind (t : Transaction) (f : Unit → Act β) : (pass t >>= f) s = f () (s.passed t) := rfl
@[simp] theorem run_enterWith (n : Slot) (st : HandsetState) (g : HandsetCtx → HandsetCtx) :
    enterWith n st g s = .ok () (s.entered n st g) := rfl
@[simp] theorem run_enterWith_bind (n : Slot) (st : HandsetState) (g : HandsetCtx → HandsetCtx) (f : Unit → Act β) :
    (enterWith n st g >>= f) s = f () (s.entered n st g) := rfl
@[simp] theorem run_enter (n : Slot) (st : HandsetState) : enter n st s = .ok () (s.entered n st id) := rfl
@[simp] theorem run_enter_bind (n : Slot) (st : HandsetState) (f : Unit → Act β) :
    (enter n st >>= f) s = f () (s.entered n st id) := rfl
@[simp] theorem run_setPresence (n : Slot) (p : Presence) :
    setPresence n p s = .ok () (s.setCtx n { s.ctx n with presence := p }) := rfl
@[simp] theorem run_setPresence_bind (n : Slot) (p : Presence) (f : Unit → Act β) :
    (setPresence n p >>= f) s = f () (s.setCtx n { s.ctx n with presence := p }) := rfl
@[simp] theorem run_sendAbout (k : DirectiveKind) (d : Option Head) (n : Slot) (g : Directive → Directive) :
    sendAbout k d n g s =
      .ok () (s.takeDirective (g { Directive.blank k d with identity := (s.ctx n).identity, slot := some n })) := rfl
@[simp] theorem run_sendAbout_bind (k : DirectiveKind) (d : Option Head) (n : Slot) (g : Directive → Directive)
    (f : Unit → Act β) : (sendAbout k d n g >>= f) s =
      f () (s.takeDirective (g { Directive.blank k d with identity := (s.ctx n).identity, slot := some n })) := rfl
@[simp] theorem run_attachReply (k : DirectiveKind) (x : Head) (id : Identity) (o : Option Slot) (g : Directive → Directive) :
    attachReply k x id o g s =
      .ok () (s.takeDirective (g { Directive.blank k (some x) with identity := id, slot := o })) := rfl
@[simp] theorem run_attachReply_bind (k : DirectiveKind) (x : Head) (id : Identity) (o : Option Slot)
    (g : Directive → Directive) (f : Unit → Act β) : (attachReply k x id o g >>= f) s =
      f () (s.takeDirective (g { Directive.blank k (some x) with identity := id, slot := o })) := rfl
@[simp] theorem run_freeEntry (e : EntryNo) : freeEntry e s = .ok () (s.setEntry e .empty) := rfl
@[simp] theorem run_freeEntry_bind (e : EntryNo) (f : Unit → Act β) :
    (freeEntry e >>= f) s = f () (s.setEntry e .empty) := rfl
@[simp] theorem run_putTxn (e : EntryNo) (t : Handover) :
    putTxn e t s = .ok () (s.setEntry e { txn := some t, parityBad := false }) := rfl
@[simp] theorem run_putTxn_bind (e : EntryNo) (t : Handover) (f : Unit → Act β) :
    (putTxn e t >>= f) s = f () (s.setEntry e { txn := some t, parityBad := false }) := rfl

variable {s}

/-- Work in RUNNING is the work. -/
theorem run_whenRunning (h : s.op = .running) (a : Act Unit) : whenRunning a s = a s := by
  show (if s.op = .running then a else pure ()) s = _
  rw [if_pos h]

/-- Work that ends answers the state it leaves, settled. -/
theorem perform_ok {a : Act Unit} {t : State} (h : a s = .ok () t) : perform a s = .next (State.settle s t) := by
  unfold perform; rw [h]

/-! ### Reads of the parity-protected structures that find no fault -/

theorem run_useEntry {e : EntryNo} (h : (s.entry e).parityBad = false) : useEntry e s = .ok () s := by
  show (if (s.entry e).parityBad = true then _ else pure () : Act Unit) s = _
  rw [if_neg (by simp [h])]; rfl

theorem run_usePool {x : Head} (h : (s.head x).poolParityBad = false) : usePool x s = .ok () s := by
  show (if (s.head x).poolParityBad = true then _ else pure () : Act Unit) s = _
  rw [if_neg (by simp [h])]; rfl

/-- Work on each item of a list that changes nothing at any of them changes nothing. -/
theorem run_forEach {xs : List α} {f : α → Act Unit} (h : ∀ x ∈ xs, f x s = .ok () s) : forEach xs f s = .ok () s := by
  induction xs with
  | nil => rfl
  | cons x rest ih =>
    show (f x >>= fun _ => forEach rest f) s = _
    rw [run_bind, h x (List.mem_cons_self ..)]
    exact ih fun y hy => h y (List.mem_cons_of_mem _ hy)

theorem run_readTable (h : ∀ e, (s.entry e).parityBad = false) : readTable s = .ok () s :=
  run_forEach fun e _ => run_useEntry (h e)

/-- A search of entries that read without fault finds the first free one. -/
theorem run_seekFree {es : List EntryNo} (h : ∀ e ∈ es, (s.entry e).parityBad = false) :
    seekFree es s = .ok (es.find? fun e => (s.txnOf e).isNone) s := by
  induction es with
  | nil => rfl
  | cons e rest ih =>
    show (useEntry e >>= fun _ => _) s = _
    rw [run_bind, run_useEntry (h e (List.mem_cons_self ..))]
    show (if (s.txnOf e).isNone = true then pure (some e) else seekFree rest : Act _) s = _
    cases hf : (s.txnOf e).isNone with
    | true => simp [hf]
    | false =>
      rw [if_neg (by simp), List.find?_cons_of_neg (by simp [hf])]
      exact ih fun y hy => h y (List.mem_cons_of_mem _ hy)

theorem run_seekEntry (h : ∀ e, (s.entry e).parityBad = false) :
    seekEntry s = .ok ((List.finRange 32).find? fun e => (s.txnOf e).isNone) s := run_seekFree fun e _ => h e

theorem run_lookupIdentity {id : Identity} {n : Slot}
    (h : (s.mapLookup id).map (fun e => (e.slot, e.parityBad)) = some (n, false)) :
    lookupIdentity id s = .ok (some n) s := by
  unfold lookupIdentity
  rw [run_get_bind]
  cases hm : s.mapLookup id with
  | none => rw [hm] at h; cases h
  | some e =>
    rw [hm] at h
    simp only [Option.map_some, Option.some.injEq, Prod.mk.injEq] at h
    simp [h.1, h.2]

theorem run_lookupIdentity_none {id : Identity} (h : s.mapLookup id = none) : lookupIdentity id s = .ok none s := by
  unfold lookupIdentity
  rw [run_get_bind, h]; rfl

theorem run_contextSound {n : Slot} (hr : s.rebuilding n = false) (hp : (s.ctx n).ctxParityBad = false)
    (w : Option Waiter) : contextSound n w s = .ok true s := contextSound_of_sound hr hp

theorem run_withSound {n : Slot} (hr : s.rebuilding n = false) (hp : (s.ctx n).ctxParityBad = false) (a : Act Unit) :
    withSound n a s = a s := by
  unfold withSound
  rw [run_bind, run_contextSound hr hp]; rfl

theorem run_slotEntry_none {n : Slot} (h : (s.ctx n).txn = none) : slotEntry n s = .ok none s := by
  unfold slotEntry
  rw [run_getCtx_bind, h]; rfl

theorem run_slotEntry {n : Slot} {e : EntryNo} {o : Origin} (h : (s.ctx n).txn = some (e, o))
    (hp : (s.entry e).parityBad = false) : slotEntry n s = .ok ((s.txnOf e).map fun t => (e, t)) s := by
  unfold slotEntry
  rw [run_getCtx_bind, h]
  dsimp only
  rw [run_bind, run_useEntry hp]; rfl

/-! ### Dispatch -/

/-- R48 to R50: a handset message at the front of its queue, its slot found and its context sound, is handled and leaves
the queue. -/
theorem run_dispatchUplink {x : Head} {id : Identity} {body : HandsetMsg} {n : Slot} {k : UplinkKind}
    (hop : s.op = .running) (hq : s.uplink.head? = some (.handset x id body)) (hk : body.kind = k)
    (hw : s.uplinkWaits = false) (hm : (s.mapLookup id).map (fun e => (e.slot, e.parityBad)) = some (n, false))
    (hr : s.rebuilding n = false) (hp : (s.ctx n).ctxParityBad = false) :
    dispatchUplink k s = (handleMessage n x id body s.timeBase >>= fun _ => popUplink) s := by
  unfold dispatchUplink
  rw [run_whenRunning hop, run_get_bind]
  cases hu : s.uplink with
  | nil => rw [hu] at hq; cases hq
  | cons m rest =>
    rw [hu] at hq
    cases hq
    have hk' : (UplinkMsg.handset x id body).kind = k := hk
    dsimp only
    rw [if_pos ⟨hk', by simp [hw]⟩]
    unfold takeUplink
    simp only [run_bind, run_lookupIdentity hm, run_get, run_contextSound hr hp, if_true]
    cases handleMessage n x id body s.timeBase s <;> rfl

/-- R48, R51: a request at the front of its queue is handled and leaves the queue, its slot's context being sound. -/
theorem run_dispatchRequest {r : Request} {k : RequestKind} (hop : s.op = .running) (hq : s.requests.head? = some r)
    (hk : r.kind = k) (hw : s.requestWaits = false)
    (hn : ∀ n, r.slot? = some n → s.rebuilding n = false ∧ (s.ctx n).ctxParityBad = false) :
    dispatchRequest k s = (handleRequest r >>= fun _ => popRequest) s := by
  unfold dispatchRequest
  rw [run_whenRunning hop, run_get_bind]
  cases hu : s.requests with
  | nil => rw [hu] at hq; cases hq
  | cons m rest =>
    rw [hu] at hq
    cases hq
    dsimp only
    rw [if_pos ⟨hk, by simp [hw]⟩]
    unfold takeRequest
    cases hs : r.slot? with
    | none =>
      simp only [run_bind]
      cases handleRequest r s <;> rfl
    | some n =>
      simp only [run_bind, run_contextSound (hn n hs).1 (hn n hs).2, if_true]
      cases handleRequest r s <;> rfl

end

end Sys2Proof.Machine
end

