-- ==== Sys2Proof/Tests/Slice0.lean ====
section
/-! SUPPORT. Tests: ill-formed operands that the check refuses, values the spec writes out, and for every statement with
hypotheses a state and operands that meet them together, clause by clause. -/

namespace Sys2Proof.Tests

open Sys2Proof.Machine

set_option Elab.async false

/-! ### Small states and operands -/

/-- A write whose beats hold the given bytes from the first one on, and no enabled byte after them. -/
def writeOf (i : Initiator) (a beats : Nat) (bytes : List (Option Byte)) : Transaction :=
  { initiator := i, addr := BitVec.ofNat 32 a, access := .write ((bytes ++ List.replicate 64 none).take (8 * beats)) }

def readOf (i : Initiator) (a beats : Nat) : Transaction :=
  { initiator := i, addr := BitVec.ofNat 32 a, access := .read beats }

/-- One enabled byte after `k` bytes that are not enabled. -/
def byteAfter (k : Nat) (b : Byte) : List (Option Byte) := List.replicate k none ++ [some b]

def full (bytes : List Byte) : List (Option Byte) := bytes.map some

def board : RegionMap :=
  { memorySize := 16, handsetBase := 65536, headBase := 2048, uplinkBase := 4096, uplinkCount := 64
    requestBase := 8192, requestCount := 16, directiveBase := 12288, directiveCount := 64
    eventBase := 16384, eventCount := 64 }

/-- Class entries with mode 0, period 0, doze 0, filter 0, margin 1, dwell 1 and floor 1. -/
def terms : ParamSet :=
  { classBytes := Vector.ofFn fun i => if 4 ≤ i.val % 8 ∧ i.val % 8 ≤ 6 then 1 else 0, globalBytes := #v[1, 0, 0, 0] }

/-- RUNNING, with nobody in the hall. -/
def up : State := { State.reset with op := .running, map := some board, active := some terms, timeBase := 10000 }

/-- RUNNING, with the context of slot 0 and the context of head 2, and identity 1 at slot 0. -/
def hall (c : HandsetCtx) (h : HeadCtx) : State :=
  { (up.setCtx 0 c).setHead 2 h with idMap := [{ slot := 0, identity := 1, parityBad := false }] }

def handset (st : HandsetState) : HandsetCtx := { HandsetCtx.vacant with identity := 1, state := st }

/-- A call on channel 0 of head 2. -/
def caller : HandsetCtx := { handset .active with serving := some 2, channel := some 0, media := some 2 }

def head (st : HeadState) : HeadCtx :=
  { HeadCtx.powerOn with state := st, capacity := 3, guard := 1, liveness := some 9000 }

/-- A head with channel 0 allocated to the call of slot 0. -/
def busy (st : HeadState) : HeadCtx := { head st with pool := emptyPool.set 0 (some (.call 0)) }

/-- A message of identity 1 from head 2, at the front of its queue. -/
def hears (m : HandsetMsg) (s : State) : State := { s with uplink := [.handset 2 1 m] }

def asked (r : Request) (s : State) : State := { s with requests := [r] }

/-- An open transaction of slot 0 from head 2 to head 3, channel 5. -/
def moving (p : Phase) : Handover :=
  { slot := 0, cause := .forced, phase := p, source := 2, target := some 3
    targetChan := if p = .commanded then some 5 else none
    heldChan := if p = .switched then some 0 else none, deadline := 9000, origin := .active, opened := 8000 }

/-- A handset with that transaction in entry 0. -/
def mover : HandsetCtx := { caller with state := .moving, txn := some (0, .active) }

/-- The hall with that handset and that transaction, heads 2 and 3 in service. -/
def handing (t : Handover) : State :=
  ((hall mover (busy .inService)).setHead 3
    { head .inService with capacity := 6, pool := emptyPool.set 5 (some (.reservation 0)) }).setEntry 0
    { txn := some t, parityBad := false }

/-- Memory with the given bytes at an address. -/
def holding (a : Nat) (bytes : List Byte) (s : State) : State := { s with mem := Memory.writeAll s.mem a bytes }

/-- A hypothesis about whatever an option holds, when it holds `a`. -/
theorem of_eq_some {α : Type} {o : Option α} {a : α} (h : o = some a) {p : α → Prop} (hp : p a) :
    ∀ e, o = some e → p e := by
  intro e he
  rw [h] at he
  cases he
  exact hp

/-- Memory with nothing listed. -/
theorem wf_empty : Memory.wf [] := ⟨List.Pairwise.nil, by intro c hc; cases hc⟩

/-- What damage to contexts, pools and entries is read from. -/
theorem undamaged_of_eq {s t : State} (h : s.undamaged) (hc : t.ctxs = s.ctxs) (hh : t.heads = s.heads)
    (ht : t.table = s.table) (hr : t.rebuilds = s.rebuilds) : t.undamaged where
  contexts n := by
    have := h.contexts n
    simpa only [State.readable, State.rebuilding, State.ctx, hc, hr] using this
  pools x := by
    have := h.pools x
    simpa only [State.head, hh] using this
  entries e := by
    have := h.entries e
    simpa only [State.entry, ht] using this

theorem undamaged_setCtx {s : State} (h : s.undamaged) (n : Slot) {c : HandsetCtx} (hc : c.ctxParityBad = false) :
    (s.setCtx n c).undamaged where
  contexts m := by
    refine ⟨(h.contexts m).1, ?_⟩
    by_cases hm : m = n
    · subst hm
      rw [ctx_setCtx]
      exact hc
    · rw [ctx_setCtx_ne _ _ hm]
      exact (h.contexts m).2
  pools := h.pools
  entries := h.entries

theorem undamaged_setHead {s : State} (h : s.undamaged) (x : Head) {c : HeadCtx} (hc : c.poolParityBad = false) :
    (s.setHead x c).undamaged where
  contexts := h.contexts
  pools y := by
    by_cases hy : y = x
    · subst hy
      rw [head_setHead]
      exact hc
    · rw [head_setHead_ne _ _ hy]
      exact h.pools y
  entries := h.entries

theorem undamaged_setEntry {s : State} (h : s.undamaged) (e : EntryNo) {t : TableEntry} (ht : t.parityBad = false) :
    (s.setEntry e t).undamaged where
  contexts := h.contexts
  pools := h.pools
  entries f := by
    by_cases hf : f = e
    · subst hf
      rw [entry_setEntry]
      exact ht
    · rw [entry_setEntry_ne _ _ hf]
      exact h.entries f

theorem undamaged_up : up.undamaged where
  contexts n := by simp [State.readable, State.rebuilding, State.ctx, up, State.reset, HandsetCtx.vacant]
  pools x := by simp [State.head, up, State.reset, HeadCtx.powerOn]
  entries e := by simp [State.entry, up, State.reset, TableEntry.empty]

theorem undamaged_hall {c : HandsetCtx} {h : HeadCtx} (hc : c.ctxParityBad = false) (hh : h.poolParityBad = false) :
    (hall c h).undamaged :=
  undamaged_of_eq (undamaged_setHead (undamaged_setCtx undamaged_up 0 hc) 2 hh) rfl rfl rfl rfl

theorem undamaged_handing (t : Handover) : (handing t).undamaged :=
  undamaged_setEntry (undamaged_setHead (undamaged_hall rfl rfl) 3 rfl) 0 rfl

/-! ### What the check of a command refuses -/

theorem test_misaligned_address : (Instr.upstreamTransaction (readOf .cp 0x104 1)).wellFormed = false := by decide
theorem test_no_beat : (Instr.upstreamTransaction (readOf .cp 0x100 0)).wellFormed = false := by decide
theorem test_nine_beats : (Instr.upstreamTransaction (readOf .rlc 0x100 9)).wellFormed = false := by decide
theorem test_half_beat :
    (Instr.upstreamTransaction ⟨.cp, 0x100, .write (List.replicate 12 none)⟩).wellFormed = false := by decide
theorem test_read_for_write_row : (Instr.descriptorWrite (readOf .cp 0x100 1)).wellFormed = false := by decide
theorem test_write_for_read_row : (Instr.handsetRecordRead (writeOf .cp 0x100 1 [])).wellFormed = false := by decide
theorem test_eight_beats : (Instr.upstreamTransaction (readOf .rlc 0x100 8)).wellFormed = true := by decide
theorem test_ill_formed_faults :
    exec (.upstreamTransaction (readOf .cp 0x104 1)) up = .fault .illFormedTransaction ∧
      exec (.handsetRecordRead (writeOf .cp 0x100 1 [])) up = .fault .illFormedTransaction := ⟨rfl, rfl⟩

/-! ### Values the spec writes out -/

/-- R203: a beat of zeros has check byte 0x00; data bit 0 stands at position 3, data bit 63 at position 71. -/
theorem test_check_bytes :
    checkByte 0 = 0x00 ∧ checkByte 1 = 0x83 ∧ checkByte (BitVec.twoPow 64 63) = 0xC7 := by decide +kernel

/-- R172: the classes of a beat of zeros with a wrong check byte. -/
theorem test_classes :
    classifyBeat 0 0x80 = .correctable 0 ∧ classifyBeat 0 0x83 = .correctable 1 ∧ classifyBeat 0 0x03 = .uncorrectable ∧
      classifyBeat 0 0xFF = .uncorrectable := by decide +kernel

/-- R90: the duration of each period code. -/
theorem test_period_codes :
    (List.range 8).map periodMs = [2000, 4000, 8000, 15000, 30000, 60000, 120000, 300000] := by decide

/-- R8: a deadline just beyond the wrap of the time base. -/
theorem test_deadline_wraps : passed 0xFFFFFFFF 0x00000001 = true ∧ passed 0x00000001 0xFFFFFFFF = false := by decide

/-- R109: steps of the filter at k = 3, toward zero, and at least one unit. -/
theorem test_filter : filtered 3 100 20 = 90 ∧ filtered 3 20 100 = 30 ∧ filtered 3 50 51 = 51 ∧ filtered 3 50 49 = 49 ∧
    filtered 0 5 126 = 126 := by decide

/-- R41, R42: a KEEPALIVE slot written out byte by byte, and a MEASUREMENT with one sample. -/
theorem test_uplink_slots :
    parseUplink ([0x04, 0x02, 0x01, 0, 0, 0, 0] ++ List.replicate 25 0) = .ok (.handset 2 1 .keepalive) ∧
      parseUplink ([0x0C, 0x3F, 0, 0, 0, 0, 0, 0, 0, 0, 0, 1] ++ List.replicate 20 0) = .ok (.headStatus 63 true) := by
  exact ⟨rfl, rfl⟩

/-! ### The block, resets and start-up: states that meet the hypotheses of the statements -/

theorem test_StepTakesFrontCommand : State.reset.pending = [] := rfl

theorem test_CommandsAnswer :
    transactionOf .timeBaseTick = none ∧
    (Instr.upstreamTransaction (readOf .cp 0x104 1)).wellFormed = false ∧
    (Instr.upstreamTransaction (readOf .cp 0x100 1)).wellFormed = true ∧
    (let s := { up with cpPort := { outstanding := some (readOf .cp 0x100 1), answer := none } }
     (State.port s .cp).outstanding.isSome = true) ∧
    (up.port .cp).outstanding = none := by decide +kernel

/-- A state of RUNNING with a fatal fault pending that meets the invariants, its ATTN asserted. -/
def pending : State := { up with contained := true, fatalPending := true, attn := true, requests := [.ackFatal] }

theorem sound_pending : pending.Sound where
  mem := wf_empty
  ctxs n := by
    rw [show pending.ctx n = .vacant by simp [State.ctx, pending, up, State.reset]]
    exact HandsetCtx.sound_vacant
  attach x := by
    rw [show pending.att x = .reset by simp [State.att, pending, up, State.reset]]
    exact AttachHead.sound_reset
  heads x := by
    rw [show pending.head x = .powerOn by simp [State.head, pending, up, State.reset]]
    exact HeadCtx.sound_powerOn
  idMap := ⟨List.Pairwise.nil, by intro e he; cases he⟩
  lists := ⟨by decide, by decide, by decide, by decide, List.nodup_nil⟩
  counters := ⟨by decide, by decide, by decide, by decide, by decide, by decide, by decide⟩
  config :=
    ⟨of_eq_some rfl (by decide +kernel), of_eq_some rfl (by decide +kernel), fun _ => ⟨rfl, rfl⟩,
      fun _ h => (by cases h), fun _ _ _ _ h => (by cases h)⟩
  rings :=
    ⟨fun _ => ⟨by decide, by decide, by decide⟩, fun _ => ⟨by decide, by decide, by decide⟩, fun _ h => absurd rfl h⟩
  pendingFault := fun _ => rfl

theorem test_StepKeepsSafe : ∃ s t : State, s.Safe ∧ step s = .next t :=
  ⟨pending, _, ⟨sound_pending, by unfold State.attnRight; decide +kernel⟩, rfl⟩

theorem test_AttnFollowsItsConditions : ∃ t, exec .ackFatal pending = .next t := ⟨_, rfl⟩

theorem test_StepEndsBySettling :
    State.reset.statusFields = State.reset.statusFields ∧ State.reset.statusLive = false ∧ Memory.wf State.reset.mem ∧
    ∃ t, pending.Sound ∧ exec .ackFatal pending = .next t ∧ t.statusLive = true ∧
      pending.statusFields ≠ t.statusFields :=
  ⟨rfl, rfl, wf_empty, _, sound_pending, rfl, rfl, by decide +kernel⟩

theorem test_HaltedLeftOnlyByReset : ∃ t, exec .timeBaseTick { up with op := .halted } = .next t := ⟨_, rfl⟩

theorem test_ResetsClear : State.reset.recordWrite = none ∧ State.reset.dirOut = [] ∧ State.reset.evOut = [] :=
  ⟨rfl, rfl, rfl⟩

theorem test_ResetReleaseAndTimeBase : State.reset.op = .reset ∧ up.op ≠ .reset := ⟨rfl, by decide⟩

/-- The descriptor block of `board` and `terms`. -/
def descriptor : List Byte :=
  leBytes 4 16 ++ leBytes 4 65536 ++ leBytes 8 2048 ++ leBytes 4 4096 ++ leBytes 4 64 ++ leBytes 4 8192 ++
  leBytes 4 16 ++ leBytes 4 12288 ++ leBytes 4 64 ++ leBytes 4 16384 ++ leBytes 4 64 ++ List.replicate 24 0 ++
  terms.globalBytes.toList ++ List.replicate 52 0 ++ terms.classBytes.toList

/-- Start-up at its descriptor read. -/
def reading : State := { State.reset with op := .starting, startup := .descriptor }

theorem wf_holding (a : Nat) (bytes : List Byte) : Memory.wf (holding a bytes reading).mem :=
  Memory.wf_writeAll [] a bytes wf_empty

theorem test_DescriptorReadChecksConfiguration :
    (Memory.wf (holding 0 descriptor reading).mem ∧ reading.op = .starting ∧ reading.startup = .descriptor) ∧
    ((RegionMap.decode ((holding 0 descriptor reading).mem.readBytes 0 512)).valid = true ∧
      ∀ c < 8, ((ParamSet.decode ((holding 0 descriptor reading).mem.readBytes 0 512)).cls c).valid = true) ∧
    Memory.wf reading.mem ∧ (RegionMap.decode (reading.mem.readBytes 0 512)).valid = false :=
  ⟨⟨wf_holding 0 descriptor, rfl, rfl⟩, by decide +kernel, wf_empty, by decide +kernel⟩

/-- The scan at slot `n`, memory holding nothing: every record is CLEAN, with identity 0. -/
def scanning (n : Slot) : State := { up with op := .starting, startup := .scan n }

/-- A CLEAN record of identity 5 and code 7, beat 1 and those after it zero. -/
def recordOfFive : List Byte :=
  let b0 := leBytes 8 5
  let b1 := leBytes 8 7
  b0 ++ b1 ++ List.replicate 40 0 ++ [checkByte (beatAt b0 0), checkByte (beatAt b1 0)] ++ List.replicate 6 0

theorem test_ScanTakesOneRecord :
    (∀ n ∈ [(0 : Slot), 1022, 1023],
      (scanning n).op = .starting ∧ (scanning n).startup = .scan n ∧ (scanning n).scanFatals = [] ∧
      (let image := (scanning n).recordImage n
       byteAt image 60 = 0 ∧ ¬ (readingOf n .startup image [0, 1, 2, 3]).spoilt ∧
        (scanning n).mapLookup (scannedCtx (correctedBytes image)).identity = none) ∧
      byteAt ((holding (65536 + 64 * n.val + 60) [1] (scanning n)).recordImage n) 60 ≠ 0) ∧
    (let image := (holding 65536 recordOfFive (scanning 0)).recordImage 0
     byteAt image 60 = 0 ∧ ¬ (readingOf 0 .startup image [0, 1, 2, 3]).spoilt ∧
      (scannedCtx (correctedBytes image)).identity = 5) ∧
    let image := (holding (65536 + 57) [0x03] (scanning 0)).recordImage 0
    byteAt image 60 = 0 ∧ (readingOf 0 .startup image [0, 1, 2, 3]).spoilt := by decide +kernel

/-! ### The upstream port and the descriptor block -/

theorem test_TransactionRowsAgree :
    transactionOf (.beginStaging (writeOf .cp 0x40 1 [some 1])) = some (writeOf .cp 0x40 1 [some 1]) ∧
      (Instr.beginStaging (writeOf .cp 0x40 1 [some 1])).wellFormed = true := by decide

theorem test_OrdinaryTrafficPasses :
    (Memory.wf up.mem ∧ Initiator.rlc ≠ .cp) ∧
    (∀ o ∈ [OpState.starting, .running, .halted],
      ({ up with op := o } : State).carries (.upstreamTransaction (readOf .rlc 0x600 8)) (readOf .rlc 0x600 8) ∧
        classify up.map (readOf .rlc 0x600 8) = some .ordinary) ∧
    ∀ p ∈ [((0 : Nat), Region.descriptor), (4096, .uplinkRing), (8192, .requestRing), (12288, .directiveRing),
        (16384, .eventRing)],
      up.carries (.upstreamTransaction (readOf .rlc p.1 8)) (readOf .rlc p.1 8) ∧
        classify up.map (readOf .rlc p.1 8) = some p.2 :=
  ⟨⟨wf_empty, by decide⟩, by decide +kernel, by decide +kernel⟩

theorem test_RefusedTransactionChangesNothing :
    wraps (readOf .cp 0xFFFFFFF8 2) = true ∧ wraps (readOf .cp 0xFFFFFFF8 1) = false ∧
    (∀ x ∈ [readOf .rlc 65536 1, readOf .rlc 2048 1, readOf .cp (65536 - 8) 2, writeOf .cp 4096 4 [],
        writeOf .rlc 8192 4 [], writeOf .cp 12288 1 [], writeOf .rlc 16384 1 []],
      refusedIn .running (classify up.map x) x = true) ∧
    (∀ x ∈ [readOf .cp 65536 1, readOf .cp 4096 1], refusedIn .starting (classify up.map x) x = true) ∧
    (∀ x ∈ [readOf .cp 65536 1, readOf .rlc 12288 1], refusedIn .halted (classify up.map x) x = true) ∧
    refusedIn .reset (classify none (readOf .cp 0 1)) (readOf .cp 0 1) = true := by decide +kernel

theorem test_DescriptorWriteBySort :
    (∀ x ∈ [writeOf .cp 0x1F8 1 (byteAfter 7 1), writeOf .cp 0x100 1 [some 1], writeOf .cp 0x108 1 (byteAfter 3 1),
        writeOf .cp 0x040 1 [some 3], writeOf .rlc 0x118 1 [some 1]],
      up.carries (.descriptorWrite x) x ∧ classify up.map x = some .descriptor ∧ x.isRead = false ∧
        (if x.initiator = .cp then
          reaches x 0x180 0x200 || reaches x 0x100 0x104 || reaches x 0x110 0x114 || reaches x 0x108 0x10C ||
            manyCommands x
        else !confined x 0x108 0x10C) = true) ∧
    (∀ x ∈ [writeOf .cp 0x050 1 [some 1], writeOf .cp 0x100 1 (byteAfter 4 1), writeOf .cp 0x100 8 [],
        writeOf .cp 0x040 1 [some 0]],
      up.descriptorWrite (.descriptorWrite x) x none) ∧
    (∀ x ∈ [readOf .rlc 0x100 8, writeOf .cp 0x180 1 [some 1]],
      reading.carries (.upstreamTransaction x) x ∧ classify reading.map x = some .descriptor ∧ reading.op = .starting ∧
        reading.startup = .descriptor) ∧
    (∀ x ∈ [writeOf .cp 0x180 1 [some 1], writeOf .rlc 0x118 1 [some 1], writeOf .cp 0x080 1 [some 1]],
      (scanning 5).carries (.descriptorWrite x) x ∧ classify (scanning 5).map x = some .descriptor ∧ x.isRead = false) ∧
    (let x := writeOf .cp 0x080 1 [some 1]
     reaches x 0x180 0x200 = false ∧ reaches x 0x100 0x104 = false ∧ reaches x 0x110 0x114 = false ∧
      reaches x 0x108 0x10C = false ∧ reaches x 0x118 0x11C = false) ∧
    (let s := { up with op := .halted }
     let x := writeOf .rlc 0x180 1 [some 1]
     State.carries s (.descriptorWrite x) x ∧ classify s.map x = some .descriptor) ∧
    ∀ x ∈ [writeOf .rlc 12288 1 [some 1], readOf .cp 16384 1],
      (scanning 5).carries (.upstreamTransaction x) x ∧
        classify (scanning 5).map x ∈ [some Region.directiveRing, some .eventRing] := by
  refine ⟨?_, ?_, ?_, ?_, ?_, ?_, ?_⟩ <;> decide +kernel

/-- A write of 8 beats over the region map words at 0x28, the staging command and the parameter word. -/
def mapBeginParams : Transaction :=
  writeOf .cp 0x028 5 (byteAfter 7 1 ++ byteAfter 16 1 ++ byteAfter 7 2)

/-- Two beats over the event consumer word and nothing else. -/
def consumerOnly (v : Byte) : Transaction := writeOf .cp 0x118 1 [some v]

theorem test_AreasActInOrder :
    (let x := mapBeginParams
     up.carries (.descriptorWrite x) x ∧ classify up.map x = some .descriptor ∧ x.isRead = false ∧
      (reaches x 0x180 0x200 || reaches x 0x100 0x104 || reaches x 0x110 0x114 || reaches x 0x108 0x10C ||
        manyCommands x) = false ∧
      [Area.params, .regionMap, .staging, .consumer].map (Area.reached x) = [true, true, true, false]) ∧
    (let s := { up with evProd := 5, evCons := 3 }
     let x := consumerOnly 6
     Area.consumer.reached x = true ∧ s.evCons < s.evCount ∧
      ¬ acceptedValue s.evCount s.evProd s.evCons (consumerValue x 0x118 s.evCons) ∧
      acceptedValue s.evCount s.evProd s.evCons (consumerValue (consumerOnly 4) 0x118 s.evCons)) ∧
    ∀ x ∈ [writeOf .cp 0x000 1 [some 1], writeOf .cp 0x028 1 (byteAfter 7 1)],
      up.descriptorWrite (.regionMapWrite x) x (some .regionMap) ∧ Area.regionMap.reached x = true := by
  refine ⟨?_, ?_, ?_⟩ <;> decide +kernel

theorem test_ParameterWriteStages :
    (∀ x ∈ [writeOf .cp 0x080 1 [some 1], writeOf .cp 0x0B8 1 (byteAfter 7 1), writeOf .cp 0x048 1 (byteAfter 3 1)],
      up.descriptorWrite (.classOrParameterWrite x) x (some .params) ∧ Area.params.reached x = true) ∧
    up.staged = none ∧
    (let s := { up with staged := some terms }
     let x := writeOf .cp 0x080 1 [some 1]
     State.descriptorWrite s (.classOrParameterWrite x) x (some .params)) := by decide +kernel

/-- A set whose class entry 3 alone is out of range. -/
def badTerms : ParamSet := { terms with classBytes := terms.classBytes.set 24 2 }

theorem test_StagingCommandsAct :
    (∀ p ∈ [((1 : Byte), (true, false, false)), (2, (false, true, false)), (4, (false, false, true))],
      up.descriptorWrite (.beginStaging (writeOf .cp 0x040 1 [some p.1])) (writeOf .cp 0x040 1 [some p.1])
        (some .staging) ∧ stagingBits (writeOf .cp 0x040 1 [some p.1]) = p.2) ∧
    up.staged = none ∧ (∀ k < 8, (terms.cls k).valid = true) ∧
    (badTerms.cls 3).valid = false ∧ ∀ j < 3, (badTerms.cls j).valid = true := by decide +kernel

theorem test_ConfigFaultPassesAndRestarts :
    let s := { up with op := OpState.configFault }
    (∀ x ∈ [writeOf .cp 0x040 1 [some 1], writeOf .rlc 0x040 1 [some 4], writeOf .cp 65536 1 [some 4]],
      State.carries s (.upstreamTransaction x) x ∧ ¬ (x.initiator = .cp ∧ stagingBits x = (false, false, true))) ∧
    State.carries s (.restart (writeOf .cp 0x040 1 [some 4])) (writeOf .cp 0x040 1 [some 4]) ∧
    stagingBits (writeOf .cp 0x040 1 [some 4]) = (false, false, true) := by decide +kernel

/-! ### The output rings -/

/-- A directive and an event that name nothing. -/
def anyDirective : Directive := Directive.blank .page none

def anyEvent : Event := { kind := .started, severity := .none, subject := 0, time := 0, detail1 := 0, detail2 := 0 }

theorem test_OutputRecordsAreTakenAndWritten :
    ((∀ k ∈ [0, 1, 65535], ({ up with eventsLost := k } : State).eventsLost ≤ 65535) ∧ up.dirDropped ≤ 65535) ∧
    (let s := { up with dirOut := [anyDirective], evOut := [anyEvent] }
     s.eventsWork ∧ s.dirOut = anyDirective :: [] ∧ s.evOut = anyEvent :: [] ∧ s.map = some board ∧
      s.dirSent = false ∧ s.evSent = false ∧ ({ s with dirSent := true } : State).dirSent = true) ∧
    (let s := { up with op := .halted, evOut := [anyEvent], evSent := true }
     s.op = .halted ∧ s.evOut = anyEvent :: [] ∧ s.evSent = true) :=
  ⟨by decide, ⟨Or.inl rfl, by decide +kernel⟩, rfl, rfl, rfl⟩

theorem test_ConsumerWritesAreJudged :
    (let s := { up with dirProd := 5, dirCons := 3 }
     (∀ v ∈ [(3 : Byte), 5], let x := writeOf .rlc 0x108 1 [some v, some 0, some 0, some 0]
       State.carries s (.directiveConsumerWrite x) x ∧ classify s.map x = some .descriptor ∧
       x.isRead = false ∧ confined x 0x108 0x10C = true ∧
       acceptedValue s.dirCount s.dirProd s.dirCons (consumerValue x 0x108 s.dirCons)) ∧
     (∀ v ∈ [(2 : Byte), 6, 64], let x := writeOf .rlc 0x108 1 [some v, some 0, some 0, some 0]
       State.carries s (.directiveConsumerWrite x) x ∧ confined x 0x108 0x10C = true ∧
       ¬ acceptedValue s.dirCount s.dirProd s.dirCons (consumerValue x 0x108 s.dirCons))) ∧
    (let s := { up with evProd := 5, evCons := 3, eventsLost := 1 }
     (∀ v ∈ [(3 : Byte), 5, 2, 6, 64],
       State.descriptorWrite s (.eventConsumerWrite (consumerOnly v)) (consumerOnly v) (some .consumer) ∧
         Area.consumer.reached (consumerOnly v) = true) ∧
     (∀ v ∈ [3, 5], acceptedValue s.evCount s.evProd s.evCons v) ∧
     (∀ v ∈ [2, 6, 64], ¬ acceptedValue s.evCount s.evProd s.evCons v) ∧
     s.evCons < s.evCount ∧ s.eventsLost ≠ 0 ∧ up.eventsLost = 0) ∧
    let s := { scanning 5 with evProd := 5, evCons := 3 }
    (∀ v ∈ [(3 : Byte), 6], State.carries s (.eventConsumerWrite (consumerOnly v)) (consumerOnly v) ∧
      classify s.map (consumerOnly v) = some .descriptor ∧ Area.consumer.reached (consumerOnly v) = true ∧
      reaches (consumerOnly v) 0x180 0x200 = false ∧ reaches (consumerOnly v) 0x100 0x104 = false ∧
      reaches (consumerOnly v) 0x110 0x114 = false ∧ reaches (consumerOnly v) 0x108 0x10C = false) ∧
    s.startup = .scan 5 ∧ s.evCons < s.evCount ∧ acceptedValue s.evCount s.evProd s.evCons 3 ∧
      ¬ acceptedValue s.evCount s.evProd s.evCons 6 := by
  refine ⟨?_, ?_, ?_⟩ <;> decide +kernel

/-! ### The record arrays and the intake rings -/

/-- A provisioned handset, in an empty hall. -/
def waiting : State := hall (handset .provisioned) .powerOn

theorem test_HandsetReadIsComposed :
    (∀ x ∈ [readOf .cp 65536 8, readOf .cp (65536 + 56) 2, readOf .cp (131072 - 8) 1],
      waiting.carries (.handsetRecordRead x) x ∧ classify waiting.map x = some .handsetArray ∧
      ∀ p ∈ waiting.handsetBeats x, waiting.readable p.1 ∧ byteAt (waiting.recordImage p.1) 60 = 0 ∧
        (p.2 < 4 → beatClass (waiting.recordImage p.1) p.2 = .clean)) ∧
    (let s := holding (65536 + 60) [1] (hall { handset .provisioned with poisoned := true } .powerOn)
     ∀ x ∈ [readOf .cp 65536 8, readOf .cp (65536 + 32) 1],
       s.carries (.handsetRecordRead x) x ∧ classify s.map x = some .handsetArray ∧ s.handsetBeats x ≠ [] ∧
       (∀ p ∈ s.handsetBeats x, p.1 = 0) ∧ s.readable 0 ∧ byteAt (s.recordImage 0) 60 ≠ 0) ∧
    (let s := holding (65536 + 57) [0x80] waiting
     beatClass (s.recordImage 0) 1 = .correctable 0 ∧ s.readable 0) ∧
    let s := holding (65536 + 57) [0x03] waiting
    beatClass (s.recordImage 0) 1 = .uncorrectable ∧ s.readable 0 ∧
      (0, 1) ∈ s.handsetBeats (readOf .cp 65536 8) := by
  refine ⟨?_, ?_, ?_, ?_⟩ <;> decide +kernel

theorem test_FindingsAreHandled :
    (waiting.ctx 0).poisoned = false ∧
    (∀ l ∈ [(waiting.recordImage 0), (holding (65536 + 56) [0x80] waiting).recordImage 0,
        (holding (65536 + 56) [0x03] waiting).recordImage 0], byteAt l 60 = 0) ∧
    classifyBeat (beatAt (waiting.recordImage 0) 0) (byteAt (waiting.recordImage 0) 56) = .clean ∧
    (let l := (holding (65536 + 56) [0x80] waiting).recordImage 0
     classifyBeat (beatAt l 0) (byteAt l 56) = .correctable 0) ∧
    (let l := (holding (65536 + 56) [0x03] waiting).recordImage 0
     classifyBeat (beatAt l 0) (byteAt l 56) = .uncorrectable) ∧
    waiting.faultList = [] ∧ waiting.corrected < 65535 ∧ waiting.params.threshold = 0 := by decide +kernel

theorem test_HandsetWriteRefusals :
    (enabled (writeOf .cp 65536 1 []) = [] ∧ waiting.carries (.handsetRecordWrite (writeOf .cp 65536 1 []))
      (writeOf .cp 65536 1 [])) ∧
    (let x := writeOf .cp (65536 + 56) 2 (byteAfter 0 1 ++ List.replicate 7 none ++ [some 1])
     waiting.carries (.handsetRecordWrite x) x ∧ classify waiting.map x = some .handsetArray ∧
      (65536 + 56, 1) ∈ enabled x ∧ (65536 + 64, 1) ∈ enabled x) ∧
    (∀ p ∈ [(56, 63), (32, 34), (36, 55)], ∀ i ∈ [p.1, p.2],
      let x := writeOf .cp (65536 + 8 * (i / 8)) 1 (byteAfter (i % 8) 1)
      waiting.writesRecord (.handsetRecordWrite x) x 0 ∧ anyEnabled (waiting.recordBytes x 0) i (i + 1) = true) ∧
    (let x := writeOf .cp 65536 5 (byteAfter 31 1 ++ byteAfter 3 1)
     waiting.writesRecord (.handsetRecordWrite x) x 0 ∧ anyEnabled (waiting.recordBytes x 0) 35 36 = true ∧
      anyEnabled (waiting.recordBytes x 0) 0 32 = true) ∧
    (let s := hall { handset .provisioned with poisoned := true } .powerOn
     let x := writeOf .cp 65536 1 [some 1]
     s.writesRecord (.handsetRecordWrite x) x 0 ∧ anyEnabled (s.recordBytes x 0) 32 64 = false ∧
      s.rebuilding 0 = false ∧ (s.ctx 0).poisoned = true ∧ fullRewrite (s.recordBytes x 0) = false) ∧
    (let s := waiting
     let x := writeOf .cp (65536 + 64) 1 (full (leBytes 8 1))
     let w := s.recordBytes x 1
     s.writesRecord (.handsetRecordWrite x) x 1 ∧ anyEnabled w 32 64 = false ∧ s.rebuilding 1 = false ∧
      (s.ctx 1).poisoned = false ∧ (∀ b < 4, beatPartial w b = false) ∧ anyEnabled w 0 5 = true ∧
      s.recordWrite = none ∧ s.merge = none ∧
      s.mapLookup (BitVec.ofNat 40 (fieldAt (w.map fun b => b.getD 0) 0 5)) =
        some { slot := 0, identity := 1, parityBad := false }) ∧
    (let s := waiting.setCtx 1 { HandsetCtx.vacant with poisoned := true }
     let x := writeOf .cp (65536 + 64) 4 (full (leBytes 8 1 ++ List.replicate 24 0))
     s.writesRecord (.handsetRecordWrite x) x 1 ∧ (s.ctx 1).poisoned = true ∧ fullRewrite (s.recordBytes x 1) = true ∧
      (∀ b < 4, beatPartial (s.recordBytes x 1) b = false)) := by
  refine ⟨?_, ?_, ?_, ?_, ?_, ?_, ?_⟩ <;> decide +kernel

theorem test_ProvisionedWriteIsSent :
    (∀ id ∈ [1, 5], let x := writeOf .cp 65536 1 (full (leBytes 8 id))
     let w := waiting.recordBytes x 0
     waiting.provisions (.handsetRecordWrite x) x 0 ∧ waiting.merge = none ∧ (∀ b < 4, beatPartial w b = false) ∧
      (waiting.mapLookup (BitVec.ofNat 40 (fieldAt (w.map fun b => b.getD 0) 0 5))).all
        (fun e => decide (e.slot = 0 ∧ e.parityBad = false)) = true) ∧
    (let x := writeOf .cp (65536 + 24) 1 (byteAfter 7 1)
     waiting.provisions (.handsetRecordWrite x) x 0 ∧ beatPartial (waiting.recordBytes x 0) 3 = true) ∧
    (∀ check ∈ [(0x00 : Byte), 0x80, 0x03],
      let x := writeOf .cp (65536 + 8) 1 [some 9]
      let s := holding (65536 + 57) [check] { waiting with merge := some (.handset 0 x) }
      s.op = .running ∧ s.merge = some (.handset 0 x) ∧ (s.ctx 0).poisoned = false ∧ byteAt (s.recordImage 0) 60 = 0 ∧
        beatPartial (s.recordBytes x 0) 1 = true ∧ anyEnabled (s.recordBytes x 0) 0 5 = false ∧
        ((readingOf 0 .merge (s.recordImage 0) [1]).spoilt ↔ check = 0x03)) ∧
    (let x := writeOf .cp (65536 + 64) 1 (full (leBytes 5 1))
     let s := { waiting with merge := some (.handset 1 x) }
     let d := overlaid (s.recordBytes x 1) (correctedBytes (s.recordImage 1))
     s.merge = some (.handset 1 x) ∧ ¬ (readingOf 1 .merge (s.recordImage 1) [0]).spoilt ∧ (s.ctx 1).poisoned = false ∧
      anyEnabled (s.recordBytes x 1) 0 5 = true ∧ s.mapLookup (BitVec.ofNat 40 (fieldAt d 0 5)) =
        some { slot := 0, identity := 1, parityBad := false }) := by
  refine ⟨?_, ?_, ?_, ?_⟩ <;> decide +kernel

/-- A change that names nothing. -/
def noChange : ProvChange :=
  { identity := none, code := none, cls := none, group := none, policy := none, priority := none, full := false }

/-- A write of slot 0 with that change, being sent to memory, for a context. -/
def sending (c : ProvChange) (k : HandsetCtx) : State :=
  { hall k (busy .inService) with recordWrite := some (.handset 0 [] [0] c) }

theorem undamaged_sending (c : ProvChange) {k : HandsetCtx} (hk : k.ctxParityBad = false) : (sending c k).undamaged :=
  undamaged_of_eq (undamaged_hall hk (h := busy .inService) rfl) rfl rfl rfl rfl

theorem test_RecordWriteIsHandedOver :
    (∀ f ∈ [false, true], let c := { noChange with identity := some 7, full := f }
     let s := sending c .vacant
     let x := (State.takenWrite s 0 [] c).ctx 0
     s.op = .running ∧ s.readable 0 ∧ x.state = .vacant ∧ c.identity = some 7 ∧ (7 : Identity) ≠ x.identity) ∧
    (let c := { noChange with cls := some 2 }
     (∀ k ∈ [caller, handset .idle, { caller with staged := some ⟨2, 0, .auto, 0⟩ }],
      (sending c k).op = .running ∧ (sending c k).readable 0 ∧
        ((State.takenWrite (sending c k) 0 [] c).ctx 0).state ≠ .quarantined ∧
        ({ c with identity := some 1 }).identity.getD ((State.takenWrite (sending c k) 0 [] c).ctx 0).identity =
          ((State.takenWrite (sending c k) 0 [] c).ctx 0).identity) ∧ c.identity = none ∧ c.code = none) ∧
    let s := { up with recordWrite := some (.head 2 [] 3 1) }
    s.op = .running ∧ s.recordWrite = some (.head 2 [] 3 1) := by
  refine ⟨?_, ?_, rfl, rfl⟩ <;> decide +kernel

/-- The change of identity, of code, or of neither, met by a context in every state. -/
theorem test_ProvisioningChangesAct :
    (∀ c ∈ [{ noChange with identity := some 7 }, { noChange with identity := some 0 },
        { noChange with code := some 9 }, { noChange with full := true, identity := some 7 }],
      ∀ k ∈ [caller, handset .queued, handset .idle, handset .lost, handset .barred, handset .quarantined],
      let s := sending c k
      s.op = .running ∧ s.recordWrite = some (.handset 0 [] [0] c) ∧
        ((State.takenWrite s 0 [] c).ctx 0).state = k.state ∧ ((State.takenWrite s 0 [] c).ctx 0).identity = 1) ∧
    ∀ c k, k.ctxParityBad = false → (sending c k).undamaged :=
  ⟨by decide +kernel, fun c _ hk => undamaged_sending c hk⟩

theorem test_MediaHeadWriteIsJudged :
    (∀ p ∈ [(caller, (3 : Byte)), (caller, 2), (handset .idle, 0xFF), (mover, 2)],
      let s := hall p.1 (busy .inService)
      let x := writeOf .cp (65536 + 32) 1 (byteAfter 3 p.2)
      s.writesRecord (.mediaHeadWrite x) x 0 ∧ s.readable 0 ∧ (s.recordBytes x 0)[35]? = some (some p.2) ∧
        ∀ i, i < 64 → i ≠ 35 → (s.recordBytes x 0)[i]? = some none) ∧
    ((3 : Byte).toNat ≠ headCode caller.serving ∧ (0xFF : Byte).toNat = headCode (handset .idle).serving ∧
    (caller.serving = some 2 ∧ (2 : Byte).toNat = (2 : Head).val ∧ caller.txn = none)) ∧
    (∀ p ∈ [Phase.commanded, .switched],
     let x := writeOf .cp (65536 + 32) 1 (byteAfter 3 2)
     (handing (moving p)).writesRecord (.mediaHeadWrite x) x 0 ∧ ((handing (moving p)).ctx 0).state = .moving ∧
      (handing (moving p)).openTxn 0 = some (0, moving p) ∧ ((handing (moving p)).ctx 0).serving = some 2) ∧
    ∀ t, (handing t).undamaged := by
  refine ⟨?_, ?_, ?_, undamaged_handing⟩ <;> decide +kernel

/-- A whole beat 0 for the record of head 0. -/
def headWrite (capacity guard : Byte) : Transaction :=
  writeOf .cp 2048 1 (full ([capacity, guard] ++ List.replicate 6 0))

theorem test_HeadRecordIsReadAndWritten :
    (∀ x ∈ [readOf .cp 2048 8, readOf .cp (2048 + 63 * 32 + 24) 1],
      up.carries (.headRecordRead x) x ∧ classify up.map x = some .headArray) ∧
    (∀ h, (up.head h).poolParityBad = false) ∧
    (∀ x ∈ [headWrite 12 4, headWrite 0 0, headWrite 13 0, headWrite 12 5, headWrite 3 4],
      up.writesHead (.headRecordWrite x) x 0 ∧ anyEnabled (bytesFor x (up.headAddr 0) 32) 8 32 = false ∧
        beatWhole (bytesFor x (up.headAddr 0) 32) 0 = true) ∧
    (∀ k ∈ [8, 31], let x := writeOf .cp 2048 4 (byteAfter k 1)
      up.writesHead (.headRecordWrite x) x 0 ∧ anyEnabled (bytesFor x (up.headAddr 0) 32) 8 32 = true) ∧
    (let x := writeOf .cp 2048 1 [some 4]
     up.writesHead (.headRecordWrite x) x 0 ∧ up.merge = none ∧ beatWhole (bytesFor x (up.headAddr 0) 32) 0 = false ∧
      ({ up with merge := some (.head 0 x) } : State).merge = some (.head 0 x) ∧
      (writtenAt x (up.headAddr 0)).getD 0 = 4) := by
  refine ⟨?_, undamaged_up.pools, ?_, ?_, ?_⟩ <;> decide +kernel

/-- The 32 bytes of a slot that begins so. -/
def slotOf (bytes : List Byte) : List (Option Byte) := full ((bytes ++ List.replicate 32 0).take 32)

theorem test_IntakeWritesAreTaken :
    (∀ bs ∈ [[], byteAfter 8 1, slotOf [0x04, 2, 1], slotOf [0x3F]],
      let x := writeOf .rlc (4096 + 32 * 63) 4 bs
      up.ringWrite (.uplinkRingWrite x) x .uplink ∧ (enabled x = [] ↔ bs = []) ∧
        (oneSlot (up.ringBase .uplink) x ↔ bs.all Option.isSome = true ∧ bs ≠ [])) ∧
    (∀ bs ∈ [[], byteAfter 8 1, slotOf [0x21], slotOf [0x3F]],
      let x := writeOf .cp 8192 4 bs
      up.ringWrite (.requestRingWrite x) x .request ∧ (enabled x = [] ↔ bs = []) ∧
        (oneSlot (up.ringBase .request) x ↔ bs.all Option.isSome = true ∧ bs ≠ [])) ∧
    (parseUplink ((writeBytes (writeOf .rlc 4096 4 (slotOf [0x04, 2, 1]))).map fun b => b.getD 0)).toOption =
      some (.handset 2 1 .keepalive) ∧
    (parseUplink ((writeBytes (writeOf .rlc 4096 4 (slotOf [0x3F]))).map fun b => b.getD 0)).toOption = none ∧
    (parseRequest ((writeBytes (writeOf .cp 8192 4 (slotOf [0x21]))).map fun b => b.getD 0)).toOption =
      some (.page 0) ∧
    (parseRequest ((writeBytes (writeOf .cp 8192 4 (slotOf [0x3F]))).map fun b => b.getD 0)).toOption = none ∧
    (let u : HeldUplink :=
      { write := writeOf .rlc 4096 4 (slotOf [0x04, 2, 1]), item := .handset 2 1 .keepalive, deadline := 10000 }
     let r : HeldRequest := { write := writeOf .cp 8192 4 (slotOf [0x21]), item := .page 0, deadline := 10001 }
     let s := { up with heldRlc := some u, heldCp := some r }
     s.op = .running ∧ s.uplinkOverrun ≤ 65535 ∧ s.requestOverrun ≤ 65535 ∧ s.heldRlc = some u ∧ s.heldCp = some r ∧
      s.uplink.length < 32 ∧ s.requests.length < 8 ∧ passed u.deadline s.timeBase = true ∧
      passed r.deadline s.timeBase = false) ∧
    up.uplink.length < 32 ∧ 32 ≤ (List.replicate 32 (UplinkMsg.headStatus 0 false)).length ∧
    up.requests.length < 8 ∧ 8 ≤ (List.replicate 8 Request.ackFatal).length := by
  refine ⟨?_, ?_, ?_, ?_, ?_, ?_, ?_, ?_, ?_, ?_, ?_⟩ <;> decide +kernel

theorem test_IntakeSlotsAreRead :
    (1 : Identity) ≠ 0 ∧ 12 ≤ (12 : Byte).toNat ∧ (0x0C : Byte) < 0x0D ∧
    (let raw : List (Byte × Byte) := [(2, 50), (3, 127)]
     (2 : Byte).toNat = raw.length ∧ (raw.map Prod.fst).Nodup ∧
      raw.map (fun p => (p.1.toNat, p.2.toNat)) = [((2 : Head), 50), (3, 127)].map (fun p => (p.1.val, p.2))) ∧
    (64 ≤ (64 : Byte).toNat ∧ ¬ ([((2 : Byte), (50 : Byte)), (2, 51)].map Prod.fst).Nodup) ∧
    (BitVec.ofNat 16 5).toNat = (5 : Slot).val ∧ (3 : Byte).toNat = (3 : Head).val ∧
    1024 ≤ (BitVec.ofNat 16 1024).toNat ∧ (0x20 : Byte).toNat < 0x21 ∧ 0x29 < (0x2A : Byte).toNat := by decide

theorem test_RecordLayouts :
    pending.CountersSound ∧ pending.ListsSound ∧ HandsetCtx.vacant.Sound ∧ HeadCtx.powerOn.Sound ∧
      AttachHead.reset.Sound :=
  ⟨sound_pending.counters, sound_pending.lists, HandsetCtx.sound_vacant, HeadCtx.sound_powerOn, AttachHead.sound_reset⟩

/-! ### Messages, calls and requests -/

/-- Every handset state. -/
def states : List HandsetState :=
  [.vacant, .provisioned, .barred, .quarantined, .queued, .offered, .idle, .doze, .active, .pinned, .lost]

/-- A message of any kind finds its slot, in every state of the slot. -/
theorem test_messages_are_delivered :
    ∀ st ∈ states, ∀ m ∈ [HandsetMsg.attach 0, .attachConfirm, .detach, .keepalive, .dozeRequest, .callRequest,
        .callRelease, .measurement [(2, 50)], .access, .revert, .channelRefused 5],
      (hears m (hall (handset st) (head .inService))).delivers 2 1 m 0 ∧
        ((hears m (hall (handset st) (head .inService))).heard 0 |>.ctx 0).state = st := by decide +kernel

/-- A request of any kind that names a slot is at its owner, in every state of the slot. -/
theorem test_requests_are_taken :
    ∀ st ∈ states, ∀ r ∈ [Request.page 0, .releaseCall 0, .forceHandover 0 3, .unpin 0, .detachHandset 0],
      (asked r (hall (handset st) (head .inService))).op = .running ∧
      (asked r (hall (handset st) (head .inService))).requests.head? = some r ∧
      (asked r (hall (handset st) (head .inService))).requestWaits = false ∧ r.slot? = some 0 ∧
      (asked r (hall (handset st) (head .inService))).readable 0 ∧
      ((asked r (hall (handset st) (head .inService))).ctx 0).state = st := by decide +kernel

/-- A call of slot 0 on head 2, heard or asked about, in every state of a call. -/
theorem test_calls_are_met :
    (∀ m ∈ [HandsetMsg.attach 0, .attach 1, .detach, .callRelease, .callRequest, .keepalive, .dozeRequest,
        .measurement [(2, 50)]],
      ∀ st ∈ [HandsetState.active, .pinned],
      let s := hears m (hall { caller with state := st } (busy .inService))
      s.delivers 2 1 m 0 ∧ ((s.heard 0).ctx 0).state.inCall = true ∧ (s.ctx 0).code = 0) ∧
    (∀ r ∈ [Request.detachHandset 0, .releaseCall 0],
      (asked r (hall caller (busy .degraded))).requested r ∧
        ((asked r (hall caller (busy .degraded))).ctx 0).state.inCall = true) ∧
    (∀ m c h, c.ctxParityBad = false → h.poolParityBad = false → (hears m (hall c h)).undamaged) ∧
    ∀ r c h, c.ctxParityBad = false → h.poolParityBad = false → (asked r (hall c h)).undamaged := by
  refine ⟨by decide +kernel, ?_, fun m c h hc hh => undamaged_of_eq (undamaged_hall hc hh) rfl rfl rfl rfl,
    fun r c h hc hh => undamaged_of_eq (undamaged_hall hc hh) rfl rfl rfl rfl⟩
  intro r hr
  simp only [List.mem_cons, List.not_mem_nil, or_false] at hr
  rcases hr with rfl | rfl <;>
    exact ⟨⟨rfl, rfl, by decide +kernel, fun n hn => by cases hn; decide +kernel⟩, by decide +kernel⟩

theorem test_UnknownIdentityIsRejected :
    let s := hears (.attach 0) up
    s.op = .running ∧ s.uplink.head? = some (.handset 2 1 (.attach 0)) ∧ s.uplinkWaits = false ∧
      s.mapLookup 1 = none ∧ s.unknownIds ≤ 65535 := by decide +kernel

/-- Codes 0 and 1 against a context of code 0, at every count of failures. -/
theorem test_AttachCodeIsJudged :
    ∀ k ∈ [0, 1, 2], ∀ st ∈ [HandsetState.vacant, .provisioned, .queued, .offered, .idle, .doze, .lost, .active],
      let s := hears (.attach 1) (hall { handset st with accessFail := k } (head .inService))
      s.delivers 2 1 (.attach 1) 0 ∧ ((s.heard 0).ctx 0).state = st ∧ ((s.heard 0).ctx 0).code ≠ 1 ∧
        (k < 2 ∨ 2 ≤ ((s.heard 0).ctx 0).accessFail) := by decide +kernel

/-- Attach Queues of no, 7 and 8 entries. -/
def queued (k credits : Nat) (s : State) : State :=
  s.setAtt 2 { credits := credits, regain := none, queue := List.replicate k (5, 9000) }

theorem test_AttachIsAdmitted :
    (∀ st ∈ [HandsetState.provisioned, .idle, .doze, .lost, .offered, .vacant], ∀ h ∈ [HeadState.inService, .degraded, .draining],
      let s := hears (.attach 0) (hall (handset st) (head h))
      s.delivers 2 1 (.attach 0) 0 ∧ (s.ctx 0).code = 0 ∧ (s.head 2).state = h ∧ s.contained = false ∧
        1 ≤ (s.att 2).credits ∧ (s.att 2).queue = []) ∧
    (let s := hears (.attach 0) { hall (handset .idle) (head .inService) with contained := true }
     s.delivers 2 1 (.attach 0) 0 ∧ s.contained = true) ∧
    (let s := queued 0 0 (hears (.attach 0) (hall (handset .idle) (head .inService)))
     s.delivers 2 1 (.attach 0) 0 ∧ (s.att 2).credits = 0) ∧
    (let s := queued 7 1 (hears (.attach 0) (hall (handset .idle) (head .inService)))
     s.delivers 2 1 (.attach 0) 0 ∧ (s.att 2).queue ≠ [] ∧ (s.att 2).queue.length < 8) ∧
    (∀ h ∈ [(2 : Head), 3],
      let s := hears (.attach 0) (hall { handset .queued with admissionHead := some h } (head .inService))
      s.delivers 2 1 (.attach 0) 0 ∧ ((s.heard 0).ctx 0).state = .queued ∧
        (((s.heard 0).ctx 0).admissionHead = some 2 ↔ h = 2)) ∧
    let s := queued 8 1 (hears (.attach 0) (hall (handset .idle) (head .inService)))
    s.delivers 2 1 (.attach 0) 0 ∧ 8 ≤ (s.att 2).queue.length := by
  refine ⟨?_, ?_, ?_, ?_, ?_, ?_⟩ <;> decide +kernel

/-- A presence window of mode WINDOW that started at 9000 and lasts 2000, so that its half ends at 10000. -/
def window (missed early : Bool) (start : Time) : Presence :=
  { mode := .window, period := some 2000, start := some start, deadline := some (start + 2000), missed := missed
    early := early }

/-- An IDLE handset that started its window then, heard by a head in the given state. -/
abbrev keptAlive (start : Time) (e m : Bool) (h : HeadState) (isEarly : Prop) : Prop :=
  let s := hears .keepalive (hall { handset .idle with presence := window m e start } (head h))
  let p := ((s.heard 0).ctx 0).presence
  s.delivers 2 1 .keepalive 0 ∧ p.mode = .window ∧ p.early = e ∧ p.missed = m ∧ (s.head 2).state = h ∧
    ((s.timeBase - p.start.getD 0).toNat < (p.period.getD 0).toNat / 2 ↔ isEarly)

theorem test_KeepaliveIsJudged :
    (∀ h ∈ [HeadState.inService, .draining],
      keptAlive 9000 true false h False ∧ keptAlive 9001 false false h True ∧ keptAlive 9001 true false h True ∧
        keptAlive 9001 true true h True) ∧
    (∀ h ∈ [HeadState.inService, .draining], ∀ g ∈ [(0 : BitVec 4), 1], ∀ st ∈ [HandsetState.doze, .lost],
      let s := hears .keepalive (hall { handset st with group := g } (head h))
      s.delivers 2 1 .keepalive 0 ∧ ((s.heard 0).ctx 0).state = st ∧ ((s.heard 0).ctx 0).presence.mode ≠ .window ∧
        (s.head 2).state = h ∧ (g = 1 ↔ ((s.heard 0).ctx 0).group ≠ 0 ∧ (s.terms ((s.heard 0).ctx 0)).doze ≠ 15)) := by
  refine ⟨?_, ?_⟩ <;> decide +kernel

theorem test_DozeRequestIsJudged :
    ∀ st ∈ [HandsetState.idle, .doze], ∀ g ∈ [(0 : BitVec 4), 1], ∀ h ∈ [HeadState.inService, .draining],
      let s := hears .dozeRequest (hall { handset st with group := g } (head h))
      s.delivers 2 1 .dozeRequest 0 ∧ ((s.heard 0).ctx 0).state = st ∧ (s.head 2).state = h ∧
        (g = 1 ↔ ((s.heard 0).ctx 0).group ≠ 0 ∧ (s.terms ((s.heard 0).ctx 0)).doze ≠ 15) := by decide +kernel

/-- Heads with 3 channels and a guard of 1, two or three of them allocated. -/
def pool (k : Nat) : HeadCtx :=
  { head .inService with pool := Vector.ofFn fun c => if c.val < k then some (.call 9) else none }

theorem test_CallRequestIsAnswered :
    (∀ st ∈ [HandsetState.idle, .doze, .lost],
     let s := hears .callRequest (hall (handset st) (pool 1))
     s.delivers 2 1 .callRequest 0 ∧ ((s.heard 0).ctx 0).state = st ∧ (s.head 2).poolParityBad = false ∧
      s.callGranted 2 1) ∧
    ∀ st ∈ [HandsetState.idle, .doze, .lost],
    let s := hears .callRequest (hall (handset st) (pool 2))
    s.delivers 2 1 .callRequest 0 ∧ (s.head 2).poolParityBad = false ∧ ∀ ch, ¬ s.callGranted 2 ch := by
  refine ⟨?_, ?_⟩ <;> decide +kernel

/-- The messages that UnexpectedMessagesAreAnswered speaks of are delivered in the states it names
(`test_messages_are_delivered`), at heads in service and draining, with doze allowed and not. -/
theorem test_UnexpectedMessagesAreAnswered :
    ∀ st ∈ [HandsetState.vacant, .provisioned, .lost], ∀ h ∈ [HeadState.inService, .draining], ∀ g ∈ [(0 : BitVec 4), 1],
      ∀ m ∈ [HandsetMsg.keepalive, .dozeRequest],
      let s := hears m (hall { handset st with group := g } (head h))
      s.delivers 2 1 m 0 ∧ ((s.heard 0).ctx 0).state = st ∧ (s.head 2).state = h ∧
        (g = 1 ↔ ((s.heard 0).ctx 0).group ≠ 0 ∧ (s.terms ((s.heard 0).ctx 0)).doze ≠ 15) := by decide +kernel

theorem test_MeasurementIsFiltered :
    let m := HandsetMsg.measurement [(2, 50), (3, 127)]
    let s := hears m { hall caller (busy .inService) with contained := true }
    (s.delivers 2 1 m 0 ∧ ((s.heard 0).ctx 0).state.inCall = true ∧ ((s.heard 0).ctx 0).serving = some 2 ∧
      s.contained = true ∧ ((s.heard 0).ctx 0).quality = .idle) ∧ Quality.idle.Sound (some 2) ∧
    ((hears m (hall { caller with serving := some 3 } (head .inService))).delivers 2 1 m 0) := by
  refine ⟨?_, Quality.sound_idle _, ?_⟩ <;> decide +kernel

/-- A call with a candidate at head 3, the serving level and the dwell given. -/
def candid (level dwell : Nat) : HandsetCtx :=
  { caller with quality := { Quality.idle with
      level := some level
      candidates := [{ head := 3, level := 60, staleness := 0, dwell := dwell, underRange := false, overRange := false }] } }

/-- The triggers' cases: no choice, DRAIN, URGENT, a dwell that counts and one that is met. -/
theorem test_TriggersOpenHandovers :
    ∀ p ∈ [(candid 50 0, HeadState.inService, HeadState.inService), (candid 50 0, .draining, .inService),
        (candid 0 0, .inService, .inService), (candid 50 0, .inService, .failed)],
      ∀ st ∈ [HandsetState.active, .pinned],
      let m := HandsetMsg.measurement [(2, 50), (3, 60)]
      let s := hears m ((hall { p.1 with state := st } (busy p.2.1)).setHead 3 (head p.2.2))
      s.delivers 2 1 m 0 ∧ s.deferrals ≤ 65535 ∧ ((s.heard 0).ctx 0).state = st ∧
        ((s.heard 0).ctx 0).serving = some 2 ∧ s.contained = false := by decide +kernel

theorem test_triggers_undamaged (m : HandsetMsg) (c : HandsetCtx) (h k : HeadCtx) (hc : c.ctxParityBad = false)
    (hh : h.poolParityBad = false) (hk : k.poolParityBad = false) : (hears m ((hall c h).setHead 3 k)).undamaged :=
  undamaged_of_eq (undamaged_setHead (undamaged_hall hc hh) 3 hk) rfl rfl rfl rfl

/-! ### Handover -/

/-- A message of slot 0 through a head, met by an open transaction. -/
def during (x : Head) (m : HandsetMsg) (t : Handover) : State := { handing t with uplink := [.handset x 1 m] }

theorem undamaged_during (x : Head) (m : HandsetMsg) (t : Handover) : (during x m t).undamaged :=
  undamaged_of_eq (undamaged_handing t) rfl rfl rfl rfl

theorem test_AccessSwitches :
    (let s := during 3 .access (moving .commanded)
     s.delivers 3 1 .access 0 ∧ s.holds 0 0 (moving .commanded) ∧ (moving .commanded).target = some 3 ∧
      (moving .commanded).targetChan = some 5 ∧ ((s.heard 0).ctx 0).channel = some 0) ∧
    (let s := hears .access (hall caller (busy .inService))
     s.delivers 2 1 .access 0 ∧ ((s.heard 0).ctx 0).txn = none ∧ ((s.heard 0).ctx 0).serving = some 2) ∧
    (∀ p ∈ [Phase.switched, .commanded, .reserving],
     let s := during 2 .access (moving p)
     s.delivers 2 1 .access 0 ∧ s.holds 0 0 (moving p) ∧ (moving p).target ≠ some 2 ∧
      ((s.heard 0).ctx 0).serving = some 2) ∧
    ∀ x m t, (during x m t).undamaged := by
  refine ⟨?_, ?_, ?_, undamaged_during⟩ <;> decide +kernel

/-- An ORPHANED transaction of slot 0. -/
def orphan : Handover := { moving .orphaned with cause := .orphan, target := none, deadline := 9000 }

theorem test_AccessReestablishes :
    (let s := during 3 .access orphan
     s.delivers 3 1 .access 0 ∧ s.holds 0 0 orphan ∧ orphan.phase = .orphaned) ∧
    (let s := { hall caller (busy .inService) with uplink := [.handset 3 1 .access] }
     State.delivers s 3 1 .access 0 ∧ ((s.heard 0).ctx 0).state = .active ∧ ((s.heard 0).ctx 0).txn = none ∧
      ((s.heard 0).ctx 0).serving = some 2 ∧ ((s.heard 0).ctx 0).channel = some 0) ∧
    (∀ p ∈ [(Phase.reserving, (3 : Head)), (.reserving, 4), (.commanded, 4)],
      let s := during p.2 .access (moving p.1)
      s.delivers p.2 1 .access 0 ∧ s.holds 0 0 (moving p.1) ∧ ((s.heard 0).ctx 0).serving = some 2 ∧
        ((s.heard 0).ctx 0).channel = some 0) ∧
    ({ hall caller (busy .inService) with uplink := [.handset 3 1 .access] } : State).undamaged := by
  refine ⟨?_, ?_, ?_, undamaged_of_eq (undamaged_hall (c := caller) (h := busy .inService) rfl rfl) rfl rfl rfl rfl⟩ <;>
    decide +kernel

/-- A transaction in a phase with a deadline that has passed, or not. -/
abbrev due (p : Phase) (d : Time) (b : Bool) : Prop :=
  let t := { moving p with deadline := d }
  let s := handing t
  s.op = .running ∧ s.readable 0 ∧ s.holds 0 0 t ∧ t.phase = p ∧ passed t.deadline s.timeBase = b

theorem test_FailuresAreCounted :
    (∀ x ∈ [(2 : Head), 3],
      let s := during x .revert (moving .commanded)
      s.delivers x 1 .revert 0 ∧ s.holds 0 0 (moving .commanded)) ∧
    (∀ y ∈ [(5 : Chan), 6],
      let s := during 3 (.channelRefused y) (moving .commanded)
      s.delivers 3 1 (.channelRefused y) 0 ∧ s.holds 0 0 (moving .commanded)) ∧
    (∀ m ∈ [HandsetMsg.revert, .channelRefused 5],
      (hears m (hall caller (busy .inService))).delivers 2 1 m 0 ∧ caller.txn = none) ∧
    (due .commanded 10000 true ∧ due .reserving 10000 true ∧ due .commanded 10001 false) := by
  refine ⟨?_, ?_, ?_, ?_, ?_, ?_⟩ <;> decide +kernel

/-- A table whose entries are all open. -/
def crowded (s : State) : State :=
  { s with table := Vector.replicate 32 { txn := some (moving .commanded), parityBad := false } }

/-- A FORCE_HANDOVER of slot 0 to head 3, in the state given. -/
def forcing (c : HandsetCtx) (target : HeadCtx) : State :=
  asked (.forceHandover 0 3) ((hall c (busy .inService)).setHead 3 target)

theorem undamaged_forcing (target : HeadCtx) (h : target.poolParityBad = false) : (forcing caller target).undamaged :=
  undamaged_of_eq (undamaged_setHead (undamaged_hall (c := caller) (h := busy .inService) rfl rfl) 3 h) rfl rfl rfl rfl

/-- A head in service with all its channels allocated. -/
def fullHead : HeadCtx := { pool 3 with waitQ := [⟨1, 5, .urgent, 0, 9000⟩, ⟨2, 6, .forced, 0, 9500⟩] }

theorem test_ForceHandoverOpens :
    (let s := forcing caller (head .inService)
     (s.op = .running ∧ s.requests.head? = some (.forceHandover 0 3) ∧ s.requestWaits = false ∧ s.readable 0) ∧
      s.contained = false ∧ (s.ctx 0).state = .active ∧ (s.ctx 0).policy ≠ .locked ∧ (s.ctx 0).serving ≠ some 3 ∧
      (s.ctx 0).serving = some 2 ∧ (s.head 3).state = .inService ∧ s.vacantEntry = some 0) ∧
    (let s := crowded (forcing caller (head .inService))
     s.readable 0 ∧ s.vacantEntry = none) ∧
    (asked (.forceHandover 0 2) (hall { caller with policy := .locked } (busy .inService))).readable 0 ∧
    (asked (.forceHandover 0 2) (hall caller (busy .inService))).readable 0 ∧
    (asked (.forceHandover 0 2) (handing (moving .commanded))).readable 0 ∧
    (asked (.forceHandover 0 3) { hall caller (busy .inService) with contained := true }).readable 0 := by
  refine ⟨?_, ?_, ?_, ?_, ?_, ?_⟩ <;> decide +kernel

/-- A waiting transaction of slot 5 at head 2, the call of slot 0 there holding channel 0 and the other channels taken. -/
def serving : State :=
  ((hears .callRelease (hall caller { pool 3 with waitQ := [⟨1, 5, .forced, 0, 9000⟩] })).setEntry 1
    { txn := some { moving .reserving with slot := 5, source := 3, target := some 2 }, parityBad := false })

theorem undamaged_serving : serving.undamaged := by
  have h : (hears .callRelease (hall caller { pool 3 with waitQ := [⟨1, 5, .forced, 0, 9000⟩] })).undamaged :=
    undamaged_of_eq (undamaged_hall (c := caller) (h := { pool 3 with waitQ := [⟨1, 5, .forced, 0, 9000⟩] }) rfl rfl)
      rfl rfl rfl rfl
  exact undamaged_setEntry h 1 rfl

theorem test_WaitQueueIsServed :
    (let s := forcing caller fullHead
     s.requests.head? = some (.forceHandover 0 3) ∧ s.requestWaits = false ∧ s.readable 0 ∧ s.contained = false ∧
      (s.ctx 0).state = .active ∧ (s.ctx 0).policy ≠ .locked ∧ (s.ctx 0).serving = some 2 ∧
      (s.head 3).state = .inService ∧ (s.head 3).freeCount = 0 ∧ s.vacantEntry = some 0) ∧
    (serving.delivers 2 1 .callRelease 0 ∧ (serving.ctx 0).state = .active ∧ (serving.ctx 0).txn = none ∧
      (serving.ctx 0).serving = some 2 ∧ (serving.ctx 0).channel = some 0 ∧ (serving.head 2).state = .inService ∧
      (serving.head 2).waitQ = [⟨1, 5, .forced, 0, 9000⟩] ∧ (serving.entry 1).txn.isSome = true ∧
      (0 : Chan).val < (serving.head 2).capacity ∧ ∀ j : Chan, j < 0 → (serving.head 2).pool[j].isSome = true) ∧
    (let s := hears .callRelease (hall caller (busy .draining))
     s.delivers 2 1 .callRelease 0 ∧ (s.head 2).state = .draining ∧ ∀ j : Chan, j ≠ 0 → (s.head 2).pool[j] = none) ∧
    (forcing caller fullHead).undamaged ∧ serving.undamaged := by
  refine ⟨?_, ?_, ?_, undamaged_forcing _ rfl, undamaged_serving⟩ <;> decide +kernel

theorem test_PageUnpinAndFaultRequestsAct :
    ∀ r ∈ [Request.clearFaultList, .ackFatal], ∀ f ∈ [true, false],
      let s := { asked r up with fatalPending := f }
      (s.op = .running ∧ s.requests.head? = some r ∧ State.requestWaits s = false ∧ r.slot? = none) ∧
        s.fatalPending = f := by decide +kernel

/-! ### Heads, deadlines and reads of the part's own -/

theorem test_HeadStatusIsTaken :
    (∀ st ∈ [HeadState.absent, .inService, .degraded, .draining, .failed, .outOfService], ∀ w ∈ [true, false],
      ∀ k ∈ [0, 1],
      let s := { hall .vacant { head st with capacity := k } with uplink := [.headStatus 2 w] }
      s.op = .running ∧ s.uplink.head? = some (.headStatus 2 w) ∧ State.uplinkWaits s = false ∧
        (State.head s 2).state = st ∧ (State.head s 2).capacity = k) ∧
    ∀ st k w, ({ hall .vacant { head st with capacity := k } with uplink := [.headStatus 2 w] } : State).undamaged := by
  refine ⟨by decide +kernel, fun st k w => ?_⟩
  exact undamaged_of_eq (undamaged_hall (c := .vacant) (h := { head st with capacity := k }) rfl rfl) rfl rfl rfl rfl

theorem test_HeadsDrainAndRestore :
    ∀ st ∈ [HeadState.absent, .inService, .degraded, .draining, .failed, .outOfService],
      ∀ r ∈ [Request.drainHead 2, .restoreHead 2],
      ∀ h ∈ [head st, busy st, { head st with capacity := 0, warning := true }],
      let s := asked r (hall .vacant h)
      (s.op = .running ∧ s.requests.head? = some r ∧ s.requestWaits = false ∧ r.slot? = none) ∧
        (s.head 2).state = st := by decide +kernel

theorem test_head_counts : (busy .inService).inUse = 1 ∧ (head .inService).inUse = 0 := by decide +kernel

theorem test_HeadFailureEndsWork :
    (∀ k ∈ [2, 3], let s := hall caller { busy .inService with failures := k }
      s.op = .running ∧ (s.head 2).liveness = some 9000 ∧ passed 9000 s.timeBase = true) ∧
    passed 10001 up.timeBase = false ∧ (hall caller (busy .inService)).undamaged :=
  ⟨by decide +kernel, by decide, undamaged_hall rfl rfl⟩

/-- An offer, a place in an Attach Queue and a credit in regain, with the deadline given. -/
abbrev offerDue (d : Time) (b : Bool) : Prop :=
  let s := hall { handset .offered with offerDeadline := some d } .powerOn
  s.op = .running ∧ s.readable 0 ∧ (s.ctx 0).state = .offered ∧ (s.ctx 0).offerDeadline = some d ∧
    passed d s.timeBase = b

/-- A handset in the Attach Queue of head 2 since then. -/
def agedSince (j : Time) : State :=
  (hall (handset .queued) .powerOn).setAtt 2 { credits := 0, regain := none, queue := [(0, j)] }

abbrev ageDue (j : Time) (b : Bool) : Prop :=
  (agedSince j).readable 0 ∧ ((agedSince j).ctx 0).state = .queued ∧ passed (j + 4000) (agedSince j).timeBase = b

/-- It stands there alone, and in no other queue. -/
theorem test_queued_once (j : Time) : (agedSince j).queuedAt 0 2 j := by
  have h2 : ((agedSince j).att 2).queue = [(0, j)] := by rw [agedSince, att_setAtt]
  refine ⟨by rw [h2]; exact List.mem_singleton.mpr rfl, fun x q hq _ => ?_⟩
  by_cases hx : x = 2
  · subst hx
    rw [h2] at hq
    exact ⟨rfl, List.mem_singleton.mp hq⟩
  · rw [agedSince, att_setAtt_ne _ _ hx] at hq
    simp [hall, State.att, State.setHead, State.setCtx, up, State.reset, AttachHead.reset] at hq

abbrev regainDue (d : Time) (k : Nat) (q : List (Slot × Time)) (h : HeadState) (b : Bool) : Prop :=
  let s := (hall (handset .queued) (head h)).setAtt 2 { credits := k, regain := some d, queue := q }
  (s.att 2).regain = some d ∧ (s.att 2).credits = k ∧ k < 4 ∧ (s.att 2).queue = q ∧ (s.head 2).state = h ∧
    s.readable 0 ∧ (s.ctx 0).state = .queued ∧ passed d s.timeBase = b

theorem test_AdmissionDeadlinesPass :
    (offerDue 10000 true ∧ offerDue 10001 false) ∧ (ageDue 6000 true ∧ ageDue 6001 false) ∧
    (regainDue 10000 3 [] .inService true ∧ regainDue 10000 0 [(0, 9000)] .draining true ∧
      regainDue 10000 0 [(0, 9000)] .degraded true ∧ regainDue 10001 3 [] .inService false) := by
  refine ⟨⟨?_, ?_⟩, ⟨?_, ?_⟩, ?_, ?_, ?_, ?_⟩ <;> decide +kernel

/-- A handset outside a call whose window ends then. -/
abbrev windowDue (st : HandsetState) (g : BitVec 4) (m : Bool) (start : Time) (dozes b : Bool) : Prop :=
  let s := hall { handset st with group := g, presence := window m false start } .powerOn
  s.op = .running ∧ s.readable 0 ∧ (s.ctx 0).presence.deadline = some (start + 2000) ∧
    passed (start + 2000) s.timeBase = b ∧ (s.ctx 0).presence.mode = .window ∧ (s.ctx 0).presence.missed = m ∧
    (s.ctx 0).state = st ∧ ((s.ctx 0).group ≠ 0 ∧ (s.terms (s.ctx 0)).doze ≠ 15 ↔ dozes = true)

theorem test_PresenceDeadlinesPass :
    (windowDue .idle 0 true 8000 false true ∧ windowDue .idle 0 false 8000 false true ∧
      windowDue .doze 1 false 8000 true true ∧ windowDue .doze 0 false 8000 false true ∧
      windowDue .idle 0 false 8001 false false) ∧
    (let s := hall { caller with presence := { window false false 8000 with mode := .call } } (busy .inService)
     s.readable 0 ∧ (s.ctx 0).presence.mode = .call ∧ (s.ctx 0).state.inCall = true) ∧
    (let s := hall { handset .lost with presence := { window false false 8000 with mode := .grace } } .powerOn
     s.readable 0 ∧ (s.ctx 0).presence.mode = .grace ∧ (s.ctx 0).state = .lost) ∧
    let s := hall { caller with quality := { Quality.idle with holdoff := some 10000 } } (busy .inService)
    s.readable 0 ∧ (s.ctx 0).quality.holdoff = some 10000 := by
  refine ⟨⟨?_, ?_, ?_, ?_, ?_⟩, ?_, ?_, ?_⟩ <;> decide +kernel

/-- A media hold and an orphaned call that end then. -/
abbrev holdDue (d : Time) (b : Bool) : Prop :=
  let t := { moving .switched with source := 3, deadline := d }
  let s := handing t
  s.op = .running ∧ s.readable 0 ∧ s.holds 0 0 t ∧ t.phase = .switched ∧ passed t.deadline s.timeBase = b

theorem test_HandoverDeadlinesPass :
    (holdDue 10000 true ∧ holdDue 10001 false) ∧
    ((handing orphan).readable 0 ∧ (handing orphan).holds 0 0 orphan ∧ orphan.phase = .orphaned ∧
      passed orphan.deadline (handing orphan).timeBase = true) := by
  refine ⟨⟨?_, ?_⟩, ?_⟩ <;> decide +kernel

/-- The hall with a parity fault in the map entry of slot 0. -/
def misfiled (s : State) : State := { s with idMap := [{ slot := 0, identity := 1, parityBad := true }] }

theorem test_FatalFaultsContainAndHalt :
    (up.fatalPending = false ∧ pending.fatalPending = true ∧ Memory.wf pending.mem ∧ pending.recordWrite = none ∧
      pending.evOut = [] ∧ unread pending.evCount pending.evProd pending.evCons + 1 < pending.evCount ∧
      ¬ unread 64 63 0 + 1 < 64) ∧
    (let s := misfiled (hears .keepalive (hall (handset .barred) (head .inService)))
     s.op = .running ∧ s.uplink.head? = some (.handset 2 1 .keepalive) ∧ s.uplinkWaits = false ∧
      (s.mapLookup 1).map (fun e => (e.slot, e.parityBad)) = some (0, true) ∧ s.readable 0 ∧
      (s.ctx 0).state = .barred) ∧
    (let s := { hears .callRequest (hall (handset .idle) { head .inService with poolParityBad := true }) with
       fatalPending := true }
     State.delivers s 2 1 .callRequest 0 ∧ (State.ctx s 0).state = .idle ∧ (State.head s 2).poolParityBad = true) ∧
    (let s := asked (.drainHead 2) (hall .vacant { busy .inService with poolParityBad := true })
     (s.op = .running ∧ s.requests.head? = some (.drainHead 2) ∧ s.requestWaits = false) ∧
      (s.head 2).state = .inService ∧ (s.att 2).queue = [] ∧ (∀ e, (s.entry e).txn = none) ∧ 0 < (s.head 2).inUse) ∧
    (∀ p ∈ [Phase.reserving, .commanded, .switched, .orphaned],
      let s := { (handing (moving p)).setEntry 0 { txn := some (moving p), parityBad := true } with fatalPending := true }
      s.op = .running ∧ State.entry s 0 = { txn := some (moving p), parityBad := true } ∧
        passed (moving p).deadline s.timeBase = true) ∧
    (let s := hears .keepalive (hall { handset .idle with ctxParityBad := true } { head .inService with
       poolParityBad := true })
     (s.mapLookup 1).map (fun e => (e.slot, e.parityBad)) = some (0, false) ∧ s.rebuilding 0 = false ∧
      (s.ctx 0).ctxParityBad = true ∧ (s.head 2).poolParityBad = true) ∧
    let s := holding (65536 + 64 * 1023 + 60) [1] { scanning 1023 with scanFatals := [3] }
    s.op = .starting ∧ s.startup = .scan 1023 ∧ byteAt (s.recordImage 1023) 60 ≠ 0 ∧ s.scanFatals = [3] := by
  refine ⟨⟨rfl, rfl, wf_empty, rfl, rfl, ?_, ?_⟩, ?_, ?_, ?_, ?_, ?_, ?_⟩ <;> decide +kernel

/-- A scrub deadline, and a scrub read of an empty record. -/
abbrev scrubDue (d : Time) (b : Bool) : Prop :=
  let s := { up with scrubDeadline := some d }
  s.op = .running ∧ s.scrubDeadline = some d ∧ s.scrubRead = none ∧ s.cpPort.outstanding = none ∧
    passed d s.timeBase = b

/-- A rebuild of slot 0 in progress, with what waits for it. -/
def rebuildingOf (dropped : Bool) (w : List Waiter) : State :=
  { hall (handset .idle) .powerOn with rebuilds := [{ slot := 0, dropped := dropped, waiting := w }] }

theorem test_ScrubAndRebuildRead :
    (scrubDue 10000 true ∧ scrubDue 10001 false) ∧
    (∀ n ∈ [(0 : Slot), 1023],
      let s := { up with scrubRead := some (ScrubRead.mk n (List.replicate 64 0) [] [] false) }
      s.op = .running ∧ s.scrubRead.map ScrubRead.slot = some n) ∧
    (let s := hears .keepalive (hall { handset .idle with ctxParityBad := true } .powerOn)
     s.op = .running ∧ s.uplink.head? = some (.handset 2 1 .keepalive) ∧ s.uplinkWaits = false ∧
      (s.mapLookup 1).map (fun e => (e.slot, e.parityBad)) = some (0, false) ∧ s.rebuilding 0 = false ∧
      (s.ctx 0).ctxParityBad = true ∧ s.entryOfSlot 0 = none ∧ s.channelsOfSlot 0 none = [] ∧
      (∀ e, (s.entry e).parityBad = false) ∧ ∀ x, (s.head x).poolParityBad = false) ∧
    (∀ image ∈ [List.replicate 64 0, recordOfFive, List.replicate 56 0 ++ [0x03] ++ List.replicate 7 0,
        List.replicate 60 0 ++ [1] ++ List.replicate 3 0],
      let s := holding 65536 image (rebuildingOf true [])
      s.op = .running ∧ s.cpPort.outstanding = none ∧
        s.rebuilds = [{ slot := 0, dropped := true, waiting := [] }] ∧ s.recordImage 0 = image) ∧
    (¬ (readingOf 0 .rebuild recordOfFive [0, 1, 2, 3]).spoilt ∧
      (readingOf 0 .rebuild (List.replicate 56 0 ++ [0x03] ++ List.replicate 7 0) [0, 1, 2, 3]).spoilt ∧
      (scannedCtx (correctedBytes recordOfFive)).identity = 5 ∧
      (scannedCtx (correctedBytes (List.replicate 64 0))).identity = 0) := by
  refine ⟨⟨?_, ?_⟩, ?_, ?_, ?_, ?_⟩ <;> decide +kernel

/-- The record of slot 0 as a rebuild ends it: VACANT, PROVISIONED and QUARANTINED. -/
theorem test_RebuildServesItsWaiter :
    (let s := holding 65536 recordOfFive (rebuildingOf false [.uplink (.handset 2 5 .keepalive) 9000,
        .request (.forceHandover 0 3), .change { noChange with cls := some 2 }])
     s.op = .running ∧ ((s.afterRebuild 0 false []).ctx 0).state = .provisioned ∧ s.beatsUnderWay 0 [] = []) ∧
    (∀ p ∈ [(List.replicate 64 0, HandsetState.vacant), (recordOfFive, .provisioned),
        (List.replicate 60 0 ++ [1] ++ List.replicate 3 0, .quarantined)],
      let s := holding 65536 p.1 (rebuildingOf false [.uplink (.handset 2 5 (.attach 0)) 9000])
      s.op = .running ∧ s.recordImage 0 = p.1 ∧ ((s.afterRebuild 0 false []).ctx 0).state = p.2) ∧
    (∀ x ∈ [readOf .cp 65536 8, writeOf .cp 65536 1 (full (leBytes 8 5)), writeOf .cp 65536 1 [some 5],
        writeOf .cp (65536 + 32) 1 (byteAfter 3 0xFF)],
      let s := holding 65536 recordOfFive { rebuildingOf false [.cp x] with
        cpPort := { outstanding := some x, answer := none } }
      s.rebuilds = [{ slot := 0, dropped := false, waiting := [.cp x] }] ∧ s.cpPort.outstanding = some x ∧
        x.initiator = .cp ∧ s.merge = none ∧ s.recordWrite = none ∧
        (x.isRead = true ∨ recordNumbers (recordOffsets (s.handsetAddr 0) 64 ((enabled x).map Prod.fst)) = [0])) := by
  refine ⟨?_, ?_, ?_⟩ <;> decide +kernel

theorem test_plain_waiters :
    ∀ w ∈ [Waiter.uplink (.handset 2 5 .keepalive) 9000, .request (.forceHandover 0 3), .change noChange],
      w.plain 0 := by
  simp [Waiter.plain, Request.slot?]

end Sys2Proof.Tests
end

section
/-! SUPPORT. Handset registration: how a handset message is dispatched and heard, and the statements on unknown identities
and on ATTACH_CONFIRM. -/

namespace Sys2Proof.Machine

variable {s : State} {n : Slot} {h : Head} {id : Identity} {body : HandsetMsg}

/-! ### Counters, events and contexts -/

/-- R53: saturation is the minimum with the largest count, for a count that is in range. -/
theorem satInc_eq_min {k : Nat} (hk : k ≤ 65535) : satInc k = min 65535 (k + 1) := by
  unfold satInc Config.counterMax
  split <;> omega

/-- R61, R97: the model's sighting of a handset is the statements' one. -/
theorem HandsetCtx.sighted_eq_seen (c : HandsetCtx) (now : Time) : c.sighted now = c.seen now := by
  unfold HandsetCtx.sighted HandsetCtx.seen
  by_cases hb : c.state = .barred ∨ c.state = .quarantined
  · simp only [if_pos hb]
    split <;> rfl
  · simp only [if_neg hb]
    split <;> rfl

@[simp] theorem ctx_emit (s : State) (k : EventKind) (v : Severity) (a b d : Nat) (m : Slot) :
    (s.emit k v a b d).ctx m = s.ctx m := ctx_takeEvent ..

@[simp] theorem HandsetCtx.settled_state (c : HandsetCtx) (st : HandsetState) (x : Option Head) (p : Presence) :
    (c.settled st x p).state = st := rfl

/-! ### Dispatch of a handset message -/

/-- The command of a message dispatches the messages of its kind. -/
theorem workOf_commandOf (body : HandsetMsg) : workOf (commandOf body) = some (dispatchUplink body.kind) := by
  cases body <;> rfl

/-- R48 to R50: a delivered message leaves the state of its handling, and its queue. -/
theorem exec_commandOf_delivered {t : State} (hd : s.delivers h id body n)
    (ht : handleMessage n h id body s.timeBase s = .ok () t) : exec (commandOf body) s = s.endsMessage t := by
  obtain ⟨hop, hq, hw, hm, hr, hp⟩ := hd
  rw [exec_work (workOf_commandOf body)]
  refine perform_ok ?_
  rw [run_dispatchUplink hop hq rfl hw hm hr hp, run_bind, ht]
  rfl

/-- R48, R49: a message whose identity the Identity Map does not hold is taken as unknown. -/
theorem run_dispatchUplink_unknown (hop : s.op = .running) (hq : s.uplink.head? = some (.handset h id body))
    (hw : s.uplinkWaits = false) (hm : s.mapLookup id = none) :
    dispatchUplink body.kind s = (takeUnknown h id body >>= fun _ => popUplink) s := by
  unfold dispatchUplink
  rw [run_whenRunning hop, run_get_bind]
  obtain ⟨rest, hu⟩ := List.head?_eq_some_iff.mp hq
  rw [hu]
  dsimp only
  rw [if_pos ⟨rfl, by simp [hw]⟩]
  unfold takeUplink
  simp only [run_bind, run_lookupIdentity_none hm]
  cases takeUnknown h id body s <;> rfl

/-- R49, R68: a message of an unknown identity leaves the state of its count and answer, and its queue. -/
theorem exec_commandOf_unknown {t : State} (hop : s.op = .running)
    (hq : s.uplink.head? = some (.handset h id body)) (hw : s.uplinkWaits = false) (hm : s.mapLookup id = none)
    (ht : takeUnknown h id body s = .ok () t) : exec (commandOf body) s = s.endsMessage t := by
  rw [exec_work (workOf_commandOf body)]
  refine perform_ok ?_
  rw [run_dispatchUplink_unknown hop hq hw hm, run_bind, ht]
  rfl

/-- R68: the answer to an ATTACH of an unknown identity. -/
theorem run_rejectUnknown (s : State) (h : Head) (id : Identity) : rejectUnknown h id s =
    .ok () (s.takeDirective { Directive.blank .rejectAttach (some h) with identity := id, reason := 1 }) := rfl

/-! ### A message heard -/

/-- The work on a message other than ATTACH once its handset has been sighted, by the handset's state (R86, R100). -/
def takeHeard (n : Slot) (h : Head) (body : HandsetMsg) : HandsetState → Act Unit
  | .vacant | .barred | .quarantined => pure ()
  | .lost => do
    recover n h body.kind
    takeBody n h true body
  | _ => takeBody n h false body

/-- R61, R86: a message other than ATTACH, handled in the step that dispatches it, is a sighting and then its work in the
state of the handset. -/
theorem run_handleMessage (hb : ∀ code, body ≠ .attach code) : handleMessage n h id body s.timeBase s =
    takeHeard n h body ((s.heard n).ctx n).state (s.heard n) := by
  unfold handleMessage
  rw [run_modCtx_bind, HandsetCtx.sighted_eq_seen, ← State.heard]
  cases body with
  | attach code => exact absurd rfl (hb code)
  | _ => rfl

/-! ### Entering IDLE at a reporting head -/

/-- R56, R57, R89: a handset outside a call that enters IDLE at a head is settled there, with an IDLE window that starts
now. -/
theorem State.entered_idle_serving (s : State) (n : Slot) (h : Head) (hc : (s.ctx n).state.inCall = false) :
    s.entered n .idle (fun c => { c with serving := some h }) =
      s.setCtx n ((s.ctx n).settled .idle (some h) (idleOf (s.terms (s.ctx n)) s.timeBase false)) := by
  have hact : HandsetCtx.entryActions { s.ctx n with serving := some h } (s.ctx n).state .idle =
      { s.ctx n with serving := some h } := by
    unfold HandsetCtx.entryActions
    simp [hc, HandsetState.registered]
  have hq : ∀ q, qualityNotice (s.ctx n).state .idle q = .idle := fun q => by
    simp [qualityNotice, hc]
  unfold State.entered
  dsimp only
  rw [hact, hq]
  rfl

/-- R100: the recovery of a LOST handset. -/
theorem run_recover (hs : (s.ctx n).state = .lost) (k : UplinkKind) : recover n h k s = .ok ()
    ((s.setCtx n ((s.ctx n).settled .idle (some h) (idleOf (s.terms (s.ctx n)) s.timeBase false))).emit
      .recovered .none n.val h.val k.code) := by
  unfold recover
  rw [run_enterWith_bind, State.entered_idle_serving s n h (by rw [hs]; rfl), run_note]

/-- R77: an ATTACH_CONFIRM in OFFERED registers the handset. -/
theorem run_takeConfirm_offered (hs : (s.ctx n).state = .offered) : takeConfirm n h s = .ok ()
    ((s.setCtx n ((s.ctx n).settled .idle (some h) (idleOf (s.terms (s.ctx n)) s.timeBase false))).emit
      .attached .none n.val h.val (s.ctx n).cls.toNat) := by
  unfold takeConfirm
  rw [run_getCtx_bind, if_pos hs, run_enterWith_bind, State.entered_idle_serving s n h (by rw [hs]; rfl),
    run_getCtx_bind, ctx_setCtx, run_note]
  rfl

/-- R77: an ATTACH_CONFIRM outside OFFERED is ignored. -/
theorem run_takeConfirm_ignored (hs : (s.ctx n).state ≠ .offered) : takeConfirm n h s = .ok () s := by
  unfold takeConfirm
  rw [run_getCtx_bind, if_neg hs, run_pure]

/-! ### The statements -/

/-- Settles O33: the message is counted, and an ATTACH alone is answered. -/
theorem unknownIdentityIsRejected : Obligations.UnknownIdentityIsRejected := by
  intro s h id body hop hq hw hm hle
  refine exec_commandOf_unknown hop hq hw hm ?_
  unfold takeUnknown
  rw [run_modify_bind, satInc_eq_min hle]
  cases body with
  | attach code => exact run_rejectUnknown _ h id
  | _ => rfl

/-- Settles O36, by the state in which the ATTACH_CONFIRM finds the handset. -/
theorem confirmRegisters : Obligations.ConfirmRegisters := by
  intro s h id n hd
  have hb : ∀ code, HandsetMsg.attachConfirm ≠ .attach code := fun _ => nofun
  refine ⟨fun hs => ?offered, fun hs => ?lost, fun ho hl => ?ignored⟩ <;>
    refine exec_commandOf_delivered hd ?_
  case offered =>
    rw [run_handleMessage hb, hs]
    exact run_takeConfirm_offered hs
  case lost =>
    rw [run_handleMessage hb, hs]
    dsimp only [takeHeard]
    rw [run_bind, run_recover hs]
    exact run_takeConfirm_ignored (by simp)
  case ignored =>
    rw [run_handleMessage hb]
    have owner : takeBody n h false .attachConfirm (s.heard n) = .ok () (s.heard n) := run_takeConfirm_ignored ho
    cases hst : ((s.heard n).ctx n).state with
    | offered => exact absurd hst ho
    | lost => exact absurd hst hl
    | vacant | barred | quarantined => rfl
    | _ => exact owner

end Sys2Proof.Machine
end

section
/-! SUPPORT. The attention line: how a command that is answered ends, and the conditions of R198. -/

namespace Sys2Proof.Machine

variable {s t : State} {c : Instr}

/-! ### Every answered command is a whole step -/

/-- A command that carries a transaction is the treatment of it at the upstream port. -/
theorem exec_transactionOf {x : Transaction} (h : transactionOf c = some x) (s : State) :
    exec c s = takeAtUpstream c.wellFormed x takeTransaction s := by
  cases c <;> cases h <;> rfl

/-- A command that carries no transaction has a work of its own. -/
theorem workOf_isSome_of_transactionOf_none (h : transactionOf c = none) : (workOf c).isSome := by
  cases c <;> cases h <;> rfl

/-- What a row of the upstream port answers, it answers as a whole step; else it stops the model. -/
theorem takeAtUpstream_next {l : Bool} {x : Transaction} {f : Transaction → Act Unit}
    (h : takeAtUpstream l x f s = .next t) : ∃ a, perform a s = .next t := by
  unfold takeAtUpstream at h
  split at h
  · cases h
  · split at h
    · cases h
    · exact ⟨_, h⟩

/-- An answered command is some piece of work done as a whole step. -/
theorem exec_next (h : exec c s = .next t) : ∃ a, perform a s = .next t := by
  cases hx : transactionOf c with
  | some x => exact takeAtUpstream_next (exec_transactionOf hx s ▸ h)
  | none =>
    obtain ⟨a, ha⟩ := Option.isSome_iff_exists.mp (workOf_isSome_of_transactionOf_none hx)
    exact ⟨a, exec_work ha s ▸ h⟩

/-- R198: an answered command leaves ATTN at its level, whatever state it found. -/
theorem exec_attnRight (h : exec c s = .next t) : t.attnRight := by
  obtain ⟨a, ha⟩ := exec_next h
  rw [perform_eq] at ha
  cases ha
  exact State.settle_attnRight ..

/-! ### The level of ATTN -/

/-- The conditions of R198 that hold only where the Output Unit works on the Event Ring. -/
abbrev State.eventsAttn (s : State) : Prop :=
  (0 < unread s.evCount s.evProd s.evCons ∧ s.params.attnEnable = true) ∨ s.contained = true

/-- Where the index words of the Event Ring are written, the level is set by unread events and containment alone. -/
theorem State.attnLevel_of_eventsWork (h : s.eventsWork) : s.attnLevel = true ↔ s.eventsAttn := by
  have level : s.attnLevel = ((0 < s.evUnread && s.params.attnEnable) || s.contained) := by
    unfold State.attnLevel
    obtain hop | ⟨hop, n, hn⟩ := h
    · rw [hop]
    · rw [hop, hn]
  rw [level, Bool.or_eq_true, Bool.and_eq_true, decide_eq_true_iff]
  exact Iff.rfl

/-- R198: the level of ATTN by its conditions. -/
theorem State.attnLevel_iff (s : State) :
    s.attnLevel = true ↔ s.op = .configFault ∨ s.op = .halted ∨ s.eventsWork ∧ s.eventsAttn := by
  by_cases hw : s.eventsWork
  · have hop : s.op ≠ .configFault ∧ s.op ≠ .halted := by
      obtain hop | ⟨hop, -⟩ := hw <;> simp [hop]
    simp only [hop.1, hop.2, hw, true_and, false_or]
    exact State.attnLevel_of_eventsWork hw
  · simp only [hw, false_and, or_false]
    unfold State.attnLevel
    cases hop : s.op with
    | reset | configFault | halted => simp
    | running => exact absurd (.inl hop) hw
    | starting =>
      cases hst : s.startup with
      | scan n => exact absurd (.inr ⟨hop, n, hst⟩) hw
      | none | descriptor => simp

/-! ### The statement -/

/-- Settles O5: every answered command ends by settling, which puts ATTN at the level that its conditions give. -/
theorem attnFollowsItsConditions : Obligations.AttnFollowsItsConditions := by
  intro c s t h
  have level : t.attn = t.attnLevel := exec_attnRight h
  rw [level]
  exact t.attnLevel_iff

end Sys2Proof.Machine
end

section
/-! SUPPORT. The block: the command a step takes, what every command answers, the joint conditions along a run, and how a
step ends. -/

namespace Sys2Proof.Machine

variable {s t : State} {c : Instr} {x : Transaction}

/-! ### What every command answers -/

/-- A command that carries no transaction answers its work as a whole step. -/
theorem exec_of_transactionOf_none (h : transactionOf c = none) (s : State) :
    ∃ a, workOf c = some a ∧ exec c s = .next (State.settle s (after a s)) := by
  obtain ⟨a, ha⟩ := Option.isSome_iff_exists.mp (workOf_isSome_of_transactionOf_none h)
  exact ⟨a, ha, by rw [exec_work ha, perform_eq]⟩

/-- R1, log entry 6: a transaction that the link cannot carry stops the model. -/
theorem exec_illFormed (h : transactionOf c = some x) (hw : c.wellFormed = false) (s : State) :
    exec c s = .fault .illFormedTransaction := by
  rw [exec_transactionOf h]
  unfold takeAtUpstream
  rw [if_pos (by rw [hw]; rfl)]

/-- R1, log entry 6: a transaction sent over another of its initiator stops the model. -/
theorem exec_outstanding (h : transactionOf c = some x) (hw : c.wellFormed = true)
    (ho : (s.port x.initiator).outstanding.isSome = true) : exec c s = .fault .transactionOutstanding := by
  rw [exec_transactionOf h]
  unfold takeAtUpstream
  rw [if_neg (by rw [hw]; simp), if_pos ho]

/-- A transaction that the link carries, at a port with nothing outstanding, is taken at the port and treated. -/
theorem exec_carried (h : transactionOf c = some x) (hw : c.wellFormed = true)
    (ho : (s.port x.initiator).outstanding = none) :
    exec c s = perform (do modify (fun s => s.takeAtPort x); takeTransaction x) s := by
  rw [exec_transactionOf h]
  exact run_takeAtUpstream hw ho takeTransaction

/-- Settles O1: a step is defined by the front of the queue. -/
theorem stepTakesFrontCommand : Obligations.StepTakesFrontCommand := by
  refine ⟨fun c q s => rfl, fun s h => ?_⟩
  unfold step
  rw [h]

/-- Settles O2, by whether the command carries a transaction, and then by the two checks of the link. -/
theorem commandsAnswer : Obligations.CommandsAnswer := by
  intro c s
  cases hx : transactionOf c with
  | none =>
    obtain ⟨a, -, ha⟩ := exec_of_transactionOf_none hx s
    exact ⟨_, ha⟩
  | some x =>
    dsimp only
    cases hw : c.wellFormed with
    | false => exact exec_illFormed hx hw s
    | true =>
      rw [if_neg (by simp)]
      split
      · next ho => exact exec_outstanding hx hw ho
      · next ho => exact ⟨_, by rw [exec_carried hx hw (by simpa using ho), perform_eq]⟩

/-- Settles O12: the row of a transaction chooses only the check of its direction. -/
theorem transactionRowsAgree : Obligations.TransactionRowsAgree := by
  intro c x s hx hw
  have legal : (Instr.upstreamTransaction x).wellFormed = true := by
    cases c <;> cases hx <;> first | exact hw | exact (Bool.and_eq_true_iff.mp hw).1
  rw [exec_transactionOf hx, exec_transactionOf (c := .upstreamTransaction x) rfl, hw, legal]

/-! ### The joint conditions along a run -/

/-- Taking a transaction at the port keeps the joint conditions. -/
theorem keeps_takeAtPort (x : Transaction) : Keeps State.Sound (modify fun s => s.takeAtPort x : Act Unit) := by
  intro s h
  rw [after_modify]
  unfold State.takeAtPort State.setPort
  cases x.initiator <;>
    exact ⟨h.mem, h.ctxs, h.attach, h.heads, h.idMap, h.lists.same, h.counters.same, h.config.same, h.rings.same,
      h.pendingFault⟩

/-- Every answered command keeps the joint conditions, and is a whole step. -/
theorem exec_keeps_sound (h : s.Sound) (ht : exec c s = .next t) :
    ∃ u : State, u.Sound ∧ t = State.settle s u := by
  cases hx : transactionOf c with
  | none =>
    obtain ⟨a, ha, he⟩ := exec_of_transactionOf_none hx s
    rw [he] at ht
    cases ht
    exact ⟨_, keeps_workOf ha s h, rfl⟩
  | some x =>
    have row := exec_transactionOf hx s
    unfold takeAtUpstream at row
    split at row
    · rw [row] at ht; cases ht
    · split at row
      · rw [row] at ht; cases ht
      · rw [row, perform_eq] at ht
        cases ht
        exact ⟨_, Keeps.bind (keeps_takeAtPort x) (fun _ => keeps_takeTransaction x) s h, rfl⟩

/-- The joint conditions say nothing of the queue of commands. -/
theorem State.Sound.withPending (h : s.Sound) (q : List Instr) : State.Sound { s with pending := q } :=
  ⟨h.mem, h.ctxs, h.attach, h.heads, h.idMap, h.lists.same, h.counters.same, h.config.same, h.rings.same,
    h.pendingFault⟩

/-- Settles O4: the work of every command keeps the joint conditions, and the end of the step sets ATTN. -/
theorem stepKeepsSafe : Obligations.StepKeepsSafe := by
  intro s t h ht
  unfold step at ht
  split at ht
  · cases ht; exact h
  · next q rest _ =>
    refine ⟨?_, exec_attnRight ht⟩
    obtain ⟨u, hu, rfl⟩ := exec_keeps_sound (h.sound.withPending rest) ht
    exact hu.settle _

/-- Settles O3: every table of the state after reset is full of sound entries, and no list, counter or ring holds
anything. -/
theorem resetIsSafe : Obligations.ResetIsSafe where
  sound := {
    mem := ⟨List.Pairwise.nil, fun c hc => by cases hc⟩
    ctxs := fun n => by
      have e : State.reset.ctx n = .vacant := by simp [State.ctx, State.reset]
      rw [e]; exact HandsetCtx.sound_vacant
    attach := fun x => by
      have e : State.reset.att x = .reset := by simp [State.att, State.reset]
      rw [e]; exact AttachHead.sound_reset
    heads := fun x => by
      have e : State.reset.head x = .powerOn := by simp [State.head, State.reset]
      rw [e]; exact HeadCtx.sound_powerOn
    idMap := ⟨List.Pairwise.nil, fun e he => by cases he⟩
    lists := ⟨Nat.zero_le _, Nat.zero_le _, Nat.zero_le _, Nat.zero_le _, List.nodup_nil⟩
    counters := ⟨Nat.zero_le _, Nat.zero_le _, Nat.zero_le _, Nat.zero_le _, Nat.zero_le _, Nat.zero_le _,
      Nat.zero_le _⟩
    config := ⟨nofun, nofun, nofun, nofun, nofun⟩
    rings := ⟨nofun, nofun, nofun⟩
    pendingFault := nofun }
  attn := rfl

/-! ### How a step ends -/

/-- R199: the status block as the end of a step leaves it in memory. -/
theorem State.settle_statusBlock {b : State} (hm : Memory.wf t.mem) (hl : t.statusLive = true)
    (hf : b.statusFields ≠ t.statusFields) {i : Nat} (hi : i < 128) :
    (State.settle b t).mem.readByte (0x180 + i) = byteAt (State.settle b t).statusBytes i := by
  obtain ⟨-, -, bytes⟩ := State.settle_shown b t
  obtain ⟨m, l, e, -, em⟩ := State.settle_cases b t
  rw [bytes, e]
  show m.readByte (statusBase + i) = _
  rw [em, if_pos ⟨hl, hf⟩, Memory.readByte_writeAll _ _ _ _ hm (by rw [State.statusBytes_length]; exact hi)]
  unfold byteAt
  rw [List.getD_eq_getElem?_getD, List.getElem?_eq_getElem, Option.getD_some]

/-- Settles O6: the end of a step writes the status block or leaves memory alone. -/
theorem stepEndsBySettling : Obligations.StepEndsBySettling := by
  refine ⟨fun b s => ?_, fun c s t hs ht hl hf i hi => ?_⟩
  · obtain ⟨m, l, e, el, em⟩ := State.settle_cases b s
    refine ⟨m, el ▸ e, fun h => ?_, fun hw a ha => ?_⟩
    · rw [em, if_neg]
      rintro ⟨live, fields⟩
      rcases h with h | h
      · exact fields h
      · rw [h] at live; cases live
    · rw [em]
      split
      · refine Memory.readByte_writeAll_of_outside _ _ _ _ hw ?_
        rw [State.statusBytes_length]
        exact ha
      · rfl
  · obtain ⟨u, hu, rfl⟩ := exec_keeps_sound hs ht
    obtain ⟨fields, live, -⟩ := State.settle_shown s u
    rw [live] at hl
    rw [fields] at hf
    exact State.settle_statusBlock hu.mem hl hf hi

/-! ### The release of reset and the time base -/

/-- Settles O9. -/
theorem resetReleaseAndTimeBase : Obligations.ResetReleaseAndTimeBase := by
  refine ⟨fun s => ⟨fun h => ?_, fun h => ?_⟩, fun s => ?_⟩
  · refine perform_ok ?_
    unfold releaseReset
    rw [run_get_bind, if_pos h]
    rfl
  · refine perform_ok ?_
    unfold releaseReset
    rw [run_get_bind, if_neg h]
    rfl
  · rw [exec_work (c := .timeBaseTick) rfl]
    refine perform_ok ?_
    have next : s.timeBase + 1 = BitVec.ofNat 32 ((s.timeBase.toNat + 1) % 2 ^ 32) := by
      apply BitVec.eq_of_toNat_eq
      simp
    unfold tick
    rw [run_modify, ← next]
    cases s.op <;> rfl

end Sys2Proof.Machine
end

section
/-! SUPPORT. The upstream port: how a transaction is placed, refused and passed, and what a CP write to the areas of the
descriptor block does. -/

namespace Sys2Proof.Machine

variable {s t : State} {c : Instr} {x : Transaction}

/-! ### Bytes a write has -/

/-- The enabled byte at an address of a run laid from an address up. -/
theorem find_enabledFrom (b : Nat) (bytes : List (Option Byte)) (a : Nat) :
    ((enabledFrom b bytes).find? fun p => p.1 == a).map Prod.snd = if b ≤ a then (bytes[a - b]?).join else none := by
  induction bytes generalizing b with
  | nil => simp [enabledFrom]
  | cons o rest ih =>
    have shift (h : b + 1 ≤ a) : a - b = (a - (b + 1)) + 1 := by omega
    cases o with
    | none =>
      rw [enabledFrom, ih]
      by_cases hba : b + 1 ≤ a
      · rw [if_pos hba, if_pos (by omega), shift hba, List.getElem?_cons_succ]
      · rw [if_neg hba]
        split
        · rw [show a - b = 0 by omega]; rfl
        · rfl
    | some v =>
      rw [enabledFrom]
      by_cases hab : b = a
      · subst hab
        simp
      · rw [List.find?_cons_of_neg (by simpa using hab), ih]
        by_cases hba : b + 1 ≤ a
        · rw [if_pos hba, if_pos (by omega), shift hba, List.getElem?_cons_succ]
        · rw [if_neg hba, if_neg (by omega)]

/-- The enabled byte of a write at an address. -/
theorem writtenAt_eq (x : Transaction) (a : Nat) :
    writtenAt x a = if x.addr.toNat ≤ a then ((writeBytes x)[a - x.addr.toNat]?).join else none :=
  find_enabledFrom ..

/-- What a byte reads as once memory has taken a write. -/
theorem Memory.readByte_written (x : Transaction) {m : Memory} (h : Memory.wf m) (a : Nat) :
    (Memory.writeEnabled m x.addr.toNat (writeBytes x)).readByte a = (writtenAt x a).getD (m.readByte a) := by
  rw [Memory.readByte_writeEnabled _ _ _ _ h, writtenAt_eq]
  split <;> rfl

/-! ### What passes -/

/-- A transaction that passes changes memory and its port alone. -/
theorem State.passed_frame (s : State) (x : Transaction) :
    ∃ m p q, s.passed x = { s with mem := m, cpPort := p, rlcPort := q } := by
  unfold State.passed State.answered State.written
  generalize s.mem.writeEnabled x.addr.toNat (writeBytes x) = m
  cases x.access <;> cases x.initiator <;> exact ⟨_, _, _, rfl⟩

@[simp] theorem passed_op (s : State) (x : Transaction) : (s.passed x).op = s.op := by
  obtain ⟨m, p, q, e⟩ := s.passed_frame x; rw [e]
@[simp] theorem passed_staged (s : State) (x : Transaction) : (s.passed x).staged = s.staged := by
  obtain ⟨m, p, q, e⟩ := s.passed_frame x; rw [e]
@[simp] theorem passed_active (s : State) (x : Transaction) : (s.passed x).active = s.active := by
  obtain ⟨m, p, q, e⟩ := s.passed_frame x; rw [e]
@[simp] theorem passed_evCount (s : State) (x : Transaction) : (s.passed x).evCount = s.evCount := by
  obtain ⟨m, p, q, e⟩ := s.passed_frame x; rw [e]; rfl
@[simp] theorem passed_evCons (s : State) (x : Transaction) : (s.passed x).evCons = s.evCons := by
  obtain ⟨m, p, q, e⟩ := s.passed_frame x; rw [e]
@[simp] theorem passed_evOut (s : State) (x : Transaction) : (s.passed x).evOut = s.evOut := by
  obtain ⟨m, p, q, e⟩ := s.passed_frame x; rw [e]
@[simp] theorem passed_eventsLost (s : State) (x : Transaction) : (s.passed x).eventsLost = s.eventsLost := by
  obtain ⟨m, p, q, e⟩ := s.passed_frame x; rw [e]
@[simp] theorem passed_timeBase (s : State) (x : Transaction) : (s.passed x).timeBase = s.timeBase := by
  obtain ⟨m, p, q, e⟩ := s.passed_frame x; rw [e]

/-- Memory as a passed transaction leaves it: the enabled bytes of a write, and nothing of a read. -/
theorem State.passed_mem (s : State) (x : Transaction) :
    (s.passed x).mem = s.mem.writeEnabled x.addr.toNat (writeBytes x) := by
  unfold State.passed State.answered State.written writeBytes
  cases x.access <;> cases x.initiator <;> rfl

/-- A passed transaction is answered DONE, with memory's data for a read. -/
theorem State.passed_port (s : State) (x : Transaction) : (s.passed x).port x.initiator =
    { outstanding := none
      answer := some (.done (if x.isRead then (beatAddrs x).map s.mem.readBeat else [])) } := by
  unfold State.passed State.answered State.written State.port Transaction.isRead
  cases x.access <;> cases x.initiator <;> rfl

theorem State.passed_port_ne (s : State) (x : Transaction) {i : Initiator} (h : i ≠ x.initiator) :
    (s.passed x).port i = s.port i := by
  unfold State.passed State.answered State.written State.port
  cases hx : x.initiator <;> cases i <;> simp only [hx, ne_eq, not_true_eq_false] at h <;> cases x.access <;> rfl

/-! ### A transaction taken at the port -/

@[simp] theorem takeAtPort_op (s : State) (x : Transaction) : (s.takeAtPort x).op = s.op := setPort_op ..
@[simp] theorem takeAtPort_map (s : State) (x : Transaction) : (s.takeAtPort x).map = s.map := setPort_map ..
@[simp] theorem takeAtPort_startup (s : State) (x : Transaction) : (s.takeAtPort x).startup = s.startup := setPort_startup ..
@[simp] theorem takeAtPort_mem (s : State) (x : Transaction) : (s.takeAtPort x).mem = s.mem := setPort_mem ..
@[simp] theorem takeAtPort_dirCons (s : State) (x : Transaction) : (s.takeAtPort x).dirCons = s.dirCons := setPort_dirCons ..
@[simp] theorem takeAtPort_dirProd (s : State) (x : Transaction) : (s.takeAtPort x).dirProd = s.dirProd := setPort_dirProd ..
@[simp] theorem takeAtPort_evCons (s : State) (x : Transaction) : (s.takeAtPort x).evCons = s.evCons := setPort_evCons ..
@[simp] theorem takeAtPort_evProd (s : State) (x : Transaction) : (s.takeAtPort x).evProd = s.evProd := setPort_evProd ..

@[simp] theorem takeAtPort_dirCount (s : State) (x : Transaction) : (s.takeAtPort x).dirCount = s.dirCount := by
  unfold State.dirCount; rw [takeAtPort_map]
@[simp] theorem takeAtPort_evCount (s : State) (x : Transaction) : (s.takeAtPort x).evCount = s.evCount := by
  unfold State.evCount; rw [takeAtPort_map]
@[simp] theorem takeAtPort_dirUnread (s : State) (x : Transaction) : (s.takeAtPort x).dirUnread = s.dirUnread := by
  simp [State.dirUnread]
@[simp] theorem takeAtPort_evUnread (s : State) (x : Transaction) : (s.takeAtPort x).evUnread = s.evUnread := by
  simp [State.evUnread]

/-- A carried transaction ends in the state its treatment leaves, run from the port. -/
theorem exec_taken (h : transactionOf c = some x) (hw : c.wellFormed = true)
    (ho : (s.port x.initiator).outstanding = none) (ht : takeTransaction x (s.takeAtPort x) = .ok () t) :
    exec c s = s.ends t := by
  rw [exec_carried h hw ho]
  exact perform_ok ht

/-! ### The treatments -/

/-- R1: a transaction that wraps is refused. -/
theorem run_takeTransaction_wraps (h : wraps x = true) :
    takeTransaction x s = .ok () (s.answered x.initiator .refused) := by
  unfold takeTransaction
  rw [run_get_bind, if_pos h, run_refuse]

/-- R9: in RESET every transaction is refused. -/
theorem run_takeTransaction_reset (h : wraps x = false) (ho : s.op = .reset) :
    takeTransaction x s = .ok () (s.answered x.initiator .refused) := by
  unfold takeTransaction
  rw [run_get_bind, if_neg (by simp [h]), ho]
  exact run_refuse ..

/-- R15: in CONFIG_FAULT every transaction passes, and RESTART begins start-up again. -/
theorem run_takeTransaction_configFault (h : wraps x = false) (ho : s.op = .configFault) :
    takeTransaction x s = .ok ()
      (if restartAlone x = true then (s.passed x).keptReset.beginStartup .restart else s.passed x) := by
  unfold takeTransaction
  rw [run_get_bind, if_neg (by simp [h]), ho]
  dsimp only
  unfold takeConfigFault
  rw [run_pass_bind]
  split <;> rfl

/-- R5, R14, R20: in STARTING, RUNNING and HALTED a transaction is treated by the region it lies in. -/
theorem run_takeTransaction_classified (h : wraps x = false) (ho : s.op = .starting ∨ s.op = .running ∨ s.op = .halted) :
    takeTransaction x s = takeClassified s.op (classify s.map x) x s := by
  unfold takeTransaction
  rw [run_get_bind, if_neg (by simp [h])]
  rcases ho with ho | ho | ho <;> rw [ho]

/-- R5: in RUNNING. -/
theorem run_takeTransaction_running {r : Region} (h : wraps x = false) (ho : s.op = .running)
    (hr : classify s.map x = some r) : takeTransaction x s = takeRunning r x s := by
  rw [run_takeTransaction_classified h (.inr (.inl ho)), ho, hr]
  rfl

/-- R14: in STARTING. -/
theorem run_takeTransaction_starting {r : Region} (h : wraps x = false) (ho : s.op = .starting)
    (hr : classify s.map x = some r) : takeTransaction x s = takeStarting r x s := by
  rw [run_takeTransaction_classified h (.inl ho), ho, hr]
  rfl

/-- R20: in HALTED. -/
theorem run_takeTransaction_halted {r : Region} (h : wraps x = false) (ho : s.op = .halted)
    (hr : classify s.map x = some r) : takeTransaction x s = takeHalted r x s := by
  rw [run_takeTransaction_classified h (.inr (.inr ho)), ho, hr]
  rfl

theorem run_onlyFor_other {i : Initiator} (h : x.initiator ≠ i) (a : Act Unit) :
    onlyFor i x a s = .ok () (s.answered x.initiator .refused) := by
  unfold onlyFor
  rw [if_neg h, run_refuse]

theorem run_onlyFor {i : Initiator} (h : x.initiator = i) (a : Act Unit) : onlyFor i x a s = a s := by
  unfold onlyFor
  rw [if_pos h]

/-- R4, R5, R14, R20: a transaction that its region, its initiator and its kind rule out is refused. -/
theorem run_takeTransaction_refused (hw : wraps x = false) (h : refusedIn s.op (classify s.map x) x = true) :
    takeTransaction x s = .ok () (s.answered x.initiator .refused) := by
  cases ho : s.op with
  | reset => exact run_takeTransaction_reset hw ho
  | configFault => rw [ho] at h; simp [refusedIn] at h
  | starting | running | halted =>
    cases hr : classify s.map x with
    | none =>
      rw [run_takeTransaction_classified hw (by simp [ho]), hr]
      rfl
    | some r =>
      rw [ho, hr] at h
      first
        | rw [run_takeTransaction_starting hw ho hr]
        | rw [run_takeTransaction_running hw ho hr]
        | rw [run_takeTransaction_halted hw ho hr]
      cases r <;> simp only [refusedIn, reduceCtorEq, Bool.and_eq_true, Bool.not_eq_true', beq_iff_eq] at h <;>
        first
          | rfl
          | exact run_onlyFor_other (by simp [h]) _
          | exact (congrFun (if_neg (by simp [h])) s).trans (run_onlyFor_other (by simp [h]) _)
          | exact congrFun (if_neg (by simp [h])) s

/-- Settles O14: the treatment of a refused transaction is its answer. -/
theorem refusedTransactionChangesNothing : Obligations.RefusedTransactionChangesNothing := by
  intro s c x hx hwf ho h
  rw [← State.takeAtPort_answered]
  refine exec_taken hx hwf ho ?_
  by_cases hw : wraps x = true
  · exact run_takeTransaction_wraps hw
  · exact run_takeTransaction_refused (by simpa using hw) (by simpa using h.resolve_left hw)

/-- A carried transaction whose treatment is to pass it ends in what passes. -/
theorem exec_passed (h : s.carries c x) (ht : takeTransaction x (s.takeAtPort x) = pass x (s.takeAtPort x)) :
    exec c s = s.ends (s.passed x) := by
  obtain ⟨hx, hw, ho, -⟩ := h
  rw [← State.takeAtPort_passed]
  exact exec_taken hx hw ho (ht.trans (run_pass ..))

/-- A carried transaction whose treatment is to refuse it ends in the refusal. -/
theorem exec_refused (h : s.carries c x)
    (ht : takeTransaction x (s.takeAtPort x) = refuse x.initiator (s.takeAtPort x)) :
    exec c s = s.ends (s.answered x.initiator .refused) := by
  obtain ⟨hx, hw, ho, -⟩ := h
  rw [← State.takeAtPort_answered]
  exact exec_taken hx hw ho (ht.trans (run_refuse ..))

/-- Settles O13, by the region. -/
theorem ordinaryTrafficPasses : Obligations.OrdinaryTrafficPasses := by
  refine ⟨fun s c x h hr => exec_passed h ?_, fun s x hm => ?_⟩
  · have hw := h.2.2.2
    rcases hr with ⟨ho, hr⟩ | ⟨ho, hread, hr⟩
    · rcases ho with ho | ho | ho
      · rw [run_takeTransaction_starting hw (by simpa using ho) (by simpa using hr)]; rfl
      · rw [run_takeTransaction_running hw (by simpa using ho) (by simpa using hr)]; rfl
      · rw [run_takeTransaction_halted hw (by simpa using ho) (by simpa using hr)]; rfl
    · simp only [List.mem_cons, List.not_mem_nil, or_false] at hr
      rcases hr with hr | hr | hr | hr | hr <;>
        rw [run_takeTransaction_running hw (by simpa using ho) (by simpa using hr)] <;>
        simp only [takeRunning, takeDescriptor, if_pos hread]
  · refine ⟨s.passed_frame x, fun a => ?_, s.passed_port x, fun i h => s.passed_port_ne x h⟩
    rw [State.passed_mem, Memory.readByte_written x hm]

/-! ### The areas of the descriptor block -/

/-- R17: the class table and the parameter word. -/
theorem run_takeParams (s : State) (x : Transaction) (h : reachesParams x = true) :
    takeParams x s = .ok () (s.parameters x) := by
  have reached : Area.params.reached x = true := h
  unfold takeParams State.parameters
  rw [run_get_bind, if_pos reached]
  cases s.staged <;> rfl

/-- R16, R18: the staging command. -/
theorem run_takeStaging (s : State) (x : Transaction) : takeStaging x s = .ok () (s.commanded x) := by
  unfold takeStaging State.commanded
  generalize stagingBits x = b
  rcases b with ⟨_ | _, _ | _, _ | _⟩
  case false.true.false | false.true.true =>
    dsimp only
    unfold takeApply
    rw [run_get_bind]
    cases s.staged with
    | none => rfl
    | some p =>
      have first : p.firstInvalid = (List.range 8).find? fun k => !(p.cls k).valid := rfl
      dsimp only
      rw [run_modify_bind, ← first]
      cases p.firstInvalid <;> rfl
  all_goals rfl

/-- R6: what a CP write does to the areas it reaches, one after the other. -/
def State.areas (s : State) (x : Transaction) : State := ((s.parameters x).mapped x).commanded x

theorem run_actOnAreas (s : State) (x : Transaction) : actOnAreas x s = .ok () (s.areas x) := by
  have maps (u : State) : (do
      if reachesMap x then modify fun s => { s with mapChanged := true }
      takeStaging x : Act Unit) u = .ok () ((u.mapped x).commanded x) := by
    unfold State.mapped
    by_cases h : reachesMap x = true
    · have reached : Area.regionMap.reached x = true := h
      rw [if_pos h, if_pos reached]
      exact run_takeStaging ..
    · have not_reached : ¬ Area.regionMap.reached x = true := h
      rw [if_neg h, if_neg not_reached]
      exact run_takeStaging ..
  unfold actOnAreas State.areas
  by_cases h : reachesParams x = true
  · rw [if_pos h, run_bind, run_takeParams s x h]
    exact maps _
  · have not_reached : ¬ Area.params.reached x = true := h
    have same : s.parameters x = s := if_neg not_reached
    rw [if_neg h, same]
    exact maps s

/-- R193: the accepted values. -/
theorem consumerAccepts_iff_acceptedValue {n prod copy v : Nat} :
    consumerAccepts n copy (unread n prod copy) v = true ↔ acceptedValue n prod copy v := consumerAccepts_iff

/-- R193: an accepted event consumer value. -/
theorem run_takeEventConsumer_accepted
    (h : acceptedValue s.evCount s.evProd s.evCons (consumerValue x 0x118 s.evCons)) :
    takeEventConsumer x s = .ok true ((s.passed x).moveEventConsumer (consumerValue x 0x118 s.evCons)) := by
  have accepts : consumerAccepts s.evCount s.evCons s.evUnread (consumerValue x evConsWord s.evCons) = true :=
    consumerAccepts_iff_acceptedValue.mpr h
  unfold takeEventConsumer
  rw [run_get_bind, if_pos accepts]
  rfl

/-- R193: a refused event consumer value. -/
theorem run_takeEventConsumer_refused
    (h : ¬ acceptedValue s.evCount s.evProd s.evCons (consumerValue x 0x118 s.evCons)) :
    takeEventConsumer x s = .ok false ((s.answered x.initiator .refused).emit .indexRefused .none 0xFFFF
      (outCode .event) (consumerValue x 0x118 s.evCons)) := by
  have rejects : ¬ consumerAccepts s.evCount s.evCons s.evUnread (consumerValue x evConsWord s.evCons) = true :=
    mt consumerAccepts_iff_acceptedValue.mp h
  unfold takeEventConsumer
  rw [run_get_bind, if_neg rejects]
  rfl

/-- R191: a copy that does not move leaves no unread records behind it, and no other does. -/
theorem unread_eq_zero_iff {n v k : Nat} (hv : v < n) (hk : k < n) : unread n v k = 0 ↔ v = k := by
  unfold unread
  constructor
  · intro h
    obtain ⟨q, hq⟩ := Nat.dvd_of_mod_eq_zero h
    have : q = 1 := by
      have lo : 0 < n * q := by omega
      have hi : n * q < n * 2 := by omega
      have := Nat.lt_of_mul_lt_mul_left hi
      have := Nat.pos_of_mul_pos_left lo
      omega
    subst this
    omega
  · rintro rfl
    rw [Nat.add_sub_cancel_left, Nat.mod_self]

/-- R193, R197: an accepted event consumer value moves the copy, and reports the events lost when it makes room. -/
theorem State.moveEventConsumer_eq_consumed {v : Nat} (hv : v < s.evCount) (hk : s.evCons < s.evCount) :
    s.moveEventConsumer v = s.consumed v := by
  unfold State.moveEventConsumer State.consumed
  dsimp only
  by_cases hm : v = s.evCons
  · rw [if_pos ((unread_eq_zero_iff hv hk).mpr hm), if_pos (.inl hm)]
  · rw [if_neg (mt (unread_eq_zero_iff hv hk).mp hm)]
    unfold State.reportLost
    by_cases hl : s.eventsLost = 0
    · rw [if_pos (Or.inr hl)]
      exact if_pos hl
    · rw [if_neg (not_or.mpr ⟨hm, hl⟩)]
      exact if_neg hl

/-! ### A CP write to the descriptor block in RUNNING -/

/-- A CP write to the descriptor block in RUNNING. -/
structure State.CpDescriptorWrite (s : State) (c : Instr) (x : Transaction) : Prop where
  carries : s.carries c x
  running : s.op = .running
  region : classify s.map x = some .descriptor
  write : x.isRead = false
  cp : x.initiator = .cp

theorem State.CpDescriptorWrite.run (h : s.CpDescriptorWrite c x) :
    takeTransaction x (s.takeAtPort x) = cpDescriptorWrite x (s.takeAtPort x) := by
  rw [run_takeTransaction_running h.carries.2.2.2 (by simpa using h.running) (by simpa using h.region)]
  simp only [takeRunning, takeDescriptor, h.write, h.cp, Bool.false_eq_true, if_false]

/-- R6: a CP write that reaches no event consumer word acts on its areas once memory has taken it. -/
theorem State.CpDescriptorWrite.exec_areas (h : s.CpDescriptorWrite c x)
    (hf : (reachesForbidden x || manyCommands x) = false) (hc : Area.consumer.reached x = false) :
    exec c s = s.ends ((s.passed x).areas x) := by
  obtain ⟨hx, hw, ho, -⟩ := h.carries
  refine exec_taken hx hw ho (h.run.trans ?_)
  have not_reached : ¬ reachesEventConsumer x = true := by
    rw [show reachesEventConsumer x = Area.consumer.reached x from rfl, hc]; simp
  unfold cpDescriptorWrite
  rw [if_neg (by simp [hf]), if_neg not_reached, run_pass_bind, State.takeAtPort_passed, run_actOnAreas]

/-- R6, R193: a CP write with an accepted event consumer value moves the copy and then acts on its areas. -/
theorem State.CpDescriptorWrite.exec_accepted (h : s.CpDescriptorWrite c x)
    (hf : (reachesForbidden x || manyCommands x) = false) (hc : Area.consumer.reached x = true)
    (ha : acceptedValue s.evCount s.evProd s.evCons (consumerValue x 0x118 s.evCons)) :
    exec c s = s.ends (((s.passed x).moveEventConsumer (consumerValue x 0x118 s.evCons)).areas x) := by
  obtain ⟨hx, hw, ho, -⟩ := h.carries
  have reached : reachesEventConsumer x = true := hc
  have taken := run_takeEventConsumer_accepted (s := s.takeAtPort x) (x := x) (by simpa using ha)
  refine exec_taken hx hw ho (h.run.trans ?_)
  unfold cpDescriptorWrite
  rw [if_neg (by simp [hf]), if_pos reached, run_bind, taken, State.takeAtPort_passed, takeAtPort_evCons]
  exact run_actOnAreas ..

/-- R193: a refused event consumer value refuses the whole of a CP write. -/
theorem State.CpDescriptorWrite.exec_indexRefused (h : s.CpDescriptorWrite c x)
    (hf : (reachesForbidden x || manyCommands x) = false) (hc : Area.consumer.reached x = true)
    (ha : ¬ acceptedValue s.evCount s.evProd s.evCons (consumerValue x 0x118 s.evCons)) :
    exec c s = s.ends ((s.answered .cp .refused).emit .indexRefused .none 0xFFFF (outCode .event)
      (consumerValue x 0x118 s.evCons)) := by
  obtain ⟨hx, hw, ho, -⟩ := h.carries
  have reached : reachesEventConsumer x = true := hc
  have taken := run_takeEventConsumer_refused (s := s.takeAtPort x) (x := x) (by simpa using ha)
  rw [State.takeAtPort_answered, takeAtPort_evCons, h.cp] at taken
  refine exec_taken hx hw ho (h.run.trans ?_)
  unfold cpDescriptorWrite
  rw [if_neg (by simp [hf]), if_pos reached, run_bind, taken]
  rfl

/-- A write of the descriptor block that reaches no area but, it may be, the given one. -/
theorem State.descriptorWrite_sorted {a : Option Area} (h : s.descriptorWrite c x a) :
    s.CpDescriptorWrite c x ∧ (reachesForbidden x || manyCommands x) = false ∧
      ∀ b, some b ≠ a → b.reached x = false := by
  obtain ⟨hc, ho, hr, hw, hi, f1, f2, f3, f4, hm, areas⟩ := h
  refine ⟨⟨hc, ho, hr, hw, hi⟩, by simp [reachesForbidden, f1, f2, f3, f4, hm], fun b hb => areas b ?_ hb⟩
  cases b <;> simp

theorem State.parameters_unreached (s : State) (h : Area.params.reached x = false) : s.parameters x = s :=
  if_neg (by simp [h])

theorem State.mapped_unreached (s : State) (h : Area.regionMap.reached x = false) : s.mapped x = s :=
  if_neg (by simp [h])

theorem State.commanded_unreached (s : State) (h : Area.staging.reached x = false) : s.commanded x = s := by
  have bits : stagingBits x = (false, false, false) := by
    simpa [Area.reached] using h
  unfold State.commanded
  rw [bits]

/-- Settles O16. -/
theorem areasActInOrder : Obligations.AreasActInOrder := by
  intro s c x hc ho hr hw hi hf
  have write : s.CpDescriptorWrite c x := ⟨hc, ho, hr, hw, hi⟩
  refine ⟨fun hcons hna => write.exec_indexRefused hf hcons hna, fun hcons => ?_, fun hd hmap => ?_⟩
  · by_cases reached : Area.consumer.reached x = true
    · obtain ⟨ha, hk⟩ := hcons reached
      have moved := (s.passed x).moveEventConsumer_eq_consumed (v := consumerValue x 0x118 s.evCons)
        (by simpa using ha.1) (by simpa using hk)
      rw [write.exec_accepted hf reached ha, if_pos reached, moved]
      rfl
    · rw [write.exec_areas hf (by simpa using reached), if_neg reached]
      rfl
  · obtain ⟨-, -, areas⟩ := State.descriptorWrite_sorted hd
    rw [write.exec_areas hf (areas _ (by simp))]
    unfold State.areas
    rw [State.parameters_unreached _ (areas _ (by simp)), State.commanded_unreached _ (areas _ (by simp)),
      State.mapped, if_pos hmap]

/-- Settles O17, by whether staging is open. -/
theorem parameterWriteStages : Obligations.ParameterWriteStages := by
  intro s c x h hp
  obtain ⟨write, hf, areas⟩ := State.descriptorWrite_sorted h
  have alone : exec c s = s.ends ((s.passed x).parameters x) := by
    rw [write.exec_areas hf (areas _ (by simp))]
    unfold State.areas
    rw [State.commanded_unreached _ (areas _ (by simp)), State.mapped_unreached _ (areas _ (by simp))]
  rw [alone]
  unfold State.parameters
  rw [if_pos hp, passed_staged]
  refine ⟨fun hs => by rw [hs], fun p hs => ?_⟩
  rw [hs]
  exact ⟨_, rfl, fun i => by simp, fun i => by simp⟩

/-- Settles O18, by the command set. -/
theorem stagingCommandsAct : Obligations.StagingCommandsAct := by
  intro s c x h
  obtain ⟨write, hf, areas⟩ := State.descriptorWrite_sorted h
  have alone : exec c s = s.ends ((s.passed x).commanded x) := by
    rw [write.exec_areas hf (areas _ (by simp))]
    unfold State.areas
    rw [State.parameters_unreached _ (areas _ (by simp)), State.mapped_unreached _ (areas _ (by simp))]
  rw [alone]
  refine ⟨fun hb => ?_, fun hb => ⟨fun hs => ?_, fun p hs hv => ?_, fun p k hs hk hbad hlow => ?_⟩, fun hb => ?_⟩ <;>
    unfold State.commanded <;> rw [hb] <;> dsimp only
  · rw [passed_active]
  · rw [passed_staged, hs]
  · have none_bad : ((List.range 8).find? fun k => !(p.cls k).valid) = none := by
      rw [List.find?_eq_none]
      intro k hk
      simp [hv k (List.mem_range.mp hk)]
    rw [passed_staged, hs]
    dsimp only
    rw [none_bad]
  · have lowest : ((List.range 8).find? fun k => !(p.cls k).valid) = some k := by
      rw [List.find?_range_eq_some]
      simpa [hk, hbad] using hlow
    rw [passed_staged, hs]
    dsimp only
    rw [lowest]

/-! ### The descriptor block by sort -/

/-- R14: a write to the descriptor block in STARTING, once the index words are written. -/
theorem run_takeDescriptorStarting {n : Slot} (hw : x.isRead = false) (hs : s.startup = .scan n) :
    takeDescriptorStarting x s = (match x.initiator with
      | .cp => cpStartingWrite x
      | .rlc => rlcDescriptorWrite x) s := by
  unfold takeDescriptorStarting
  rw [if_neg (by simp [hw]), run_get_bind, hs]
  cases x.initiator <;> rfl

/-- Settles O15, by the operating state. -/
theorem descriptorWriteBySort : Obligations.DescriptorWriteBySort := by
  intro s c x hc
  have hw := hc.2.2.2
  refine ⟨fun hr => ⟨fun ho hwr hbad => ?_, fun hd => ?_, fun ho hread => ?_, fun n ho hs hwr => ⟨fun hbad => ?_,
    fun hi hgood hcons => ?_⟩, fun ho => ?_⟩, fun ho hr => ?_⟩
  · refine exec_refused hc ?_
    rw [run_takeTransaction_running hw (by simpa using ho) (by simpa using hr)]
    simp only [takeRunning, takeDescriptor, hwr, Bool.false_eq_true, if_false]
    cases hi : x.initiator with
    | cp =>
      have bad : (reachesForbidden x || manyCommands x) = true := by
        simpa only [hi, if_true, reachesForbidden, Bool.or_eq_true] using hbad
      dsimp only
      unfold cpDescriptorWrite
      rw [if_pos bad, hi]
    | rlc =>
      have bad : inDirectiveConsumer x = false := by rwa [if_neg (by simp [hi])] at hbad
      dsimp only
      unfold rlcDescriptorWrite
      rw [if_neg (by simp [bad]), hi]
  · obtain ⟨write, hf, areas⟩ := State.descriptorWrite_sorted hd
    rw [write.exec_areas hf (areas _ (by simp))]
    unfold State.areas
    rw [State.parameters_unreached _ (areas _ (by simp)), State.mapped_unreached _ (areas _ (by simp)),
      State.commanded_unreached _ (areas _ (by simp))]
  · refine exec_passed hc ?_
    rw [run_takeTransaction_starting hw (by simpa using ho) (by simpa using hr)]
    unfold takeStarting takeDescriptorStarting
    dsimp only
    rcases hread with hread | hs
    · rw [if_pos hread]
    · split
      · rfl
      · rw [run_get_bind, takeAtPort_startup, hs]
  · refine exec_refused hc ?_
    rw [run_takeTransaction_starting hw (by simpa using ho) (by simpa using hr)]
    show takeDescriptorStarting x _ = _
    rw [run_takeDescriptorStarting hwr (by simpa using hs)]
    cases hi : x.initiator with
    | cp =>
      have bad : reachesForbidden x = true := by rwa [if_pos hi] at hbad
      dsimp only
      unfold cpStartingWrite
      rw [if_pos bad, hi]
    | rlc =>
      have bad : inDirectiveConsumer x = false := by rwa [if_neg (by simp [hi])] at hbad
      dsimp only
      unfold rlcDescriptorWrite
      rw [if_neg (by simp [bad]), hi]
  · refine exec_passed hc ?_
    have not_reached : ¬ reachesEventConsumer x = true := by
      rw [show reachesEventConsumer x = reaches x 0x118 0x11C from rfl, hcons]; simp
    rw [run_takeTransaction_starting hw (by simpa using ho) (by simpa using hr)]
    show takeDescriptorStarting x _ = _
    rw [run_takeDescriptorStarting hwr (by simpa using hs), hi]
    dsimp only
    unfold cpStartingWrite
    have good : ¬ reachesForbidden x = true := hgood
    rw [if_neg good, if_neg not_reached]
  · refine exec_passed hc ?_
    rw [run_takeTransaction_halted hw (by simpa using ho) (by simpa using hr)]
    rfl
  · refine exec_passed hc ?_
    rcases hr with hr | hr <;>
      rw [run_takeTransaction_starting hw (by simpa using ho) (by simpa using hr)] <;> rfl

end Sys2Proof.Machine
end

section
/-! SUPPORT. The output rings: records taken, written and consumed; and resets, start-up and HALTED. -/

namespace Sys2Proof.Machine

variable {s t : State} {c : Instr} {x : Transaction}

/-! ### Records taken and written -/

/-- R191: the Event Ring has room by its slot count, its unread events and those still being written. -/
theorem State.evRoom_pos_iff (s : State) :
    0 < s.evRoom ↔ unread s.evCount s.evProd s.evCons + s.evOut.length < s.evCount - 1 := by
  unfold State.evRoom State.evUnread
  omega

theorem State.dirRoom_pos_iff (s : State) :
    0 < s.dirRoom ↔ unread s.dirCount s.dirProd s.dirCons + s.dirOut.length < s.dirCount - 1 := by
  unfold State.dirRoom State.dirUnread
  omega

/-- R196: what becomes of an event. -/
theorem State.emit_eq (s : State) (k : EventKind) (v : Severity) (subject d1 d2 : Nat) (h : s.eventsLost ≤ 65535) :
    s.emit k v subject d1 d2 =
      if unread s.evCount s.evProd s.evCons + s.evOut.length < s.evCount - 1 ∧ s.eventsLost = 0 then
        { s with evOut := s.evOut ++ [s.event k v subject d1 d2] }
      else { s with eventsLost := min 65535 (s.eventsLost + 1) } := by
  unfold State.emit State.takeEvent
  simp only [State.evRoom_pos_iff, satInc_eq_min h]

theorem destCode_eq (d : Option Head) : destCode d = d.elim 0xFE Fin.val := by cases d <;> rfl
theorem slotCode_eq (n : Option Slot) : slotCode n = n.elim 0xFFFF Fin.val := by cases n <;> rfl
theorem headCode_eq (h : Option Head) : headCode h = h.elim 0xFF Fin.val := by cases h <;> rfl
theorem chanCode_eq (h : Option Chan) : chanCode h = h.elim 0xFF Fin.val := by cases h <;> rfl

/-- R194, R195: what becomes of a directive. -/
theorem State.takeDirective_eq (s : State) (d : Directive) (h : s.dirDropped ≤ 65535) :
    s.takeDirective d =
      if s.backlog = [] ∧ unread s.dirCount s.dirProd s.dirCons + s.dirOut.length < s.dirCount - 1 then
        { s with dirOut := s.dirOut ++ [{ d with suspect := s.contained }] }
      else if s.backlog.length < 16 then { s with backlog := s.backlog ++ [{ d with suspect := s.contained }] }
      else State.emit { s with dirDropped := min 65535 (s.dirDropped + 1) } .directiveDropped .none
        (d.dest.elim 0xFE Fin.val) d.kind.code (d.slot.elim 0xFFFF Fin.val) := by
  unfold State.takeDirective
  simp only [State.dirRoom_pos_iff, satInc_eq_min h, destCode_eq, slotCode_eq]
  rfl

/-- R200: the states in which the Output Unit writes both rings. -/
theorem State.ringLive_of_eventsWork (h : s.eventsWork) (r : OutRing) : s.ringLive r = true := by
  unfold State.ringLive State.statusLive
  rcases h with h | ⟨h, n, hn⟩
  · rw [h]
  · rw [h, hn]

/-- R192: where the ring is written, memory takes the record in its slot. -/
theorem exec_ringSlotWritten {r : OutRing} (h : s.ringLive r = true) :
    exec (.ringSlotWritten r) s = s.ends (s.slotWritten r) := by
  rw [exec_work (c := .ringSlotWritten r) rfl]
  refine perform_ok ?_
  rw [run_modify, if_pos h]

/-- R192: where the ring is written, memory takes its producer word. -/
theorem exec_producerWordWritten {r : OutRing} (h : s.ringLive r = true) :
    exec (.producerWordWritten r) s = s.ends (s.producerWritten r) := by
  rw [exec_work (c := .producerWordWritten r) rfl]
  refine perform_ok ?_
  rw [run_modify, if_pos h]

/-- Settles O20. -/
theorem outputRecordsAreTakenAndWritten : Obligations.OutputRecordsAreTakenAndWritten := by
  refine ⟨fun s k v subject d1 d2 h => s.emit_eq k v subject d1 d2 h, fun s d h => s.takeDirective_eq d h,
    fun s h => ⟨fun d rest m hd hm hs => ?_, fun d rest hd hs => ?_⟩,
    fun s h => ⟨fun e rest m he hm hs => ?_, fun e rest he hs => ?_⟩, fun s h => ⟨?_, ?_⟩⟩
  · rw [exec_ringSlotWritten (State.ringLive_of_eventsWork h _)]
    unfold State.slotWritten State.directiveInSlot State.dirSlotAddr
    simp only [hd, hs, hm, Bool.false_eq_true, if_false]
    rfl
  · rw [exec_producerWordWritten (State.ringLive_of_eventsWork h _)]
    unfold State.producerWritten State.directiveCounted
    simp only [hd, hs, if_true]
    rfl
  · have live : s.ringLive .event = true := by
      rcases h with h | h
      · exact State.ringLive_of_eventsWork h _
      · unfold State.ringLive; rw [h]
    rw [exec_ringSlotWritten live]
    unfold State.slotWritten State.eventInSlot State.evSlotAddr
    simp only [he, hs, hm, Bool.false_eq_true, if_false]
    rfl
  · have live : s.ringLive .event = true := by
      rcases h with h | h
      · exact State.ringLive_of_eventsWork h _
      · unfold State.ringLive; rw [h]
    rw [exec_producerWordWritten live]
    unfold State.producerWritten State.eventCounted
    simp only [he, hs, if_true]
    rfl
  all_goals
    have dead : ¬ s.ringLive .directive = true := by unfold State.ringLive; rw [h]; simp
  · rw [exec_work (c := .ringSlotWritten .directive) rfl]
    refine perform_ok ?_
    rw [run_modify, if_neg dead]
  · rw [exec_work (c := .producerWordWritten .directive) rfl]
    refine perform_ok ?_
    rw [run_modify, if_neg dead]

/-! ### Consumer index writes -/

/-- R193: an accepted directive consumer value. -/
theorem run_takeDirectiveConsumer_accepted
    (h : acceptedValue s.dirCount s.dirProd s.dirCons (consumerValue x 0x108 s.dirCons)) :
    takeDirectiveConsumer x s = .ok () ((s.passed x).moveDirectiveConsumer (consumerValue x 0x108 s.dirCons)) := by
  have accepts : consumerAccepts s.dirCount s.dirCons s.dirUnread (consumerValue x dirConsWord s.dirCons) = true :=
    consumerAccepts_iff_acceptedValue.mpr h
  unfold takeDirectiveConsumer
  rw [run_get_bind, if_pos accepts]
  rfl

/-- R193: a refused directive consumer value. -/
theorem run_takeDirectiveConsumer_refused
    (h : ¬ acceptedValue s.dirCount s.dirProd s.dirCons (consumerValue x 0x108 s.dirCons)) :
    takeDirectiveConsumer x s = .ok () ((s.answered x.initiator .refused).emit .indexRefused .none 0xFFFF
      (outCode .directive) (consumerValue x 0x108 s.dirCons)) := by
  have rejects : ¬ consumerAccepts s.dirCount s.dirCons s.dirUnread (consumerValue x dirConsWord s.dirCons) = true :=
    mt consumerAccepts_iff_acceptedValue.mp h
  unfold takeDirectiveConsumer
  rw [run_get_bind, if_neg rejects]
  rfl

/-- R193, R195: an accepted directive consumer value after a transaction has passed. -/
theorem State.passed_moveDirectiveConsumer (s : State) (x : Transaction) (v : Nat) :
    (s.passed x).moveDirectiveConsumer v =
      let room := s.dirCount - 1 - unread s.dirCount s.dirProd v - s.dirOut.length
      { s.passed x with dirCons := v, dirOut := s.dirOut ++ s.backlog.take room, backlog := s.backlog.drop room } := by
  obtain ⟨m, p, q, e⟩ := s.passed_frame x
  rw [e]
  rfl

/-- R6, R14: an RLC write to the directive consumer word, once the index words are written, is judged. -/
theorem run_takeTransaction_directiveConsumer (hw : wraps x = false) (ho : s.eventsWork)
    (hr : classify s.map x = some .descriptor) (hread : x.isRead = false) (hi : x.initiator = .rlc)
    (hin : confined x 0x108 0x10C = true) : takeTransaction x s = takeDirectiveConsumer x s := by
  have inside : inDirectiveConsumer x = true := hin
  have judged : rlcDescriptorWrite x = takeDirectiveConsumer x := if_pos inside
  rcases ho with ho | ⟨ho, n, hs⟩
  · rw [run_takeTransaction_running hw ho hr]
    simp only [takeRunning, takeDescriptor, hread, hi, Bool.false_eq_true, if_false, judged]
  · rw [run_takeTransaction_starting hw ho hr]
    show takeDescriptorStarting x s = _
    rw [run_takeDescriptorStarting hread hs, hi]
    simp only [judged]

/-- R14: a CP write in STARTING that reaches the event consumer word is judged, and does nothing else. -/
theorem run_takeTransaction_startingConsumer {n : Slot} (hw : wraps x = false) (ho : s.op = .starting)
    (hs : s.startup = .scan n) (hr : classify s.map x = some .descriptor) (hread : x.isRead = false)
    (hi : x.initiator = .cp) (hf : reachesForbidden x = false) (hc : Area.consumer.reached x = true) :
    takeTransaction x s = (takeEventConsumer x >>= fun _ => pure ()) s := by
  have reached : reachesEventConsumer x = true := hc
  rw [run_takeTransaction_starting hw ho hr]
  show takeDescriptorStarting x s = _
  rw [run_takeDescriptorStarting hread hs, hi]
  dsimp only
  unfold cpStartingWrite
  rw [if_neg (by simp [hf]), if_pos reached]

/-- R193, R197: a move of the event consumer that makes no room, or that no lost event stands behind. -/
theorem State.moveEventConsumer_quiet {v : Nat} (h : v = s.evCons ∨ s.eventsLost = 0) :
    s.moveEventConsumer v = { s with evCons := v } := by
  unfold State.moveEventConsumer State.reportLost
  rcases h with rfl | h
  · rw [if_pos (by unfold unread; rw [Nat.add_sub_cancel_left, Nat.mod_self])]
  · simp only [h, if_true, ite_self]

/-- Settles O21. -/
theorem consumerWritesAreJudged : Obligations.ConsumerWritesAreJudged := by
  refine ⟨fun s c x hc ho hr hread hi hin => ?_, fun s c x h hcons => ?_,
    fun s c x n hc ho hs hr hread hi hcons f1 f2 f3 f4 hk => ?_⟩
  · have run := run_takeTransaction_directiveConsumer (s := s.takeAtPort x) hc.2.2.2
      (by simpa [State.eventsWork] using ho) (by simpa using hr) hread hi hin
    obtain ⟨hx, hw, hfree, -⟩ := hc
    refine ⟨fun ha => ?_, fun ha => ?_⟩
    · rw [← State.passed_moveDirectiveConsumer]
      refine exec_taken hx hw hfree ?_
      rw [run, run_takeDirectiveConsumer_accepted (by simpa using ha), State.takeAtPort_passed, takeAtPort_dirCons]
    · refine exec_taken hx hw hfree ?_
      rw [run, run_takeDirectiveConsumer_refused (by simpa using ha), State.takeAtPort_answered, takeAtPort_dirCons, hi]
  · obtain ⟨write, hf, areas⟩ := State.descriptorWrite_sorted h
    have still (u : State) : u.areas x = u := by
      unfold State.areas
      rw [State.parameters_unreached _ (areas _ (by simp)), State.mapped_unreached _ (areas _ (by simp)),
        State.commanded_unreached _ (areas _ (by simp))]
    refine ⟨fun ha => ⟨fun hm hk hl => ?_, fun hq => ?_⟩, fun ha => write.exec_indexRefused hf hcons ha⟩
    · rw [write.exec_accepted hf hcons ha, still,
        State.moveEventConsumer_eq_consumed (by simpa using ha.1) (by simpa using hk), State.consumed,
        if_neg (by simp [hm, hl])]
      simp only [passed_evOut, passed_eventsLost, passed_timeBase]
    · rw [write.exec_accepted hf hcons ha, still, State.moveEventConsumer_quiet (by simpa using hq)]
  · have hf : reachesForbidden x = false := by simp [reachesForbidden, f1, f2, f3, f4]
    have run := run_takeTransaction_startingConsumer (s := s.takeAtPort x) hc.2.2.2 (by simpa using ho)
      (by simpa using hs) (by simpa using hr) hread hi hf hcons
    obtain ⟨hx, hw, hfree, -⟩ := hc
    refine ⟨fun ha => ?_, fun ha => ?_⟩ <;> refine exec_taken hx hw hfree ?_
    · rw [run, run_bind, run_takeEventConsumer_accepted (by simpa using ha), State.takeAtPort_passed,
        takeAtPort_evCons, State.moveEventConsumer_eq_consumed (by simpa using ha.1) (by simpa using hk)]
      rfl
    · rw [run, run_bind, run_takeEventConsumer_refused (by simpa using ha), State.takeAtPort_answered,
        takeAtPort_evCons, hi]
      rfl

/-! ### What a reset cuts off -/

/-- Log entry 3: a downstream write that is cut off has been taken by memory, or not. -/
theorem State.cutOff_cases (s : State) (taken : State → State) :
    ∃ k, s.cutOff taken = { taken s with free := k } ∨ s.cutOff taken = { s with free := k } := by
  unfold State.cutOff
  dsimp only
  by_cases h : Config.memoryHadTaken s.free = true
  · exact ⟨(taken s).free + 1, .inl (by rw [if_pos h])⟩
  · exact ⟨s.free + 1, .inr (by rw [if_neg h])⟩

/-- Two states that differ at most in memory, in the ring that the Output Unit was writing, and in the counter of free
values. -/
def SameButRings (s t : State) : Prop :=
  ∃ m dp d ds ep e es k, t = { s with
    mem := m, dirProd := dp, dirOut := d, dirSent := ds, evProd := ep, evOut := e, evSent := es, free := k }

theorem SameButRings.refl (s : State) : SameButRings s s := ⟨_, _, _, _, _, _, _, _, rfl⟩

theorem SameButRings.trans {u : State} (h : SameButRings s t) (h' : SameButRings t u) : SameButRings s u := by
  obtain ⟨m, dp, d, ds, ep, e, es, k, rfl⟩ := h
  obtain ⟨m', dp', d', ds', ep', e', es', k', rfl⟩ := h'
  exact ⟨m', dp', d', ds', ep', e', es', k', rfl⟩

theorem SameButRings.cutOff {taken : State → State} (h : SameButRings s (taken s)) :
    SameButRings s (s.cutOff taken) := by
  obtain ⟨k, e | e⟩ := s.cutOff_cases taken <;> rw [e]
  · exact h.trans ⟨_, _, _, _, _, _, _, k, rfl⟩
  · exact ⟨_, _, _, _, _, _, _, k, rfl⟩

theorem SameButRings.directiveInSlot (s : State) : SameButRings s s.directiveInSlot := by
  unfold State.directiveInSlot
  split
  · exact .refl s
  · split
    · exact .refl s
    · exact ⟨_, _, _, _, _, _, _, _, rfl⟩

theorem SameButRings.eventInSlot (s : State) : SameButRings s s.eventInSlot := by
  unfold State.eventInSlot
  split
  · exact .refl s
  · split
    · exact .refl s
    · exact ⟨_, _, _, _, _, _, _, _, rfl⟩

theorem SameButRings.directiveCounted (s : State) : SameButRings s s.directiveCounted := by
  unfold State.directiveCounted
  split
  · exact .refl s
  · dsimp only
    split
    · exact ⟨_, _, _, _, _, _, _, _, rfl⟩
    · exact .refl s

theorem SameButRings.eventCounted (s : State) : SameButRings s s.eventCounted := by
  unfold State.eventCounted
  split
  · exact .refl s
  · dsimp only
    split
    · exact ⟨_, _, _, _, _, _, _, _, rfl⟩
    · exact .refl s

/-- The directive that the Output Unit was writing is cut off, if one was and the part is not in HALTED. -/
def State.cutDirective (s : State) : State :=
  if s.dirOut = [] ∨ s.op = .halted then s
  else s.cutOff fun s => if s.dirSent then s.directiveCounted else s.directiveInSlot

/-- The event that the Output Unit was writing is cut off, if one was. -/
def State.cutEvent (s : State) : State :=
  if s.evOut = [] then s else s.cutOff fun s => if s.evSent then s.eventCounted else s.eventInSlot

theorem State.cutRings_eq (s : State) : s.cutRings = s.cutDirective.cutEvent := rfl

theorem SameButRings.cutDirective (s : State) : SameButRings s s.cutDirective := by
  unfold State.cutDirective
  split
  · exact .refl s
  · refine SameButRings.cutOff ?_
    split
    · exact .directiveCounted s
    · exact .directiveInSlot s

theorem SameButRings.cutEvent (s : State) : SameButRings s s.cutEvent := by
  unfold State.cutEvent
  split
  · exact .refl s
  · refine SameButRings.cutOff ?_
    split
    · exact .eventCounted s
    · exact .eventInSlot s

theorem SameButRings.cutRings (s : State) : SameButRings s s.cutRings :=
  (SameButRings.cutDirective s).trans (.cutEvent _)

/-- A reset that finds no ring write under way cuts none off. -/
theorem State.cutRings_idle (hd : s.dirOut = [] ∨ s.op = .halted) (he : s.evOut = []) : s.cutRings = s := by
  unfold State.cutRings
  dsimp only
  rw [if_pos hd, if_pos he]

theorem Port.refuseOutstanding_eq (p : Port) : p.refuseOutstanding = p.afterReset := by
  unfold Port.refuseOutstanding Port.afterReset
  cases p.outstanding <;> simp

/-- R9, R20: what is unanswered is refused and given up; memory may have taken the record write under way. -/
theorem State.refuseUnanswered_frame (s : State) : ∃ m k, s.refuseUnanswered = { s with
    mem := m, free := k, cpPort := s.cpPort.afterReset, rlcPort := s.rlcPort.afterReset, heldCp := none, heldRlc := none
    merge := none, recordWrite := none } ∧ (s.recordWrite = none → m = s.mem) := by
  have cut : ∃ m k, s.cutRecordWrite = { s with mem := m, free := k, recordWrite := none } ∧
      (s.recordWrite = none → m = s.mem) := by
    unfold State.cutRecordWrite
    cases hw : s.recordWrite with
    | none => exact ⟨s.mem, s.free, by cases s; cases hw; rfl, fun _ => rfl⟩
    | some w =>
      obtain ⟨k, e | e⟩ := s.cutOff_cases fun s => { s with mem := s.recordWritten w } <;> dsimp only <;> rw [e]
      · exact ⟨_, _, rfl, nofun⟩
      · exact ⟨_, _, rfl, nofun⟩
  obtain ⟨m, k, e, hm⟩ := cut
  refine ⟨m, k, ?_, hm⟩
  unfold State.refuseUnanswered
  dsimp only
  rw [e, Port.refuseOutstanding_eq, Port.refuseOutstanding_eq]

/-- What a reset finds once what was in progress has ended (R9). -/
structure State.Interrupted (s t : State) : Prop where
  op : t.op = .reset
  powerCame : t.powerCame = s.powerCame
  heads : t.heads = s.heads
  faultList : t.faultList = s.faultList
  corrected : t.corrected = s.corrected
  cpPort : t.cpPort = s.cpPort.afterReset
  rlcPort : t.rlcPort = s.rlcPort.afterReset
  mem : s.recordWrite = none → s.dirOut = [] ∨ s.op = .halted → s.evOut = [] → t.mem = s.mem

theorem State.enterReset_interrupted (s : State) : s.Interrupted s.enterReset := by
  obtain ⟨m, k, e, hm⟩ := s.refuseUnanswered_frame
  obtain ⟨m', dp, d, ds, ep, ev, es, k', e'⟩ := SameButRings.cutRings s.refuseUnanswered
  unfold State.enterReset
  refine ⟨rfl, ?_, ?_, ?_, ?_, ?_, ?_, fun hw hd he => ?_⟩
  case refine_7 =>
    have idle : s.refuseUnanswered.cutRings = s.refuseUnanswered := State.cutRings_idle (by rw [e]; exact hd) (by rw [e]; exact he)
    dsimp only
    rw [idle, e]
    exact hm hw
  all_goals
    dsimp only
    rw [e', e]

/-! ### What a reset clears -/

theorem State.clearBlocks_cleared {u : State} (h : ∃ hs fl k p o a r z y, u = { s.clearBlocks with
    heads := hs, faultList := fl, corrected := k, powerCame := p, op := o, attn := a, resetCause := r, timeBase := z
    startup := y }) : u.cleared := by
  obtain ⟨hs, fl, k, p, o, a, r, z, y, rfl⟩ := h
  refine ⟨⟨rfl, rfl, rfl, rfl⟩, ⟨rfl, rfl, rfl, rfl⟩, ⟨rfl, rfl, rfl, rfl, rfl⟩, fun n => ?_, rfl, fun n => ?_, rfl,
    fun n => ?_, ⟨rfl, rfl, rfl, rfl, rfl, rfl⟩, ⟨rfl, rfl, rfl, rfl, rfl⟩⟩
  · simp [State.ctx, State.clearBlocks]
  · simp [State.att, State.clearBlocks]
  · simp [State.entry, State.clearBlocks]

theorem HeadCtx.externalReset_eq_kept (c : HeadCtx) : c.externalReset = c.kept := by
  unfold HeadCtx.externalReset HeadCtx.kept
  cases c.staged <;> rfl

theorem State.keptReset_head (s : State) (h : Head) : s.keptReset.head h = (s.head h).kept := by
  simp [State.keptReset, State.head, HeadCtx.externalReset_eq_kept]

theorem State.powerReset_head (s : State) (h : Head) : s.powerReset.head h = .powerOn := by
  simp [State.powerReset, State.head]

/-- The end of a step outside the states that write the status block sets ATTN alone. -/
theorem State.settle_of_not_live {b : State} (h : t.statusLive = false) :
    State.settle b t = { t with attn := t.attnLevel } := by
  unfold State.settle
  rw [if_neg (by simp [h])]

/-- Settles O8: what is in progress ends, and then the blocks are cleared. -/
theorem resetsClear : Obligations.ResetsClear := by
  intro s
  have was := s.enterReset_interrupted
  refine ⟨⟨{ s.enterReset.powerReset with powerCame := true, attn := false }, ?_, was.op, rfl, rfl, ?_, ?_, rfl, rfl, rfl,
      was.cpPort, was.rlcPort, was.mem⟩,
    ⟨{ s.enterReset.keptReset with attn := false }, ?_, was.op, was.powerCame, rfl, ?_, ?_, was.faultList, was.corrected,
      rfl, was.cpPort, was.rlcPort, was.mem⟩⟩
  · rw [exec_work (c := .powerUp) rfl]
    refine (perform_ok (run_modify ..)).trans ?_
    rw [State.settle_of_not_live rfl]
    rfl
  · exact State.clearBlocks_cleared ⟨_, _, _, _, _, _, _, _, _, rfl⟩
  · exact fun h => State.powerReset_head s.enterReset h
  · rw [exec_work (c := .rstinAsserted) rfl]
    refine (perform_ok (run_modify ..)).trans ?_
    rw [State.settle_of_not_live rfl]
    rfl
  · exact State.clearBlocks_cleared ⟨_, _, _, _, _, _, _, _, _, rfl⟩
  · intro h
    refine (State.keptReset_head s.enterReset h).trans ?_
    unfold State.head
    rw [was.heads]

/-- R15: RESTART alone in a CP write. -/
theorem restartAlone_iff : restartAlone x = true ↔ x.initiator = .cp ∧ stagingBits x = (false, false, true) := by
  simp [restartAlone]

/-- Settles O19: everything passes, and RESTART then clears the blocks and begins start-up. -/
theorem configFaultPassesAndRestarts : Obligations.ConfigFaultPassesAndRestarts := by
  intro s c x hc ho
  have run := run_takeTransaction_configFault (s := s.takeAtPort x) hc.2.2.2 (by simpa using ho)
  obtain ⟨hx, hw, hfree, -⟩ := hc
  rw [State.takeAtPort_passed] at run
  have ends := exec_taken hx hw hfree run
  obtain ⟨m, p, q, e⟩ := s.passed_frame x
  refine ⟨fun h => ?_, fun hi hb => ?_⟩
  · rw [ends, if_neg (mt restartAlone_iff.mp h)]
  · rw [if_pos (restartAlone_iff.mpr ⟨hi, hb⟩), State.ends, State.settle_of_not_live rfl] at ends
    refine ⟨_, ends, rfl, rfl, rfl, rfl, rfl, State.clearBlocks_cleared ⟨_, _, _, _, _, _, _, _, _, rfl⟩, fun h => ?_, ?_,
      ?_, rfl, rfl, rfl, ?_⟩
    · refine (State.keptReset_head (s.passed x) h).trans ?_
      rw [e]; rfl
    · show (s.passed x).faultList = _
      rw [e]
    · show (s.passed x).corrected = _
      rw [e]
    · show (s.passed x).rlcPort = _
      exact s.passed_port_ne x (i := .rlc) (by simp [hi])

end Sys2Proof.Machine
end

section
/-! SUPPORT. The check byte: its check bits and its parity are linear over exclusive-or, so that what a wrong bit changes does
not depend on the beat. -/

namespace Sys2Proof.Machine

/-! ### Linearity -/

/-- The positions of the set bits among the given pairs of a bit and its position. -/
def markedPositions (ps : List (Nat × Nat)) (d : Beat) : List Nat :=
  ps.filterMap fun p => if d.getLsbD p.1 then some p.2 else none

/-- The exclusive-or of a list of numbers. -/
def xorAll (xs : List Nat) : Nat := xs.foldl (· ^^^ ·) 0

theorem foldl_xor (xs : List Nat) (a : Nat) : xs.foldl (· ^^^ ·) a = a ^^^ xorAll xs := by
  unfold xorAll
  induction xs generalizing a with
  | nil => simp
  | cons x rest ih => rw [List.foldl_cons, List.foldl_cons, ih, ih (0 ^^^ x), Nat.zero_xor, Nat.xor_assoc]

theorem xorAll_cons (x : Nat) (xs : List Nat) : xorAll (x :: xs) = x ^^^ xorAll xs := by
  show xs.foldl (· ^^^ ·) (0 ^^^ x) = _
  rw [foldl_xor, Nat.zero_xor]

/-- A pair gives its position where its bit is set. -/
theorem xorAll_markedPositions_cons (p : Nat × Nat) (ps : List (Nat × Nat)) (d : Beat) :
    xorAll (markedPositions (p :: ps) d) = (if d.getLsbD p.1 then p.2 else 0) ^^^ xorAll (markedPositions ps d) := by
  unfold markedPositions
  cases h : d.getLsbD p.1
  · rw [List.filterMap_cons_none (by simp [h]), if_neg (by simp), Nat.zero_xor]
  · rw [List.filterMap_cons_some (b := p.2) (by simp [h]), xorAll_cons, if_pos rfl]

theorem xorAll_markedPositions_xor (ps : List (Nat × Nat)) (d e : Beat) :
    xorAll (markedPositions ps (d ^^^ e)) = xorAll (markedPositions ps d) ^^^ xorAll (markedPositions ps e) := by
  induction ps with
  | nil => exact (Nat.xor_self 0).symm
  | cons p ps ih =>
    simp only [xorAll_markedPositions_cons, ih, BitVec.getLsbD_xor]
    generalize xorAll (markedPositions ps d) = a
    generalize xorAll (markedPositions ps e) = b
    cases d.getLsbD p.1 <;> cases e.getLsbD p.1 <;> simp [Nat.xor_comm, Nat.xor_left_comm]

theorem checkBits_xor (d e : Beat) : checkBits (d ^^^ e) = checkBits d ^^^ checkBits e :=
  xorAll_markedPositions_xor ..

theorem bitCount_succ (n v : Nat) : bitCount (n + 1) v = bitCount n v + (v.testBit n).toNat := by
  unfold bitCount
  rw [List.range_succ, List.filter_append, List.length_append]
  cases h : v.testBit n <;> simp [h]

/-- The parity of the set bits is linear. -/
theorem bitCount_xor (n v w : Nat) : bitCount n (v ^^^ w) % 2 = (bitCount n v + bitCount n w) % 2 := by
  induction n with
  | zero => rfl
  | succ n ih =>
    rw [bitCount_succ, bitCount_succ, bitCount_succ, Nat.testBit_xor]
    cases v.testBit n <;> cases w.testBit n <;> simp <;> omega

theorem bitCount_twoPow {n i : Nat} (h : i < n) : bitCount n (2 ^ i) = 1 := by
  induction n with
  | zero => omega
  | succ n ih =>
    rw [bitCount_succ, Nat.testBit_two_pow]
    by_cases hi : i = n
    · subst hi
      have none_below : bitCount i (2 ^ i) = 0 := by
        unfold bitCount
        rw [List.length_eq_zero_iff, List.filter_eq_nil_iff]
        intro j hj
        have := List.mem_range.mp hj
        rw [Nat.testBit_two_pow]
        simp; omega
      simp [none_below]
    · rw [ih (by omega)]
      simp [hi]

/-! ### Positions -/

/-- The code position of a data bit (R203). -/
def positionOf (i : Nat) : Nat := dataPositions.getD i 0

theorem checkBits_twoPow : ∀ i < 64, checkBits (BitVec.twoPow 64 i) = positionOf i := by decide +kernel

theorem positionOf_range : ∀ i < 64, positionOf i ≠ 0 ∧ positionOf i ≤ 71 := by decide +kernel

theorem dataBitAt_positionOf : ∀ i < 64, dataBitAt (positionOf i) = some i := by decide +kernel

/-- The powers of two hold the check bits. -/
theorem dataBitAt_twoPow : ∀ i < 7, dataBitAt (2 ^ i) = none := by decide +kernel

theorem positionOf_injective {i j : Nat} (hi : i < 64) (hj : j < 64) (h : positionOf i = positionOf j) : i = j := by
  have := dataBitAt_positionOf i hi
  rw [h, dataBitAt_positionOf j hj] at this
  exact (Option.some.inj this).symm

theorem checkBits_lt (d : Beat) : checkBits d < 128 := by
  have all (ps : List (Nat × Nat)) (h : ∀ p ∈ ps, p.2 < 2 ^ 7) : xorAll (markedPositions ps d) < 2 ^ 7 := by
    induction ps with
    | nil => exact Nat.two_pow_pos 7
    | cons p ps ih =>
      rw [xorAll_markedPositions_cons]
      refine Nat.xor_lt_two_pow ?_ (ih fun q hq => h q (List.mem_cons_of_mem _ hq))
      split
      · exact h p (List.mem_cons_self ..)
      · decide
  refine all _ fun p hp => ?_
  have := (List.of_mem_zip hp).2
  have := List.mem_range.mp (List.mem_of_mem_filter this)
  omega

/-! ### The check byte of a beat -/

theorem checkByte_toNat (d : Beat) : (checkByte d).toNat =
    checkBits d + 128 * ((bitCount 64 d.toNat + bitCount 7 (checkBits d)) % 2) := by
  have := checkBits_lt d
  show (BitVec.ofNat 8 _).toNat = _
  rw [BitVec.toNat_ofNat]
  omega

/-- The low seven bits of the check byte are the check bits. -/
theorem checkByte_mod (d : Beat) : (checkByte d).toNat % 128 = checkBits d := by
  have := checkBits_lt d
  rw [checkByte_toNat]
  omega

theorem bitCount_congr {n v w : Nat} (h : ∀ i < n, v.testBit i = w.testBit i) : bitCount n v = bitCount n w := by
  unfold bitCount
  congr 1
  exact List.filter_congr fun i hi => h i (List.mem_range.mp hi)

/-- A beat with its check byte has even parity. -/
theorem checkByte_parity (d : Beat) : (bitCount 64 d.toNat + bitCount 8 (checkByte d).toNat) % 2 = 0 := by
  have low : bitCount 7 (checkByte d).toNat = bitCount 7 (checkBits d) := by
    refine bitCount_congr fun i hi => ?_
    rw [← checkByte_mod d, show (128 : Nat) = 2 ^ 7 from rfl, Nat.testBit_mod_two_pow]
    simp [hi]
  have high : ((checkByte d).toNat.testBit 7).toNat = (bitCount 64 d.toNat + bitCount 7 (checkBits d)) % 2 := by
    have := checkBits_lt d
    rw [Nat.toNat_testBit, checkByte_toNat, show (2 : Nat) ^ 7 = 128 from rfl]
    omega
  rw [bitCount_succ 7, low, high]
  omega

/-! ### Wrong bits -/

/-- R172: the class of a beat by its syndrome and its parity. -/
theorem classifyBeat_of {d : Beat} {check : Byte} {syndrome parity : Nat}
    (hs : (check.toNat % 128) ^^^ checkBits d = syndrome)
    (hp : (bitCount 64 d.toNat + bitCount 8 check.toNat) % 2 = parity) :
    classifyBeat d check =
      if syndrome = 0 then if parity = 0 then .clean else .correctable d
      else if syndrome ≤ 71 then if parity = 0 then .uncorrectable else .correctable (flipPosition d syndrome)
      else .uncorrectable := by
  unfold classifyBeat
  simp only [hs, hp, beq_iff_eq]

theorem toNat_xor_twoPow (d : Beat) {i : Nat} (h : i < 64) :
    (d ^^^ BitVec.twoPow 64 i).toNat = d.toNat ^^^ 2 ^ i := by
  rw [BitVec.toNat_xor, BitVec.toNat_twoPow, Nat.mod_eq_of_lt (Nat.pow_lt_pow_right (by decide) h)]

/-- One inverted data bit: the syndrome is its position, and the parity is odd. -/
theorem classifyBeat_one_wrong (d : Beat) {i : Nat} (h : i < 64) :
    classifyBeat (d ^^^ BitVec.twoPow 64 i) (checkByte d) = .correctable d := by
  obtain ⟨hz, h71⟩ := positionOf_range i h
  have syndrome : (checkByte d).toNat % 128 ^^^ checkBits (d ^^^ BitVec.twoPow 64 i) = positionOf i := by
    rw [checkByte_mod, checkBits_xor, checkBits_twoPow i h, ← Nat.xor_assoc, Nat.xor_self, Nat.zero_xor]
  have parity : (bitCount 64 (d ^^^ BitVec.twoPow 64 i).toNat + bitCount 8 (checkByte d).toNat) % 2 = 1 := by
    have even := checkByte_parity d
    have flipped := bitCount_xor 64 d.toNat (2 ^ i)
    rw [toNat_xor_twoPow d h]
    rw [bitCount_twoPow h] at flipped
    omega
  have back : d ^^^ BitVec.twoPow 64 i ^^^ BitVec.ofNat 64 (2 ^ i) = d := by
    have same : BitVec.ofNat 64 (2 ^ i) = BitVec.twoPow 64 i := by
      apply BitVec.eq_of_toNat_eq
      rw [BitVec.toNat_ofNat, BitVec.toNat_twoPow]
    rw [same, BitVec.xor_assoc, BitVec.xor_self, BitVec.xor_zero]
  rw [classifyBeat_of syndrome parity, if_neg hz, if_pos h71, if_neg (by decide)]
  unfold flipPosition
  rw [dataBitAt_positionOf i h]
  exact congrArg BeatClass.correctable back

/-- One inverted check bit: the syndrome is its power of two, or 0 for the parity bit, and the parity is odd. -/
theorem classifyBeat_check_wrong (d : Beat) {i : Nat} (h : i < 8) :
    classifyBeat d (checkByte d ^^^ BitVec.twoPow 8 i) = .correctable d := by
  have flipped : (checkByte d ^^^ BitVec.twoPow 8 i).toNat = (checkByte d).toNat ^^^ 2 ^ i := by
    rw [BitVec.toNat_xor, BitVec.toNat_twoPow, Nat.mod_eq_of_lt (Nat.pow_lt_pow_right (by decide) h)]
  have syndrome : (checkByte d ^^^ BitVec.twoPow 8 i).toNat % 128 ^^^ checkBits d = 2 ^ i % 128 := by
    rw [flipped, show (128 : Nat) = 2 ^ 7 from rfl, Nat.xor_mod_two_pow, show (2 : Nat) ^ 7 = 128 from rfl,
      checkByte_mod, Nat.xor_comm (checkBits d), Nat.xor_assoc, Nat.xor_self, Nat.xor_zero]
  have parity : (bitCount 64 d.toNat + bitCount 8 (checkByte d ^^^ BitVec.twoPow 8 i).toNat) % 2 = 1 := by
    have even := checkByte_parity d
    have odd := bitCount_xor 8 (checkByte d).toNat (2 ^ i)
    rw [flipped]
    rw [bitCount_twoPow h] at odd
    omega
  rw [classifyBeat_of syndrome parity]
  by_cases h7 : i = 7
  · subst h7
    rfl
  · have small : i < 7 := by omega
    have position : 2 ^ i % 128 = 2 ^ i ∧ 2 ^ i ≤ 71 := by
      have : ∀ j < 7, 2 ^ j % 128 = 2 ^ j ∧ 2 ^ j ≤ 71 := by decide
      exact this i small
    rw [position.1, if_neg (Nat.two_pow_pos i).ne', if_pos position.2, if_neg (by decide)]
    unfold flipPosition
    rw [dataBitAt_twoPow i small]

/-- Two inverted data bits: the syndrome is not 0, and the parity is even. -/
theorem classifyBeat_two_wrong (d : Beat) {i j : Nat} (hij : i < j) (hj : j < 64) :
    classifyBeat (d ^^^ BitVec.twoPow 64 i ^^^ BitVec.twoPow 64 j) (checkByte d) = .uncorrectable := by
  have hi : i < 64 := hij.trans hj
  have syndrome : (checkByte d).toNat % 128 ^^^ checkBits (d ^^^ BitVec.twoPow 64 i ^^^ BitVec.twoPow 64 j) =
      positionOf i ^^^ positionOf j := by
    rw [checkByte_mod, checkBits_xor, checkBits_xor, checkBits_twoPow i hi, checkBits_twoPow j hj, Nat.xor_assoc,
      ← Nat.xor_assoc, Nat.xor_self, Nat.zero_xor]
  have parity : (bitCount 64 (d ^^^ BitVec.twoPow 64 i ^^^ BitVec.twoPow 64 j).toNat +
      bitCount 8 (checkByte d).toNat) % 2 = 0 := by
    have even := checkByte_parity d
    have first := bitCount_xor 64 d.toNat (2 ^ i)
    have second := bitCount_xor 64 (d.toNat ^^^ 2 ^ i) (2 ^ j)
    rw [toNat_xor_twoPow _ hj, toNat_xor_twoPow d hi]
    rw [bitCount_twoPow hi] at first
    rw [bitCount_twoPow hj] at second
    omega
  have apart : positionOf i ^^^ positionOf j ≠ 0 := by
    intro h
    have := positionOf_injective hi hj (Nat.xor_eq_zero_iff.mp h)
    omega
  rw [classifyBeat_of syndrome parity, if_neg apart, if_pos rfl, ite_self]

/-- Settles O60. -/
theorem checkByteFindsErrors : Obligations.CheckByteFindsErrors := by
  intro d
  refine ⟨?_, fun i h => classifyBeat_one_wrong d h, fun i h => classifyBeat_check_wrong d h,
    fun i j hij hj => classifyBeat_two_wrong d hij hj⟩
  have syndrome : (checkByte d).toNat % 128 ^^^ checkBits d = 0 := by rw [checkByte_mod, Nat.xor_self]
  rw [classifyBeat_of syndrome (checkByte_parity d), if_pos rfl, if_pos rfl]

end Sys2Proof.Machine
end

section
/-! SUPPORT. Checked readings: a reading's check as a fold over its beats, what it leaves alone, and the scan of a record. -/

namespace Sys2Proof.Machine

variable {s t : State}

/-! ### One reading -/

/-- A part of the work whose condition holds is done. -/
theorem run_if_pos {α : Type} {p : Prop} [Decidable p] (h : p) (a b : Act α) (s : State) :
    (if p then a else b) s = a s := by rw [if_pos h]

theorem run_if_neg {α : Type} {p : Prop} [Decidable p] (h : ¬ p) (a b : Act α) (s : State) :
    (if p then a else b) s = b s := by rw [if_neg h]

theorem Reading.classOf_eq (r : Reading) (b : Nat) : r.classOf b = beatClass r.image b := rfl

/-- R174: the data a reading gives for a beat. -/
theorem Reading.data_eq (r : Reading) (b : Nat) : r.data b = correctedBeat r.image b := rfl

theorem Reading.provisioned_eq (r : Reading) : r.provisioned = correctedBytes r.image := rfl

theorem Reading.bad_iff_spoilt (r : Reading) : r.bad = true ↔ r.spoilt := by
  simp [Reading.bad, Reading.classOf_eq, Reading.spoilt]

theorem Reading.marked_eq (r : Reading) : r.marked = (byteAt r.image 60 != 0) := rfl

theorem satInc_eq_ite (k : Nat) : satInc k = if k < 65535 then k + 1 else k := rfl

/-- R176: a CORRECTABLE finding in the Record Fault List and in the corrected count, with CORRECTED. -/
def State.findingCounted (s : State) (n : Slot) (b : Nat) (source : Source) : State :=
  State.emit { s with
      faultList := if s.faultList.length < 16 then s.faultList ++ [n] else s.faultList
      corrected := if s.corrected < 65535 then s.corrected + 1 else s.corrected }
    .corrected .corrected n.val b source.code

theorem findingCounted_corrected (s : State) (n : Slot) (b : Nat) (source : Source) :
    (s.findingCounted n b source).corrected = if s.corrected < 65535 then s.corrected + 1 else s.corrected :=
  takeEvent_corrected ..

theorem findingCounted_params (s : State) (n : Slot) (b : Nat) (source : Source) :
    (s.findingCounted n b source).params = s.params := congrArg (Option.getD · ParamSet.zero) (takeEvent_active ..)

theorem findingCounted_faultList (s : State) (n : Slot) (b : Nat) (source : Source) :
    (s.findingCounted n b source).faultList = if s.faultList.length < 16 then s.faultList ++ [n] else s.faultList :=
  takeEvent_faultList ..

/-- R176, R177: the account of a finding, with THRESHOLD_REACHED where the count reaches the threshold. -/
theorem State.accounted_eq (s : State) (n : Slot) (b : Nat) (source : Source) : s.accounted n b source =
    if n ∈ s.faultList then s
    else if s.corrected < 65535 ∧ s.corrected + 1 = s.params.threshold then
      (s.findingCounted n b source).emit .thresholdReached .corrected 0xFFFF s.params.threshold
        (s.findingCounted n b source).faultList.length
    else s.findingCounted n b source := by
  rw [findingCounted_faultList]
  rfl

/-- R176, R177: the account of a CORRECTABLE finding. -/
theorem run_account (s : State) (n : Slot) (b : Nat) (source : Source) :
    account n b source s = .ok () (s.accounted n b source) := by
  rw [State.accounted_eq]
  unfold account
  rw [run_get_bind]
  by_cases hn : n ∈ s.faultList
  · rw [if_pos (by simpa using hn), if_pos hn]
    rfl
  · rw [if_neg (by simpa using hn), if_neg hn]
    show (if (s.findingCounted n b source).corrected ≠ s.corrected ∧
        (s.findingCounted n b source).corrected = (s.findingCounted n b source).params.threshold ∧
        (s.findingCounted n b source).params.threshold ≠ 0 then
      report .thresholdReached .corrected 0xFFFF (s.findingCounted n b source).params.threshold
        (s.findingCounted n b source).faultList.length else pure () : Act Unit) (s.findingCounted n b source) = _
    rw [findingCounted_corrected, findingCounted_params]
    by_cases hk : s.corrected < 65535 ∧ s.corrected + 1 = s.params.threshold
    · obtain ⟨hlt, hth⟩ := hk
      rw [if_pos (by rw [if_pos hlt]; omega), if_pos ⟨hlt, hth⟩, run_report]
    · rw [if_neg (by split <;> omega), if_neg hk, run_pure]

/-- R173: the marker of a reading, judged. -/
theorem run_judgeMarker (s : State) (r : Reading) :
    judgeMarker r s = .ok (byteAt r.image 60 != 0 || (s.ctx r.slot).poisoned) (s.markerJudged r) := by
  unfold judgeMarker State.markerJudged
  rw [run_getCtx_bind, r.marked_eq]
  cases hr : r.rewritten with
  | true => simp
  | false =>
    by_cases hm : byteAt r.image 60 = 0#8
    · cases hf : (s.ctx r.slot).poisoned
      · simp [hm]
      · simp [hm]
        rfl
    · cases hf : (s.ctx r.slot).poisoned
      · by_cases hs : r.source = .startup
        · simp [hm, hs]
        · simp [hm, hs]
          rfl
      · simp [hm]

/-- R174, R178, R179: the check of one beat. -/
theorem run_checkBeat (s : State) (r : Reading) (p : Bool) (b : Nat) : checkBeat r p b s =
    .ok (State.beatChecked r (s, p) b).2 (State.beatChecked r (s, p) b).1 := by
  unfold checkBeat State.beatChecked
  rw [r.classOf_eq]
  cases beatClass r.image b with
  | clean => rfl
  | correctable d =>
    cases p with
    | true => rfl
    | false =>
      dsimp only
      by_cases hw : r.source ≠ .merge ∧ b ∉ r.overtaken
      · rw [if_pos hw]
        refine (run_if_pos (by simp) ..).trans ((run_if_pos (by simpa using hw) ..).trans ?_)
        rw [run_modify_bind, run_bind, run_account]
        rfl
      · rw [if_neg hw]
        refine (run_if_pos (by simp) ..).trans ((run_if_neg (by simpa using hw) ..).trans ?_)
        rw [run_bind, run_account]
        rfl
  | uncorrectable =>
    cases p with
    | true => rfl
    | false =>
      dsimp only
      by_cases hb : b ∈ r.replaced
      · rw [if_pos hb]
        exact run_if_pos (by simpa using hb) ..
      · rw [if_neg hb]
        exact run_if_neg (by simpa using hb) ..

theorem run_checkBeats (r : Reading) (bs : List Nat) (s : State) (p : Bool) :
    checkBeats r p bs s = .ok () (bs.foldl (State.beatChecked r) (s, p)).1 := by
  induction bs generalizing s p with
  | nil => rfl
  | cons b rest ih =>
    show (checkBeat r p b >>= fun q => checkBeats r q rest) s = _
    rw [run_bind, run_checkBeat]
    exact ih _ _

/-- R173 to R179: the check of a reading. -/
theorem run_checkReading (r : Reading) (s : State) : checkReading r s = .ok () (s.checked r) := by
  unfold checkReading
  rw [run_bind, run_judgeMarker]
  exact run_checkBeats ..

theorem run_checkReading_bind {α : Type} (r : Reading) (f : Unit → Act α) (s : State) :
    (checkReading r >>= f) s = f () (s.checked r) := by
  rw [run_bind, run_checkReading]

/-! ### Single beats -/

/-- The check of one beat of an unmarked record that is not poisoned. -/
theorem State.checked_single {r : Reading} {b : Nat} (hb : r.beats = [b]) (hm : byteAt r.image 60 = 0)
    (hp : (s.ctx r.slot).poisoned = false) : s.checked r = (State.beatChecked r (s, false) b).1 := by
  have judged : s.markerJudged r = s := by
    unfold State.markerJudged
    simp [hm, hp]
  unfold State.checked
  rw [hb, judged]
  simp [hm, hp]

/-- Settles O23. -/
theorem findingsAreHandled : Obligations.FindingsAreHandled := by
  refine ⟨fun s r => run_checkReading r s, fun s r b hb hm hp => ?_⟩
  have single := State.checked_single (s := s) hb hm hp
  refine ⟨fun hc => ?_, fun d hd hs ho => ⟨fun hn => ?_, fun hn hk ht => ?_⟩, fun hu hr => ?_⟩ <;>
    rw [run_checkReading, single] <;> unfold State.beatChecked
  · rw [show beatClass r.image b = .clean from hc]
  · rw [show beatClass r.image b = .correctable d from hd]
    dsimp only
    rw [if_pos ⟨hs, ho⟩, State.accounted, if_pos (by exact hn)]
  · rw [show beatClass r.image b = .correctable d from hd]
    dsimp only
    rw [if_pos ⟨hs, ho⟩, State.accounted, if_neg (by exact hn)]
    have quiet : ¬ ((s.writeBack r.slot b d).corrected < 65535 ∧
        (s.writeBack r.slot b d).corrected + 1 = (s.writeBack r.slot b d).params.threshold) := by
      show ¬ (s.corrected < 65535 ∧ s.corrected + 1 = s.params.threshold)
      omega
    have counts : (if (s.writeBack r.slot b d).corrected < 65535 then (s.writeBack r.slot b d).corrected + 1
        else (s.writeBack r.slot b d).corrected) = s.corrected + 1 := if_pos hk
    dsimp only
    rw [if_neg quiet, counts]
    rfl
  · rw [show beatClass r.image b = .uncorrectable from hu]
    dsimp only
    rw [if_neg hr]
    rfl

/-! ### What a check leaves alone -/

/-- Two states that differ at most in what the check of a reading may change. -/
def SameButFindings (s t : State) : Prop :=
  ∃ m c f k e l, t = { s with mem := m, ctxs := c, faultList := f, corrected := k, evOut := e, eventsLost := l }

theorem SameButFindings.refl (s : State) : SameButFindings s s := ⟨_, _, _, _, _, _, rfl⟩

theorem SameButFindings.trans {u : State} (h : SameButFindings s t) (h' : SameButFindings t u) : SameButFindings s u := by
  obtain ⟨m, c, f, k, e, l, rfl⟩ := h
  obtain ⟨m', c', f', k', e', l', rfl⟩ := h'
  exact ⟨m', c', f', k', e', l', rfl⟩

theorem SameButFindings.emit (h : SameButFindings s t) (k : EventKind) (v : Severity) (a b d : Nat) :
    SameButFindings s (t.emit k v a b d) := by
  refine h.trans ?_
  unfold State.emit State.takeEvent
  split <;> exact ⟨_, _, _, _, _, _, rfl⟩

theorem SameButFindings.markerJudged (s : State) (r : Reading) : SameButFindings s (s.markerJudged r) := by
  unfold State.markerJudged
  have flagged : SameButFindings s (s.setCtx r.slot { s.ctx r.slot with poisoned := true }) := ⟨_, _, _, _, _, _, rfl⟩
  dsimp only
  split_ifs
  · exact .refl s
  · exact flagged
  · exact flagged.emit ..
  · exact ⟨_, _, _, _, _, _, rfl⟩
  · exact .refl s

theorem SameButFindings.findingCounted (s : State) (n : Slot) (b : Nat) (source : Source) :
    SameButFindings s (s.findingCounted n b source) :=
  SameButFindings.emit ⟨s.mem, s.ctxs, _, _, s.evOut, s.eventsLost, rfl⟩ ..

theorem SameButFindings.accounted (s : State) (n : Slot) (b : Nat) (source : Source) :
    SameButFindings s (s.accounted n b source) := by
  rw [State.accounted_eq]
  split
  · exact .refl s
  · split
    · exact (SameButFindings.findingCounted ..).emit ..
    · exact .findingCounted ..

theorem SameButFindings.writeBack (s : State) (n : Slot) (b : Nat) (d : Beat) : SameButFindings s (s.writeBack n b d) :=
  ⟨(s.writeBack n b d).mem, s.ctxs, s.faultList, s.corrected, s.evOut, s.eventsLost, rfl⟩

theorem SameButFindings.poisonedAt (s : State) (n : Slot) (b : Nat) (source : Source) :
    SameButFindings s (s.poisonedAt n b source) := by
  have marked : SameButFindings s ((s.writeMarker n).setCtx n { s.ctx n with poisoned := true }) :=
    ⟨_, _, _, _, _, _, rfl⟩
  exact marked.emit ..

theorem SameButFindings.beatChecked (r : Reading) (p : State × Bool) (b : Nat) :
    SameButFindings p.1 (State.beatChecked r p b).1 := by
  obtain ⟨s, poisoned⟩ := p
  unfold State.beatChecked
  cases beatClass r.image b with
  | clean => exact .refl s
  | correctable d =>
    cases poisoned with
    | true => exact .refl s
    | false =>
      dsimp only
      split
      · exact (SameButFindings.writeBack s r.slot b d).trans (.accounted _ _ _ _)
      · exact .accounted _ _ _ _
  | uncorrectable =>
    cases poisoned with
    | true => exact .refl s
    | false =>
      dsimp only
      split
      · exact .refl s
      · exact .poisonedAt s _ _ _

/-- A check changes memory, contexts, the Record Fault List, the corrected count and the events alone. -/
theorem SameButFindings.checked (s : State) (r : Reading) : SameButFindings s (s.checked r) := by
  have beats (bs : List Nat) (p : State × Bool) : SameButFindings p.1 (bs.foldl (State.beatChecked r) p).1 := by
    induction bs generalizing p with
    | nil => exact .refl _
    | cons b rest ih => exact (SameButFindings.beatChecked r p b).trans (ih _)
  exact (SameButFindings.markerJudged s r).trans (beats r.beats _)

theorem SameButFindings.idMap (h : SameButFindings s t) : t.idMap = s.idMap := by
  obtain ⟨m, c, f, k, e, l, rfl⟩ := h; rfl

theorem SameButFindings.mapLookup (h : SameButFindings s t) (id : Identity) : t.mapLookup id = s.mapLookup id := by
  unfold State.mapLookup
  rw [h.idMap]

/-! ### The scan -/

/-- R13: the lookup of the scan, of an entry that reads without fault. -/
theorem run_scanLookup {id : Identity} (h : ∀ e, s.mapLookup id = some e → e.parityBad = false) :
    scanLookup id s = .ok ((s.mapLookup id).map MapEntry.slot) s := by
  unfold scanLookup
  rw [run_get_bind]
  cases hm : s.mapLookup id with
  | none => rfl
  | some e => exact run_if_neg (by simp [h e hm]) ..

/-- R13: the state of a scanned slot whose beats read well. -/
theorem run_scanState {n : Slot} {id : Identity} (h : ∀ e, s.mapLookup id = some e → e.parityBad = false) :
    scanState n false id s = .ok (s.scanned id)
      { s with idMap := if s.scanned id = .provisioned then mapSet s.idMap n id else s.idMap } := by
  unfold scanState State.scanned
  rw [if_neg (by simp)]
  by_cases hid : id = 0
  · rw [if_pos hid, if_pos hid]
    rfl
  · rw [if_neg hid, if_neg hid, run_bind, run_scanLookup h]
    cases hm : s.mapLookup id <;> rfl

theorem State.withScanFatals_self (h : s.scanFatals = []) : { s with scanFatals := [] } = s := by
  cases s
  cases h
  rfl

/-- R13: the scan goes on, or ends, after a record; the map faults it found are handed over when it ends. -/
theorem run_scanGoesOn {n : Slot} (h : n.val = 1023 → s.scanFatals = []) :
    (if h : n.val + 1 < 1024 then modify fun s => { s with startup := .scan ⟨n.val + 1, h⟩ } else endScan : Act Unit) s =
      .ok () (s.scanGoesOn n) := by
  unfold State.scanGoesOn
  by_cases hn : n.val + 1 < 1024
  · rw [dif_pos hn, dif_pos hn, run_modify]
  · have last : s.scanFatals = [] := h (by omega)
    rw [dif_neg hn, dif_neg hn]
    unfold endScan
    rw [run_modify_bind, run_get_bind, run_note_bind, run_modify_bind]
    refine (congrArg (fun l => forEach l (fun n : Slot => fatalFault .identityMap n.val) _) last).trans ?_
    exact congrArg (EStateM.Result.ok ()) (State.withScanFatals_self ((takeEvent_scanFatals ..).trans last))

/-- R13: the read of one record by the scan. -/
theorem exec_scanRecordRead {n : Slot} (ho : s.op = .starting) (hs : s.startup = .scan n)
    (hr : scanRecord n s = .ok () t) (hf : n.val = 1023 → t.scanFatals = []) :
    exec .scanRecordRead s = s.ends (t.scanGoesOn n) := by
  rw [exec_work (c := .scanRecordRead) rfl]
  refine perform_ok ?_
  unfold scanRead
  rw [run_get_bind, ho, hs]
  dsimp only
  rw [run_bind, hr]
  exact run_scanGoesOn hf

/-- Settles O11, by the marker and then by the beats. -/
theorem scanTakesOneRecord : Obligations.ScanTakesOneRecord := by
  intro s n ho hs hf
  have frame := SameButFindings.checked s (readingOf n .startup (s.recordImage n) [0, 1, 2, 3])
  have fatals (h : n.val = 1023) :
      (s.checked (readingOf n .startup (s.recordImage n) [0, 1, 2, 3])).scanFatals = [] := by
    obtain ⟨m, c, f, k, e, l, he⟩ := frame
    rw [he]
    exact hf h
  refine ⟨fun hm => exec_scanRecordRead ho hs ?_ hf, fun hm hb => exec_scanRecordRead ho hs ?_ fatals,
    fun hm hb hp => exec_scanRecordRead ho hs ?_ fatals⟩ <;> unfold scanRecord <;> rw [run_get_bind]
  · exact run_if_pos (by simpa [Reading.marked_eq, ownReading] using hm) ..
  · refine (run_if_neg (by simpa [Reading.marked_eq, ownReading] using hm) ..).trans ?_
    have bad : (ownReading n .startup (s.recordImage n) []).bad = true := (Reading.bad_iff_spoilt _).mpr hb
    rw [run_checkReading_bind, run_getCtx_bind, bad, run_bind]
    rfl
  · refine (run_if_neg (by simpa [Reading.marked_eq, ownReading] using hm) ..).trans ?_
    have good : (ownReading n .startup (s.recordImage n) []).bad = false := by
      rw [Bool.eq_false_iff]
      exact mt (Reading.bad_iff_spoilt _).mp hb
    have scanned (id : Identity) : (s.checked (ownReading n .startup (s.recordImage n) [])).scanned id = s.scanned id := by
      unfold State.scanned
      rw [(SameButFindings.checked s _).mapLookup]
    rw [run_checkReading_bind, run_getCtx_bind, good, run_bind, run_scanState (by
      rw [(SameButFindings.checked s _).mapLookup]; exact hp), scanned, (SameButFindings.checked s _).idMap]
    rfl

end Sys2Proof.Machine
end

section
/-! SUPPORT. HALTED, and the descriptor read of start-up. -/

namespace Sys2Proof.Machine

variable {s t : State} {c : Instr} {x : Transaction}

/-! ### What stands still in HALTED -/

/-- Two states that differ at most in memory, the ports and the final event that the Output Unit writes (R20). -/
def StandsStill (s t : State) : Prop :=
  ∃ m p q ep e es, t = { s with mem := m, cpPort := p, rlcPort := q, evProd := ep, evOut := e, evSent := es }

theorem StandsStill.refl (s : State) : StandsStill s s := ⟨_, _, _, _, _, _, rfl⟩

theorem StandsStill.trans {u : State} (h : StandsStill s t) (h' : StandsStill t u) : StandsStill s u := by
  obtain ⟨m, p, q, ep, e, es, rfl⟩ := h
  obtain ⟨m', p', q', ep', e', es', rfl⟩ := h'
  exact ⟨m', p', q', ep', e', es', rfl⟩

theorem StandsStill.eventInSlot (s : State) : StandsStill s s.eventInSlot := by
  unfold State.eventInSlot
  split
  · exact .refl s
  · split
    · exact .refl s
    · exact ⟨_, _, _, _, _, _, rfl⟩

theorem StandsStill.eventCounted (s : State) : StandsStill s s.eventCounted := by
  unfold State.eventCounted
  split
  · exact .refl s
  · dsimp only
    split
    · exact ⟨_, _, _, _, _, _, rfl⟩
    · exact .refl s

theorem StandsStill.setPort (s : State) (i : Initiator) (p : Port) : StandsStill s (s.setPort i p) := by
  cases i <;> exact ⟨_, _, _, _, _, _, rfl⟩

theorem StandsStill.passed (s : State) (x : Transaction) : StandsStill s (s.passed x) := by
  obtain ⟨m, p, q, e⟩ := s.passed_frame x
  exact ⟨m, p, q, _, _, _, e⟩

/-- Work in RUNNING is no work elsewhere. -/
theorem after_whenRunning_elsewhere (h : s.op ≠ .running) (a : Act Unit) : after (whenRunning a) s = s := by
  unfold whenRunning
  rw [after_get_bind, if_neg h]
  rfl

/-- R20: in HALTED no command that carries no transaction does more than write the final event, resets apart. -/
theorem standsStill_workOf {a : Act Unit} (hc : workOf c = some a) (ho : s.op = .halted) (hp : c ≠ .powerUp)
    (hr : c ≠ .rstinAsserted) : StandsStill s (after a s) := by
  have idle (b : Act Unit) : StandsStill s (after (whenRunning b) s) := by
    rw [after_whenRunning_elsewhere (by simp [ho])]
    exact .refl s
  cases c <;> cases hc
  case powerUp => exact absurd rfl hp
  case rstinAsserted => exact absurd rfl hr
  case resetRelease =>
    unfold releaseReset
    rw [after_get_bind, if_neg (by simp [ho])]
    exact .refl s
  case descriptorRead =>
    unfold descriptorRead
    rw [after_modify, if_neg (by simp [ho])]
    exact .refl s
  case scanRecordRead =>
    unfold scanRead
    rw [after_get_bind, ho]
    exact .refl s
  case timeBaseTick =>
    unfold tick
    rw [after_modify, ho]
    exact .refl s
  case ringSlotWritten r =>
    rw [after_modify]
    split
    · next live =>
      cases r with
      | directive => simp [State.ringLive, ho] at live
      | event => exact .eventInSlot s
    · exact .refl s
  case producerWordWritten r =>
    rw [after_modify]
    split
    · next live =>
      cases r with
      | directive => simp [State.ringLive, ho] at live
      | event => exact .eventCounted s
    · exact .refl s
  all_goals exact idle _

/-- R20: in HALTED a transaction passes or is refused. -/
theorem standsStill_takeTransaction (ho : s.op = .halted) : StandsStill s (after (takeTransaction x) s) := by
  have refused : StandsStill s (s.answered x.initiator .refused) := .setPort ..
  unfold takeTransaction
  rw [after_get_bind]
  split
  · exact refused
  · rw [ho]
    dsimp only
    unfold takeClassified
    cases classify s.map x with
    | none => exact refused
    | some r => cases r <;> first | exact .passed s x | exact refused

/-- Settles O7: every command but a reset leaves a state that stands still. -/
theorem haltedLeftOnlyByReset : Obligations.HaltedLeftOnlyByReset := by
  intro c s t ho hp hr ht
  have still : ∃ u, StandsStill s u ∧ t = State.settle s u := by
    cases hx : transactionOf c with
    | none =>
      obtain ⟨a, ha, he⟩ := exec_of_transactionOf_none hx s
      rw [he] at ht
      cases ht
      exact ⟨_, standsStill_workOf ha ho hp hr, rfl⟩
    | some x =>
      have row := exec_transactionOf hx s
      unfold takeAtUpstream at row
      split at row
      · rw [row] at ht; cases ht
      · split at row
        · rw [row] at ht; cases ht
        · rw [row, perform_eq] at ht
          cases ht
          have taken : StandsStill s (s.takeAtPort x) := .setPort ..
          exact ⟨_, taken.trans (standsStill_takeTransaction (by simpa using ho)), rfl⟩
  obtain ⟨u, ⟨m, p, q, ep, e, es, rfl⟩, rfl⟩ := still
  rw [State.settle_of_not_live (by unfold State.statusLive; rw [ho])]
  exact ⟨ho, rfl, rfl, rfl, rfl, rfl, rfl, rfl, rfl, rfl, rfl, rfl, rfl, rfl, rfl⟩

/-! ### The status block in memory -/

theorem State.writeStatus_eq (s : State) :
    ∃ m, s.writeStatus = { s with mem := m } ∧ m = s.mem.writeAll statusBase s.statusBytes := by
  unfold State.writeStatus
  generalize s.mem.writeAll statusBase s.statusBytes = m
  exact ⟨m, rfl, rfl⟩

theorem Memory.readByte_writeAll_statusBlock {m : Memory} (hm : m.wf) (s : State) {i : Nat} (hi : i < 128) :
    (m.writeAll statusBase s.statusBytes).readByte (0x180 + i) = byteAt s.statusBytes i := by
  have len : i < s.statusBytes.length := by rw [State.statusBytes_length]; exact hi
  generalize s.statusBytes = l at *
  rw [show 0x180 + i = statusBase + i from rfl, Memory.readByte_writeAll _ _ _ _ hm len]
  unfold byteAt
  rw [List.getD_eq_getElem?_getD, List.getElem?_eq_getElem len, Option.getD_some]

theorem Memory.readByte_writeAll_outside_statusBlock {m : Memory} (hm : m.wf) (s : State) {a : Nat}
    (ha : a < 0x180 ∨ 0x200 ≤ a) : (m.writeAll statusBase s.statusBytes).readByte a = m.readByte a := by
  have len := s.statusBytes_length
  generalize s.statusBytes = l at *
  exact Memory.readByte_writeAll_of_outside _ _ _ _ hm (by rw [len]; exact ha)

theorem Memory.readByte_writeStatus_outside (hm : Memory.wf s.mem) {a : Nat} (ha : a < 0x180 ∨ 0x200 ≤ a) :
    s.writeStatus.mem.readByte a = s.mem.readByte a := by
  obtain ⟨m, e, em⟩ := s.writeStatus_eq
  rw [e]
  show m.readByte a = _
  rw [em]
  exact Memory.readByte_writeAll_outside_statusBlock hm s ha

/-- A status block write leaves the block in memory as the fields stand. -/
theorem State.writeStatus_statusBlock (hm : Memory.wf s.mem) {i : Nat} (hi : i < 128) :
    s.writeStatus.mem.readByte (0x180 + i) = byteAt s.writeStatus.statusBytes i := by
  obtain ⟨m, e, em⟩ := s.writeStatus_eq
  rw [e]
  show m.readByte (0x180 + i) = byteAt s.statusBytes i
  rw [em]
  exact Memory.readByte_writeAll_statusBlock hm s hi

theorem Memory.wf_writeStatus (hm : Memory.wf s.mem) : Memory.wf s.writeStatus.mem := by
  obtain ⟨m, e, em⟩ := s.writeStatus_eq
  rw [e]
  show Memory.wf m
  rw [em]
  exact Memory.wf_writeAll _ _ _ hm

/-- The end of a step leaves the bytes outside the status block alone. -/
theorem Memory.readByte_settle_outside {b : State} (hm : Memory.wf t.mem) {a : Nat} (ha : a < 0x180 ∨ 0x200 ≤ a) :
    (State.settle b t).mem.readByte a = t.mem.readByte a := by
  obtain ⟨m, l, e, -, em⟩ := State.settle_cases b t
  rw [e]
  show m.readByte a = _
  rw [em]
  split
  · exact Memory.readByte_writeAll_outside_statusBlock hm t ha
  · rfl

/-- The end of a step leaves the status block in memory as the fields stand, if it stood so before. -/
theorem State.settle_keeps_statusBlock {b : State} (hm : Memory.wf t.mem)
    (h : ∀ i < 128, t.mem.readByte (0x180 + i) = byteAt t.statusBytes i) :
    ∀ i < 128, (State.settle b t).mem.readByte (0x180 + i) = byteAt (State.settle b t).statusBytes i := by
  intro i hi
  obtain ⟨-, -, bytes⟩ := State.settle_shown b t
  obtain ⟨m, l, e, -, em⟩ := State.settle_cases b t
  rw [bytes, e]
  show m.readByte (0x180 + i) = _
  rw [em]
  split
  · exact Memory.readByte_writeAll_statusBlock hm t hi
  · exact h i hi

/-! ### The descriptor read -/

theorem ParamSet.firstInvalid_isNone_iff (p : ParamSet) :
    p.firstInvalid.isNone = true ↔ ∀ c < 8, (p.cls c).valid = true := by
  unfold ParamSet.firstInvalid
  rw [Option.isNone_iff_eq_none, List.find?_eq_none]
  simp

/-- Four bytes of zero written. -/
theorem Memory.readByte_writeZeros {m : Memory} (hm : m.wf) (w a : Nat) :
    (m.writeAll w (leBytes 4 0)).readByte a = if w ≤ a ∧ a < w + 4 then 0 else m.readByte a := by
  split
  · next h =>
    obtain ⟨i, rfl⟩ := Nat.exists_eq_add_of_le h.1
    have hi : i < 4 := by omega
    rw [Memory.readByte_writeAll _ _ _ _ hm (by simpa [leBytes] using hi)]
    have zeros : ∀ j (hj : j < (leBytes 4 0).length), (leBytes 4 0)[j] = 0 := by decide
    exact zeros i _
  · next h =>
    refine Memory.readByte_writeAll_of_outside _ _ _ _ hm ?_
    have : (leBytes 4 0).length = 4 := rfl
    omega

theorem Memory.readByte_zeroIndexWords (hm : Memory.wf s.mem) (a : Nat) : s.zeroIndexWords.mem.readByte a =
    if 0x118 ≤ a ∧ a < 0x118 + 4 then 0 else if 0x108 ≤ a ∧ a < 0x108 + 4 then 0 else
      if 0x110 ≤ a ∧ a < 0x110 + 4 then 0 else if 0x100 ≤ a ∧ a < 0x100 + 4 then 0 else s.mem.readByte a := by
  have w1 := Memory.wf_writeAll s.mem dirProdWord (leBytes 4 0) hm
  have w2 := Memory.wf_writeAll _ evProdWord (leBytes 4 0) w1
  have w3 := Memory.wf_writeAll _ dirConsWord (leBytes 4 0) w2
  show ((((s.mem.writeAll dirProdWord (leBytes 4 0)).writeAll evProdWord (leBytes 4 0)).writeAll dirConsWord
    (leBytes 4 0)).writeAll evConsWord (leBytes 4 0)).readByte a = _
  rw [Memory.readByte_writeZeros w3, Memory.readByte_writeZeros w2, Memory.readByte_writeZeros w1,
    Memory.readByte_writeZeros hm]
  simp only [dirProdWord, dirConsWord, evProdWord, evConsWord]
  rfl

/-- R12: the index words, as the descriptor read leaves them in memory. -/
theorem Memory.readByte_zeroIndexWords_inside (hm : Memory.wf s.mem) {w i : Nat}
    (hw : w ∈ [0x100, 0x108, 0x110, 0x118]) (hi : i < 4) : s.zeroIndexWords.mem.readByte (w + i) = 0 := by
  rw [Memory.readByte_zeroIndexWords hm]
  simp only [List.mem_cons, List.not_mem_nil, or_false] at hw
  split_ifs <;> first | rfl | omega

theorem Memory.readByte_zeroIndexWords_outside (hm : Memory.wf s.mem) {a : Nat}
    (ha : ∀ w ∈ [0x100, 0x108, 0x110, 0x118], a < w ∨ w + 4 ≤ a) : s.zeroIndexWords.mem.readByte a = s.mem.readByte a := by
  rw [Memory.readByte_zeroIndexWords hm]
  simp only [List.forall_mem_cons, List.not_mem_nil, false_imp_iff, implies_true, and_true] at ha
  split_ifs <;> first | rfl | omega

theorem Memory.wf_zeroIndexWords (hm : Memory.wf s.mem) : Memory.wf s.zeroIndexWords.mem :=
  Memory.wf_writeAll _ _ _ (Memory.wf_writeAll _ _ _ (Memory.wf_writeAll _ _ _ (Memory.wf_writeAll _ _ _ hm)))

theorem State.configured_taken {d : List Byte}
    (h : ((RegionMap.decode d).valid && (ParamSet.decode d).firstInvalid.isNone) = true) :
    s.configured d = s.takeConfig (RegionMap.decode d) (ParamSet.decode d) := by
  unfold State.configured
  exact if_pos h

theorem State.configured_faulted {d : List Byte}
    (h : ¬ ((RegionMap.decode d).valid && (ParamSet.decode d).firstInvalid.isNone) = true) :
    s.configured d = s.faultConfig := by
  unfold State.configured
  exact if_neg h

/-- R12: the state of a validation fault but for the status block. -/
def State.withConfigFault (s : State) : State := { s with op := .configFault, startup := .none }

/-- R12: the state of a configuration taken, but for the status block. -/
def State.withConfig (s : State) (map : RegionMap) (params : ParamSet) : State :=
  { s.zeroIndexWords with
    map := some map, active := some params, staged := none, mapChanged := false, startup := .scan 0 }

theorem State.faultConfig_eq (s : State) : s.faultConfig = s.withConfigFault.writeStatus := rfl

theorem State.takeConfig_eq (s : State) (map : RegionMap) (params : ParamSet) :
    s.takeConfig map params = (s.withConfig map params).writeStatus := rfl

theorem State.withConfig_mem (map : RegionMap) (params : ParamSet) : (s.withConfig map params).mem = s.zeroIndexWords.mem :=
  rfl

theorem State.zeroIndexWords_frame (s : State) : ∃ m, s.zeroIndexWords = { s with
    mem := m, dirProd := 0, dirCons := 0, evProd := 0, evCons := 0
    dirOut := [], dirSent := false, backlog := [], evOut := [], evSent := false } := by
  unfold State.zeroIndexWords
  dsimp only
  generalize Memory.writeAll _ evConsWord _ = m
  exact ⟨m, rfl⟩

/-- R12: a configuration taken, at the end of its step. -/
theorem State.settle_takeConfig_frame (map : RegionMap) (params : ParamSet) :
    ∃ m l, State.settle s (s.takeConfig map params) = { s with
      mem := m, attn := l, map := some map, active := some params, staged := none, mapChanged := false, startup := .scan 0
      dirProd := 0, dirCons := 0, evProd := 0, evCons := 0
      dirOut := [], dirSent := false, backlog := [], evOut := [], evSent := false } := by
  obtain ⟨m, l, e, -, -⟩ := State.settle_cases s (s.takeConfig map params)
  obtain ⟨m', e', -⟩ := (s.withConfig map params).writeStatus_eq
  obtain ⟨m₀, e₀⟩ := s.zeroIndexWords_frame
  rw [e, State.takeConfig_eq, e']
  unfold State.withConfig
  rw [e₀]
  exact ⟨m, l, rfl⟩

/-- Settles O10, by whether the configuration is valid. -/
theorem descriptorReadChecksConfiguration : Obligations.DescriptorReadChecksConfiguration := by
  intro s hm ho hs d valid
  have valid_iff : ((RegionMap.decode d).valid && (ParamSet.decode d).firstInvalid.isNone) = true ↔ valid := by
    rw [Bool.and_eq_true, ParamSet.firstInvalid_isNone_iff]
  have read : exec .descriptorRead s = s.ends (s.configured d) := by
    rw [exec_work (c := .descriptorRead) rfl]
    refine perform_ok ?_
    unfold descriptorRead
    rw [run_modify, if_pos ⟨ho, hs⟩]
    rfl
  have wf := Memory.wf_zeroIndexWords hm
  refine ⟨_, read, fun hv => ?taken, fun hv => ?faulted, ?block⟩
  case taken =>
    rw [State.configured_taken (valid_iff.mpr hv)]
    obtain ⟨m, l, e⟩ := State.settle_takeConfig_frame (s := s) (RegionMap.decode d) (ParamSet.decode d)
    have outside {a : Nat} (ha : a < 0x180 ∨ 0x200 ≤ a) : m.readByte a = s.zeroIndexWords.mem.readByte a := by
      have settled := Memory.readByte_settle_outside (b := s) (t := s.takeConfig (RegionMap.decode d) (ParamSet.decode d))
        (by rw [State.takeConfig_eq]; exact Memory.wf_writeStatus (by rw [State.withConfig_mem]; exact wf)) ha
      rw [e, State.takeConfig_eq, Memory.readByte_writeStatus_outside (by rw [State.withConfig_mem]; exact wf) ha] at settled
      exact settled
    rw [e]
    refine ⟨ho, rfl, rfl, rfl, rfl, rfl, rfl, rfl, rfl, rfl, fun w hw i hi => ?_, fun a hfar ha => ?_⟩
    · have near : w + i < 0x180 := by
        simp only [List.mem_cons, List.not_mem_nil, or_false] at hw
        omega
      exact (outside (.inl near)).trans (Memory.readByte_zeroIndexWords_inside hm hw hi)
    · exact (outside ha).trans (Memory.readByte_zeroIndexWords_outside hm hfar)
  case faulted =>
    rw [State.configured_faulted (mt valid_iff.mp hv), State.faultConfig_eq]
    obtain ⟨m, e, em⟩ := s.withConfigFault.writeStatus_eq
    have outside {a : Nat} (ha : a < 0x180 ∨ 0x200 ≤ a) : m.readByte a = s.mem.readByte a := by
      rw [em]
      exact Memory.readByte_writeAll_outside_statusBlock hm _ ha
    rw [e, State.settle_of_not_live rfl]
    exact ⟨rfl, rfl, rfl, rfl, fun a ha => outside ha⟩
  case block =>
    by_cases hv : valid
    · rw [State.configured_taken (valid_iff.mpr hv), State.takeConfig_eq]
      have wf' : Memory.wf (s.withConfig (RegionMap.decode d) (ParamSet.decode d)).mem := by
        rw [State.withConfig_mem]; exact wf
      exact State.settle_keeps_statusBlock (Memory.wf_writeStatus wf') fun i hi => State.writeStatus_statusBlock wf' hi
    · rw [State.configured_faulted (mt valid_iff.mp hv), State.faultConfig_eq]
      have wf' : Memory.wf s.withConfigFault.mem := hm
      exact State.settle_keeps_statusBlock (Memory.wf_writeStatus wf') fun i hi => State.writeStatus_statusBlock wf' hi

end Sys2Proof.Machine
end

section
/-! SUPPORT. Calls: what the steps of a call's end do, as the words of the statements say it. -/

namespace Sys2Proof.Machine

variable {s t : State} {n : Slot} {h : Head} {e : EntryNo}

/-! ### Tables set as they stand, and set twice -/

section
variable (s : State)
theorem setCtx_self (n : Slot) : s.setCtx n (s.ctx n) = s := by simp [State.setCtx, State.ctx]
theorem setHead_self (h : Head) : s.setHead h (s.head h) = s := by simp [State.setHead, State.head]
theorem setAtt_self (h : Head) : s.setAtt h (s.att h) = s := by simp [State.setAtt, State.att]
theorem setEntry_self (e : EntryNo) : s.setEntry e (s.entry e) = s := by simp [State.setEntry, State.entry]
@[simp] theorem setCtx_setCtx (n : Slot) (c d : HandsetCtx) : (s.setCtx n c).setCtx n d = s.setCtx n d := by
  simp [State.setCtx]
@[simp] theorem setHead_setHead (h : Head) (c d : HeadCtx) : (s.setHead h c).setHead h d = s.setHead h d := by
  simp [State.setHead]
@[simp] theorem setAtt_setAtt (h : Head) (a b : AttachHead) : (s.setAtt h a).setAtt h b = s.setAtt h b := by
  simp [State.setAtt]
@[simp] theorem setEntry_setEntry (e : EntryNo) (x y : TableEntry) : (s.setEntry e x).setEntry e y = s.setEntry e y := by
  simp [State.setEntry]

/-! ### What records taken leave to be read -/

@[simp] theorem head_emit (k : EventKind) (v : Severity) (a b d : Nat) (x : Head) : (s.emit k v a b d).head x = s.head x :=
  head_takeEvent ..
@[simp] theorem att_emit (k : EventKind) (v : Severity) (a b d : Nat) (x : Head) : (s.emit k v a b d).att x = s.att x :=
  att_takeEvent ..
@[simp] theorem entry_emit (k : EventKind) (v : Severity) (a b d : Nat) (x : EntryNo) :
    (s.emit k v a b d).entry x = s.entry x := entry_takeEvent ..
@[simp] theorem emit_timeBase (k : EventKind) (v : Severity) (a b d : Nat) : (s.emit k v a b d).timeBase = s.timeBase :=
  takeEvent_timeBase ..
@[simp] theorem emit_params (k : EventKind) (v : Severity) (a b d : Nat) : (s.emit k v a b d).params = s.params := by
  simp [State.params, State.emit]
@[simp] theorem takeDirective_params (d : Directive) : (s.takeDirective d).params = s.params := by simp [State.params]

@[simp] theorem ctx_tell (k : DirectiveKind) (o : Option Head) (n m : Slot) (f : Directive → Directive) :
    (s.tell k o n f).ctx m = s.ctx m := ctx_takeDirective ..
@[simp] theorem head_tell (k : DirectiveKind) (o : Option Head) (n : Slot) (f : Directive → Directive) (x : Head) :
    (s.tell k o n f).head x = s.head x := head_takeDirective ..
@[simp] theorem att_tell (k : DirectiveKind) (o : Option Head) (n : Slot) (f : Directive → Directive) (x : Head) :
    (s.tell k o n f).att x = s.att x := att_takeDirective ..
@[simp] theorem entry_tell (k : DirectiveKind) (o : Option Head) (n : Slot) (f : Directive → Directive) (x : EntryNo) :
    (s.tell k o n f).entry x = s.entry x := entry_takeDirective ..
@[simp] theorem tell_timeBase (k : DirectiveKind) (o : Option Head) (n : Slot) (f : Directive → Directive) :
    (s.tell k o n f).timeBase = s.timeBase := takeDirective_timeBase ..
@[simp] theorem tell_params (k : DirectiveKind) (o : Option Head) (n : Slot) (f : Directive → Directive) :
    (s.tell k o n f).params = s.params := takeDirective_params ..

/-- R194: a directive about a handset. -/
theorem run_tell (k : DirectiveKind) (o : Option Head) (n : Slot) (f : Directive → Directive) :
    sendAbout k o n f s = .ok () (s.tell k o n f) := rfl

theorem run_tell_bind {β : Type} (k : DirectiveKind) (o : Option Head) (n : Slot) (f : Directive → Directive)
    (g : Unit → Act β) : (sendAbout k o n f >>= g) s = g () (s.tell k o n f) := rfl
end

/-! ### The words of the statements and those of the model -/

theorem HandsetCtx.applyStaged_eq (c : HandsetCtx) : c.applyStaged = c.unstaged := by
  unfold HandsetCtx.applyStaged HandsetCtx.unstaged
  cases c.staged <;> rfl

theorem HeadCtx.applyStaged_eq (c : HeadCtx) : c.applyStaged = c.unstaged := by
  unfold HeadCtx.applyStaged HeadCtx.unstaged
  cases c.staged <;> rfl

theorem HeadCtx.allocated_eq (c : HeadCtx) : c.allocated = c.inUse := rfl
theorem HeadCtx.free_eq (c : HeadCtx) : c.free = c.freeCount := rfl
theorem HeadCtx.lowestFree_eq (c : HeadCtx) : c.lowestFree = c.lowest := rfl
theorem HeadCtx.vacancy_eq (c : HeadCtx) : (if 1 ≤ c.free then c.lowestFree else none) = c.vacancy := rfl
theorem HeadCtx.reown_eq (c : HeadCtx) (ch : Chan) (o : Owner) : c.reown ch o = c.handed ch o := rfl

theorem Handover.channels_eq (t : Handover) : t.channels = t.named := by
  unfold Handover.channels Handover.named
  cases t.target <;> cases t.targetChan <;> cases t.heldChan <;> rfl

theorem HandsetCtx.callChannel_eq (c : HandsetCtx) : c.callChannel = c.callChannels := by
  unfold HandsetCtx.callChannel HandsetCtx.callChannels
  cases c.serving <;> cases c.channel <;> rfl

theorem HeadState.reachable_iff (st : HeadState) : st.reachable = true ↔ st ∉ [HeadState.failed, .outOfService] := by
  cases st <;> simp [HeadState.reachable]

theorem HeadState.admits_iff (st : HeadState) : st.admits = true ↔ st ∈ [HeadState.inService, .degraded] := by
  cases st <;> simp [HeadState.admits]

theorem Cause.rank_eq (c : Cause) : c.rank = c.precedence := by cases c <;> rfl

theorem WaitEntry.before_iff (x y : WaitEntry) : x.before y = true ↔ x.ahead y := by
  unfold WaitEntry.before WaitEntry.ahead
  rw [x.cause.rank_eq, y.cause.rank_eq]
  by_cases hr : x.cause.precedence = y.cause.precedence
  · by_cases hp : x.priority = y.priority
    · by_cases ho : x.opened = y.opened
      · simp [hr, hp, ho]
      · simp [hr, hp, ho, earlier, passed]
    · simp [hr, hp]
  · simp [hr]

theorem joinWait_eq (x : WaitEntry) (q : List WaitEntry) : joinWait x q = joined x q := by
  induction q with
  | nil => rfl
  | cons y rest ih =>
    unfold joinWait joined
    rw [ih]
    simp only [WaitEntry.before_iff]

theorem HandsetState.origin_eq (st : HandsetState) : st.origin = if st = .pinned then .pinned else .active := by
  cases st <;> rfl

/-! ### What the end of a call leaves alone -/

/-- Two states that differ at most in the heads, the table and the records for the output rings. -/
def SameButCalls (s t : State) : Prop :=
  ∃ hs tb d b k e l, t = { s with
    heads := hs, table := tb, dirOut := d, backlog := b, dirDropped := k, evOut := e, eventsLost := l }

theorem SameButCalls.refl (s : State) : SameButCalls s s := ⟨_, _, _, _, _, _, _, rfl⟩

theorem SameButCalls.trans {u : State} (h : SameButCalls s t) (h' : SameButCalls t u) : SameButCalls s u := by
  obtain ⟨hs, tb, d, b, k, e, l, rfl⟩ := h
  obtain ⟨hs', tb', d', b', k', e', l', rfl⟩ := h'
  exact ⟨hs', tb', d', b', k', e', l', rfl⟩

theorem SameButCalls.setHead (s : State) (h : Head) (c : HeadCtx) : SameButCalls s (s.setHead h c) :=
  ⟨_, _, _, _, _, _, _, rfl⟩

theorem SameButCalls.setEntry (s : State) (e : EntryNo) (x : TableEntry) : SameButCalls s (s.setEntry e x) :=
  ⟨_, _, _, _, _, _, _, rfl⟩

theorem SameButCalls.takeEvent (s : State) (e : Event) : SameButCalls s (s.takeEvent e) := by
  unfold State.takeEvent
  split <;> exact ⟨s.heads, s.table, s.dirOut, s.backlog, s.dirDropped, _, _, rfl⟩

theorem SameButCalls.emit (s : State) (k : EventKind) (v : Severity) (a b d : Nat) : SameButCalls s (s.emit k v a b d) :=
  .takeEvent ..

theorem SameButCalls.takeDirective (s : State) (d : Directive) : SameButCalls s (s.takeDirective d) := by
  unfold State.takeDirective
  dsimp only
  split
  · exact ⟨s.heads, s.table, _, s.backlog, s.dirDropped, s.evOut, s.eventsLost, rfl⟩
  · split
    · exact ⟨s.heads, s.table, s.dirOut, _, s.dirDropped, s.evOut, s.eventsLost, rfl⟩
    · exact .trans ⟨s.heads, s.table, s.dirOut, s.backlog, _, s.evOut, s.eventsLost, rfl⟩ (.emit ..)

theorem SameButCalls.tell (s : State) (k : DirectiveKind) (o : Option Head) (n : Slot) (f : Directive → Directive) :
    SameButCalls s (s.tell k o n f) := .takeDirective ..

theorem SameButCalls.withdrawn (s : State) (e : EntryNo) (t : Handover) : SameButCalls s (s.withdrawn e t) := by
  unfold State.withdrawn
  split
  · exact .setHead ..
  · exact .refl s

theorem SameButCalls.granted (s : State) (e : EntryNo) (h : Head) (ch : Chan) : SameButCalls s (s.granted e h ch) := by
  unfold State.granted
  split
  · exact .refl s
  · exact ((SameButCalls.setEntry ..).trans (.tell ..)).trans (.tell ..)

theorem SameButCalls.drained (s : State) (h : Head) : SameButCalls s (s.drained h) := (SameButCalls.setHead ..).trans (.emit ..)

theorem SameButCalls.freed (s : State) (h : Head) (ch : Chan) : SameButCalls s (s.freed h ch) := by
  unfold State.freed
  dsimp only
  split
  · exact ((SameButCalls.setHead ..).trans (.setHead ..)).trans (.granted ..)
  · split
    · exact (SameButCalls.setHead ..).trans (.drained ..)
    · exact .setHead ..
  · exact .setHead ..

theorem SameButCalls.released (s : State) (n : Slot) (h : Head) (ch : Chan) : SameButCalls s (s.released n h ch) := by
  unfold State.released
  split
  · exact .refl s
  · exact (SameButCalls.takeDirective ..).trans (.freed ..)

theorem SameButCalls.releasedAll (n : Slot) (cs : List (Head × Chan)) (s : State) :
    SameButCalls s (s.releasedAll n cs) := by
  induction cs generalizing s with
  | nil => exact .refl s
  | cons p rest ih => exact (SameButCalls.released ..).trans (ih _)

theorem SameButCalls.cut (s : State) (n : Slot) (abandoned : Bool) : SameButCalls s (s.cut n abandoned) := by
  unfold State.cut
  split
  · exact .releasedAll ..
  · dsimp only
    split
    · exact (((SameButCalls.withdrawn ..).trans (.setEntry ..)).trans (.emit ..)).trans (.releasedAll ..)
    · exact ((SameButCalls.withdrawn ..).trans (.setEntry ..)).trans (.releasedAll ..)

theorem SameButCalls.dropped (s : State) (n : Slot) (cause : Nat) : SameButCalls s (s.dropped n cause) :=
  (SameButCalls.cut ..).trans (.emit ..)

theorem SameButCalls.ctx (h : SameButCalls s t) (n : Slot) : t.ctx n = s.ctx n := by
  obtain ⟨_, _, _, _, _, _, _, rfl⟩ := h
  rfl

theorem SameButCalls.att (h : SameButCalls s t) (x : Head) : t.att x = s.att x := by
  obtain ⟨_, _, _, _, _, _, _, rfl⟩ := h
  rfl

theorem SameButCalls.timeBase (h : SameButCalls s t) : t.timeBase = s.timeBase := by
  obtain ⟨_, _, _, _, _, _, _, rfl⟩ := h
  rfl

theorem SameButCalls.params (h : SameButCalls s t) : t.params = s.params := by
  obtain ⟨_, _, _, _, _, _, _, rfl⟩ := h
  rfl

theorem SameButCalls.contained (h : SameButCalls s t) : t.contained = s.contained := by
  obtain ⟨_, _, _, _, _, _, _, rfl⟩ := h
  rfl

theorem SameButCalls.rebuilding (h : SameButCalls s t) (n : Slot) : t.rebuilding n = s.rebuilding n := by
  obtain ⟨_, _, _, _, _, _, _, rfl⟩ := h
  rfl

/-! ### Pools and entries that read without fault -/

/-- Every Channel Pool and every table entry reads without fault (R186). -/
structure State.TablesRead (s : State) : Prop where
  pools : ∀ h, (s.head h).poolParityBad = false
  entries : ∀ e, (s.entry e).parityBad = false

theorem State.undamaged.tablesRead (h : s.undamaged) : s.TablesRead := ⟨h.pools, h.entries⟩

theorem State.TablesRead.of_eq (hs : s.TablesRead) (hh : t.heads = s.heads) (ht : t.table = s.table) : t.TablesRead where
  pools x := by
    have pool := hs.pools x
    unfold State.head at *
    rwa [hh]
  entries e := by
    have entry := hs.entries e
    unfold State.entry at *
    rwa [ht]

theorem State.TablesRead.setCtx (hs : s.TablesRead) (n : Slot) (c : HandsetCtx) : (s.setCtx n c).TablesRead :=
  hs.of_eq rfl rfl

theorem State.TablesRead.setAtt (hs : s.TablesRead) (h : Head) (a : AttachHead) : (s.setAtt h a).TablesRead :=
  hs.of_eq rfl rfl

theorem State.TablesRead.setHead (hs : s.TablesRead) (h : Head) {c : HeadCtx} (hc : c.poolParityBad = false) :
    (s.setHead h c).TablesRead where
  pools x := by
    by_cases hx : x = h
    · rw [hx, head_setHead]; exact hc
    · rw [head_setHead_ne _ _ hx]; exact hs.pools x
  entries e := hs.entries e

theorem State.TablesRead.setEntry (hs : s.TablesRead) (e : EntryNo) {x : TableEntry} (hx : x.parityBad = false) :
    (s.setEntry e x).TablesRead where
  pools h := hs.pools h
  entries k := by
    by_cases hk : k = e
    · rw [hk, entry_setEntry]; exact hx
    · rw [entry_setEntry_ne _ _ hk]; exact hs.entries k

theorem State.TablesRead.emit (hs : s.TablesRead) (k : EventKind) (v : Severity) (a b d : Nat) :
    (s.emit k v a b d).TablesRead := hs.of_eq (by simp [State.emit]) (by simp [State.emit])

theorem State.TablesRead.takeDirective (hs : s.TablesRead) (d : Directive) : (s.takeDirective d).TablesRead :=
  hs.of_eq (by simp) (by simp)

theorem State.TablesRead.tell (hs : s.TablesRead) (k : DirectiveKind) (o : Option Head) (n : Slot)
    (f : Directive → Directive) : (s.tell k o n f).TablesRead := hs.takeDirective _

theorem State.TablesRead.withdrawn (hs : s.TablesRead) (e : EntryNo) (t : Handover) : (s.withdrawn e t).TablesRead := by
  unfold State.withdrawn
  split
  · exact hs.setHead _ (hs.pools _)
  · exact hs

theorem State.TablesRead.granted (hs : s.TablesRead) (e : EntryNo) (h : Head) (ch : Chan) :
    (s.granted e h ch).TablesRead := by
  unfold State.granted
  split
  · exact hs
  · exact ((hs.setEntry e (by exact hs.entries e)).tell ..).tell ..

theorem HeadCtx.unstaged_poolParityBad (c : HeadCtx) : c.unstaged.poolParityBad = c.poolParityBad := by
  unfold HeadCtx.unstaged
  split <;> rfl

theorem State.TablesRead.drained (hs : s.TablesRead) (h : Head) : (s.drained h).TablesRead :=
  (hs.setHead h (by exact (HeadCtx.unstaged_poolParityBad _).trans (hs.pools h))).emit ..

theorem State.TablesRead.freed (hs : s.TablesRead) (h : Head) (ch : Chan) : (s.freed h ch).TablesRead := by
  have given : (s.setHead h { s.head h with pool := (s.head h).pool.set ch none }).TablesRead :=
    hs.setHead h (by exact hs.pools h)
  unfold State.freed
  dsimp only
  split
  · exact (given.setHead h (by exact hs.pools h)).granted ..
  · split
    · exact given.drained h
    · exact given
  · exact given

theorem State.TablesRead.released (hs : s.TablesRead) (n : Slot) (h : Head) (ch : Chan) : (s.released n h ch).TablesRead := by
  unfold State.released
  split
  · exact hs
  · exact (hs.takeDirective _).freed ..

theorem State.TablesRead.releasedAll (n : Slot) (cs : List (Head × Chan)) (hs : s.TablesRead) :
    (s.releasedAll n cs).TablesRead := by
  induction cs generalizing s with
  | nil => exact hs
  | cons p rest ih => exact ih (hs.released ..)

theorem State.TablesRead.cut (hs : s.TablesRead) (n : Slot) (abandoned : Bool) : (s.cut n abandoned).TablesRead := by
  unfold State.cut
  split
  · exact .releasedAll _ _ hs
  · next e t _ =>
    have closed := (hs.withdrawn e t).setEntry e (x := .empty) rfl
    dsimp only
    split
    · exact .releasedAll _ _ (closed.emit ..)
    · exact .releasedAll _ _ closed

theorem State.TablesRead.dropped (hs : s.TablesRead) (n : Slot) (cause : Nat) : (s.dropped n cause).TablesRead :=
  (hs.cut n false).emit ..

/-! ### Grants and releases -/

theorem modTxn_none (ht : s.txnOf e = none) (f : Handover → Handover) : modTxn e f s = .ok () s := by
  unfold modTxn
  rw [run_modify, ht]
  have same : { s.entry e with txn := Option.map f none } = s.entry e := by
    unfold State.txnOf at ht
    rw [Option.map_none, ← ht]
  rw [same, setEntry_self]

theorem run_modTxn {t : Handover} (ht : s.txnOf e = some t) (f : Handover → Handover) :
    modTxn e f s = .ok () (s.setEntry e { s.entry e with txn := some (f t) }) := by
  unfold modTxn
  rw [run_modify, ht, Option.map_some]

@[simp] theorem txnOf_setEntry (s : State) (e : EntryNo) (x : TableEntry) : (s.setEntry e x).txnOf e = x.txn :=
  congrArg TableEntry.txn (entry_setEntry ..)

theorem run_enterCommanded (hp : (s.entry e).parityBad = false) (h : Head) (ch : Chan) :
    enterCommanded e h ch s = .ok () (s.granted e h ch) := by
  unfold enterCommanded State.granted
  rw [run_bind, run_useEntry hp]
  dsimp only
  rw [run_get_bind, run_bind]
  cases ht : (s.entry e).txn with
  | none =>
    rw [modTxn_none ht]
    dsimp only
    rw [run_get_bind, show s.txnOf e = none from ht]
    rfl
  | some t =>
    rw [run_modTxn ht]
    dsimp only
    rw [run_get_bind, txnOf_setEntry]
    rfl

theorem run_endDrain (s : State) (h : Head) : endDrain h s = .ok () (s.drained h) := by
  unfold endDrain State.drained
  rw [run_modHead_bind, run_getHead_bind, run_note, head_setHead, HeadCtx.applyStaged_eq]

theorem run_judgeDrain (s : State) (h : Head) : judgeDrain h s =
    .ok () (if (s.head h).state = .draining ∧ (s.head h).inUse = 0 then s.drained h else s) := by
  unfold judgeDrain
  rw [run_getHead_bind, HeadCtx.allocated_eq]
  split
  · exact run_endDrain s h
  · rfl

/-- R141, R143, R133: what follows a release at a head, whose context is `x` after it. -/
def State.afterFree (u : State) (h : Head) (x : HeadCtx) : State :=
  match x.state, x.waitQ, x.lowest with
  | .inService, w :: rest, some ch =>
    (u.setHead h { x.allotted ch (.reservation w.entry) with waitQ := rest }).granted w.entry h ch
  | .draining, _, _ => if x.inUse = 0 then u.drained h else u
  | _, _, _ => u

theorem State.freed_eq (s : State) (h : Head) (ch : Chan) : s.freed h ch =
    (s.setHead h ((s.head h).withOwner ch none)).afterFree h ((s.head h).withOwner ch none) := rfl

theorem State.afterFree_inService {u : State} {x : HeadCtx} {w : WaitEntry} {rest : List WaitEntry} {ch : Chan}
    (hin : x.state = .inService) (hq : x.waitQ = w :: rest) (hl : x.lowest = some ch) : u.afterFree h x =
      (u.setHead h { x.allotted ch (.reservation w.entry) with waitQ := rest }).granted w.entry h ch := by
  unfold State.afterFree
  rw [hin, hq, hl]

theorem State.afterFree_unwaited {u : State} {x : HeadCtx} (hin : x.state = .inService)
    (hq : x.waitQ = [] ∨ x.lowest = none) : u.afterFree h x = u := by
  unfold State.afterFree
  rw [hin]
  rcases hq with hq | hq
  · rw [hq]
  · rw [hq]
    cases x.waitQ <;> rfl

theorem State.afterFree_draining {u : State} {x : HeadCtx} (hin : x.state ≠ .inService) : u.afterFree h x =
    if x.state = .draining ∧ x.inUse = 0 then u.drained h else u := by
  unfold State.afterFree
  cases hst : x.state with
  | inService => exact absurd hst hin
  | draining => simp
  | absent | degraded | failed | outOfService => simp

theorem run_releaseChannel (hs : s.TablesRead) (h : Head) (ch : Chan) : releaseChannel h ch s = .ok () (s.freed h ch) := by
  have given : (s.setHead h ((s.head h).withOwner ch none)).TablesRead := hs.setHead h (by exact hs.pools h)
  rw [State.freed_eq]
  unfold releaseChannel
  rw [run_bind, run_usePool (hs.pools h)]
  dsimp only
  rw [run_modHead_bind, run_getHead_bind, head_setHead]
  have pool : ((s.head h).withOwner ch none).poolParityBad = false := hs.pools h
  generalize (s.head h).withOwner ch none = x at given pool
  by_cases hin : x.state = .inService
  · rw [if_pos hin, HeadCtx.lowestFree_eq]
    cases hq : x.waitQ with
    | nil => rw [State.afterFree_unwaited hin (.inl hq)]; rfl
    | cons w rest =>
      cases hl : x.lowest with
      | none => rw [State.afterFree_unwaited hin (.inr hl)]; rfl
      | some c =>
        rw [State.afterFree_inService hin hq hl]
        dsimp only
        rw [run_modHead_bind, head_setHead]
        exact run_enterCommanded ((given.setHead h (by exact pool)).entries w.entry) h c
  · rw [if_neg hin, run_judgeDrain, head_setHead, State.afterFree_draining hin]

theorem run_releaseAt (hs : s.TablesRead) (n : Slot) (h : Head) (ch : Chan) :
    releaseAt n h ch s = .ok () (s.released n h ch) := by
  unfold releaseAt State.released
  rw [run_getHead_bind]
  by_cases hr : (s.head h).state.reachable = true
  · rw [if_pos hr, if_neg ((HeadState.reachable_iff _).mp hr), run_send_bind]
    exact run_releaseChannel (hs.takeDirective _) h ch
  · rw [if_neg hr, if_pos (not_not.mp (mt (HeadState.reachable_iff _).mpr hr))]
    rfl

theorem run_releaseAll (n : Slot) (cs : List (Head × Chan)) (hs : s.TablesRead) :
    releaseAll n cs s = .ok () (s.releasedAll n cs) := by
  induction cs generalizing s with
  | nil => rfl
  | cons p rest ih =>
    show (releaseAt n p.1 p.2 >>= fun _ => releaseAll n rest) s = _
    rw [run_bind, run_releaseAt hs]
    exact ih (hs.released ..)

/-! ### The end of a call -/

theorem run_withdrawWait (s : State) (e : EntryNo) (t : Handover) : withdrawWait e t s = .ok () (s.withdrawn e t) := by
  unfold withdrawWait State.withdrawn
  cases t.phase <;> cases t.target <;> rfl

theorem run_slotEntry_openTxn (hs : s.TablesRead) (n : Slot) : slotEntry n s = .ok (s.openTxn n) s := by
  unfold State.openTxn
  cases ht : (s.ctx n).txn with
  | none => exact run_slotEntry_none ht
  | some p => exact run_slotEntry (e := p.1) (o := p.2) ht (hs.entries p.1)

theorem run_endCall (hs : s.TablesRead) (n : Slot) (abandoned : Bool) : endCall n abandoned s = .ok () (s.cut n abandoned) := by
  unfold endCall closeForEnd State.cut
  rw [run_getCtx_bind, run_bind, run_bind, run_slotEntry_openTxn hs, HandsetCtx.callChannel_eq]
  dsimp only
  cases s.openTxn n with
  | none =>
    dsimp only
    rw [run_pure]
    dsimp only
    rw [List.append_nil]
    exact run_releaseAll _ _ hs
  | some p =>
    obtain ⟨e, t⟩ := p
    have closed := (hs.withdrawn e t).setEntry e (x := .empty) rfl
    dsimp only
    rw [run_bind, run_withdrawWait]
    dsimp only
    rw [run_freeEntry_bind, Handover.channels_eq]
    cases abandoned with
    | true => exact run_releaseAll _ _ (closed.emit ..)
    | false => exact run_releaseAll _ _ closed

theorem DropCause.run_dropCall (hs : s.TablesRead) (n : Slot) (cause : DropCause) :
    dropCall n cause s = .ok () (s.dropped n cause.code) := by
  unfold dropCall State.dropped
  rw [run_bind, run_endCall hs]
  dsimp only
  rw [run_getCtx_bind, run_note, (SameButCalls.cut s n false).ctx]

end Sys2Proof.Machine
end

section
/-! SUPPORT. The change of a context's state, admission, and the messages of attach, detach and calls. -/

namespace Sys2Proof.Machine

variable {s t : State} {n : Slot} {h : Head} {ident : Identity} {f : HandsetCtx → HandsetCtx}

/-! ### The change of state -/

theorem HandsetCtx.left_of_inCall {c : HandsetCtx} (hc : c.state.inCall = true) : c.left = c.unstaged := if_pos hc

theorem HandsetCtx.left_of_outside {c : HandsetCtx} (hc : c.state.inCall = false) : c.left = c := if_neg (by simp [hc])

/-- R66: staged fields in force, field by field. -/
theorem HandsetCtx.unstaged_eq (c : HandsetCtx) : c.unstaged = { c with
    cls := (c.staged.map StagedFields.cls).getD c.cls, group := (c.staged.map StagedFields.group).getD c.group
    policy := (c.staged.map StagedFields.policy).getD c.policy
    priority := (c.staged.map StagedFields.priority).getD c.priority, staged := none } := by
  unfold HandsetCtx.unstaged
  cases hs : c.staged with
  | none =>
    cases c
    cases hs
    rfl
  | some x => rfl

/-- A context whose call, if any, has ended, field by field. -/
theorem HandsetCtx.left_frame (c : HandsetCtx) : ∃ k g p q st, c.left = { c with
    cls := k, group := g, policy := p, priority := q, staged := st } := by
  unfold HandsetCtx.left
  split
  · rw [HandsetCtx.unstaged_eq]
    exact ⟨_, _, _, _, _, rfl⟩
  · exact ⟨c.cls, c.group, c.policy, c.priority, c.staged, rfl⟩

theorem HandsetCtx.left_accessFail (c : HandsetCtx) (k : Nat) :
    HandsetCtx.left { c with accessFail := k } = { c.left with accessFail := k } := by
  unfold HandsetCtx.left
  dsimp only
  split
  · rw [HandsetCtx.unstaged_eq, HandsetCtx.unstaged_eq]
  · rfl

theorem HandsetCtx.left_admission (c : HandsetCtx) (a : Option Head) (d : Option Time) :
    HandsetCtx.left { c with admissionHead := a, offerDeadline := d } =
      { c.left with admissionHead := a, offerDeadline := d } := by
  unfold HandsetCtx.left
  dsimp only
  split
  · rw [HandsetCtx.unstaged_eq, HandsetCtx.unstaged_eq]
  · rfl

theorem HandsetCtx.left_admissionHead (c : HandsetCtx) (a : Option Head) :
    HandsetCtx.left { c with admissionHead := a } = { c.left with admissionHead := a } := by
  unfold HandsetCtx.left
  dsimp only
  split
  · rw [HandsetCtx.unstaged_eq, HandsetCtx.unstaged_eq]
  · rfl

/-- R57: the entry actions of a change of state to one outside registration and other than VACANT. -/
theorem HandsetCtx.entryActions_unregistered (c : HandsetCtx) {st : HandsetState} (hr : st.registered = false)
    (hv : st ≠ .vacant) : c.entryActions c.state st = { c.left with hoFail := 0 } := by
  unfold HandsetCtx.entryActions HandsetCtx.left
  have outside : st.inCall = false := by
    cases st <;> first | rfl | cases hr
  have idle : st ≠ .idle := by
    rintro rfl
    cases hr
  rw [HandsetCtx.applyStaged_eq]
  simp [hr, hv, idle, outside]

/-- R56, R57: a context that enters PROVISIONED, BARRED or QUARANTINED. -/
theorem State.entered_away (s : State) (n : Slot) {st : HandsetState}
    (hst : st ∈ [HandsetState.provisioned, .barred, .quarantined]) (hf : (f (s.ctx n)).state = (s.ctx n).state) :
    s.entered n st f = s.setCtx n ((f (s.ctx n)).left.away st) := by
  have shape : st.registered = false ∧ st ≠ .vacant ∧ ∀ q, qualityNotice (s.ctx n).state st q = .idle := by
    simp only [List.mem_cons, List.not_mem_nil, or_false] at hst
    rcases hst with rfl | rfl | rfl <;> simp [HandsetState.registered, qualityNotice, HandsetState.inCall]
  obtain ⟨hr, hv, hq⟩ := shape
  unfold State.entered
  dsimp only
  rw [← hf, HandsetCtx.entryActions_unregistered _ hr hv, hf, hq]
  simp only [List.mem_cons, List.not_mem_nil, or_false] at hst
  rcases hst with rfl | rfl | rfl <;> rfl

theorem State.entered_offered (s : State) (n : Slot) (hf : (f (s.ctx n)).state = (s.ctx n).state) :
    s.entered n .offered f = s.setCtx n { (f (s.ctx n)).left.away .offered with
      admissionHead := (f (s.ctx n)).left.admissionHead, serving := (f (s.ctx n)).left.admissionHead
      offerDeadline := (f (s.ctx n)).left.offerDeadline } := by
  unfold State.entered
  dsimp only
  rw [← hf, HandsetCtx.entryActions_unregistered _ rfl (by decide)]
  simp [HandsetCtx.shaped, HandsetCtx.away, qualityNotice, presenceNotice, HandsetState.inCall]

theorem State.entered_queued (s : State) (n : Slot) (hf : (f (s.ctx n)).state = (s.ctx n).state) :
    s.entered n .queued f = s.setCtx n { (f (s.ctx n)).left.away .queued with
      admissionHead := (f (s.ctx n)).left.admissionHead, serving := (f (s.ctx n)).left.admissionHead } := by
  unfold State.entered
  dsimp only
  rw [← hf, HandsetCtx.entryActions_unregistered _ rfl (by decide)]
  simp [HandsetCtx.shaped, HandsetCtx.away, qualityNotice, presenceNotice, HandsetState.inCall]

/-- R57: the entry actions of a change to a registered state outside a call, other than IDLE. -/
theorem HandsetCtx.entryActions_settled (c : HandsetCtx) {st : HandsetState} (hst : st ∈ [HandsetState.doze, .lost]) :
    c.entryActions c.state st = c.left := by
  unfold HandsetCtx.entryActions HandsetCtx.left
  rw [HandsetCtx.applyStaged_eq]
  have shape : st.registered = true ∧ st.inCall = false ∧ st ≠ .idle ∧ st ≠ .vacant := by
    simp only [List.mem_cons, List.not_mem_nil, or_false] at hst
    rcases hst with rfl | rfl <;> simp [HandsetState.registered, HandsetState.inCall]
  obtain ⟨hr, outside, idle, vacant⟩ := shape
  simp [hr, outside, idle, vacant]

/-- R56, R57, R101: a context that enters LOST, its grace period running. -/
theorem State.entered_lost (s : State) (n : Slot) : s.entered n .lost id = s.setCtx n
    ((s.ctx n).left.settled .lost (s.ctx n).left.serving
      (windowOf .grace 120000 s.timeBase (s.ctx n).left.presence.missed)) := by
  unfold State.entered
  dsimp only [id]
  rw [HandsetCtx.entryActions_settled _ (by decide)]
  simp [qualityNotice, HandsetState.inCall]
  rfl

/-- R56, R57, R89: a context outside a call that enters DOZE. -/
theorem State.entered_doze (s : State) (n : Slot) (hc : (s.ctx n).state.inCall = false) : s.entered n .doze id =
    s.setCtx n ((s.ctx n).settled .doze (s.ctx n).serving (dozeOf (s.terms (s.ctx n)) s.timeBase)) := by
  unfold State.entered
  dsimp only [id]
  rw [HandsetCtx.entryActions_settled _ (by decide), HandsetCtx.left_of_outside hc]
  simp [qualityNotice, hc]
  rfl

/-- R56, R57, R89: a context outside a call that enters IDLE, or starts IDLE again. -/
theorem State.entered_idle (s : State) (n : Slot) (hf : (f (s.ctx n)).state = (s.ctx n).state)
    (hc : (s.ctx n).state.inCall = false) : s.entered n .idle f =
      s.setCtx n ((f (s.ctx n)).settled .idle (f (s.ctx n)).serving (idleOf (s.terms (f (s.ctx n))) s.timeBase false)) := by
  have actions (d : HandsetCtx) (hd : d.state = (s.ctx n).state) : d.entryActions d.state .idle = d := by
    unfold HandsetCtx.entryActions
    simp [hd, hc, HandsetState.registered]
  unfold State.entered
  dsimp only
  rw [← hf, actions _ hf, hf]
  simp [qualityNotice, hc]
  rfl

/-- R57, R66, R151: a call ends in IDLE, staged fields in force and the failure count 0. -/
theorem State.entered_idle_call (s : State) (n : Slot) (hf : (f (s.ctx n)).state = (s.ctx n).state)
    (hc : (s.ctx n).state.inCall = true) : s.entered n .idle f =
      s.setCtx n { (f (s.ctx n)).unstaged.settled .idle (f (s.ctx n)).unstaged.serving
        (idleOf (s.terms (f (s.ctx n)).unstaged) s.timeBase false) with hoFail := 0 } := by
  have actions (d : HandsetCtx) (hd : d.state = (s.ctx n).state) :
      d.entryActions d.state .idle = { d.unstaged with hoFail := 0 } := by
    unfold HandsetCtx.entryActions
    rw [HandsetCtx.applyStaged_eq]
    simp [hd, hc, HandsetState.registered, show HandsetState.idle.inCall = false from rfl]
  unfold State.entered
  dsimp only
  rw [← hf, actions _ hf, hf]
  simp [qualityNotice, show HandsetState.idle.inCall = false from rfl]
  rfl

/-- R56, R57, R91, R106: a context that enters ACTIVE or PINNED. -/
theorem State.entered_calling (s : State) (n : Slot) {st : HandsetState} (hst : st ∈ [HandsetState.active, .pinned])
    (hf : (f (s.ctx n)).state = (s.ctx n).state) :
    s.entered n st f = s.setCtx n ((f (s.ctx n)).calling st s.timeBase) := by
  have up : st.inCall = true := by
    simp only [List.mem_cons, List.not_mem_nil, or_false] at hst
    rcases hst with rfl | rfl <;> rfl
  unfold State.entered HandsetCtx.calling
  dsimp only
  rw [HandsetCtx.entryActions_inCall _ _ up, hf]
  simp only [List.mem_cons, List.not_mem_nil, or_false] at hst
  cases hc : (s.ctx n).state.inCall <;> rcases hst with rfl | rfl <;>
    simp [HandsetCtx.shaped, presenceNotice, qualityNotice, hc, up, Presence.started, windowOf, Config.callPresenceTime]

/-- R56, R57: a context that enters MOVING keeps its transaction. -/
theorem State.entered_moving (s : State) (n : Slot) (hf : (f (s.ctx n)).state = (s.ctx n).state) :
    s.entered n .moving f =
      s.setCtx n { (f (s.ctx n)).calling .moving s.timeBase with txn := (f (s.ctx n)).txn } := by
  unfold State.entered HandsetCtx.calling
  dsimp only
  rw [HandsetCtx.entryActions_inCall _ _ rfl, hf]
  cases hc : (s.ctx n).state.inCall <;>
    simp [HandsetCtx.shaped, presenceNotice, qualityNotice, hc, Presence.started, windowOf, Config.callPresenceTime,
      show HandsetState.moving.inCall = true from rfl]

/-! ### Admission -/

theorem ClassEntry.withIdleTerms_eq (e : ClassEntry) (k : DirectiveKind) (o : Option Head) (i : Identity)
    (n : Option Slot) : Directive.withIdleTerms { Directive.blank k o with identity := i, slot := n } e =
      { Directive.blank k o with
        identity := i, slot := n, mode := BitVec.ofNat 8 e.mode, period := BitVec.ofNat 8 e.period } := rfl

theorem run_acceptAttach (s : State) (n : Slot) (h : Head) (ident : Identity) : acceptAttach h n ident s =
    .ok () (s.reply .acceptAttach h ident n fun d => { d with
      mode := BitVec.ofNat 8 (s.terms (s.ctx n)).mode, period := BitVec.ofNat 8 (s.terms (s.ctx n)).period }) := rfl

/-- R73: an offer. -/
theorem run_offer (s : State) (n : Slot) (h : Head) (ident : Identity) :
    offer n h ident s = .ok () (s.offers n h ident) := by
  unfold offer
  rw [run_get_bind, run_modAtt_bind, run_enterWith_bind, State.entered_offered _ _ rfl, HandsetCtx.left_admission,
    run_acceptAttach, ctx_setCtx]
  rfl

/-- R72: an admission. -/
theorem run_admitAt (s : State) (n : Slot) (h : Head) (ident : Identity) :
    admitAt n h ident s = .ok () (s.admitted n h ident) := by
  unfold admitAt State.admitted
  have away : s.entered n .provisioned id = s.setCtx n ((s.ctx n).left.away .provisioned) :=
    s.entered_away n (by decide) rfl
  rw [run_getAtt_bind, run_getHead_bind]
  by_cases hadm : (s.head h).state.admits = true
  · rw [if_neg (by simp [hadm]), if_neg (not_not.mpr ((HeadState.admits_iff _).mp hadm)), run_get_bind]
    by_cases hc : s.contained = true
    · rw [if_pos hc, if_pos hc, run_enter_bind, away]
      rfl
    · rw [if_neg hc, if_neg hc]
      by_cases hcr : 1 ≤ (s.att h).credits ∧ (s.att h).queue = []
      · rw [if_pos hcr, if_pos hcr, run_offer]
      · rw [if_neg hcr, if_neg hcr]
        by_cases hq : (s.att h).queue.length < Config.attachQueueSize
        · rw [if_pos hq, if_pos (show (s.att h).queue.length < 8 from hq)]
          unfold joinQueue
          rw [run_get_bind, run_modAtt_bind, run_enterWith, State.entered_queued _ _ rfl, HandsetCtx.left_admissionHead]
          rfl
        · rw [if_neg hq, if_neg (show ¬ (s.att h).queue.length < 8 from hq), run_enter_bind, away]
          rfl
  · rw [if_pos (by simpa using hadm), if_pos (mt (HeadState.admits_iff _).mpr hadm), run_enter_bind, away]
    rfl

/-! ### Attach -/

/-- R61: an ATTACH heard is taken. -/
theorem run_handleMessage_attach (s : State) (n : Slot) (h : Head) (ident : Identity) (code : BitVec 16) :
    handleMessage n h ident (.attach code) s.timeBase s = takeAttach n h ident code (s.heard n) := by
  unfold handleMessage
  rw [run_modCtx_bind, HandsetCtx.sighted_eq_seen]
  rfl

theorem heard_ctx_state (s : State) (n : Slot) : ((s.heard n).ctx n).state = (s.ctx n).state := by
  rw [State.heard, ctx_setCtx]
  rfl

theorem State.TablesRead.heard (hs : s.TablesRead) (n : Slot) : (s.heard n).TablesRead := hs.setCtx ..

theorem run_takeAttach_barred (hc : (s.ctx n).state = .barred) (ident : Identity) (code : BitVec 16) :
    takeAttach n h ident code s = .ok () (s.reply .rejectAttach h ident n fun d => { d with reason := 3 }) := by
  unfold takeAttach
  rw [run_getCtx_bind, hc]
  rfl

theorem run_takeAttach_quarantined (hc : (s.ctx n).state = .quarantined) (ident : Identity) (code : BitVec 16) :
    takeAttach n h ident code s = .ok () (s.reply .rejectAttach h ident n fun d => { d with reason := 4 }) := by
  unfold takeAttach
  rw [run_getCtx_bind, hc]
  rfl

/-- R70, R71: an ATTACH whose code is looked at. -/
theorem run_takeAttach (hc : (s.ctx n).state ∉ [HandsetState.barred, .quarantined]) (ident : Identity) (code : BitVec 16) :
    takeAttach n h ident code s =
      if (s.ctx n).code = code then takeMatching n h ident (s.setCtx n { s.ctx n with accessFail := 0 })
      else if (s.ctx n).accessFail < 2 then
        .ok () ((s.setCtx n { s.ctx n with accessFail := (s.ctx n).accessFail + 1 }).reply .rejectAttach h ident n
          fun d => { d with reason := 2 })
      else bar n h ident s := by
  unfold takeAttach
  rw [run_getCtx_bind]
  cases hst : (s.ctx n).state <;> rw [hst] at hc <;> simp at hc <;> dsimp only <;> split_ifs <;> rfl

/-- R70, R82: a handset in a call is barred. -/
theorem run_bar_inCall (hs : s.TablesRead) (hc : (s.ctx n).state.inCall = true) (ident : Identity) : bar n h ident s =
    .ok () (State.emit (((s.dropped n 2).setCtx n { (s.ctx n).left.away .barred with accessFail := 0 }).reply
      .rejectAttach h ident n fun d => { d with reason := 3 }) .barred .none n.val h.val 0) := by
  have same : (s.dropped n 2).ctx n = s.ctx n := (SameButCalls.dropped s n 2).ctx n
  have queued : ¬ (s.ctx n).state = .queued := by
    intro hq
    rw [hq] at hc
    cases hc
  unfold bar
  dsimp only
  rw [run_getCtx_bind, if_pos hc, run_bind, DropCause.run_dropCall hs]
  dsimp only
  rw [if_neg queued, run_enterWith_bind]
  show (rejectAttach h ident (some n) .barred >>= fun _ => note .barred n.val h.val 0)
    (State.entered (s.dropped n 2) n .barred _) = _
  rw [State.entered_away _ n (by decide) (by rfl), same, HandsetCtx.left_accessFail]
  rfl

theorem run_leaveAttachQueues_bind {β : Type} (s : State) (n : Slot) (g : Unit → Act β) :
    (leaveAttachQueues n >>= g) s = g () (s.unqueued n) := rfl

theorem HandsetState.inCall_false_of_mem {st : HandsetState}
    (h : st ∉ [HandsetState.active, .moving, .pinned]) : st.inCall = false := by
  cases st <;> simp_all [HandsetState.inCall]

theorem HandsetState.inCall_iff {st : HandsetState} :
    st.inCall = true ↔ st ∈ [HandsetState.active, .moving, .pinned] := by
  cases st <;> simp [HandsetState.inCall]

/-- R70: a handset outside a call is barred. -/
theorem run_bar_outside (hc : (s.ctx n).state.inCall = false) (ident : Identity) : bar n h ident s =
    .ok () (State.emit (((if (s.ctx n).state = .queued then s.unqueued n else s).setCtx n
      { (s.ctx n).away .barred with accessFail := 0 }).reply
      .rejectAttach h ident n fun d => { d with reason := 3 }) .barred .none n.val h.val 0) := by
  have barred (u : State) (hu : u.ctx n = s.ctx n) : u.entered n .barred (fun c => { c with accessFail := 0 }) =
      u.setCtx n { (s.ctx n).away .barred with accessFail := 0 } := by
    rw [State.entered_away _ n (by decide) (by rfl), HandsetCtx.left_accessFail, hu, HandsetCtx.left_of_outside hc]
    rfl
  unfold bar
  dsimp only
  rw [run_getCtx_bind, if_neg (by simp [hc])]
  by_cases hq : (s.ctx n).state = .queued
  · rw [if_pos hq, if_pos hq, run_leaveAttachQueues_bind, run_enterWith_bind, barred (s.unqueued n) rfl]
    rfl
  · rw [if_neg hq, if_neg hq, run_enterWith_bind, barred s rfl]
    rfl

/-- Settles O34, by the state of the handset and its wrong codes. -/
theorem attachCodeIsJudged : Obligations.AttachCodeIsJudged := by
  intro s h ident n code hd
  have runs {t : State} (ht : takeAttach n h ident code (s.heard n) = .ok () t) : exec .attach s = s.endsMessage t :=
    exec_commandOf_delivered hd ((run_handleMessage_attach s n h ident code).trans ht)
  refine ⟨fun hc => runs (run_takeAttach_barred hc ident code), fun hc => runs (run_takeAttach_quarantined hc ident code),
    fun hc hne hlt => runs ?first, fun hc hne hge hin hs => runs ?inCall, fun hc hne hge hout => runs ?outside⟩
  case first => rw [run_takeAttach hc, if_neg hne, if_pos hlt]
  case inCall =>
    rw [run_takeAttach hc, if_neg hne, if_neg (by omega), run_bar_inCall (hs.tablesRead.heard n) hin]
  case outside => rw [run_takeAttach hc, if_neg hne, if_neg (by omega), run_bar_outside hout]

/-! ### Admission of an ATTACH with the right code -/

theorem run_takeMatching_offered (hc : (s.ctx n).state = .offered) (ident : Identity) : takeMatching n h ident s =
    .ok () (s.reply .acceptAttach h ident n fun d => { d with
      mode := BitVec.ofNat 8 (s.terms (s.ctx n)).mode, period := BitVec.ofNat 8 (s.terms (s.ctx n)).period }) := by
  unfold takeMatching
  rw [run_getCtx_bind, hc]
  exact run_acceptAttach ..

theorem run_takeMatching_free (hc : (s.ctx n).state ∈ [HandsetState.provisioned, .idle, .doze, .lost])
    (ident : Identity) : takeMatching n h ident s = .ok () (s.admitted n h ident) := by
  unfold takeMatching
  rw [run_getCtx_bind]
  simp only [List.mem_cons, List.not_mem_nil, or_false] at hc
  rcases hc with hc | hc | hc | hc <;> rw [hc] <;> exact run_admitAt ..

theorem run_takeMatching_queued (hc : (s.ctx n).state = .queued) (ident : Identity) : takeMatching n h ident s =
    .ok () (if (s.ctx n).admissionHead = some h then s else (s.unqueued n).admitted n h ident) := by
  unfold takeMatching
  rw [run_getCtx_bind, hc]
  dsimp only
  by_cases ha : (s.ctx n).admissionHead = some h
  · rw [if_pos ha, if_neg (not_not.mpr ha)]
    rfl
  · rw [if_neg ha, if_pos ha, run_leaveAttachQueues_bind]
    exact run_admitAt ..

theorem run_takeMatching_inCall (hs : s.TablesRead) (hc : (s.ctx n).state.inCall = true) (ident : Identity) :
    takeMatching n h ident s = .ok () ((s.dropped n 1).admitted n h ident) := by
  have reattach : (dropCall n .reattach >>= fun _ => admitAt n h ident) s = .ok () ((s.dropped n 1).admitted n h ident) := by
    rw [run_bind, DropCause.run_dropCall hs]
    exact run_admitAt ..
  unfold takeMatching
  rw [run_getCtx_bind]
  have hst := HandsetState.inCall_iff.mp hc
  simp only [List.mem_cons, List.not_mem_nil, or_false] at hst
  rcases hst with hst | hst | hst <;> rw [hst] <;> exact reattach

/-- Settles O35, by the state in which the ATTACH finds the handset. -/
theorem attachIsAdmitted : Obligations.AttachIsAdmitted := by
  intro s h ident n code hd hcode c u e
  have same : u.ctx n = c := ctx_setCtx ..
  have inCall : (u.ctx n).state.inCall = true ↔ c.state.inCall = true := by rw [same]
  have runs {t : State} (hc : c.state ∉ [HandsetState.barred, .quarantined])
      (ht : takeMatching n h ident u = .ok () t) : exec .attach s = s.endsMessage t := by
    refine exec_commandOf_delivered hd ((run_handleMessage_attach s n h ident code).trans ?_)
    have code_eq : ((s.heard n).ctx n).code = code := by
      rw [State.heard, ctx_setCtx]
      exact hcode
    rw [run_takeAttach (by exact hc), if_pos code_eq]
    exact ht
  refine ⟨fun hc => runs (by simp [hc]) ?offered, fun hc => runs ?_ (run_takeMatching_free (same ▸ hc) ident),
    fun hc ha => runs (by simp [hc]) ?same, fun hc ha => runs (by simp [hc]) ?other,
    fun hc hs => runs ?_ (run_takeMatching_inCall ((hs.tablesRead.heard n).setCtx ..) (inCall.mpr hc) ident),
    fun hc => runs (by simp [hc]) ?vacant⟩
  case offered =>
    rw [run_takeMatching_offered (same ▸ hc), same]
    rfl
  case same => rw [run_takeMatching_queued (same ▸ hc), if_pos (same ▸ ha)]
  case other => rw [run_takeMatching_queued (same ▸ hc), if_neg (same ▸ ha)]
  case vacant =>
    unfold takeMatching
    rw [run_getCtx_bind, same, hc]
    rfl
  · simp only [List.mem_cons, List.not_mem_nil, or_false] at hc
    rcases hc with hc | hc | hc | hc <;> simp [hc]
  · intro hb
    simp only [List.mem_cons, List.not_mem_nil, or_false] at hb
    rcases hb with hb | hb <;> rw [hb] at hc <;> cases hc

end Sys2Proof.Machine
end

section
/-! SUPPORT. The messages and requests that end or begin a registration or a call. -/

namespace Sys2Proof.Machine

variable {s t : State} {n : Slot} {h : Head} {ident : Identity}

/-! ### Requests at their owners -/

/-- The command that dispatches a request. -/
def commandFor : Request → Instr
  | .page _ => .page
  | .releaseCall _ => .releaseCall
  | .forceHandover _ _ => .forceHandover
  | .unpin _ => .unpin
  | .detachHandset _ => .detachHandset
  | .drainHead _ => .drainHead
  | .restoreHead _ => .restoreHead
  | .clearFaultList => .clearFaultList
  | .ackFatal => .ackFatal

theorem workOf_commandFor (r : Request) : workOf (commandFor r) = some (dispatchRequest r.kind) := by
  cases r <;> rfl

/-- R48, R51: a request at its owner leaves the state of its handling, and its queue. -/
theorem exec_commandFor {r : Request} (hr : s.requested r) (ht : handleRequest r s = .ok () t) :
    exec (commandFor r) s = s.endsRequest t := by
  obtain ⟨hop, hq, hw, hn⟩ := hr
  rw [exec_work (workOf_commandFor r)]
  refine perform_ok ?_
  rw [run_dispatchRequest hop hq rfl hw hn, run_bind, ht]
  rfl

/-- R51: a request for a slot that is not VACANT is handed to its owner. -/
theorem run_handleRequest_slot {r : Request} (hn : r.slot? = some n) (hc : (s.ctx n).state ≠ .vacant) :
    handleRequest r s = ownRequest r s := by
  unfold handleRequest
  rw [hn]
  dsimp only
  rw [run_getCtx_bind, if_neg hc]

/-- R51, R52: a request for a VACANT slot is refused. -/
theorem run_handleRequest_vacant {r : Request} (hn : r.slot? = some n) (hc : (s.ctx n).state = .vacant) :
    handleRequest r s = .ok () (s.emit .requestRefused .none r.subject r.kind.code 3) := by
  unfold handleRequest
  rw [hn]
  dsimp only
  rw [run_getCtx_bind, if_pos hc]
  rfl

theorem run_handleRequest_noSlot {r : Request} (hn : r.slot? = none) : handleRequest r s = ownRequest r s := by
  unfold handleRequest
  rw [hn]

theorem exec_owned {r : Request} (hr : s.requested r) (hn : r.slot? = some n) (hc : (s.ctx n).state ≠ .vacant)
    (ht : ownRequest r s = .ok () t) : exec (commandFor r) s = s.endsRequest t :=
  exec_commandFor hr ((run_handleRequest_slot hn hc).trans ht)

/-! ### Detach -/

theorem run_noteDetached (s : State) (n : Slot) (st : HandsetState) (o : ReleaseOrigin) :
    noteDetached n st o s = .ok () (s.emit .detached .none n.val st.code o.code) := rfl

/-- R64, R85: where a DETACH_ORDER goes. -/
theorem run_orderDetach (s : State) (n : Slot) : orderDetach n s = .ok () (s.tell .detachOrder (s.orderDest n) n) := by
  have dest : (match (s.ctx n).serving with
      | some h => if (s.ctx n).state ≠ .lost ∧ (s.head h).state.reachable then some h else none
      | none => none) = s.orderDest n := by
    unfold State.orderDest
    cases (s.ctx n).serving with
    | none => rfl
    | some h => cases hst : (s.head h).state <;> simp [HeadState.reachable, Option.filter, hst]
  unfold orderDetach
  rw [run_get_bind, ← dest]
  rfl

theorem State.entered_provisioned (s : State) (n : Slot) :
    s.entered n .provisioned id = s.setCtx n ((s.ctx n).left.away .provisioned) := s.entered_away n (by decide) rfl

/-- R84, R85: the call of a handset that is detached is released. -/
theorem run_releaseForDetach (hs : s.TablesRead) (n : Slot) (o : ReleaseOrigin) : releaseForDetach n o s =
    .ok () ((s.cut n true).emit .callEnded .none n.val (headCode (s.ctx n).serving) o.code) := by
  unfold releaseForDetach
  rw [run_bind, run_endCall hs]
  dsimp only
  rw [run_getCtx_bind, run_note, (SameButCalls.cut s n true).ctx]

theorem run_takeDetach_quiet (hc : (s.ctx n).state ∈ [HandsetState.idle, .doze, .offered, .lost]) : takeDetach n s =
    .ok () ((s.setCtx n ((s.ctx n).away .provisioned)).emit .detached .none n.val (s.ctx n).state.code 1) := by
  unfold takeDetach
  rw [run_getCtx_bind]
  simp only [List.mem_cons, List.not_mem_nil, or_false] at hc
  rcases hc with hc | hc | hc | hc <;>
  · have left : (s.ctx n).left = s.ctx n := HandsetCtx.left_of_outside (by rw [hc]; rfl)
    rw [hc]
    dsimp only
    rw [run_enter_bind, State.entered_provisioned, left]
    rfl

theorem run_takeDetach_queued (hc : (s.ctx n).state = .queued) : takeDetach n s =
    .ok () (((s.unqueued n).setCtx n ((s.ctx n).away .provisioned)).emit .detached .none n.val 4 1) := by
  have left : (s.ctx n).left = s.ctx n := HandsetCtx.left_of_outside (by rw [hc]; rfl)
  unfold takeDetach
  rw [run_getCtx_bind, hc]
  dsimp only
  rw [run_leaveAttachQueues_bind, run_enter_bind, State.entered_provisioned]
  show noteDetached n .queued .handset ((s.unqueued n).setCtx n ((s.ctx n).left.away .provisioned)) = _
  rw [left]
  rfl

/-- R84, R163: the DETACH of a handset in a call. -/
theorem run_takeDetach_inCall (hs : s.TablesRead) (hc : (s.ctx n).state.inCall = true) : takeDetach n s = .ok ()
    (State.emit (((s.cut n true).emit .callEnded .none n.val (headCode (s.ctx n).serving) 1).setCtx n
      ((s.ctx n).unstaged.away .provisioned)) .detached .none n.val (s.ctx n).state.code 1) := by
  have released (st : HandsetState) : (do releaseForDetach n .handset; enter n .provisioned; noteDetached n st .handset : Act Unit) s =
      .ok () (State.emit (((s.cut n true).emit .callEnded .none n.val (headCode (s.ctx n).serving) 1).setCtx n
        ((s.ctx n).unstaged.away .provisioned)) .detached .none n.val st.code 1) := by
    rw [run_bind, run_releaseForDetach hs]
    dsimp only
    rw [run_enter_bind, State.entered_provisioned, ctx_emit, (SameButCalls.cut s n true).ctx,
      HandsetCtx.left_of_inCall hc]
    rfl
  unfold takeDetach
  rw [run_getCtx_bind]
  have hst := HandsetState.inCall_iff.mp hc
  simp only [List.mem_cons, List.not_mem_nil, or_false] at hst
  rcases hst with hst | hst | hst <;> rw [hst] <;> exact released _

theorem run_takeDetach_ignored (hc : (s.ctx n).state ∈ [HandsetState.provisioned, .barred, .quarantined]) :
    takeDetach n s = .ok () s := by
  unfold takeDetach
  rw [run_getCtx_bind]
  simp only [List.mem_cons, List.not_mem_nil, or_false] at hc
  rcases hc with hc | hc | hc <;> rw [hc] <;> rfl

/-- R85: a DETACH_HANDSET of a registered handset outside a call. -/
theorem run_takeDetachHandset_quiet (hc : (s.ctx n).state ∈ [HandsetState.idle, .doze, .lost]) :
    takeDetachHandset n s = .ok () (((s.tell .detachOrder (s.orderDest n) n).setCtx n
      ((s.ctx n).away .provisioned)).emit .detached .none n.val (s.ctx n).state.code 2) := by
  have facts : (s.ctx n).state.registered = true ∧ (s.ctx n).state.inCall = false := by
    simp only [List.mem_cons, List.not_mem_nil, or_false] at hc
    rcases hc with hc | hc | hc <;> rw [hc] <;> exact ⟨rfl, rfl⟩
  obtain ⟨registered, outside⟩ := facts
  unfold takeDetachHandset
  dsimp only
  rw [run_getCtx_bind, if_pos registered, if_neg (by simp [outside]), run_bind, run_orderDetach]
  dsimp only
  rw [run_enter_bind, State.entered_provisioned, ctx_tell, HandsetCtx.left_of_outside outside]
  rfl

/-- R85, R163: a DETACH_HANDSET of a handset in a call. -/
theorem run_takeDetachHandset_inCall (hs : s.TablesRead) (hc : (s.ctx n).state.inCall = true) :
    let a := (s.cut n true).emit .callEnded .none n.val (headCode (s.ctx n).serving) 2
    takeDetachHandset n s = .ok () (State.emit ((a.tell .detachOrder (a.orderDest n) n).setCtx n
      ((s.ctx n).unstaged.away .provisioned)) .detached .none n.val (s.ctx n).state.code 2) := by
  have registered : (s.ctx n).state.registered = true := by
    have hst := HandsetState.inCall_iff.mp hc
    simp only [List.mem_cons, List.not_mem_nil, or_false] at hst
    rcases hst with hst | hst | hst <;> rw [hst] <;> rfl
  intro a
  have same : a.ctx n = s.ctx n := (ctx_emit ..).trans ((SameButCalls.cut s n true).ctx n)
  unfold takeDetachHandset
  dsimp only
  rw [run_getCtx_bind, if_pos registered, if_pos hc, run_bind, run_releaseForDetach hs]
  show (orderDetach n >>= fun _ => _) a = _
  rw [run_bind, run_orderDetach]
  dsimp only
  rw [run_enter_bind, State.entered_provisioned, ctx_tell, same, HandsetCtx.left_of_inCall hc]
  rfl

theorem run_takeDetachHandset_refused (hc : (s.ctx n).state.registered = false) :
    takeDetachHandset n s = .ok () (s.emit .requestRefused .none n.val 0x25 2) := by
  unfold takeDetachHandset
  dsimp only
  rw [run_getCtx_bind, if_neg (by simp [hc])]
  rfl

/-- A message of a handset that is neither VACANT, BARRED, QUARANTINED nor LOST meets its owner once it is heard. -/
theorem run_handleMessage_body {body : HandsetMsg} (hb : ∀ code, body ≠ .attach code)
    (hc : ((s.heard n).ctx n).state ∉ [HandsetState.vacant, .barred, .quarantined, .lost]) :
    handleMessage n h ident body s.timeBase s = takeBody n h false body (s.heard n) := by
  rw [run_handleMessage hb]
  generalize ((s.heard n).ctx n).state = st at hc ⊢
  cases st <;> simp at hc <;> rfl

/-- A message of a VACANT, BARRED or QUARANTINED slot is a sighting. -/
theorem run_handleMessage_sighting {body : HandsetMsg} (hb : ∀ code, body ≠ .attach code)
    (hc : ((s.heard n).ctx n).state ∈ [HandsetState.vacant, .barred, .quarantined]) :
    handleMessage n h ident body s.timeBase s = .ok () (s.heard n) := by
  rw [run_handleMessage hb]
  generalize ((s.heard n).ctx n).state = st at hc ⊢
  cases st <;> simp at hc <;> rfl

theorem HandsetState.of_inCall {st : HandsetState} (hc : st.inCall = true) :
    st ∉ [HandsetState.vacant, .barred, .quarantined, .lost] := by
  cases st <;> simp_all [HandsetState.inCall]

/-- Settles O37, by the state of the handset. -/
theorem detachEndsRegistration : Obligations.DetachEndsRegistration := by
  refine ⟨fun s x ident n hd => ?message, fun s n hr => ?request⟩
  case message =>
    have hb : ∀ code, HandsetMsg.detach ≠ .attach code := fun _ => nofun
    intro u c
    have runs {t : State} (hc : c.state ∉ [HandsetState.vacant, .barred, .quarantined, .lost])
        (ht : takeDetach n u = .ok () t) : exec .detach s = s.endsMessage t :=
      exec_commandOf_delivered hd ((run_handleMessage_body hb hc).trans ht)
    refine ⟨fun hc => ?_, fun hc => runs (by simp [hc]) (run_takeDetach_queued hc), fun hc => ?_, fun hc hs =>
      runs (HandsetState.of_inCall hc) (run_takeDetach_inCall (hs.tablesRead.heard n) hc)⟩
    · exact runs ((by decide : ∀ st ∈ [HandsetState.idle, .doze, .offered], st ∉ _) _ hc)
        (run_takeDetach_quiet ((by decide : ∀ st ∈ [HandsetState.idle, .doze, .offered], st ∈ _) _ hc))
    · by_cases hp : c.state = .provisioned
      · exact runs (by simp [hp]) (run_takeDetach_ignored hc)
      · refine exec_commandOf_delivered hd (run_handleMessage_sighting hb ?_)
        exact (by decide : ∀ st ∈ [HandsetState.provisioned, .barred, .quarantined], st ≠ .provisioned →
          st ∈ [HandsetState.vacant, .barred, .quarantined]) _ hc hp
  case request =>
    intro c
    have runs {t : State} (hc : c.state ≠ .vacant) (ht : takeDetachHandset n s = .ok () t) :
        exec .detachHandset s = s.endsRequest t := exec_owned hr rfl hc ht
    refine ⟨fun hc => runs ?_ (run_takeDetachHandset_quiet hc), fun hc => ?_, fun hc =>
      exec_commandFor hr (run_handleRequest_vacant rfl hc), fun hc hs =>
      runs ?_ (run_takeDetachHandset_inCall hs.tablesRead hc)⟩
    · rintro hv
      simp [hv] at hc
    · refine runs ?_ (run_takeDetachHandset_refused ?_)
      · rintro hv
        simp [hv] at hc
      · simp only [List.mem_cons, List.not_mem_nil, or_false] at hc
        rcases hc with hc | hc | hc | hc | hc <;> rw [show (s.ctx n).state = _ from hc] <;> rfl
    · rintro hv
      rw [hv] at hc
      cases hc

/-! ### Calls set up and released -/

/-- R81, R163: the release of a call. -/
theorem run_releaseCall (hs : s.TablesRead) (hc : (s.ctx n).state.inCall = true) (o : ReleaseOrigin) :
    releaseCall n o s = .ok () (State.emit ((s.cut n true).setCtx n { (s.ctx n).unstaged.settled .idle (s.ctx n).serving
      (idleOf (s.terms (s.ctx n).unstaged) s.timeBase false) with hoFail := 0 }) .callEnded .none n.val
      (headCode (s.ctx n).serving) o.code) := by
  have frame := SameButCalls.cut s n true
  have serving : (s.ctx n).unstaged.serving = (s.ctx n).serving := by rw [HandsetCtx.unstaged_eq]
  unfold releaseCall
  rw [run_bind, run_endCall hs]
  dsimp only
  rw [run_enter_bind, State.entered_idle_call _ n rfl (by rw [frame.ctx]; exact hc), run_getCtx_bind, ctx_setCtx, run_note]
  dsimp only [id]
  rw [frame.ctx, frame.timeBase, State.terms, frame.params, serving]
  rfl

/-- Settles O42, by the state of the handset. -/
theorem callIsReleased : Obligations.CallIsReleased := by
  refine ⟨fun s x ident n hd => ?message, fun s n hr => ?request⟩
  case message =>
    have hb : ∀ code, HandsetMsg.callRelease ≠ .attach code := fun _ => nofun
    intro u c
    refine ⟨fun hc => exec_commandOf_delivered hd ?_, fun hc hs => exec_commandOf_delivered hd ?_⟩
    · simp only [List.mem_cons, List.not_mem_nil, or_false] at hc
      rw [run_handleMessage_body hb (by rcases hc with hc | hc <;> simp [c, u] at hc <;> simp [hc])]
      unfold takeBody
      rw [run_getCtx_bind]
      rcases hc with hc | hc <;> rw [show ((s.heard n).ctx n).state = _ from hc] <;> rfl
    · rw [run_handleMessage_body hb (HandsetState.of_inCall hc)]
      have attached : ((s.heard n).ctx n).state.unattached = false := by
        have hst := HandsetState.inCall_iff.mp hc
        simp only [List.mem_cons, List.not_mem_nil, or_false] at hst
        rcases hst with hst | hst | hst <;> rw [hst] <;> rfl
      unfold takeBody
      dsimp only
      rw [run_getCtx_bind, if_neg (by simp [attached]), if_pos hc]
      exact run_releaseCall (hs.tablesRead.heard n) hc .handset
  case request =>
    intro c
    have runs {t : State} (hc : c.state ≠ .vacant) (ht : takeReleaseCall n s = .ok () t) :
        exec .releaseCall s = s.endsRequest t := exec_owned hr rfl hc ht
    refine ⟨fun hc hs => ?_, fun hc => ?_, fun hc => ?_, fun hc => exec_commandFor hr (run_handleRequest_vacant rfl hc)⟩
    · have released := run_releaseCall hs.tablesRead hc .request
      refine runs (fun hv => by rw [hv] at hc; cases hc) ?_
      unfold takeReleaseCall
      rw [run_getCtx_bind]
      have hst := HandsetState.inCall_iff.mp hc
      simp only [List.mem_cons, List.not_mem_nil, or_false] at hst
      rcases hst with hst | hst | hst <;> rw [show (s.ctx n).state = _ from hst] <;> exact released
    · refine runs (fun hv => by simp [hv] at hc) ?_
      unfold takeReleaseCall
      rw [run_getCtx_bind]
      simp only [List.mem_cons, List.not_mem_nil, or_false] at hc
      rcases hc with hc | hc | hc <;> rw [show (s.ctx n).state = _ from hc] <;> rfl
    · refine runs (fun hv => by simp [hv] at hc) ?_
      unfold takeReleaseCall
      rw [run_getCtx_bind]
      simp only [List.mem_cons, List.not_mem_nil, or_false] at hc
      rcases hc with hc | hc | hc | hc | hc <;> rw [show (s.ctx n).state = _ from hc] <;> rfl

end Sys2Proof.Machine
end

section
/-! SUPPORT. Presence and calls: windows at work, and the messages that set up a call. -/

namespace Sys2Proof.Machine

variable {s t : State} {n : Slot} {h : Head} {ident : Identity} {ch : Chan}

/-! ### New-call channels -/

/-- R136: the lowest channel number that is not allocated. -/
theorem HeadCtx.lowestFree_eq_some_iff (x : HeadCtx) (ch : Chan) : x.lowestFree = some ch ↔
    ch.val < x.capacity ∧ x.pool[ch] = none ∧ ∀ j : Chan, j < ch → x.pool[j].isSome = true := by
  unfold HeadCtx.lowestFree
  rw [← Fin.find?_eq_find?_finRange, Fin.find?_eq_some_iff]
  simp only [Bool.and_eq_true, decide_eq_true_iff, Option.isNone_iff_eq_none, and_assoc, Bool.and_eq_false_iff,
    decide_eq_false_iff_not]
  refine and_congr_right fun hlt => and_congr_right fun _ => forall_congr' fun j => imp_congr_right fun hj => ?_
  have below : j.val < x.capacity := lt_trans (by exact hj) hlt
  simp [below, Option.isSome_iff_ne_none]

theorem State.lowestChannel_iff (s : State) (h : Head) (ch : Chan) :
    s.lowestChannel h ch ↔ (s.head h).lowestFree = some ch := ((s.head h).lowestFree_eq_some_iff ch).symm

theorem run_newCallChannel_granted (hp : (s.head h).poolParityBad = false) (hg : s.callGranted h ch) :
    newCallChannel n h s = .ok (some ch) (s.setHead h ((s.head h).allotted ch (.call n))) := by
  obtain ⟨hin, hguard, hq, hl⟩ := hg
  unfold newCallChannel
  rw [run_bind, run_usePool hp]
  dsimp only
  rw [run_getHead_bind, if_pos ⟨hin, hguard, hq⟩, (s.lowestChannel_iff h ch).mp hl]
  rfl

theorem run_newCallChannel_refused (hp : (s.head h).poolParityBad = false) (hg : ∀ ch, ¬ s.callGranted h ch) :
    newCallChannel n h s = .ok none s := by
  unfold newCallChannel
  rw [run_bind, run_usePool hp]
  dsimp only
  rw [run_getHead_bind]
  by_cases hc : (s.head h).state = .inService ∧ (s.head h).guard < (s.head h).free ∧ (s.head h).waitQ = []
  · obtain ⟨hin, hguard, hq⟩ := hc
    rw [if_pos ⟨hin, hguard, hq⟩]
    cases hl : (s.head h).lowestFree with
    | none => rfl
    | some ch => exact absurd ⟨hin, hguard, hq, (s.lowestChannel_iff h ch).mpr hl⟩ (hg ch)
  · rw [if_neg hc]
    rfl

/-- R56, R57: a context that enters ACTIVE from outside a call. -/
theorem HandsetCtx.calling_outside (c : HandsetCtx) (hc : c.state.inCall = false) (st : HandsetState) (now : Time) :
    c.calling st now = { c with
      state := st, admissionHead := none, offerDeadline := none, txn := none
      presence := windowOf .call 5000 now false, quality := .idle } := by
  unfold HandsetCtx.calling
  simp [hc]

/-- R80: a CALL_REQUEST that is granted a channel. -/
theorem run_takeCallRequest_granted (hc : (s.ctx n).state.inCall = false) (hp : (s.head h).poolParityBad = false)
    (hg : s.callGranted h ch) : takeCallRequest n h s = .ok () (s.calls n h ch) := by
  have entered : State.entered ((s.setHead h ((s.head h).allotted ch (.call n))).setCtx n
      { s.ctx n with serving := some h }) n .active (fun c => { c with channel := some ch, media := some h }) =
      (s.setHead h ((s.head h).allotted ch (.call n))).setCtx n { s.ctx n with
        state := .active, serving := some h, channel := some ch, media := some h, admissionHead := none
        offerDeadline := none, txn := none, quality := .idle, presence := windowOf .call 5000 s.timeBase false } := by
    rw [State.entered_calling _ n (by decide) (by rfl), ctx_setCtx, setCtx_setCtx, HandsetCtx.calling_outside]
    · rfl
    · exact hc
  unfold takeCallRequest
  rw [run_modCtx_bind, run_bind, run_newCallChannel_granted (by exact hp) (by exact hg)]
  dsimp only
  rw [run_enterWith_bind]
  show (assignChannel n h ch >>= fun _ => note .callStarted n.val h.val ch.val) (State.entered ((s.setHead h
    ((s.head h).allotted ch (.call n))).setCtx n { s.ctx n with serving := some h }) n .active _) = _
  rw [entered]
  rfl

/-- R80: a CALL_REQUEST that is rejected. -/
theorem run_takeCallRequest_refused (hp : (s.head h).poolParityBad = false) (hg : ∀ ch, ¬ s.callGranted h ch) :
    takeCallRequest n h s = .ok () (State.emit
      ((s.setCtx n { s.ctx n with serving := some h }).tell .callReject (some h) n) .callRefused .none n.val h.val 0) := by
  unfold takeCallRequest
  rw [run_modCtx_bind, run_bind, run_newCallChannel_refused (by exact hp) (by exact hg)]
  rfl

theorem HandsetState.attached_of_inCall {st : HandsetState} (hc : st.inCall = true) : st.unattached = false := by
  cases st <;> first | rfl | cases hc

theorem run_takeBody_ignored_inCall {body : HandsetMsg} (hb : body ∈ [HandsetMsg.keepalive, .dozeRequest, .callRequest])
    (hc : (s.ctx n).state.inCall = true) (r : Bool) : takeBody n h r body s = .ok () s := by
  have attached : ¬ (s.ctx n).state.unattached = true := by simp [HandsetState.attached_of_inCall hc]
  unfold takeBody
  dsimp only
  rw [run_getCtx_bind]
  simp only [List.mem_cons, List.not_mem_nil, or_false] at hb
  rcases hb with rfl | rfl | rfl <;> dsimp only <;> rw [if_neg attached, if_pos hc] <;> rfl

theorem HandsetState.of_idle_doze {st : HandsetState} (hc : st ∈ [HandsetState.idle, .doze]) :
    st.unattached = false ∧ st.inCall = false :=
  (by decide : ∀ st ∈ [HandsetState.idle, .doze], st.unattached = false ∧ st.inCall = false) _ hc

/-- A message of a handset in IDLE or DOZE goes to the block that takes its kind. -/
theorem run_takeBody_callRequest (hc : (s.ctx n).state ∈ [HandsetState.idle, .doze]) (r : Bool) :
    takeBody n h r .callRequest s = takeCallRequest n h s := by
  obtain ⟨attached, outside⟩ := HandsetState.of_idle_doze hc
  unfold takeBody
  dsimp only
  rw [run_getCtx_bind, if_neg (by simp [attached]), if_neg (by simp [outside])]

theorem run_takeBody_dozeRequest (hc : (s.ctx n).state ∈ [HandsetState.idle, .doze]) (r : Bool) :
    takeBody n h r .dozeRequest s = takeDozeRequest n h s := by
  obtain ⟨attached, outside⟩ := HandsetState.of_idle_doze hc
  unfold takeBody
  dsimp only
  rw [run_getCtx_bind, if_neg (by simp [attached]), if_neg (by simp [outside])]

theorem run_takeBody_keepalive (hc : (s.ctx n).state ∈ [HandsetState.idle, .doze]) :
    takeBody n h false .keepalive s = takeKeepalive n h s := by
  obtain ⟨attached, outside⟩ := HandsetState.of_idle_doze hc
  unfold takeBody
  dsimp only
  rw [run_getCtx_bind, if_neg (by simp [attached]), if_neg (by simp [outside]), if_neg (by simp)]

theorem HandsetState.handled_of_idle_doze {st : HandsetState} (hc : st ∈ [HandsetState.idle, .doze]) :
    st ∉ [HandsetState.vacant, .barred, .quarantined, .lost] :=
  (by decide : ∀ st ∈ [HandsetState.idle, .doze], st ∉ [HandsetState.vacant, .barred, .quarantined, .lost]) _ hc

/-- Settles O41, by the state of the handset and the channels of its head. -/
theorem callRequestIsAnswered : Obligations.CallRequestIsAnswered := by
  intro s h ident n hd hp u c
  have hb : ∀ code, HandsetMsg.callRequest ≠ .attach code := fun _ => nofun
  refine ⟨fun hc => ?calls, fun hc => exec_commandOf_delivered hd ?ignored⟩
  case calls =>
    have runs {t : State} (ht : takeCallRequest n h u = .ok () t) : exec .callRequest s = s.endsMessage t := by
      refine exec_commandOf_delivered hd ?_
      rw [run_handleMessage_body hb (HandsetState.handled_of_idle_doze hc), run_takeBody_callRequest hc]
      exact ht
    exact ⟨fun ch hg => runs (run_takeCallRequest_granted (HandsetState.of_idle_doze hc).2 hp hg),
      fun hg => runs (run_takeCallRequest_refused hp hg)⟩
  case ignored =>
    rw [run_handleMessage_body hb (HandsetState.of_inCall hc)]
    exact run_takeBody_ignored_inCall (by simp) hc _

/-! ### Windows at work -/

theorem HandsetCtx.mayDoze_iff (c : HandsetCtx) (e : ClassEntry) : c.mayDoze e = true ↔ c.group ≠ 0 ∧ e.doze ≠ 15 := by
  simp [HandsetCtx.mayDoze]

theorem State.mayDoze_iff (s : State) (n : Slot) : (s.ctx n).mayDoze (s.classOf (s.ctx n)) = true ↔
    (s.ctx n).group ≠ 0 ∧ (s.terms (s.ctx n)).doze ≠ 15 := HandsetCtx.mayDoze_iff _ _

/-- R103: PRESENCE_TERMS with the idle terms. -/
def State.toldIdleTerms (s : State) (n : Slot) : State :=
  s.tell .presenceTerms (s.ctx n).serving n fun d => { d with
    mode := BitVec.ofNat 8 (s.terms (s.ctx n)).mode, period := BitVec.ofNat 8 (s.terms (s.ctx n)).period }

theorem run_sendIdleTerms_bind {β : Type} (s : State) (n : Slot) (g : Unit → Act β) :
    (sendIdleTerms n >>= g) s = g () (s.toldIdleTerms n) := rfl

/-- R103: PRESENCE_TERMS with the doze terms. -/
theorem run_sendDozeTerms (s : State) (n : Slot) : sendDozeTerms n s =
    .ok () (s.tell .presenceTerms (s.ctx n).serving n fun d => { d with
      mode := 1, period := BitVec.ofNat 8 (s.terms (s.ctx n)).doze, group := (s.ctx n).group }) := rfl

theorem run_noteDoze (s : State) (k : EventKind) (n : Slot) : noteDoze k n s =
    .ok () (s.emit k .none n.val (s.ctx n).group.toNat (s.terms (s.ctx n)).doze) := rfl

/-- R102, R104: the handset is told its idle terms, and DOZE_REFUSED is written. -/
def State.dozeRefused (s : State) (n : Slot) : State :=
  (s.toldIdleTerms n).emit .dozeRefused .none n.val (s.ctx n).group.toNat (s.terms (s.ctx n)).doze

theorem run_refuseDoze (s : State) (n : Slot) : refuseDoze n s = .ok () (s.dozeRefused n) := by
  unfold refuseDoze State.dozeRefused
  rw [run_sendIdleTerms_bind, run_noteDoze]
  simp [State.toldIdleTerms, State.terms]

/-- R104: a DOZE window gives way to an IDLE window. -/
theorem run_leaveDoze (hc : (s.ctx n).state.inCall = false) (missed : Bool) : leaveDoze n missed s =
    .ok () (State.dozeRefused (s.setCtx n ((s.ctx n).settled .idle (s.ctx n).serving
      (idleOf (s.terms (s.ctx n)) s.timeBase missed))) n) := by
  unfold leaveDoze
  rw [run_enter_bind, State.entered_idle _ n rfl hc, run_modCtx_bind, ctx_setCtx, setCtx_setCtx]
  exact run_refuseDoze ..

theorem run_restartWindow_idle (hc : (s.ctx n).state ≠ .doze) (missed : Bool) : restartWindow n missed s =
    .ok () (s.setCtx n { s.ctx n with presence := idleOf (s.terms (s.ctx n)) s.timeBase missed }) := by
  unfold restartWindow
  dsimp only
  rw [run_get_bind, if_neg hc]
  rfl

theorem run_restartWindow_doze (hc : (s.ctx n).state = .doze)
    (ha : (s.ctx n).group ≠ 0 ∧ (s.terms (s.ctx n)).doze ≠ 15) (missed : Bool) : restartWindow n missed s =
    .ok () (s.setCtx n { s.ctx n with presence := { dozeOf (s.terms (s.ctx n)) s.timeBase with missed := missed } }) := by
  unfold restartWindow
  dsimp only
  rw [run_get_bind, if_pos hc, if_pos ((s.mayDoze_iff n).mpr ha)]
  rfl

theorem run_restartWindow_left (hc : (s.ctx n).state = .doze)
    (ha : ¬ ((s.ctx n).group ≠ 0 ∧ (s.terms (s.ctx n)).doze ≠ 15)) (missed : Bool) :
    restartWindow n missed s = leaveDoze n missed s := by
  unfold restartWindow
  dsimp only
  rw [run_get_bind, if_pos hc, if_neg (mt (s.mayDoze_iff n).mp ha)]

/-- R95: the paging group of a PAGE on a miss. -/
def HandsetCtx.grouped (c : HandsetCtx) (d : Directive) : Directive :=
  { d with group := if c.state = .doze then c.group else 0 }

theorem run_pageOnMiss_bind {β : Type} (s : State) (n : Slot) (o : Option Head) (c : HandsetCtx) (g : Unit → Act β) :
    (pageOnMiss n o c >>= g) s = g () (s.tell .page o n c.grouped) := rfl

/-- R95: a second miss, after which the handset is LOST. -/
theorem run_expire_lost (hc : (s.ctx n).state.inCall = false) (hm : (s.ctx n).presence.missed = true) : expire n s =
    .ok () (State.emit ((s.setCtx n ((s.ctx n).settled .lost (s.ctx n).serving (windowOf .grace 120000 s.timeBase true))).tell
      .page none n (s.ctx n).grouped) .lost .none n.val (headCode (s.ctx n).serving) 9) := by
  unfold expire
  dsimp only
  rw [run_get_bind, if_pos hm, run_enter_bind, State.entered_lost, HandsetCtx.left_of_outside hc, hm,
    run_pageOnMiss_bind, run_note]
  rfl

/-- R95: a first miss at a window that restarts. -/
theorem run_expire_idle (hc : (s.ctx n).state ≠ .doze) (hm : (s.ctx n).presence.missed = false) : expire n s =
    .ok () (State.emit ((s.setCtx n { s.ctx n with presence := idleOf (s.terms (s.ctx n)) s.timeBase true }).tell
      .page (s.ctx n).serving n (s.ctx n).grouped) .missed .none n.val (headCode (s.ctx n).serving) 0) := by
  unfold expire
  dsimp only
  rw [run_get_bind, if_neg (by simp [hm]), if_neg (by simp [hc]), run_bind, run_restartWindow_idle hc]
  rfl

theorem run_expire_doze (hc : (s.ctx n).state = .doze) (hm : (s.ctx n).presence.missed = false)
    (ha : (s.ctx n).group ≠ 0 ∧ (s.terms (s.ctx n)).doze ≠ 15) : expire n s =
    .ok () (State.emit ((s.setCtx n { s.ctx n with
      presence := { dozeOf (s.terms (s.ctx n)) s.timeBase with missed := true } }).tell
      .page (s.ctx n).serving n (s.ctx n).grouped) .missed .none n.val (headCode (s.ctx n).serving) 0) := by
  have may : (s.ctx n).mayDoze (s.classOf (s.ctx n)) = true := (s.mayDoze_iff n).mpr ha
  unfold expire
  dsimp only
  rw [run_get_bind, if_neg (by simp [hm]), if_neg (by simp [may]), run_bind, run_restartWindow_doze hc ha]
  rfl

/-- R95, R104: a first miss at a DOZE window that may not restart. -/
theorem run_expire_left (hc : (s.ctx n).state = .doze) (hm : (s.ctx n).presence.missed = false)
    (ha : ¬ ((s.ctx n).group ≠ 0 ∧ (s.terms (s.ctx n)).doze ≠ 15)) : expire n s =
    .ok () (State.dozeRefused (((s.tell .page (s.ctx n).serving n (s.ctx n).grouped).emit .missed .none n.val
      (headCode (s.ctx n).serving) 0).setCtx n ((s.ctx n).settled .idle (s.ctx n).serving
        (idleOf (s.terms (s.ctx n)) s.timeBase true))) n) := by
  have may : (s.ctx n).mayDoze (s.classOf (s.ctx n)) = false := by
    rw [Bool.eq_false_iff]
    exact mt (s.mayDoze_iff n).mp ha
  unfold expire
  dsimp only
  rw [run_get_bind, if_neg (by simp [hm]), if_pos (by simp [may, hc]), run_pageOnMiss_bind, run_note_bind,
    run_leaveDoze (by simp [hc, HandsetState.inCall])]
  simp [State.terms]

/-! ### The reporting head -/

/-- R92: the slot with its serving head as a message through head `h` leaves it. -/
def State.headJudged (s : State) (n : Slot) (h : Head) : State :=
  if (s.head h).state = .draining then s.tell .reselect (some h) n else s.setCtx n { s.ctx n with serving := some h }

theorem run_judgeHead (s : State) (n : Slot) (h : Head) :
    judgeHead n h s = .ok (decide ((s.head h).state = .draining)) (s.headJudged n h) := by
  unfold judgeHead State.headJudged
  rw [run_getHead_bind]
  by_cases hd : (s.head h).state = .draining
  · rw [if_pos hd, if_pos hd, decide_eq_true hd]
    rfl
  · rw [if_neg hd, if_neg hd, decide_eq_false hd]
    rfl

end Sys2Proof.Machine
end

section
/-! SUPPORT. The messages of presence: KEEPALIVE, DOZE_REQUEST, and the messages that meet no registered handset. -/

namespace Sys2Proof.Machine

variable {s t : State} {n : Slot} {h : Head} {ident : Identity}

/-! ### After the reporting head is judged -/

theorem State.headJudged_ctx (s : State) (n : Slot) (h : Head) : (s.headJudged n h).ctx n =
    if (s.head h).state = .draining then s.ctx n else { s.ctx n with serving := some h } := by
  unfold State.headJudged
  split <;> simp

theorem State.headJudged_setCtx (s : State) (n : Slot) (h : Head) (c : HandsetCtx) : (s.headJudged n h).setCtx n c =
    (if (s.head h).state = .draining then s.tell .reselect (some h) n else s).setCtx n c := by
  unfold State.headJudged
  split <;> simp

@[simp] theorem headJudged_timeBase (s : State) (n : Slot) (h : Head) : (s.headJudged n h).timeBase = s.timeBase := by
  unfold State.headJudged
  split <;> simp

@[simp] theorem headJudged_params (s : State) (n : Slot) (h : Head) : (s.headJudged n h).params = s.params := by
  unfold State.headJudged
  split
  · simp
  · rfl

/-- R93, R94: the keepalive is early in the running window. -/
abbrev State.isEarly (s : State) (n : Slot) : Prop :=
  (s.ctx n).presence.mode = .window ∧
    (s.timeBase - (s.ctx n).presence.start.getD 0).toNat < ((s.ctx n).presence.period.getD 0).toNat / 2

theorem run_judgeKeepalive_valid (he : ¬ s.isEarly n) : judgeKeepalive n h s = restartWindow n false s := by
  unfold judgeKeepalive
  dsimp only
  rw [run_get_bind]
  exact run_if_neg he ..

theorem run_judgeKeepalive_early (he : s.isEarly n) (hp : (s.ctx n).presence.early = false) : judgeKeepalive n h s =
    .ok () ((s.setCtx n { s.ctx n with presence := { (s.ctx n).presence with early := true } }).emit .earlyKeepalive .none
      n.val h.val (s.timeBase - (s.ctx n).presence.start.getD 0).toNat) := by
  unfold judgeKeepalive
  dsimp only
  rw [run_get_bind]
  refine (run_if_pos he ..).trans ?_
  rw [if_neg (by simp [hp])]
  rfl

theorem run_judgeKeepalive_again (he : s.isEarly n) (hp : (s.ctx n).presence.early = true) :
    judgeKeepalive n h s = expire n s := by
  unfold judgeKeepalive
  dsimp only
  rw [run_get_bind]
  refine (run_if_pos he ..).trans ?_
  rw [if_pos hp]

theorem run_takeKeepalive (s : State) (n : Slot) (h : Head) :
    takeKeepalive n h s = judgeKeepalive n h (s.headJudged n h) := by
  unfold takeKeepalive
  rw [run_bind, run_judgeHead]

/-- R86: a message of a handset that waits to be registered is answered with DETACH_ORDER. -/
theorem run_takeBody_away {body : HandsetMsg}
    (hb : body ∈ [HandsetMsg.dozeRequest, .callRequest, .callRelease, .keepalive] ∨ ∃ x, body = .measurement x)
    (hc : (s.ctx n).state.unattached = true) (r : Bool) :
    takeBody n h r body s = .ok () (s.tell .detachOrder (some h) n) := by
  unfold takeBody
  dsimp only
  rw [run_getCtx_bind]
  simp only [List.mem_cons, List.not_mem_nil, or_false] at hb
  rcases hb with (rfl | rfl | rfl | rfl) | ⟨x, rfl⟩ <;> dsimp only <;> rw [if_pos hc] <;> rfl

theorem HandsetState.unattached_of_mem {st : HandsetState} (hc : st ∈ [HandsetState.provisioned, .queued, .offered]) :
    st.unattached = true ∧ st ∉ [HandsetState.vacant, .barred, .quarantined, .lost] :=
  (by decide : ∀ st ∈ [HandsetState.provisioned, .queued, .offered],
    st.unattached = true ∧ st ∉ [HandsetState.vacant, .barred, .quarantined, .lost]) _ hc

theorem exec_away {body : HandsetMsg} (hd : s.delivers h ident body n)
    (hb : body ∈ [HandsetMsg.dozeRequest, .callRequest, .callRelease, .keepalive] ∨ ∃ x, body = .measurement x)
    (hc : ((s.heard n).ctx n).state ∈ [HandsetState.provisioned, .queued, .offered]) :
    exec (commandOf body) s = s.endsMessage ((s.heard n).tell .detachOrder (some h) n) := by
  obtain ⟨unattached, handled⟩ := HandsetState.unattached_of_mem hc
  have other : ∀ code, body ≠ .attach code := by
    rintro code rfl
    simp at hb
  refine exec_commandOf_delivered hd ?_
  rw [run_handleMessage_body other handled, run_takeBody_away hb unattached]

theorem HandsetCtx.settled_serving (c : HandsetCtx) (o : Option Head) (st : HandsetState) (x : Option Head) (p : Presence) :
    HandsetCtx.settled { c with serving := o } st x p = c.settled st x p := rfl

/-- R104: the end of a DOZE window that may not restart, told to the head given. -/
theorem State.dozeRefused_setCtx (s : State) (n : Slot) (c : HandsetCtx) : (s.setCtx n c).dozeRefused n =
    ((s.setCtx n c).tell .presenceTerms c.serving n fun d => { d with
      mode := BitVec.ofNat 8 (s.terms c).mode, period := BitVec.ofNat 8 (s.terms c).period }).emit .dozeRefused .none n.val
        c.group.toNat (s.terms c).doze := by
  unfold State.dozeRefused State.toldIdleTerms
  simp [State.terms, show (s.setCtx n c).params = s.params from rfl]

/-! ### Messages of a LOST handset -/

/-- R100: the part after a handset has been recovered at a head by a message of the kind with code `k`. -/
def State.recovered (s : State) (n : Slot) (h : Head) (k : Nat) : State :=
  (s.setCtx n ((s.ctx n).settled .idle (some h) (idleOf (s.terms (s.ctx n)) s.timeBase false))).emit
    .recovered .none n.val h.val k

@[simp] theorem recovered_ctx (s : State) (n : Slot) (h : Head) (k : Nat) : (s.recovered n h k).ctx n =
    (s.ctx n).settled .idle (some h) (idleOf (s.terms (s.ctx n)) s.timeBase false) := by
  simp [State.recovered]

@[simp] theorem recovered_head (s : State) (n : Slot) (h : Head) (k : Nat) (x : Head) :
    (s.recovered n h k).head x = s.head x := by
  simp [State.recovered]

@[simp] theorem recovered_timeBase (s : State) (n : Slot) (h : Head) (k : Nat) :
    (s.recovered n h k).timeBase = s.timeBase := by
  rw [State.recovered, emit_timeBase]
  rfl

@[simp] theorem recovered_params (s : State) (n : Slot) (h : Head) (k : Nat) :
    (s.recovered n h k).params = s.params := by
  rw [State.recovered, emit_params]
  rfl

theorem run_handleMessage_lost {body : HandsetMsg} (hb : ∀ code, body ≠ .attach code)
    (hc : ((s.heard n).ctx n).state = .lost) : handleMessage n h ident body s.timeBase s =
      takeBody n h true body ((s.heard n).recovered n h body.kind.code) := by
  rw [run_handleMessage hb, hc]
  dsimp only [takeHeard]
  rw [run_bind, run_recover hc]
  rfl

/-- R92, R100: the KEEPALIVE that has recovered a handset. -/
theorem run_takeBody_keepalive_recovered (hc : (s.ctx n).state = .idle) : takeBody n h true .keepalive s =
    .ok () (if (s.head h).state = .draining then s.tell .reselect (some h) n else s) := by
  unfold takeBody
  dsimp only
  rw [run_getCtx_bind, if_neg (by rw [hc]; decide), if_neg (by rw [hc]; decide), if_pos rfl, run_getHead_bind]
  split <;> rfl

/-! ### Keepalives -/

/-- Settles O38, by the state of the handset and its running window. -/
theorem keepaliveIsJudged : Obligations.KeepaliveIsJudged := by
  intro s h ident n hd u c e p elapsed early allowed draining v k
  have hb : ∀ code, HandsetMsg.keepalive ≠ .attach code := fun _ => nofun
  have ctx_eq : (u.headJudged n h).ctx n = k := u.headJudged_ctx n h
  have set_eq (d : HandsetCtx) : (u.headJudged n h).setCtx n d = v.setCtx n d := u.headJudged_setCtx n h d
  have now_eq : (u.headJudged n h).timeBase = s.timeBase := headJudged_timeBase u n h
  have state_eq : k.state = c.state := by simp only [k]; split <;> rfl
  have pres_eq : k.presence = p := by simp only [k]; split <;> rfl
  have settled_eq (st : HandsetState) (x : Option Head) (w : Presence) : k.settled st x w = c.settled st x w := by
    simp only [k]; split <;> rfl
  have terms_eq : (u.headJudged n h).terms k = e := by
    unfold State.terms
    rw [headJudged_params]
    simp only [k]; split <;> rfl
  have group_eq : k.group = c.group := by simp only [k]; split <;> rfl
  have early_iff : (u.headJudged n h).isEarly n ↔ early := by
    unfold State.isEarly
    rw [ctx_eq, now_eq, pres_eq]
  have runs {t : State} (hc : c.state ∈ [HandsetState.idle, .doze])
      (ht : judgeKeepalive n h (u.headJudged n h) = .ok () t) : exec .keepalive s = s.endsMessage t := by
    refine exec_commandOf_delivered hd ?_
    rw [run_handleMessage_body hb (HandsetState.handled_of_idle_doze hc), run_takeBody_keepalive hc, run_takeKeepalive]
    exact ht
  have idle (hc : c.state = .idle) : ((u.headJudged n h).ctx n).state ≠ .doze := by rw [ctx_eq, state_eq, hc]; decide
  have outside (hc : c.state = .idle) : ((u.headJudged n h).ctx n).state.inCall = false := by
    rw [ctx_eq, state_eq, hc]; rfl
  refine ⟨fun hc hne => runs (by simp [hc]) ?valid, fun hc he hf => runs (by simp [hc]) ?early,
    fun hc he hf hm => runs (by simp [hc]) ?missed, fun hc he hf hm => runs (by simp [hc]) ?lost,
    fun hc hw => ⟨fun ha => runs (by simp [hc]) ?doze, fun ha => runs (by simp [hc]) ?left⟩, fun hc hnd => ?recovered,
    fun hc => ?inCall, fun hc => exec_commandOf_delivered hd (run_handleMessage_sighting hb
      ((by decide : ∀ st ∈ [HandsetState.barred, .quarantined], st ∈ [HandsetState.vacant, .barred, .quarantined]) _ hc)),
    exec_away hd (by simp)⟩
  case valid =>
    rw [run_judgeKeepalive_valid (mt early_iff.mp hne), run_restartWindow_idle (idle hc), set_eq, ctx_eq, now_eq, terms_eq]
  case early =>
    rw [run_judgeKeepalive_early (early_iff.mpr he) (by rw [ctx_eq, pres_eq]; exact hf), set_eq, ctx_eq, now_eq, pres_eq]
  case missed =>
    rw [run_judgeKeepalive_again (early_iff.mpr he) (by rw [ctx_eq, pres_eq]; exact hf),
      run_expire_idle (idle hc) (by rw [ctx_eq, pres_eq]; exact hm), set_eq, ctx_eq, now_eq, terms_eq]
    have grouped : k.grouped = fun d => { d with group := 0 } := by
      unfold HandsetCtx.grouped
      simp [state_eq, hc]
    rw [grouped]
    rfl
  case lost =>
    rw [run_judgeKeepalive_again (early_iff.mpr he) (by rw [ctx_eq, pres_eq]; exact hf),
      run_expire_lost (outside hc) (by rw [ctx_eq, pres_eq]; exact hm), set_eq, ctx_eq, now_eq, settled_eq]
    have grouped : k.grouped = fun d => { d with group := 0 } := by
      unfold HandsetCtx.grouped
      simp [state_eq, hc]
    rw [grouped]
    rfl
  case doze =>
    have window : ¬ (u.headJudged n h).isEarly n := by
      rw [early_iff]
      exact fun he => hw he.1
    rw [run_judgeKeepalive_valid window, run_restartWindow_doze (by rw [ctx_eq, state_eq]; exact hc)
      (by rw [ctx_eq, terms_eq, group_eq]; exact ha), set_eq, ctx_eq, now_eq, terms_eq]
    rfl
  case left =>
    have window : ¬ (u.headJudged n h).isEarly n := by
      rw [early_iff]
      exact fun he => hw he.1
    rw [run_judgeKeepalive_valid window, run_restartWindow_left (by rw [ctx_eq, state_eq]; exact hc)
      (by rw [ctx_eq, terms_eq, group_eq]; exact ha), run_leaveDoze (by rw [ctx_eq, state_eq, hc]; rfl), set_eq, ctx_eq,
      now_eq, terms_eq, settled_eq, State.dozeRefused_setCtx]
    have terms_v (d : HandsetCtx) (hd : d.cls = c.cls) : v.terms d = e := by
      unfold State.terms
      rw [hd]
      simp only [v]
      split
      · rw [tell_params]; rfl
      · rfl
    rw [terms_v (c.settled .idle k.serving (idleOf e s.timeBase false)) rfl]
    rfl
  case recovered =>
    refine exec_commandOf_delivered hd ?_
    rw [run_handleMessage_lost hb hc, run_takeBody_keepalive_recovered (by rw [recovered_ctx]; rfl), recovered_head,
      if_neg (by exact hnd)]
    rfl
  case inCall =>
    refine exec_commandOf_delivered hd ?_
    rw [run_handleMessage_body hb (HandsetState.of_inCall hc)]
    exact run_takeBody_ignored_inCall (by simp) hc _

/-! ### Doze requests -/

theorem run_takeDozeRequest_draining (hd : (s.head h).state = .draining) :
    takeDozeRequest n h s = .ok () (s.tell .reselect (some h) n) := by
  unfold takeDozeRequest
  rw [run_bind, run_judgeHead, decide_eq_true hd]
  dsimp only
  rw [if_neg (by simp), State.headJudged, if_pos hd]
  rfl

theorem run_sendDozeTerms_noteDoze (s : State) (n : Slot) (k : EventKind) :
    (sendDozeTerms n >>= fun _ => noteDoze k n) s =
      .ok () ((s.tell .presenceTerms (s.ctx n).serving n fun d => { d with
        mode := 1, period := BitVec.ofNat 8 (s.terms (s.ctx n)).doze, group := (s.ctx n).group }).emit k .none n.val
          (s.ctx n).group.toNat (s.terms (s.ctx n)).doze) := by
  rw [run_bind, run_sendDozeTerms]
  dsimp only
  rw [run_noteDoze]
  simp [State.terms]

/-- R102: the handset stays in DOZE. -/
theorem run_takeDozeRequest_doze (hd : (s.head h).state ≠ .draining) (hc : (s.ctx n).state = .doze)
    (ha : (s.ctx n).group ≠ 0 ∧ (s.terms (s.ctx n)).doze ≠ 15) : takeDozeRequest n h s =
    .ok () ((s.setCtx n { s.ctx n with serving := some h, presence := dozeOf (s.terms (s.ctx n)) s.timeBase }).tell
      .presenceTerms (some h) n fun d => { d with
        mode := 1, period := BitVec.ofNat 8 (s.terms (s.ctx n)).doze, group := (s.ctx n).group }) := by
  unfold takeDozeRequest
  rw [run_bind, run_judgeHead, decide_eq_false hd, State.headJudged, if_neg hd]
  dsimp only
  rw [if_pos (by simp), run_get_bind,
    if_pos ((State.mayDoze_iff _ n).mpr (by rw [ctx_setCtx]; exact ha)), ctx_setCtx, if_pos (by exact hc), run_bind,
    run_restartWindow_doze (by rw [ctx_setCtx]; exact hc) (by rw [ctx_setCtx]; exact ha)]
  dsimp only
  rw [setCtx_setCtx, ctx_setCtx, run_sendDozeTerms, ctx_setCtx]
  rfl

/-- R102: the handset goes from IDLE to DOZE. -/
theorem run_takeDozeRequest_idle (hd : (s.head h).state ≠ .draining) (hc : (s.ctx n).state = .idle)
    (ha : (s.ctx n).group ≠ 0 ∧ (s.terms (s.ctx n)).doze ≠ 15) : takeDozeRequest n h s =
    .ok () (((s.setCtx n ((s.ctx n).settled .doze (some h) (dozeOf (s.terms (s.ctx n)) s.timeBase))).tell
      .presenceTerms (some h) n fun d => { d with
        mode := 1, period := BitVec.ofNat 8 (s.terms (s.ctx n)).doze, group := (s.ctx n).group }).emit
      .dozeEntered .none n.val (s.ctx n).group.toNat (s.terms (s.ctx n)).doze) := by
  unfold takeDozeRequest
  rw [run_bind, run_judgeHead, decide_eq_false hd, State.headJudged, if_neg hd]
  dsimp only
  rw [if_pos (by simp), run_get_bind,
    if_pos ((State.mayDoze_iff _ n).mpr (by rw [ctx_setCtx]; exact ha)), ctx_setCtx, if_neg (by simp [hc]),
    run_enter_bind, State.entered_doze _ n (by rw [ctx_setCtx]; simp [hc, HandsetState.inCall]),
    setCtx_setCtx, ctx_setCtx, run_sendDozeTerms_noteDoze, ctx_setCtx]
  rfl

/-- R102: the handset may not doze and stays in IDLE. -/
theorem run_takeDozeRequest_stays (hd : (s.head h).state ≠ .draining) (hc : (s.ctx n).state = .idle)
    (ha : ¬ ((s.ctx n).group ≠ 0 ∧ (s.terms (s.ctx n)).doze ≠ 15)) : takeDozeRequest n h s =
    .ok () (State.dozeRefused (s.setCtx n { s.ctx n with
      serving := some h, presence := idleOf (s.terms (s.ctx n)) s.timeBase false }) n) := by
  unfold takeDozeRequest
  rw [run_bind, run_judgeHead, decide_eq_false hd, State.headJudged, if_neg hd]
  dsimp only
  rw [if_pos (by simp), run_get_bind,
    if_neg (mt (State.mayDoze_iff _ n).mp (by rw [ctx_setCtx]; exact ha)), ctx_setCtx, if_neg (by simp [hc]),
    run_bind, run_restartWindow_idle (by simp [hc])]
  dsimp only
  rw [setCtx_setCtx, ctx_setCtx]
  exact run_refuseDoze ..

/-- R102, R104: the handset may not doze any more. -/
theorem run_takeDozeRequest_leaves (hd : (s.head h).state ≠ .draining) (hc : (s.ctx n).state = .doze)
    (ha : ¬ ((s.ctx n).group ≠ 0 ∧ (s.terms (s.ctx n)).doze ≠ 15)) : takeDozeRequest n h s =
    .ok () (State.dozeRefused (s.setCtx n ((s.ctx n).settled .idle (some h)
      (idleOf (s.terms (s.ctx n)) s.timeBase false))) n) := by
  unfold takeDozeRequest
  rw [run_bind, run_judgeHead, decide_eq_false hd, State.headJudged, if_neg hd]
  dsimp only
  rw [if_pos (by simp), run_get_bind,
    if_neg (mt (State.mayDoze_iff _ n).mp (by rw [ctx_setCtx]; exact ha)), ctx_setCtx, if_pos (by exact hc),
    run_enter_bind, State.entered_idle _ n rfl (by rw [ctx_setCtx]; simp [hc, HandsetState.inCall]),
    setCtx_setCtx, ctx_setCtx]
  exact run_refuseDoze ..

/-- Settles O39, by the reporting head and the state of the handset. -/
theorem dozeRequestIsJudged : Obligations.DozeRequestIsJudged := by
  intro s h ident n hd u c e allowed dozeTerms idleTerms
  have hb : ∀ code, HandsetMsg.dozeRequest ≠ .attach code := fun _ => nofun
  have runs {t : State} (hc : c.state ∈ [HandsetState.idle, .doze]) (ht : takeDozeRequest n h u = .ok () t) :
      exec .dozeRequest s = s.endsMessage t := by
    refine exec_commandOf_delivered hd ?_
    rw [run_handleMessage_body hb (HandsetState.handled_of_idle_doze hc), run_takeBody_dozeRequest hc]
    exact ht
  refine ⟨fun hn => ⟨fun hc ha => runs (by simp [hc]) (run_takeDozeRequest_idle hn hc ha),
    fun hc ha => runs (by simp [hc]) (run_takeDozeRequest_doze hn hc ha),
    fun hc ha => runs (by simp [hc]) ((run_takeDozeRequest_stays (s := u) hn hc ha).trans ?stays),
    fun hc ha => runs (by simp [hc]) ((run_takeDozeRequest_leaves (s := u) hn hc ha).trans ?leaves)⟩,
    fun hr hc => runs hc (run_takeDozeRequest_draining hr), fun hc => exec_commandOf_delivered hd ?inCall⟩
  case stays =>
    rw [State.dozeRefused_setCtx]
    rfl
  case leaves =>
    rw [State.dozeRefused_setCtx]
    rfl
  case inCall =>
    rw [run_handleMessage_body hb (HandsetState.of_inCall hc)]
    exact run_takeBody_ignored_inCall (by simp) hc _

/-! ### Messages that meet no registered handset, and a LOST one -/

/-- Work of the Handover Engine on a handset outside a call is left out. -/
theorem run_takeBody_outside {body : HandsetMsg} (hb : body = .revert ∨ ∃ x, body = .channelRefused x)
    (hc : (s.ctx n).state.inCall = false) (r : Bool) : takeBody n h r body s = .ok () s := by
  have outside : ¬ (s.ctx n).state.inCall = true := by simp [hc]
  unfold takeBody
  dsimp only
  rw [run_getCtx_bind]
  rcases hb with rfl | ⟨x, rfl⟩
  · show takeRevert n h s = _
    unfold takeRevert
    rw [run_getCtx_bind, if_neg outside]
    rfl
  · show takeChannelRefused n h x s = _
    unfold takeChannelRefused
    rw [run_getCtx_bind, if_neg outside]
    rfl

/-- R107, R81, R77: messages that do nothing in IDLE. -/
theorem run_takeBody_idle {body : HandsetMsg}
    (hb : body ∈ [HandsetMsg.attachConfirm, .callRelease, .revert] ∨ (∃ x, body = .measurement x) ∨
      ∃ x, body = .channelRefused x) (hc : (s.ctx n).state = .idle) (r : Bool) : takeBody n h r body s = .ok () s := by
  have outside : (s.ctx n).state.inCall = false := by rw [hc]; rfl
  simp only [List.mem_cons, List.not_mem_nil, or_false] at hb
  rcases hb with (rfl | rfl | rfl) | ⟨x, rfl⟩ | ⟨x, rfl⟩
  · exact run_takeConfirm_ignored (by simp [hc])
  · unfold takeBody
    dsimp only
    rw [run_getCtx_bind, if_neg (by rw [hc]; decide), if_neg (by simp [outside])]
    rfl
  · exact run_takeBody_outside (.inl rfl) outside r
  · unfold takeBody takeReport
    dsimp only
    rw [run_getCtx_bind, if_neg (by rw [hc]; decide), run_get_bind, if_neg (by simp [outside])]
    rfl
  · exact run_takeBody_outside (.inr ⟨x, rfl⟩) outside r

/-- R167: an ACCESS of a handset with no call. -/
theorem run_takeAccess_stale (hc : (s.ctx n).state.inCall = false) : takeAccess n h s =
    .ok () ((s.tell .channelRelease (some h) n).emit .staleAccess .none n.val h.val (s.ctx n).state.code) := by
  unfold takeAccess staleAccess
  rw [run_getCtx_bind, if_pos (by simp [hc]), run_getCtx_bind]
  rfl

/-- Settles O40, by the state of the handset and the kind of the message. -/
theorem unexpectedMessagesAreAnswered : Obligations.UnexpectedMessagesAreAnswered := by
  intro s h ident n body hd u c e runs
  have handled {t : State} (ht : handleMessage n h ident body s.timeBase s = .ok () t) : runs t :=
    exec_commandOf_delivered hd ht
  refine ⟨fun hc => ⟨fun hb => exec_away hd hb hc, fun hb => handled ?outside⟩,
    fun hc hb => handled (run_handleMessage_sighting hb hc), fun hc => ?lost⟩
  case outside =>
    have out : c.state.inCall = false := (by decide : ∀ st ∈ [HandsetState.provisioned, .queued, .offered],
      st.inCall = false) _ hc
    rw [run_handleMessage_body (by rcases hb with rfl | ⟨x, rfl⟩ <;> intro _ <;> nofun)
      (HandsetState.unattached_of_mem hc).2]
    exact run_takeBody_outside hb out _
  case lost =>
    intro k v
    have lost {t : State} (hb : ∀ code, body ≠ .attach code) (ht : takeBody n h true body v = .ok () t) : runs t :=
      handled ((run_handleMessage_lost hb hc).trans ht)
    have ctx_v : v.ctx n = k := recovered_ctx ..
    have idle : (v.ctx n).state = .idle := by rw [ctx_v]; rfl
    have head_v (x : Head) : v.head x = s.head x := recovered_head ..
    have now_v : v.timeBase = s.timeBase := recovered_timeBase ..
    have terms_v (d : HandsetCtx) (hd : d.cls = c.cls) : v.terms d = e := by
      unfold State.terms
      rw [show v.params = s.params from recovered_params .., hd]
    have terms_k : v.terms k = e := terms_v k rfl
    have doze {t : State} (hb : body = .dozeRequest) (ht : takeDozeRequest n h v = .ok () t) : runs t := by
      subst hb
      exact lost (fun _ => nofun) ((run_takeBody_dozeRequest (by simp [idle]) true).trans ht)
    refine ⟨fun hb => lost ?_ (run_takeBody_idle hb idle true), fun hb => ?keepalive, fun hb => ?detach, fun hb => ?access,
      fun hb => ⟨fun hr => doze hb (run_takeDozeRequest_draining (by rw [head_v]; exact hr)), fun hr ha => doze hb ?entered,
        fun hr ha => doze hb ?refused⟩, fun hb hp => ?calls⟩
    case keepalive =>
      subst hb
      refine lost (fun _ => nofun) ?_
      rw [run_takeBody_keepalive_recovered idle, head_v]
    case detach =>
      subst hb
      refine lost (fun _ => nofun) ((run_takeDetach_quiet (by simp [idle])).trans ?_)
      rw [idle, ctx_v]
      rfl
    case access =>
      subst hb
      refine lost (fun _ => nofun) ((run_takeAccess_stale (by rw [idle]; rfl)).trans ?_)
      rw [idle]
      rfl
    case entered =>
      rw [run_takeDozeRequest_idle (by rw [head_v]; exact hr) idle (by rw [ctx_v, terms_k]; exact ha), ctx_v, terms_k, now_v]
      rfl
    case refused =>
      have same : v.setCtx n { k with serving := some h, presence := idleOf e s.timeBase false } = v := by
        rw [show ({ k with serving := some h, presence := idleOf e s.timeBase false } : HandsetCtx) = v.ctx n from ctx_v.symm]
        exact setCtx_self v n
      rw [run_takeDozeRequest_stays (by rw [head_v]; exact hr) idle (by rw [ctx_v, terms_k]; exact ha),
        State.dozeRefused_setCtx, ctx_v, terms_k, now_v, same]
      rfl
    case calls =>
      have outside : (v.ctx n).state.inCall = false := by rw [idle]; rfl
      have granted_iff (ch : Chan) : v.callGranted h ch ↔ s.callGranted h ch := by
        unfold State.callGranted State.lowestChannel
        rw [head_v]
      have calls {t : State} (ht : takeCallRequest n h v = .ok () t) : runs t := by
        subst hb
        exact lost (fun _ => nofun) ((run_takeBody_callRequest (by simp [idle]) true).trans ht)
      refine ⟨fun ch hg => calls (run_takeCallRequest_granted outside (by rw [head_v]; exact hp) ((granted_iff ch).mpr hg)),
        fun hg => calls ((run_takeCallRequest_refused (by rw [head_v]; exact hp)
          fun ch => mt (granted_iff ch).mp (hg ch)).trans ?_)⟩
      have same : v.setCtx n { v.ctx n with serving := some h } = v := by
        rw [show ({ v.ctx n with serving := some h } : HandsetCtx) = v.ctx n by rw [ctx_v]; rfl]
        exact setCtx_self v n
      rw [same]
    · intro code hcode
      subst hcode
      simp at hb

end Sys2Proof.Machine
end

section
/-! SUPPORT. Levels and the Candidate List: the filter and the list as the words of the statements say them. -/

namespace Sys2Proof.Machine

variable {s t : State} {n : Slot} {h : Head} {ident : Identity} {q : Quality}

/-! ### The level filter -/

/-- R109: the filter as the statements say it, from below and from above. -/
theorem filtered_toNat (k old entering : Nat) : (filtered k old entering).toNat = filterLevel k old entering := by
  have pos : 0 < (2 : Int) ^ k := Int.pow_pos (by decide)
  unfold filtered filterLevel filterStep
  dsimp only
  rcases Nat.le_total old entering with hle | hle
  · obtain ⟨d, rfl⟩ := Nat.exists_eq_add_of_le hle
    have diff : ((old + d : Nat) : Int) - old = d := by omega
    have step : (d : Int).tdiv (2 ^ k) = ((d / 2 ^ k : Nat) : Int) := by
      rw [Int.tdiv_eq_ediv_of_nonneg (by omega)]
      norm_cast
    rw [if_pos hle, diff, step, Nat.add_sub_cancel_left]
    rcases Nat.eq_zero_or_pos d with rfl | hd
    · simp
    · rw [if_neg (show ¬ d = 0 by omega), Int.sign_eq_one_of_pos (show (0 : Int) < d by omega)]
      generalize d / 2 ^ k = m
      split <;> omega
  · obtain ⟨d, rfl⟩ := Nat.exists_eq_add_of_le hle
    have diff : (entering : Int) - (entering + d : Nat) = -d := by omega
    have step : (-(d : Int)).tdiv (2 ^ k) = -((d / 2 ^ k : Nat) : Int) := by
      rw [Int.neg_tdiv, Int.tdiv_eq_ediv_of_nonneg (by omega)]
      norm_cast
    have bound : d / 2 ^ k ≤ d := Nat.div_le_self ..
    rw [diff, step, Nat.add_sub_cancel_left]
    rcases Nat.eq_zero_or_pos d with rfl | hd
    · simp
    · rw [if_neg (show ¬ entering + d ≤ entering by omega), if_neg (show ¬ d = 0 by omega),
        Int.sign_eq_neg_one_of_neg (show -(d : Int) < 0 by omega)]
      generalize d / 2 ^ k = m at bound
      split <;> omega

/-! ### The Candidate List -/

theorem placeCandidate_eq (x : Candidate) (cs : List Candidate) : placeCandidate x cs = inPlace x cs := by
  induction cs with
  | nil => rfl
  | cons y rest ih =>
    unfold placeCandidate inPlace
    rw [ih]
    simp only [Candidate.before_iff]

theorem orderCandidates_eq (cs : List Candidate) : orderCandidates cs = cs.foldr inPlace [] := by
  unfold orderCandidates
  congr 1
  funext x l
  exact placeCandidate_eq x l

theorem listed_iff (cs : List Candidate) (h : Head) : listed cs h = true ↔ ∃ c ∈ cs, c.head = h := by
  simp [listed]

theorem offerSample_eq (cs : List Candidate) (x : Sample) : offerSample cs x = offeredTo cs x.candidate := by
  unfold offerSample offeredTo
  by_cases hl : listed cs x.head = true
  · rw [if_pos hl, if_pos (show ∃ c ∈ cs, c.head = x.candidate.head from (listed_iff _ _).mp hl)]
  · rw [if_neg hl, if_neg (show ¬ ∃ c ∈ cs, c.head = x.candidate.head from mt (listed_iff cs x.head).mpr hl)]
    simp only [placeCandidate_eq]
    rfl

theorem Sample.find_read (xs : List (Head × Nat)) (h : Head) :
    ((xs.map Sample.read).find? fun x => x.head == h) = (xs.find? fun p => p.1 == h).map Sample.read := by
  rw [List.find?_map]
  rfl

theorem Sample.filter_read (xs : List (Head × Nat)) (h : Head) :
    ((xs.map Sample.read).filter fun x => x.head != h) = (xs.filter fun p => p.1 != h).map Sample.read := by
  rw [List.filter_map]
  rfl

theorem refreshCandidate_eq (k : Nat) (xs : List (Head × Nat)) (c : Candidate) :
    refreshCandidate k (xs.map Sample.read) c = c.after k xs := by
  unfold refreshCandidate Candidate.after
  rw [Sample.find_read]
  cases xs.find? fun p => p.1 == c.head with
  | some p =>
    simp only [Option.map_some, filtered_toNat]
    rfl
  | none =>
    simp only [Option.map_none]
    by_cases hst : 2 ≤ c.staleness
    · rw [if_pos hst, if_neg (by omega)]
    · rw [if_neg hst, if_pos (by omega)]

theorem foldl_offerSample (xs : List Sample) (cs : List Candidate) :
    xs.foldl offerSample cs = (xs.map Sample.candidate).foldl offeredTo cs := by
  rw [List.foldl_map]
  congr 1
  funext l x
  exact offerSample_eq l x

theorem servingSample_eq (h : Head) (xs : List (Head × Nat)) : servingSample h (xs.map Sample.read) =
    let own := ((xs.find? fun p => p.1 == h).map Prod.snd).getD 0
    { head := h, level := entering own, underRange := own == 0, overRange := own == 127 } := by
  unfold servingSample
  rw [Sample.find_read]
  cases hf : xs.find? fun p => p.1 == h with
  | none => rfl
  | some p =>
    have head : p.1 = h := by simpa using List.find?_some hf
    simp only [Option.map_some, Option.getD_some, Sample.read, head]
    rfl

/-- R112, R113: the Candidate List after a report. -/
theorem updateCandidates_eq (k : Nat) (others : List (Head × Nat)) (cs : List Candidate) :
    updateCandidates k (others.map Sample.read) cs =
      let kept := (cs.filterMap fun c => c.after k others).foldr inPlace []
      ((others.filter fun p => kept.all fun c => c.head != p.1).map fun p =>
        { head := p.1, level := entering p.2, staleness := 0, dwell := 0, underRange := p.2 == 0
          overRange := p.2 == 127 }).foldl offeredTo kept := by
  unfold updateCandidates
  have refreshed : (refreshCandidate k (others.map Sample.read)) = fun c => c.after k others :=
    funext (refreshCandidate_eq k others)
  dsimp only
  rw [refreshed, orderCandidates_eq, foldl_offerSample, List.filter_map, List.map_map]
  congr 2
  refine List.filter_congr fun p _ => ?_
  simp only [Function.comp, listed, Bool.not_eq_eq_eq_not, bne]
  rw [List.any_eq_not_all_not]
  rfl

/-- R107 to R113: the quality context after a report. -/
theorem Quality.report_eq (q : Quality) (k : Nat) (h : Head) (samples : List (Head × Nat)) :
    q.report k h samples = q.after k h samples := by
  unfold Quality.report Quality.after Quality.withServing
  dsimp only
  rw [servingSample_eq, Sample.filter_read, updateCandidates_eq]
  cases q.level with
  | none => rfl
  | some old => simp only [filtered_toNat]

/-- R114: the change of serving head. -/
theorem Quality.moveServing_eq (q : Quality) (old : Option Head) (new : Head) : q.moveServing old new = q.moved old new := by
  unfold Quality.moveServing Quality.moved
  simp only [offerSample_eq]
  rfl

/-! ### Measurements -/

/-- R107: the quality context of a slot after a report. -/
def State.reported (s : State) (n : Slot) (h : Head) (samples : List (Head × Nat)) : State :=
  s.setCtx n { s.ctx n with quality := (s.ctx n).quality.after (s.terms (s.ctx n)).filter h samples }

theorem run_takeReport_ignored (hc : ¬ ((s.ctx n).state.inCall = true ∧ (s.ctx n).serving = some h))
    (samples : List (Head × Nat)) : takeReport n h samples s = .ok () s := by
  unfold takeReport
  dsimp only
  rw [run_get_bind, if_neg hc]
  rfl

theorem run_takeReport (hc : (s.ctx n).state.inCall = true) (hh : (s.ctx n).serving = some h)
    (samples : List (Head × Nat)) : takeReport n h samples s =
      if (s.ctx n).state ≠ .moving ∧ s.contained = false then evaluate n h (s.reported n h samples)
      else .ok () (s.reported n h samples) := by
  unfold takeReport
  dsimp only
  rw [run_get_bind, if_pos ⟨hc, hh⟩, run_modCtx_bind, Quality.report_eq]
  by_cases hm : (s.ctx n).state ≠ .moving ∧ s.contained = false
  · rw [if_pos hm, if_pos (by simpa using hm)]
    rfl
  · rw [if_neg hm, if_neg (by simpa using hm)]
    rfl

theorem run_takeBody_measurement (hc : (s.ctx n).state.unattached = false) (samples : List (Head × Nat)) (r : Bool) :
    takeBody n h r (.measurement samples) s = takeReport n h samples s := by
  unfold takeBody
  dsimp only
  rw [run_getCtx_bind, if_neg (by simp [hc])]

/-- Settles O43: the report alone, its soundness, and the reports that are ignored. -/
theorem measurementIsFiltered : Obligations.MeasurementIsFiltered := by
  intro s h ident n samples hd u c q
  have hb : ∀ code, HandsetMsg.measurement samples ≠ .attach code := fun _ => nofun
  have inCall {t : State} (hc : c.state.inCall = true) (ht : takeReport n h samples u = .ok () t) :
      exec .measurement s = s.endsMessage t := by
    refine exec_commandOf_delivered hd ?_
    rw [run_handleMessage_body hb (HandsetState.of_inCall hc),
      run_takeBody_measurement (HandsetState.attached_of_inCall hc)]
    exact ht
  refine ⟨fun hc hh hm => inCall hc ?filtered, fun hq => ⟨?sound, rfl⟩, fun hc hh => inCall hc ?elsewhere, fun hc =>
    exec_commandOf_delivered hd ?idle, exec_away hd (.inr ⟨samples, rfl⟩)⟩
  case filtered =>
    rw [run_takeReport hc hh, if_neg]
    · rfl
    · rintro ⟨hne, hno⟩
      rcases hm with hm | hm
      · exact hne hm
      · rw [show u.contained = s.contained from rfl, hm] at hno
        cases hno
  case sound =>
    have reported := hq.report rfl (s.terms c).filter samples
    rwa [Quality.report_eq] at reported
  case elsewhere => exact run_takeReport_ignored (fun hin => hh hin.2) samples
  case idle =>
    obtain ⟨attached, outside⟩ := HandsetState.of_idle_doze hc
    rw [run_handleMessage_body hb (HandsetState.handled_of_idle_doze hc), run_takeBody_measurement attached]
    exact run_takeReport_ignored (fun hin => by rw [outside] at hin; cases hin.1) samples

end Sys2Proof.Machine
end

section
/-! SUPPORT. Openings: reservations, the triggers and FORCE_HANDOVER. -/

namespace Sys2Proof.Machine

variable {s t : State} {n : Slot} {h target source : Head} {e : EntryNo} {ident : Identity}

/-! ### Reservations and openings -/

/-- R138: a reservation at a head IN_SERVICE. -/
theorem run_reserve (hs : s.TablesRead) (hin : (s.head h).state = .inService) (e : EntryNo) (w : WaitEntry) :
    reserve e w h s = match (s.head h).vacancy with
      | some ch => .ok (.granted ch) (s.setHead h ((s.head h).allotted ch (.reservation e)))
      | none => .ok .waits (s.setHead h { s.head h with waitQ := joined w (s.head h).waitQ }) := by
  unfold reserve
  rw [run_bind, run_usePool (hs.pools h)]
  dsimp only
  rw [run_getHead_bind, if_pos hin, HeadCtx.vacancy_eq]
  cases (s.head h).vacancy with
  | none =>
    dsimp only
    rw [run_modHead_bind, joinWait_eq]
    rfl
  | some ch => rfl

theorem State.TablesRead.opening (hs : s.TablesRead) (n : Slot) (source target : Head) (cause : Cause) (e : EntryNo) :
    (s.opening n source target cause e).TablesRead :=
  ((hs.setEntry e rfl).setCtx ..).emit ..

/-- R149: an opening toward a head IN_SERVICE, in a free entry. -/
theorem run_openHandover (hs : s.TablesRead) (hv : s.vacantEntry = some e) (hsrc : (s.ctx n).serving = some source)
    (hin : (s.head target).state = .inService) (cause : Cause) :
    openHandover n cause target s = .ok true (s.opened n source target cause e) := by
  have free : ((List.finRange 32).find? fun e => (s.txnOf e).isNone) = some e := hv
  have opening : State.emit (State.entered (s.setEntry e
      { txn := some
          { slot := n, cause := cause, phase := .reserving, source := source, target := some target, targetChan := none
            heldChan := none, deadline := s.timeBase + Config.reservingTime, origin := (s.ctx n).state.origin
            opened := s.timeBase }
        parityBad := false }) n .moving fun c => { c with txn := some (e, (s.ctx n).state.origin) })
      .handoverOpened .none n.val target.val cause.code = s.opening n source target cause e := by
    rw [State.entered_moving _ n (by rfl), HandsetState.origin_eq]
    rfl
  have head_eq : (s.opening n source target cause e).head target = s.head target := by
    unfold State.opening
    simp
  unfold openHandover
  rw [run_bind, run_seekEntry hs.entries]
  dsimp only
  rw [run_get_bind, free, hsrc]
  dsimp only
  rw [run_putTxn_bind, run_enterWith_bind, run_note_bind, opening, run_bind,
    run_reserve (hs.opening ..) (by rw [head_eq]; exact hin), head_eq]
  unfold State.opened
  dsimp only
  cases (s.head target).vacancy with
  | none => rfl
  | some ch =>
    dsimp only
    rw [run_bind, run_enterCommanded]
    · rfl
    · exact ((hs.opening ..).setHead target (by exact hs.pools target)).entries e

/-- R149: no opening in a full table. -/
theorem run_openHandover_full (hs : s.TablesRead) (hv : s.vacantEntry = none) (n : Slot) (cause : Cause) (target : Head) :
    openHandover n cause target s = .ok false s := by
  have full : ((List.finRange 32).find? fun e => (s.txnOf e).isNone) = none := hv
  unfold openHandover
  rw [run_bind, run_seekEntry hs.entries]
  dsimp only
  rw [run_get_bind, full]
  rfl

/-! ### Triggers -/

/-- R119: the opening that a trigger requests, from a call at serving head `h`. -/
def State.asked (s : State) (n : Slot) (h : Head) (cause : Cause) (target : Head) : State :=
  match s.vacantEntry with
  | some e => s.opened n h target cause e
  | none => { s with deferrals := min 65535 (s.deferrals + 1) }

theorem run_requestOpening (hs : s.TablesRead) (hd : s.deferrals ≤ 65535) (hsrc : (s.ctx n).serving = some h)
    (hin : (s.head target).state = .inService) (cause : Cause) :
    requestOpening n cause target s = .ok () (s.asked n h cause target) := by
  unfold requestOpening State.asked
  rw [run_bind]
  cases hv : s.vacantEntry with
  | some e =>
    rw [run_openHandover hs hv hsrc hin]
    rfl
  | none =>
    rw [run_openHandover_full hs hv]
    dsimp only
    rw [if_pos (by simp), run_modify, satInc_eq_min hd]

/-- R116: the drain trigger. -/
theorem run_drainTrigger (hs : s.TablesRead) (c : HandsetCtx) (h : Head) : drainTrigger c h s =
    .ok (decide ((s.head h).state = .draining ∧ c.policy ≠ .locked ∧ s.drainsFrom h < 4)) s := by
  unfold drainTrigger
  rw [run_getHead_bind]
  by_cases hd : (s.head h).state = .draining ∧ c.policy ≠ .locked
  · rw [if_pos hd, run_bind, run_readTable hs.entries]
    obtain ⟨draining, policy⟩ := hd
    show EStateM.Result.ok (decide (s.drainsFrom h < 4)) s = _
    simp [draining, policy]
  · rw [if_neg hd]
    have off : ¬ ((s.head h).state = .draining ∧ c.policy ≠ .locked ∧ s.drainsFrom h < 4) :=
      fun hall => hd ⟨hall.1, hall.2.1⟩
    rw [decide_eq_false off]
    rfl

theorem State.drainsFrom_eq (s : State) (h : Head) : s.drainsFrom h = (List.finRange 32).countP fun e =>
    match (s.entry e).txn with
    | some t => decide (t.cause = .drain ∧ t.source = h)
    | none => false := by
  unfold State.drainsFrom
  rw [List.countP_eq_length_filter]
  congr 2
  funext e
  unfold State.txnOf
  cases (s.entry e).txn with
  | none => rfl
  | some t => simp [Bool.beq_eq_decide_eq]

theorem HeadState.eligible_iff (st : HeadState) : st.eligible = true ↔ st = .inService := by
  cases st <;> simp [HeadState.eligible]

/-- R115: the choice. -/
theorem State.choice_eq (s : State) (q : Quality) :
    s.choice q = q.candidates.find? fun x => (s.head x.head).state = .inService := by
  unfold State.choice
  congr 1
  funext x
  rw [Bool.eq_iff_iff, decide_eq_true_iff, HeadState.eligible_iff]

/-- R118: the dwells of a slot's Candidate List replaced. -/
def State.dwelt (s : State) (n : Slot) (f : Candidate → Nat) : State :=
  s.setCtx n { s.ctx n with quality := { (s.ctx n).quality with candidates := withDwells (s.ctx n).quality.candidates f } }

theorem State.TablesRead.dwelt (hs : s.TablesRead) (n : Slot) (f : Candidate → Nat) : (s.dwelt n f).TablesRead :=
  hs.setCtx ..

theorem dwelt_serving (s : State) (n : Slot) (f : Candidate → Nat) :
    ((s.dwelt n f).ctx n).serving = (s.ctx n).serving := by
  unfold State.dwelt
  rw [ctx_setCtx]

theorem run_clearDwells (s : State) (n : Slot) : modCandidates n clearDwell s = .ok () (s.dwelt n fun _ => 0) := rfl

theorem run_countDwells_bind (s : State) (n : Slot) (x : Head) (g : Unit → Act Unit) :
    (modCandidates n (countDwell x) >>= g) s =
      g () (s.dwelt n fun y => if y.head = x then min 8 (y.dwell + 1) else 0) := rfl

/-- R118: the quality trigger is judged. -/
theorem qualityJudged_iff (c : HandsetCtx) :
    qualityJudged c = true ↔ c.state = .active ∧ c.policy = .auto ∧ c.quality.holdoff = none := by
  simp [qualityJudged, and_assoc]

theorem urgentTrigger_iff (c : HandsetCtx) (floor : Nat) :
    urgentTrigger c floor = true ↔ c.state = .active ∧ c.policy = .auto ∧ c.quality.level.getD 0 < floor := by
  simp [urgentTrigger, and_assoc]

/-- R115 to R119: trigger evaluation as the statements say it, with its steps by name. -/
theorem State.judged_eq (s : State) (n : Slot) (h : Head) : s.judged n h =
    let c := s.ctx n
    let terms := s.classOf c
    let level := c.quality.level.getD 0
    match s.choice c.quality with
    | none => if qualityJudged c = true then s.dwelt n fun _ => 0 else s
    | some x =>
      if (s.head h).state = .draining ∧ c.policy ≠ .locked ∧ s.drainsFrom h < 4 then s.asked n h .drain x.head
      else if urgentTrigger c terms.floor = true then s.asked n h .urgent x.head
      else if qualityJudged c = true then
        if x.level < level + terms.margin then s.dwelt n fun _ => 0
        else
          let u := s.dwelt n fun y => if y.head = x.head then min 8 (y.dwell + 1) else 0
          if terms.dwell ≤ min 8 (x.dwell + 1) then u.asked n h .quality x.head else u
      else s := by
  unfold State.judged
  simp only [State.choice_eq, State.drainsFrom_eq, qualityJudged_iff, urgentTrigger_iff, decide_eq_true_iff]
  rfl

theorem run_evaluate (hs : s.TablesRead) (hd : s.deferrals ≤ 65535) (hsrc : (s.ctx n).serving = some h) :
    evaluate n h s = .ok () (s.judged n h) := by
  rw [State.judged_eq]
  unfold evaluate
  dsimp only
  rw [run_get_bind]
  cases hx : s.choice (s.ctx n).quality with
  | none =>
    dsimp only
    split
    · unfold judgeQuality
      rw [run_getCtx_bind]
      exact run_clearDwells s n
    · rfl
  | some x =>
    have hin : (s.head x.head).state = .inService := by
      rw [State.choice_eq] at hx
      simpa using List.find?_some hx
    dsimp only
    rw [run_bind, run_drainTrigger hs]
    dsimp only
    simp only [decide_eq_true_iff]
    split
    · exact run_requestOpening hs hd hsrc hin .drain
    · split
      · exact run_requestOpening hs hd hsrc hin .urgent
      · split
        · unfold judgeQuality
          dsimp only
          rw [run_getCtx_bind]
          split
          · exact run_clearDwells s n
          · rw [run_countDwells_bind]
            split
            · exact run_requestOpening (hs.dwelt ..) hd ((dwelt_serving ..).trans hsrc) hin .quality
            · rfl
        · rfl

/-- Settles O44: the report, then the evaluation. -/
theorem triggersOpenHandovers : Obligations.TriggersOpenHandovers := by
  intro s h ident n samples hd hs hdef u c hc hh hno
  have hb : ∀ code, HandsetMsg.measurement samples ≠ .attach code := fun _ => nofun
  have facts : c.state.inCall = true ∧ c.state ≠ .moving := (by decide : ∀ st ∈ [HandsetState.active, .pinned],
    st.inCall = true ∧ st ≠ .moving) _ hc
  obtain ⟨inCall, still⟩ := facts
  refine exec_commandOf_delivered hd ?_
  rw [run_handleMessage_body hb (HandsetState.of_inCall inCall),
    run_takeBody_measurement (HandsetState.attached_of_inCall inCall), run_takeReport inCall hh,
    if_pos ⟨still, hno⟩]
  exact run_evaluate ((hs.tablesRead.heard n).setCtx ..) hdef (by rw [State.reported, ctx_setCtx]; exact hh)

end Sys2Proof.Machine
end

section
/-! SUPPORT. FORCE_HANDOVER and the Reservation Wait Queue. -/

namespace Sys2Proof.Machine

variable {s t : State} {n : Slot} {h target source : Head} {e : EntryNo} {ident : Identity}

/-! ### FORCE_HANDOVER -/

theorem run_takeForceHandover_refused {reason : RefusalReason} (hr : s.forceRefusal n target = some reason) :
    takeForceHandover n target s = .ok () (s.emit .requestRefused .none n.val 0x23 reason.code) := by
  unfold takeForceHandover
  rw [run_get_bind, hr]
  rfl

theorem run_takeForceHandover_full (hs : s.TablesRead) (hr : s.forceRefusal n target = none) (hv : s.vacantEntry = none) :
    takeForceHandover n target s = .ok () (s.emit .requestRefused .none n.val 0x23 8) := by
  unfold takeForceHandover
  rw [run_get_bind, hr]
  dsimp only
  rw [run_bind, run_openHandover_full hs hv]
  rfl

theorem run_takeForceHandover (hs : s.TablesRead) (hr : s.forceRefusal n target = none) (hv : s.vacantEntry = some e)
    (hsrc : (s.ctx n).serving = some source) (hin : (s.head target).state = .inService) :
    takeForceHandover n target s = .ok () (s.opened n source target .forced e) := by
  unfold takeForceHandover
  rw [run_get_bind, hr]
  dsimp only
  rw [run_bind, run_openHandover hs hv hsrc hin]
  rfl

/-- R121: the checks 2 to 4, which look at the state of the handset alone. -/
def HandsetState.forceRefusal : HandsetState → Option RefusalReason
  | .active | .pinned => none
  | .moving => some .busy
  | .idle | .doze | .lost => some .badState
  | _ => some .notRegistered

theorem State.forceRefusal_contained (hc : s.contained = true) : s.forceRefusal n target = some .contained := by
  unfold State.forceRefusal
  exact if_pos hc

theorem State.forceRefusal_state (hc : s.contained = false) {r : RefusalReason}
    (hr : (s.ctx n).state.forceRefusal = some r) : s.forceRefusal n target = some r := by
  unfold State.forceRefusal
  dsimp only
  rw [if_neg (by simp [hc]), ← hr]
  generalize (s.ctx n).state = st at hr ⊢
  cases st <;> first | rfl | cases hr

/-- R121: the checks 5 to 7, for a call that is ACTIVE or PINNED. -/
theorem State.forceRefusal_call (hc : s.contained = false) (hst : (s.ctx n).state ∈ [HandsetState.active, .pinned]) :
    s.forceRefusal n target =
      if (s.ctx n).policy = .locked then some .policy
      else if (s.ctx n).serving = some target then some .targetIneligible
      else if (s.head target).state = .inService then none else some .targetIneligible := by
  have facts : (s.ctx n).state.registered = true ∧ (s.ctx n).state.inCall = true ∧ (s.ctx n).state ≠ .moving :=
    (by decide : ∀ st ∈ [HandsetState.active, .pinned],
      st.registered = true ∧ st.inCall = true ∧ st ≠ .moving) _ hst
  obtain ⟨registered, inCall, still⟩ := facts
  unfold State.forceRefusal
  dsimp only
  rw [if_neg (by simp [hc]), if_neg (by simp [registered]), if_neg (by simp [inCall]), if_neg still]
  by_cases hin : (s.head target).state = .inService
  · simp [hin, HeadState.eligible]
  · have ineligible : (s.head target).state.eligible = false := by
      rw [Bool.eq_false_iff]
      exact mt (HeadState.eligible_iff _).mp hin
    simp [hin, ineligible]

/-- Settles O48, by the first check that fails. -/
theorem forceHandoverOpens : Obligations.ForceHandoverOpens := by
  intro s n target hr c refuses
  have runs {t : State} (hc : c.state ≠ .vacant) (ht : takeForceHandover n target s = .ok () t) :
      exec .forceHandover s = s.endsRequest t := exec_owned hr rfl hc ht
  have refused (hc : c.state ≠ .vacant) {r : RefusalReason} (hf : s.forceRefusal n target = some r) :
      refuses r.code := runs hc (run_takeForceHandover_refused hf)
  refine ⟨fun hc => exec_commandFor hr (run_handleRequest_vacant rfl hc),
    fun hc hcon => refused hc (State.forceRefusal_contained hcon), fun hno => ⟨fun hc => ?_, fun hc => ?_,
      fun hc => refused (r := .busy) (by simp [hc]) (State.forceRefusal_state hno (by rw [show (s.ctx n).state = _ from hc]; rfl)),
      fun hc => ?calls⟩⟩
  · obtain ⟨hv, hf⟩ : c.state ≠ .vacant ∧ c.state.forceRefusal = some .notRegistered :=
      (by decide : ∀ st ∈ [HandsetState.provisioned, .barred, .quarantined, .queued, .offered],
        st ≠ .vacant ∧ st.forceRefusal = some .notRegistered) _ hc
    exact refused hv (State.forceRefusal_state hno hf)
  · obtain ⟨hv, hf⟩ : c.state ≠ .vacant ∧ c.state.forceRefusal = some .badState :=
      (by decide : ∀ st ∈ [HandsetState.idle, .doze, .lost], st ≠ .vacant ∧ st.forceRefusal = some .badState) _ hc
    exact refused hv (State.forceRefusal_state hno hf)
  case calls =>
    have hv : c.state ≠ .vacant := (by decide : ∀ st ∈ [HandsetState.active, .pinned], st ≠ .vacant) _ hc
    have checks := State.forceRefusal_call (target := target) hno hc
    refine ⟨fun hp => refused hv (checks.trans (if_pos hp)), fun hp ht => refused hv (r := .targetIneligible) ?_,
      fun hp hin hs source hsrc hne => ?_⟩
    · rw [checks, if_neg (by exact hp)]
      rcases ht with ht | ht
      · exact if_pos ht
      · rw [if_neg ht]
        split <;> rfl
    · have passes : s.forceRefusal n target = none := by
        rw [checks, if_neg (by exact hp), if_neg, if_pos hin]
        rw [show (s.ctx n).serving = some source from hsrc, Option.some.injEq]
        exact hne
      exact ⟨fun he => runs hv (run_takeForceHandover_full hs.tablesRead passes he),
        fun e he => runs hv (run_takeForceHandover hs.tablesRead passes he hsrc hin)⟩

/-! ### The wait queue -/

/-- R142: a joining transaction stands behind the ones it is not ahead of. -/
theorem joined_split (w : WaitEntry) (q : List WaitEntry) : ∃ before behind, q = before ++ behind ∧
    joined w q = before ++ w :: behind ∧ (∀ y ∈ before, ¬ w.ahead y) ∧ ∀ y ∈ behind.head?, w.ahead y := by
  induction q with
  | nil => exact ⟨[], [], rfl, rfl, nofun, nofun⟩
  | cons y rest ih =>
    unfold joined
    by_cases ha : w.ahead y
    · rw [if_pos ha]
      refine ⟨[], y :: rest, rfl, rfl, nofun, fun z hz => ?_⟩
      cases hz
      exact ha
    · rw [if_neg ha]
      obtain ⟨before, behind, hq, hj, hb, hh⟩ := ih
      refine ⟨y :: before, behind, by rw [hq]; rfl, by rw [hj]; rfl, fun z hz => ?_, hh⟩
      rcases List.mem_cons.mp hz with rfl | hz
      · exact ha
      · exact hb z hz

/-- The end of a command leaves heads, entries and contexts alone. -/
theorem ends_next (b u : State) : ∃ v, b.ends u = .next v ∧ (∀ h, v.head h = u.head h) ∧ (∀ e, v.entry e = u.entry e) ∧
    ∀ n, v.ctx n = u.ctx n := by
  obtain ⟨m, l, e, -, -⟩ := State.settle_cases b u
  refine ⟨_, rfl, fun h => ?_, fun x => ?_, fun n => ?_⟩
  all_goals
    rw [e]
    rfl

theorem endsMessage_next (b u : State) : ∃ v, b.endsMessage u = .next v ∧ (∀ h, v.head h = u.head h) ∧
    (∀ e, v.entry e = u.entry e) ∧ ∀ n, v.ctx n = u.ctx n := ends_next b { u with uplink := u.uplink.tail }

theorem endsRequest_next (b u : State) : ∃ v, b.endsRequest u = .next v ∧ (∀ h, v.head h = u.head h) ∧
    (∀ e, v.entry e = u.entry e) ∧ ∀ n, v.ctx n = u.ctx n := ends_next b { u with requests := u.requests.tail }

/-- A grant changes no head. -/
theorem granted_head (s : State) (e : EntryNo) (h : Head) (ch : Chan) (x : Head) : (s.granted e h ch).head x = s.head x := by
  unfold State.granted
  split
  · rfl
  · simp

theorem granted_entry {t : Handover} (ht : (s.entry e).txn = some t) (h : Head) (ch : Chan) :
    ((s.granted e h ch).entry e).txn =
      some { t with phase := .commanded, targetChan := some ch, deadline := s.timeBase + 300 } := by
  unfold State.granted
  rw [ht]
  simp

/-- R142, R149: an opening toward a full head leaves the transaction waiting. -/
theorem State.opened_waits (hf : (s.head target).freeCount = 0) (cause : Cause) :
    s.opened n source target cause e = (s.opening n source target cause e).setHead target { s.head target with
      waitQ := joined { entry := e, slot := n, cause := cause, priority := (s.ctx n).priority, opened := s.timeBase }
        (s.head target).waitQ } := by
  have full : (s.head target).vacancy = none := if_neg (by omega)
  unfold State.opened
  dsimp only
  rw [full]

/-- R81: the end of a call with no transaction releases its channel alone. -/
theorem State.cut_single (hx : (s.ctx n).txn = none) (hh : (s.ctx n).serving = some h) {ch : Chan}
    (hch : (s.ctx n).channel = some ch) (abandoned : Bool) : s.cut n abandoned = s.released n h ch := by
  have none : s.openTxn n = none := by
    unfold State.openTxn
    rw [hx]
    rfl
  have calls : (s.ctx n).callChannels = [(h, ch)] := by
    unfold HandsetCtx.callChannels
    rw [hh, hch]
    rfl
  unfold State.cut
  rw [none, calls]
  rfl

/-- R141: the release of a channel at a head that is neither FAILED nor OUT_OF_SERVICE. -/
theorem State.released_reachable (hr : (s.head h).state ∉ [HeadState.failed, .outOfService]) (n : Slot) (ch : Chan) :
    s.released n h ch = State.afterFree ((s.takeDirective { Directive.blank .channelRelease (some h) with
      slot := some n, channel := some ch }).setHead h ((s.head h).withOwner ch none)) h ((s.head h).withOwner ch none) := by
  unfold State.released
  rw [if_neg hr, State.freed_eq, head_takeDirective]

theorem HeadCtx.lowest_freed (x : HeadCtx) {ch : Chan} (hlt : ch.val < x.capacity)
    (hp : ∀ j : Chan, j < ch → x.pool[j].isSome = true) : (x.withOwner ch none).lowest = some ch := by
  rw [← HeadCtx.lowestFree_eq, HeadCtx.lowestFree_eq_some_iff]
  refine ⟨hlt, by rw [HeadCtx.withOwner_pool, if_pos rfl], fun j hj => ?_⟩
  rw [HeadCtx.withOwner_pool, if_neg (Fin.ne_of_lt hj)]
  exact hp j hj

theorem HeadCtx.inUse_eq_zero {x : HeadCtx} (hp : ∀ j : Chan, x.pool[j] = none) : x.inUse = 0 := by
  unfold HeadCtx.inUse
  rw [List.length_eq_zero_iff, List.filter_eq_nil_iff]
  intro o ho
  obtain ⟨i, hi, rfl⟩ := List.getElem_of_mem ho
  have free := hp ⟨i, by simpa using hi⟩
  have free' : x.pool.toList[i] = none := by simpa using free
  rw [free']
  decide

theorem HeadCtx.unstaged_staged (x : HeadCtx) : x.unstaged.staged = none := by
  unfold HeadCtx.unstaged
  cases hst : x.staged with
  | none => exact hst
  | some p => rfl

/-- R80, R141: the end of a call with no transaction at a head that is neither FAILED nor OUT_OF_SERVICE, by a CALL_RELEASE. -/
theorem releasedCall {x : Head} {ch : Chan} (hd : s.delivers x ident .callRelease n) (hs : s.undamaged)
    (hst : (s.ctx n).state ∈ [HandsetState.active, .pinned]) (hx : (s.ctx n).txn = none) (hsv : (s.ctx n).serving = some h)
    (hch : (s.ctx n).channel = some ch) (hr : (s.head h).state ∉ [HeadState.failed, .outOfService]) :
    exec .callRelease s = s.endsMessage (State.emit
      ((State.afterFree (((s.heard n).takeDirective { Directive.blank .channelRelease (some h) with
        slot := some n, channel := some ch }).setHead h ((s.head h).withOwner ch none)) h
          ((s.head h).withOwner ch none)).setCtx n
        { ((s.heard n).ctx n).unstaged.settled .idle ((s.heard n).ctx n).serving
          (idleOf ((s.heard n).terms ((s.heard n).ctx n).unstaged) s.timeBase false) with hoFail := 0 }) .callEnded .none n.val
        (headCode ((s.heard n).ctx n).serving) 1) := by
  have inCall : ((s.heard n).ctx n).state.inCall = true := by
    rw [heard_ctx_state, HandsetState.inCall_iff]
    exact (by decide : ∀ st ∈ [HandsetState.active, .pinned], st ∈ [HandsetState.active, .moving, .pinned]) _ hst
  have heardCtx : (s.heard n).ctx n = (s.ctx n).seen s.timeBase := by simp [State.heard]
  have run := (callIsReleased.1 s x ident n hd).2 inCall hs
  rw [State.cut_single (s := s.heard n) (h := h) (ch := ch) (by rw [heardCtx]; exact hx) (by rw [heardCtx]; exact hsv)
    (by rw [heardCtx]; exact hch), State.released_reachable (s := s.heard n) (by exact hr)] at run
  exact run

/-- Settles O49: a transaction that waits, a waiter that is granted, and the end of a drain. -/
theorem waitQueueIsServed : Obligations.WaitQueueIsServed := by
  refine ⟨?waits, ?granted, ?drained⟩
  case waits =>
    intro s n source target e hr hs hno hst hp hsrc hne hin hfull hv w
    have opens := ((forceHandoverOpens s n target hr).2.2 hno).2.2.2 hst
    have run := (opens.2.2 hp hin hs source hsrc hne).2 e hv
    rw [State.opened_waits hfull] at run
    obtain ⟨u, next, heads, entries, ctxs⟩ := endsRequest_next s ((s.opening n source target .forced e).setHead target
      { s.head target with waitQ := joined w (s.head target).waitQ })
    refine ⟨u, run.trans next, by rw [heads, head_setHead], ?order, ?entry⟩
    case order =>
      rw [heads, head_setHead]
      obtain ⟨before, behind, hq, hj, hb, hh⟩ := joined_split w (s.head target).waitQ
      exact ⟨before, behind, hq, hj, hb, hh⟩
    case entry =>
      rw [entries, ctxs]
      refine ⟨{ slot := n, cause := .forced, phase := .reserving, source := source, target := some target
                targetChan := none, heldChan := none, deadline := s.timeBase + 2000
                origin := if (s.ctx n).state = .pinned then .pinned else .active, opened := s.timeBase }, ?_, rfl, rfl, rfl, rfl, ?_⟩
      · simp [State.opening]
      · simp [State.opening, HandsetCtx.calling]
  case granted =>
    intro s x h ident n ch w rest t hd hs hst hx hsv hch hin hq ht hlt hp
    have run := releasedCall hd hs hst hx hsv hch (by simp [hin])
    have low : ((s.head h).withOwner ch none).lowest = some ch := HeadCtx.lowest_freed _ hlt hp
    rw [State.afterFree_inService (w := w) (rest := rest) (ch := ch) (by exact hin) (by exact hq) low] at run
    obtain ⟨u, next, heads, entries, ctxs⟩ := endsMessage_next s _
    refine ⟨u, run.trans next, ?_, ?_, ?_, ?_⟩
    · rw [heads]
      simp [granted_head]
    · rw [heads]
      simp [granted_head, HeadCtx.allotted, HeadCtx.withOwner]
    · rw [entries]
      simp only [entry_emit, entry_setCtx]
      rw [granted_entry (t := t) (by simpa [State.heard] using ht)]
      simp [State.heard]
    · rw [ctxs]
      simp [HandsetCtx.settled]
  case drained =>
    intro s x h ident n ch hd hs hst hx hsv hch hdr hp
    have run := releasedCall hd hs hst hx hsv hch (by simp [hdr])
    have idle : ((s.head h).withOwner ch none).inUse = 0 := HeadCtx.inUse_eq_zero fun j => by
      rw [HeadCtx.withOwner_pool]
      split
      · rfl
      · exact hp j ‹_›
    rw [State.afterFree_draining (by simp [HeadCtx.withOwner, hdr]), if_pos ⟨by exact hdr, idle⟩] at run
    obtain ⟨u, next, heads, entries, ctxs⟩ := endsMessage_next s _
    refine ⟨u, run.trans next, ?_, ?_, ?_, ?_⟩
    · rw [heads]
      simp [State.drained]
    · rw [heads]
      simp [State.drained]
    · rw [heads]
      simp [State.drained, HeadCtx.unstaged_staged]
    · rw [ctxs]
      simp [HandsetCtx.settled]

end Sys2Proof.Machine
end

section
/-! SUPPORT. The switch of a call, access outside the plan, and counted failures. -/

namespace Sys2Proof.Machine

variable {s t : State} {n : Slot} {h source : Head} {e : EntryNo} {ident : Identity} {new old : Chan}

/-! ### A table entry that is written over -/

theorem takeEvent_setEntry (s : State) (v : Event) (e : EntryNo) (x : TableEntry) :
    (s.setEntry e x).takeEvent v = (s.takeEvent v).setEntry e x := by
  have same : ((s.setEntry e x).evRoom, (s.setEntry e x).eventsLost) = (s.evRoom, s.eventsLost) := rfl
  obtain ⟨room, lost⟩ := Prod.mk.inj same
  unfold State.takeEvent
  rw [room, lost]
  split <;> rfl

theorem emit_setEntry (s : State) (k : EventKind) (v : Severity) (a b d : Nat) (e : EntryNo) (x : TableEntry) :
    (s.setEntry e x).emit k v a b d = (s.emit k v a b d).setEntry e x := takeEvent_setEntry ..

theorem takeDirective_setEntry (s : State) (d : Directive) (e : EntryNo) (x : TableEntry) :
    (s.setEntry e x).takeDirective d = (s.takeDirective d).setEntry e x := by
  have same : ((s.setEntry e x).backlog, (s.setEntry e x).dirRoom) = (s.backlog, s.dirRoom) := rfl
  obtain ⟨backlog, room⟩ := Prod.mk.inj same
  unfold State.takeDirective
  dsimp only
  rw [backlog, room]
  split
  · rfl
  · split
    · rfl
    · exact emit_setEntry { s with dirDropped := satInc s.dirDropped } ..

theorem tell_setEntry (s : State) (k : DirectiveKind) (o : Option Head) (n : Slot) (f : Directive → Directive) (e : EntryNo)
    (x : TableEntry) : (s.setEntry e x).tell k o n f = (s.tell k o n f).setEntry e x := takeDirective_setEntry ..

/-! ### The switch -/

/-- What a switch keeps of a transaction. -/
def Handover.core (t : Handover) : Handover :=
  { t with phase := .reserving, target := none, targetChan := none, heldChan := none, deadline := 0 }

theorem State.switched_core {t x : Handover} (hc : t.core = x.core) (s : State) (n : Slot) (e : EntryNo) (h : Head)
    (new old : Chan) : s.switched n e t h new old = s.switched n e x h new old := by
  have same (y : Handover) : s.switched n e y h new old = s.switched n e y.core h new old := rfl
  rw [same t, same x, hc]

/-- R140: the channels of a switch, as Head Manager leaves them. -/
def State.exchanged (s : State) (n : Slot) (e : EntryNo) (source h : Head) (new old : Chan) : State :=
  (s.setHead h ((s.head h).handed new (.call n))).setHead source
    (((s.setHead h ((s.head h).handed new (.call n))).head source).handed old (.held e))

theorem State.switched_eq (s : State) (n : Slot) (e : EntryNo) (t : Handover) (h : Head) (new old : Chan) :
    s.switched n e t h new old = ((((s.exchanged n e t.source h new old).setEntry e
      { txn := some { t with
          phase := .switched, target := some h, targetChan := none, heldChan := some old, deadline := s.timeBase + 500 }
        parityBad := (s.entry e).parityBad }).setCtx n { s.ctx n with
          serving := some h, channel := some new, quality := (s.ctx n).quality.moved (s.ctx n).serving h }).emit
      .handoverDone .none n.val h.val t.cause.code) := rfl

theorem State.exchanged_setEntry (s : State) (n : Slot) (e : EntryNo) (source h : Head) (new old : Chan) (x : TableEntry) :
    (s.setEntry e x).exchanged n e source h new old = (s.exchanged n e source h new old).setEntry e x := rfl

/-- A switch writes the entry over. -/
theorem State.switched_setEntry {x : TableEntry} (hx : x.parityBad = (s.entry e).parityBad) (n : Slot) (t : Handover) (h : Head)
    (new old : Chan) : (s.setEntry e x).switched n e t h new old = s.switched n e t h new old := by
  rw [State.switched_eq, State.switched_eq, State.exchanged_setEntry, setEntry_setEntry, entry_setEntry, hx, ctx_setEntry]
  rfl

theorem run_switchChannels (hs : s.TablesRead) (e : EntryNo) (n : Slot) (source target : Head) (old new : Chan) :
    let a := s.setHead target ((s.head target).handed new (.call n))
    switchChannels e n source target old new s = .ok () (a.setHead source ((a.head source).handed old (.held e))) := by
  intro a
  have pool : (a.head source).poolParityBad = false := by
    refine (hs.setHead target ?_).pools source
    unfold HeadCtx.handed
    split <;> exact hs.pools target
  unfold switchChannels
  rw [run_bind, run_usePool (hs.pools target)]
  dsimp only
  rw [run_modHead_bind, HeadCtx.reown_eq]
  show (usePool source >>= fun _ => _) a = _
  rw [run_bind, run_usePool pool]
  dsimp only
  rw [run_modHead, HeadCtx.reown_eq]

/-- R156, R140: the switch of the call of a transaction. -/
theorem run_switchCall (hs : s.TablesRead) {t : Handover} (ht : s.txnOf e = some t) (hh : t.target = some h)
    (hn : t.targetChan = some new) (ho : (s.ctx t.slot).channel = some old) :
    switchCall e t s = .ok () (s.switched t.slot e t h new old) := by
  have same : ∀ phase held deadline, { t with phase := phase, heldChan := held, targetChan := none, deadline := deadline } =
      { t with phase := phase, target := some h, targetChan := none, heldChan := held, deadline := deadline } :=
    fun _ _ _ => by rw [← hh]
  unfold switchCall
  rw [run_get_bind, hh, hn, ho]
  dsimp only
  rw [run_bind, run_switchChannels hs]
  dsimp only
  rw [run_bind, run_modTxn (t := t) (by exact ht)]
  dsimp only
  rw [same, run_modCtx_bind, run_note]
  unfold HandsetCtx.moveCall
  rw [Quality.moveServing_eq]
  rfl

/-! ### Access outside the plan -/

theorem run_reestablishChannel (hs : s.TablesRead) (o : Owner) (h : Head) : reestablishChannel o h s =
    match (s.head h).reestablishes with
    | some ch => .ok (some ch) (s.setHead h ((s.head h).allotted ch o))
    | none => .ok none s := by
  unfold reestablishChannel HeadCtx.reestablishes HeadCtx.vacancy
  rw [run_bind, run_usePool (hs.pools h)]
  dsimp only
  rw [run_getHead_bind, HeadCtx.lowestFree_eq, HeadCtx.free_eq]
  by_cases ha : (s.head h).state.admits = true
  · rw [if_pos ((HeadState.admits_iff _).mp ha)]
    by_cases hf : 1 ≤ (s.head h).freeCount
    · rw [if_pos ⟨ha, hf⟩, if_pos hf]
      cases (s.head h).lowest <;> rfl
    · rw [if_neg (fun x => hf x.2), if_neg hf]
      rfl
  · rw [if_neg (fun x => ha x.1), if_neg (mt (HeadState.admits_iff _).mpr ha)]
    rfl

/-- R167, step 5. -/
theorem run_dropReestablish (hs : s.TablesRead) (hc : (s.ctx n).state.inCall = true) (h : Head) :
    dropReestablish n h s = .ok () (s.notReestablished n h) := by
  have frame := SameButCalls.dropped s n 7
  unfold dropReestablish
  rw [run_bind, DropCause.run_dropCall hs]
  show enterWith n .idle (fun c => { c with serving := some h }) (s.dropped n 7) = _
  rw [run_enterWith, State.entered_idle_call (f := fun c => { c with serving := some h }) _ n rfl (by rw [frame.ctx]; exact hc),
    frame.ctx, frame.timeBase, State.terms, frame.params]
  unfold State.notReestablished
  rw [HandsetCtx.unstaged_eq, HandsetCtx.unstaged_eq]
  rfl

/-- R167, step 4: the transaction of an entry takes a channel of the access head and switches. -/
theorem run_reestablishAlive (hs : s.TablesRead) {t : Handover} (ht : s.txnOf e = some t) (hh : t.target = some h)
    (ho : (s.ctx t.slot).channel = some old) (ch : Chan) : reestablishAlive t.slot e h ch s =
      .ok () ((s.tell .channelAssign (some h) t.slot fun d => { d with channel := some ch }).switched t.slot e t h ch old) := by
  have told := hs.tell .channelAssign (some h) t.slot fun d => { d with channel := some ch }
  have held : (s.tell .channelAssign (some h) t.slot fun d => { d with channel := some ch }).txnOf e = some t := by
    unfold State.txnOf
    rw [entry_tell]
    exact ht
  unfold reestablishAlive assignChannel
  rw [run_tell_bind, run_bind, run_modTxn held]
  dsimp only
  rw [run_get_bind, txnOf_setEntry]
  dsimp only
  refine (run_switchCall (t := { t with targetChan := some ch }) (told.setEntry e (by exact told.entries e)) (txnOf_setEntry ..)
    hh rfl (old := old) ?channel).trans (congrArg (EStateM.Result.ok ()) (State.switched_setEntry ?parity ..))
  case channel =>
    rw [ctx_setEntry, ctx_tell]
    exact ho
  case parity => rfl

/-- A transaction opened in an entry and switched at once leaves nothing of what the entry held before the switch. -/
theorem State.switched_opened {b : State} {x : TableEntry} (hx : x.parityBad = (b.entry e).parityBad) (c : HandsetCtx)
    (d : Directive → Directive) (t : Handover) :
    State.switched ((((b.setEntry e x).setCtx n c).emit .handoverOpened .none n.val h.val 6).tell .channelAssign (some h) n d)
        n e t h new old =
      State.switched (((b.setCtx n c).emit .handoverOpened .none n.val h.val 6).tell .channelAssign (some h) n d)
        n e t h new old := by
  rw [show (b.setEntry e x).setCtx n c = (b.setCtx n c).setEntry e x from rfl, emit_setEntry, tell_setEntry]
  refine State.switched_setEntry ?_ ..
  rw [entry_tell, entry_emit, entry_setCtx, hx]

/-- R167: re-establishment of a call that has no transaction. -/
theorem run_reestablishNew (hs : s.TablesRead) (hc : (s.ctx n).state.inCall = true) (hsrc : (s.ctx n).serving = some source)
    (ho : (s.ctx n).channel = some old) (h : Head) :
    reestablishNew n h s = .ok () (s.reestablishedAnew n source h old) := by
  unfold reestablishNew State.reestablishedAnew
  rw [run_bind, run_seekEntry hs.entries, show ((List.finRange 32).find? fun e => (s.txnOf e).isNone) = s.vacantEntry from rfl]
  dsimp only
  rw [run_get_bind, hsrc]
  cases s.vacantEntry with
  | none => exact run_dropReestablish hs hc h
  | some e =>
    dsimp only
    rw [run_bind, run_reestablishChannel hs]
    cases (s.head h).reestablishes with
    | none => exact run_dropReestablish hs hc h
    | some ch =>
      have given := (hs.setHead h (c := (s.head h).allotted ch (.reservation e)) (by exact hs.pools h))
      dsimp only
      rw [run_putTxn_bind, run_enterWith_bind, State.entered_moving _ _ rfl, run_note_bind]
      refine (run_reestablishAlive (t := { slot := n, cause := .reestablish, phase := .commanded, source := source
                                           target := some h, targetChan := none, heldChan := none
                                           deadline := s.timeBase + 300, origin := (s.ctx n).state.origin
                                           opened := s.timeBase }) (e := e) (old := old)
        (((given.setEntry e (by rfl)).setCtx ..).emit ..) ?entry rfl ?channel ch).trans (congrArg (EStateM.Result.ok ()) ?_)
      case entry =>
        unfold State.txnOf
        rw [entry_emit, entry_setCtx, entry_setEntry]
        rfl
      case channel =>
        rw [ctx_emit, ctx_setCtx]
        exact ho
      have parity : false = ((s.setHead h ((s.head h).allotted ch (.reservation e))).entry e).parityBad := (hs.entries e).symm
      refine (State.switched_opened parity ..).trans (.trans ?_ (State.switched_opened parity ..).symm)
      rw [HandsetState.origin_eq]
      rfl

/-- What a switch keeps of a transaction, with the parity of its entry: the releases of R141 keep it too. -/
def TableEntry.core (x : TableEntry) : Option Handover × Bool := (x.txn.map Handover.core, x.parityBad)

theorem granted_core (s : State) (i : EntryNo) (h : Head) (ch : Chan) (e : EntryNo) :
    ((s.granted i h ch).entry e).core = (s.entry e).core := by
  unfold State.granted
  cases ht : (s.entry i).txn with
  | none => rfl
  | some t =>
    dsimp only
    rw [entry_tell, entry_tell]
    by_cases he : e = i
    · subst he
      rw [entry_setEntry]
      unfold TableEntry.core
      rw [ht]
      rfl
    · rw [entry_setEntry_ne _ _ he]

theorem released_core (s : State) (n : Slot) (h : Head) (ch : Chan) (e : EntryNo) :
    ((s.released n h ch).entry e).core = (s.entry e).core := by
  unfold State.released State.freed
  dsimp only
  split
  · rfl
  · split
    · rw [granted_core, entry_setHead, entry_setHead, entry_takeDirective]
    · split
      · unfold State.drained
        rw [entry_emit, entry_setHead, entry_setHead, entry_takeDirective]
      · rw [entry_setHead, entry_takeDirective]
    · rw [entry_setHead, entry_takeDirective]

theorem releasedAll_core (n : Slot) (cs : List (Head × Chan)) (s : State) (e : EntryNo) :
    ((s.releasedAll n cs).entry e).core = (s.entry e).core := by
  induction cs generalizing s with
  | nil => rfl
  | cons p rest ih => exact (ih _).trans (released_core ..)

/-- R167: re-establishment of a call whose transaction is used again. -/
theorem run_reestablishReused (hs : s.TablesRead) {t : Handover} (hc : (s.ctx n).state.inCall = true)
    (ht : (s.entry e).txn = some t) (hn : t.slot = n) (ho : (s.ctx n).channel = some old) (h : Head) :
    reestablishReused n e t h s = .ok () (s.reestablishedAgain n e t h old) := by
  have wheld : ((s.withdrawn e t).entry e) = s.entry e := by
    unfold State.withdrawn
    split <;> rfl
  have withdrawn := hs.withdrawn e t
  have vacated := withdrawn.setEntry e (x := { s.entry e with txn := some { t with targetChan := none } }) (by exact hs.entries e)
  have released := vacated.releasedAll n t.named
  have core := (releasedAll_core n t.named ((s.withdrawn e t).setEntry e
    { s.entry e with txn := some { t with targetChan := none } }) e).trans (congrArg TableEntry.core (entry_setEntry ..))
  have frame : SameButCalls s (((s.withdrawn e t).setEntry e
    { s.entry e with txn := some { t with targetChan := none } }).releasedAll n t.named) :=
      ((SameButCalls.withdrawn ..).trans (.setEntry ..)).trans (.releasedAll ..)
  unfold reestablishReused withdrawTarget State.reestablishedAgain
  rw [run_bind, run_bind, run_withdrawWait]
  dsimp only
  rw [run_bind, run_modTxn (t := t) (by unfold State.txnOf; rw [wheld]; exact ht), wheld]
  dsimp only
  rw [Handover.channels_eq, run_releaseAll _ _ vacated]
  dsimp only
  generalize ((s.withdrawn e t).setEntry e
    { s.entry e with txn := some { t with targetChan := none } }).releasedAll n t.named = a at released core frame
  obtain ⟨x, hx, same⟩ : ∃ x, (a.entry e).txn = some x ∧ x.core = t.core := by
    obtain ⟨txn, -⟩ := Prod.mk.inj core
    cases hx : (a.entry e).txn with
    | none => simp [hx] at txn
    | some x =>
      rw [hx] at txn
      exact ⟨x, rfl, Option.some.inj txn⟩
  rw [run_bind, run_reestablishChannel released]
  cases (a.head h).reestablishes with
  | none => exact run_dropReestablish released (by rw [frame.ctx]; exact hc) h
  | some ch =>
    have given := released.setHead h (c := (a.head h).allotted ch (.reservation e)) (by exact released.pools h)
    obtain rfl : x.slot = n := (congrArg Handover.slot same).trans hn
    dsimp only
    rw [run_bind, run_modTxn (t := x) (by exact hx)]
    dsimp only
    have run := run_reestablishAlive (t := { x with cause := .reestablish, target := some h }) (e := e) (h := h) (old := old)
      (given.setEntry e (x := { a.entry e with txn := some { x with cause := .reestablish, target := some h } })
        (by exact released.entries e)) (txnOf_setEntry ..) rfl ((congrArg HandsetCtx.channel (frame.ctx _)).trans ho) ch
    refine run.trans (congrArg (EStateM.Result.ok ()) ?_)
    rw [tell_setEntry, State.switched_setEntry (by rw [entry_tell]; rfl)]
    exact State.switched_core (congrArg (fun y : Handover => { y with cause := .reestablish }) same) ..

/-- R167: re-establishment of an ORPHANED call. -/
theorem run_reestablishOrphan (hs : s.TablesRead) (hc : (s.ctx n).state.inCall = true) (e : EntryNo) (h : Head) :
    reestablishOrphan n e h s = .ok () (s.adopted n e h) := by
  unfold reestablishOrphan State.adopted
  rw [run_bind, run_reestablishChannel hs]
  cases (s.head h).reestablishes with
  | none => exact run_dropReestablish hs hc h
  | some ch =>
    have called : ({ (s.ctx n).moveCall h ch with hoFail := 0 } : HandsetCtx).calling .active s.timeBase =
        { (s.ctx n).calling .active s.timeBase with
          serving := some h, channel := some ch, quality := (s.ctx n).quality.moved (s.ctx n).serving h, hoFail := 0 } := by
      unfold HandsetCtx.calling HandsetCtx.moveCall
      rw [Quality.moveServing_eq]
      dsimp only
      rw [if_pos hc, if_pos hc]
    unfold assignChannel
    dsimp only
    rw [run_tell_bind, run_enterWith_bind, State.entered_calling _ n (by decide) rfl, run_freeEntry_bind, run_note, ctx_tell,
      tell_timeBase]
    rw [show (s.setHead h ((s.head h).allotted ch (.call n))).ctx n = s.ctx n from rfl,
      show (s.setHead h ((s.head h).allotted ch (.call n))).timeBase = s.timeBase from rfl, called]
    rfl

/-! ### ACCESS -/

theorem run_slotEntry_holds {t : Handover} (ht : s.holds n e t) : slotEntry n s = .ok (some (e, t)) s := by
  obtain ⟨-, txn, entry, -⟩ := ht
  rw [run_slotEntry txn (by rw [entry])]
  unfold State.txnOf
  rw [entry]
  rfl

/-- A message leaves the transaction of its handset alone. -/
theorem State.holds.heard {t : Handover} (ht : s.holds n e t) : (s.heard n).holds n e t := by
  obtain ⟨st, txn, entry, slot⟩ := ht
  refine ⟨(heard_ctx_state s n).trans st, ?_, entry, slot⟩
  unfold State.heard
  rw [ctx_setCtx]
  exact txn

theorem State.holds.inCall {t : Handover} (ht : s.holds n e t) : (s.ctx n).state.inCall = true := by
  rw [ht.1]
  rfl

/-- R167: an ACCESS of a call with an open transaction. -/
theorem run_takeAccess_holds {t : Handover} (ht : s.holds n e t) (h : Head) : takeAccess n h s =
    (if t.phase = .commanded ∧ t.target = some h then switchCall e t
      else if t.phase = .orphaned then reestablishOrphan n e h
      else if (s.ctx n).serving = some h ∨ t.phase = .switched then pure ()
      else reestablishReused n e t h) s := by
  unfold takeAccess
  rw [run_getCtx_bind, if_neg (by simp [ht.inCall]), run_bind, run_slotEntry_holds ht]

/-- R167: an ACCESS of a call with no transaction. -/
theorem run_takeAccess_free (hc : (s.ctx n).state.inCall = true) (hx : (s.ctx n).txn = none) (h : Head) : takeAccess n h s =
    (if (s.ctx n).serving = some h then pure () else reestablishNew n h) s := by
  unfold takeAccess
  rw [run_getCtx_bind, if_neg (by simp [hc]), run_bind, run_slotEntry_none hx]

/-- An ACCESS of a handset that is neither VACANT, BARRED, QUARANTINED nor LOST. -/
theorem exec_access (hd : s.delivers h ident .access n)
    (hc : ((s.heard n).ctx n).state ∉ [HandsetState.vacant, .barred, .quarantined, .lost])
    (ht : takeAccess n h (s.heard n) = .ok () t) : exec .access s = s.endsMessage t :=
  exec_commandOf_delivered hd ((run_handleMessage_body (body := .access) (fun _ => nofun) hc).trans ht)

/-- Settles O45: the case of the transaction picks the branch. -/
theorem accessSwitches : Obligations.AccessSwitches := by
  intro s h ident n hd u c
  have called {e : EntryNo} {t : Handover} {v : State} (ht : s.holds n e t) (hr : takeAccess n h u = .ok () v) :
      exec .access s = s.endsMessage v := exec_access hd (HandsetState.of_inCall ht.heard.inCall) hr
  refine ⟨fun e t new old ht hp hh hn ho hs => called ht ?switches, fun hc hx hh => ?served, fun e t ht hp => called ht ?held,
    fun e t ht hp hh hsv => called ht ?planned, fun hc => ?stale⟩
  case switches =>
    obtain ⟨-, -, entry, rfl⟩ := ht.heard
    rw [run_takeAccess_holds ht.heard, if_pos ⟨hp, hh⟩]
    exact run_switchCall (hs.tablesRead.heard _) (by unfold State.txnOf; rw [entry]) hh hn ho
  case served =>
    have inCall : c.state.inCall = true := (by decide : ∀ st ∈ [HandsetState.active, .pinned], st.inCall = true) _ hc
    refine exec_access hd (HandsetState.of_inCall inCall) ?_
    rw [run_takeAccess_free inCall hx, if_pos hh]
    rfl
  case held =>
    rw [run_takeAccess_holds ht.heard, if_neg (by simp [hp]), if_neg (by simp [hp]), if_pos (.inr hp)]
    rfl
  case planned =>
    rw [run_takeAccess_holds ht.heard, if_neg (fun x => hh x.2), if_neg (fun x => by simp [x] at hp), if_pos (.inl hsv)]
    rfl
  case stale =>
    obtain ⟨known, outside⟩ : c.state ∉ [HandsetState.vacant, .barred, .quarantined, .lost] ∧ c.state.inCall = false :=
      (by decide : ∀ st ∈ [HandsetState.provisioned, .queued, .offered, .idle, .doze],
        st ∉ [HandsetState.vacant, .barred, .quarantined, .lost] ∧ st.inCall = false) _ hc
    exact exec_access hd known (run_takeAccess_stale outside)

/-- Settles O46. -/
theorem accessReestablishes : Obligations.AccessReestablishes := by
  intro s h ident n hd hs u c
  have read : u.TablesRead := hs.tablesRead.heard n
  refine ⟨fun e t ht hp => ?orphan, fun source old hc hx hsrc hne ho => ?anew, fun e t source old ht hp hsrc hne ho => ?again⟩
  case orphan =>
    refine exec_access hd (HandsetState.of_inCall ht.heard.inCall) ?_
    rw [run_takeAccess_holds ht.heard, if_neg (by simp [hp]), if_pos hp]
    exact run_reestablishOrphan read ht.heard.inCall e h
  case anew =>
    have inCall : c.state.inCall = true := (by decide : ∀ st ∈ [HandsetState.active, .pinned], st.inCall = true) _ hc
    refine exec_access hd (HandsetState.of_inCall inCall) ?_
    rw [run_takeAccess_free inCall hx, if_neg (by rw [show (u.ctx n).serving = _ from hsrc, Option.some.injEq]; exact hne)]
    exact run_reestablishNew read inCall hsrc ho h
  case again =>
    have away : ¬ ((u.ctx n).serving = some h ∨ t.phase = .switched) := by
      rw [show (u.ctx n).serving = _ from hsrc, Option.some.injEq, not_or]
      refine ⟨hne, fun hsw => ?_⟩
      rcases hp with hp | ⟨hp, -⟩ <;> simp [hp] at hsw
    refine exec_access hd (HandsetState.of_inCall ht.heard.inCall) ?_
    rw [run_takeAccess_holds ht.heard, if_neg, if_neg, if_neg away]
    · obtain ⟨-, -, entry, slot⟩ := ht.heard
      exact run_reestablishReused read ht.heard.inCall (by rw [entry]) slot ho h
    · rcases hp with hp | ⟨hp, -⟩ <;> simp [hp]
    · rintro ⟨hcom, hh⟩
      rcases hp with hp | ⟨-, hp⟩
      · simp [hp] at hcom
      · exact hp hh

/-! ### Counted failures -/

theorem run_noticeFailure (s : State) (n : Slot) (o : Option Head) : noticeFailure n o s = .ok () (s.setCtx n { s.ctx n with
    quality := match o with
      | none => (s.ctx n).quality
      | some h => (s.ctx n).quality.failed s.timeBase h }) := by
  unfold noticeFailure
  rw [run_get_bind]
  cases o with
  | none => exact congrArg (EStateM.Result.ok ()) (setCtx_self s n).symm
  | some h => rfl

/-- R151: the count and the state after a failure. -/
def State.failureCounted (s : State) (n : Slot) (o : Origin) (reason : Nat) : State :=
  let c := s.ctx n
  match o with
  | .pinned => s.setCtx n (c.calling .pinned s.timeBase)
  | .active =>
    if c.hoFail < 3 then s.setCtx n { c.calling .active s.timeBase with hoFail := c.hoFail + 1 }
    else (s.setCtx n { c.calling .pinned s.timeBase with hoFail := 0 }).emit .pinned .none n.val (headCode c.serving) reason

theorem run_countFailure (s : State) (n : Slot) (o : Origin) (reason : FailReason) :
    countFailure n o reason s = .ok () (s.failureCounted n o reason.code) := by
  unfold countFailure State.failureCounted returnHandset
  rw [run_getCtx_bind]
  cases o with
  | pinned =>
    dsimp only
    rw [run_enter, State.entered_calling _ n (by decide) rfl]
    rfl
  | active =>
    dsimp only
    split
    · rw [run_enterWith, State.entered_calling _ n (by decide) rfl]
      rfl
    · rw [run_enterWith_bind, State.entered_calling _ n (by decide) rfl]
      rfl

/-- R151: a counted failure. -/
theorem run_failCounted (hs : s.TablesRead) {t : Handover} (hc : (s.ctx t.slot).state.inCall = true) (e : EntryNo)
    (reason : FailReason) : failCounted e t reason s = .ok () (s.failedAt t.slot e t reason.code) := by
  have frame : SameButCalls s ((((s.withdrawn e t).releasedAll t.slot t.named).setEntry e .empty).emit .handoverFailed .none
      t.slot.val reason.code (headCode t.target)) :=
    (((SameButCalls.withdrawn ..).trans (.releasedAll ..)).trans (.setEntry ..)).trans (.emit ..)
  unfold failCounted State.failedAt
  rw [run_bind, run_withdrawWait]
  dsimp only
  rw [run_bind, Handover.channels_eq, run_releaseAll _ _ (hs.withdrawn e t)]
  dsimp only
  rw [run_freeEntry_bind, run_note_bind]
  generalize ((((s.withdrawn e t).releasedAll t.slot t.named).setEntry e .empty).emit .handoverFailed .none
      t.slot.val reason.code (headCode t.target)) = a at frame
  rw [run_bind, run_noticeFailure]
  dsimp only
  rw [run_countFailure, frame.ctx, frame.timeBase]
  unfold State.failureCounted HandsetCtx.calling
  rw [ctx_setCtx]
  dsimp only
  rw [if_pos hc, if_pos hc]
  simp only [setCtx_setCtx]
  cases t.target <;> rfl

/-! ### The deadlines of the phases -/

theorem run_phaseDeadline_passed {t : Handover} (hs : s.readable t.slot) (he : s.entry e = { txn := some t, parityBad := false })
    (hp : passed t.deadline s.timeBase = true) (f : Handover → Act Unit) : phaseDeadline e t.phase f s = f t s := by
  unfold phaseDeadline State.txnOf
  rw [run_get_bind, he]
  dsimp only
  rw [run_if_pos ⟨rfl, hp⟩, run_bind, run_useEntry (by rw [he])]
  exact run_withSound hs.1 hs.2 _

theorem run_phaseDeadline_waits {t : Handover} (ht : s.txnOf e = some t) (hp : passed t.deadline s.timeBase = false) (p : Phase)
    (f : Handover → Act Unit) : phaseDeadline e p f s = .ok () s := by
  unfold phaseDeadline
  rw [run_get_bind, ht]
  dsimp only
  exact run_if_neg (fun x => by simp [hp] at x) ..

/-- A deadline command runs its timeout. -/
theorem exec_running {c : Instr} {a : Act Unit} (hw : workOf c = some (whenRunning a)) (ho : s.op = .running)
    (ht : a s = .ok () t) : exec c s = s.ends t := by
  rw [exec_work hw]
  exact perform_ok ((run_whenRunning ho a).trans ht)

/-- R154. -/
theorem run_takeRevert {t : Handover} (ht : s.holds n e t) (h : Head) : takeRevert n h s =
    (if t.phase = .commanded ∧ t.source = h then failCounted e t .reverted else pure ()) s := by
  unfold takeRevert
  rw [run_getCtx_bind, if_pos ht.inCall, run_bind, run_slotEntry_holds ht]

/-- R155. -/
theorem run_takeChannelRefused {t : Handover} (ht : s.holds n e t) (h : Head) (ch : Chan) : takeChannelRefused n h ch s =
    (if t.phase = .commanded ∧ t.target = some h ∧ t.targetChan = some ch then failCounted e t .targetRefused
      else pure ()) s := by
  unfold takeChannelRefused
  rw [run_getCtx_bind, if_pos ht.inCall, run_bind, run_slotEntry_holds ht]

/-- R154, R155: without a transaction nothing fails. -/
theorem run_takeBody_free {body : HandsetMsg} (hb : body = .revert ∨ ∃ x, body = .channelRefused x)
    (hx : (s.ctx n).txn = none) (r : Bool) : takeBody n h r body s = .ok () s := by
  by_cases hc : (s.ctx n).state.inCall = true
  · rcases hb with rfl | ⟨x, rfl⟩
    · show takeRevert n h s = _
      unfold takeRevert
      rw [run_getCtx_bind, if_pos hc, run_bind, run_slotEntry_none hx]
      rfl
    · show takeChannelRefused n h x s = _
      unfold takeChannelRefused
      rw [run_getCtx_bind, if_pos hc, run_bind, run_slotEntry_none hx]
      rfl
  · exact run_takeBody_outside hb (by simpa using hc) r

theorem exec_failureMessage_free {body : HandsetMsg} (hb : body = .revert ∨ ∃ x, body = .channelRefused x)
    (hd : s.delivers h ident body n) (hc : ((s.heard n).ctx n).state ∉ [HandsetState.moving, .lost])
    (hx : ((s.heard n).ctx n).txn = none) : exec (commandOf body) s = s.endsMessage (s.heard n) := by
  have other : ∀ code, body ≠ .attach code := by rcases hb with rfl | ⟨x, rfl⟩ <;> intro _ <;> nofun
  refine exec_commandOf_delivered hd ?_
  by_cases hk : ((s.heard n).ctx n).state ∈ [HandsetState.vacant, .barred, .quarantined]
  · exact run_handleMessage_sighting other hk
  · rw [run_handleMessage_body other]
    · exact run_takeBody_free hb hx _
    · intro hm
      have cases_of : ∀ st ∈ [HandsetState.vacant, .barred, .quarantined, .lost],
        st ∈ [HandsetState.vacant, .barred, .quarantined] ∨ st ∈ [HandsetState.moving, .lost] := by decide
      exact (cases_of _ hm).elim hk hc

/-- A REVERT or a CHANNEL_REFUSED of a handset with an open transaction. -/
theorem exec_failureMessage {body : HandsetMsg} {t : Handover} {v : State} (hb : body = .revert ∨ ∃ x, body = .channelRefused x)
    (hd : s.delivers h ident body n) (ht : s.holds n e t) (hr : takeBody n h false body (s.heard n) = .ok () v) :
    exec (commandOf body) s = s.endsMessage v := by
  refine exec_commandOf_delivered hd ((run_handleMessage_body ?_ (HandsetState.of_inCall ht.heard.inCall)).trans hr)
  rcases hb with rfl | ⟨x, rfl⟩ <;> intro _ <;> nofun

/-- Settles O47. -/
theorem failuresAreCounted : Obligations.FailuresAreCounted := by
  have counted {u : State} {n : Slot} {e : EntryNo} {t : Handover} (hs : u.TablesRead) (ht : u.holds n e t) (r : FailReason) :
      failCounted e t r u = .ok () (u.failedAt n e t r.code) := by
    obtain ⟨-, -, -, rfl⟩ := id ht
    exact run_failCounted hs ht.inCall e r
  refine ⟨fun s x ident n hd => ⟨fun e t ht hp hsrc hs => ?_, fun e t ht hp => ?_,
    fun hc hx => exec_failureMessage_free (.inl rfl) hd hc hx⟩, fun s x ident n y hd => ⟨fun e t ht hp hh hy hs => ?_,
    fun e t ht hp => ?_, fun hc hx => exec_failureMessage_free (.inr ⟨y, rfl⟩) hd hc hx⟩,
    fun s n e t ho hr ht => ⟨fun hp hd hs => ?_, fun hp hd hs => ?_, fun hd => ?_⟩⟩
  · refine exec_failureMessage (.inl rfl) hd ht ((run_takeRevert ht.heard x).trans ?_)
    rw [if_pos ⟨hp, hsrc⟩]
    exact counted (hs.tablesRead.heard n) ht.heard .reverted
  · refine exec_failureMessage (.inl rfl) hd ht ((run_takeRevert ht.heard x).trans ?_)
    exact run_if_neg (not_and_or.mpr hp) ..
  · refine exec_failureMessage (.inr ⟨y, rfl⟩) hd ht ((run_takeChannelRefused ht.heard x y).trans ?_)
    rw [if_pos ⟨hp, hh, hy⟩]
    exact counted (hs.tablesRead.heard n) ht.heard .targetRefused
  · refine exec_failureMessage (.inr ⟨y, rfl⟩) hd ht ((run_takeChannelRefused ht.heard x y).trans ?_)
    exact run_if_neg (by rwa [not_and_or, not_and_or]) ..
  all_goals obtain ⟨-, -, entry, rfl⟩ := id ht
  · refine exec_running rfl ho ?_
    have run := run_phaseDeadline_passed hr entry hd fun t => failCounted e t .timeout
    rw [hp] at run
    exact run.trans (counted hs.tablesRead ht .timeout)
  · refine exec_running rfl ho ?_
    have run := run_phaseDeadline_passed hr entry hd fun t => failCounted e t .noChannel
    rw [hp] at run
    exact run.trans (counted hs.tablesRead ht .noChannel)
  · have held : s.txnOf e = some t := by
      unfold State.txnOf
      rw [entry]
    exact ⟨exec_running rfl ho (run_phaseDeadline_waits held hd ..), exec_running rfl ho (run_phaseDeadline_waits held hd ..)⟩

end Sys2Proof.Machine
end

section
/-! SUPPORT. PAGE, UNPIN and the fault requests; the deadlines of admission, presence, quality and handover. -/

namespace Sys2Proof.Machine

variable {s t : State} {n : Slot} {h : Head} {e : EntryNo}

/-! ### PAGE, UNPIN, CLEAR_FAULT_LIST and ACK_FATAL -/

theorem run_takePage_called (hc : (s.ctx n).state ∈ [HandsetState.active, .moving, .pinned]) :
    takePage n s = .ok () (s.emit .requestRefused .none n.val 0x21 1) := by
  unfold takePage
  rw [run_getCtx_bind]
  simp only [List.mem_cons, List.not_mem_nil, or_false] at hc
  rcases hc with hc | hc | hc <;> rw [hc] <;> rfl

theorem run_takePage_away (hc : (s.ctx n).state ∈ [HandsetState.provisioned, .barred, .quarantined, .queued, .offered]) :
    takePage n s = .ok () (s.emit .requestRefused .none n.val 0x21 2) := by
  unfold takePage
  rw [run_getCtx_bind]
  simp only [List.mem_cons, List.not_mem_nil, or_false] at hc
  rcases hc with hc | hc | hc | hc | hc <;> rw [hc] <;> rfl

theorem run_takeUnpin_pinned (hc : (s.ctx n).state = .pinned) : takeUnpin n s = .ok () (s.setCtx n { s.ctx n with
    state := .active, hoFail := 0, admissionHead := none, offerDeadline := none, txn := none }) := by
  have up : (s.ctx n).state.inCall = true := by rw [hc]; rfl
  unfold takeUnpin returnHandset
  rw [run_getCtx_bind, hc]
  dsimp only
  rw [run_enterWith, State.entered_calling _ n (by decide) rfl]
  unfold HandsetCtx.calling
  dsimp only
  rw [if_pos up, if_pos up]

theorem run_takeUnpin_unpinned (hc : (s.ctx n).state ∈ [HandsetState.active, .idle, .doze, .lost]) :
    takeUnpin n s = .ok () (s.emit .requestRefused .none n.val 0x24 5) := by
  unfold takeUnpin
  rw [run_getCtx_bind]
  simp only [List.mem_cons, List.not_mem_nil, or_false] at hc
  rcases hc with hc | hc | hc | hc <;> rw [hc] <;> rfl

theorem run_takeUnpin_away (hc : (s.ctx n).state ∈ [HandsetState.provisioned, .barred, .quarantined, .queued, .offered]) :
    takeUnpin n s = .ok () (s.emit .requestRefused .none n.val 0x24 2) := by
  unfold takeUnpin
  rw [run_getCtx_bind]
  simp only [List.mem_cons, List.not_mem_nil, or_false] at hc
  rcases hc with hc | hc | hc | hc | hc <;> rw [hc] <;> rfl

/-- Settles O50, by the state of the slot. -/
theorem pageUnpinAndFaultRequestsAct : Obligations.PageUnpinAndFaultRequestsAct := by
  refine ⟨fun s n hr => ?page, fun s n hr => ?unpin, fun s hr => ?clear, fun s hr => ?ack⟩
  case page =>
    intro c
    have runs {t : State} (hc : c.state ≠ .vacant) (ht : takePage n s = .ok () t) : exec .page s = s.endsRequest t :=
      exec_owned hr rfl hc ht
    refine ⟨fun hc => runs (by simp [hc]) ?_, fun hc => runs (by simp [hc]) ?_, fun hc => runs (by simp [hc]) ?_,
      fun hc => runs ((by decide : ∀ st ∈ [HandsetState.active, .moving, .pinned], st ≠ .vacant) _ hc) (run_takePage_called hc),
      fun hc => runs ((by decide : ∀ st ∈ [HandsetState.provisioned, .barred, .quarantined, .queued, .offered],
        st ≠ .vacant) _ hc) (run_takePage_away hc),
      fun hc => exec_commandFor hr (run_handleRequest_vacant rfl hc)⟩
    all_goals
      unfold takePage
      rw [run_getCtx_bind, show (s.ctx n).state = _ from hc]
      rfl
  case unpin =>
    intro c
    have runs {t : State} (hc : c.state ≠ .vacant) (ht : takeUnpin n s = .ok () t) : exec .unpin s = s.endsRequest t :=
      exec_owned hr rfl hc ht
    refine ⟨fun hc => runs (by simp [hc]) (run_takeUnpin_pinned hc), fun hc => runs (by simp [hc]) ?_,
      fun hc => runs ((by decide : ∀ st ∈ [HandsetState.active, .idle, .doze, .lost], st ≠ .vacant) _ hc)
        (run_takeUnpin_unpinned hc),
      fun hc => runs ((by decide : ∀ st ∈ [HandsetState.provisioned, .barred, .quarantined, .queued, .offered],
        st ≠ .vacant) _ hc) (run_takeUnpin_away hc),
      fun hc => exec_commandFor hr (run_handleRequest_vacant rfl hc)⟩
    unfold takeUnpin
    rw [run_getCtx_bind, show (s.ctx n).state = _ from hc]
    rfl
  case clear => exact exec_commandFor hr (run_handleRequest_noSlot rfl)
  case ack =>
    have acked : handleRequest .ackFatal s = (if s.fatalPending = true then
        modify fun s => { s with fatalPending := false } else refuseRequest .ackFatal .nothingPending : Act Unit) s :=
      run_handleRequest_noSlot rfl
    exact ⟨fun hp => exec_commandFor hr (acked.trans (run_if_pos hp ..)),
      fun hp => exec_commandFor hr (acked.trans (run_if_neg (by simp [hp]) ..))⟩

/-! ### The deadlines of admission -/

/-- The Attach Queue entry of a slot, where it stands in one queue alone. -/
theorem State.queuedAt.found {joined : Time} (hq : s.queuedAt n h joined) : s.queued? n = some (h, joined) := by
  obtain ⟨mem, only⟩ := hq
  have at_head (x : Head) : (((s.att x).queue.find? fun q => q.1 == n).map fun q => (x, q.2)) =
      if x = h then some (h, joined) else none := by
    cases hf : (s.att x).queue.find? fun q => q.1 == n with
    | none =>
      rw [if_neg]
      · rfl
      · rintro rfl
        simpa using List.find?_eq_none.mp hf _ mem
    | some q =>
      obtain ⟨rfl, rfl⟩ := only x q (List.mem_of_find?_eq_some hf) (by simpa using List.find?_some hf)
      rw [if_pos rfl]
      rfl
  have found : ∀ xs : List Head, h ∈ xs → xs.findSome? (fun x => if x = h then some (h, joined) else none) =
      some (h, joined) := by
    intro xs
    induction xs with
    | nil => exact nofun
    | cons x rest ih =>
      intro hm
      rw [List.findSome?_cons]
      by_cases hx : x = h
      · rw [if_pos hx]
      · rw [if_neg hx]
        exact ih ((List.mem_cons.mp hm).resolve_left (Ne.symm hx))
  unfold State.queued?
  simp only [at_head]
  exact found _ (List.mem_finRange h)

theorem run_offerTimeout {d : Time} (hr : s.readable n) (hc : (s.ctx n).state = .offered)
    (hd : (s.ctx n).offerDeadline = some d) (hp : passed d s.timeBase = true) : offerTimeout n s = .ok ()
      ((s.setCtx n ((s.ctx n).away .provisioned)).emit .attachTimeout .none n.val (headCode (s.ctx n).admissionHead) 0) := by
  unfold offerTimeout
  rw [run_get_bind, hd]
  dsimp only
  rw [run_if_pos hp, run_withSound hr.1 hr.2, run_enter_bind, State.entered_provisioned,
    HandsetCtx.left_of_outside (by rw [hc]; rfl)]
  rfl

theorem run_ageOut {joined : Time} (hr : s.readable n) (hc : (s.ctx n).state = .queued) (hq : s.queuedAt n h joined)
    (hp : passed (joined + 4000) s.timeBase = true) : ageOut n s = .ok ()
      (((s.unqueued n).setCtx n ((s.ctx n).away .provisioned)).reply .retryLater h (s.ctx n).identity n
        fun d => { d with backoff := 250 }) := by
  have left : (s.ctx n).left = s.ctx n := HandsetCtx.left_of_outside (by rw [hc]; rfl)
  have identity : (((s.unqueued n).setCtx n ((s.ctx n).away .provisioned)).ctx n).identity = (s.ctx n).identity := by
    rw [ctx_setCtx]
    rfl
  unfold ageOut
  rw [run_get_bind, hq.found]
  dsimp only
  rw [run_if_pos (show passed (joined + Config.ageLimit) s.timeBase = true from hp), run_withSound hr.1 hr.2,
    run_leaveAttachQueues_bind, run_enter_bind, State.entered_provisioned]
  show (getCtx n >>= _) ((s.unqueued n).setCtx n ((s.ctx n).left.away .provisioned)) = _
  rw [left, run_getCtx_bind, identity]
  rfl

/-- R74: one credit more, and the deadline of the next. -/
theorem AttachHead.regained_eq {a : AttachHead} (hc : a.credits < 4) (now : Time) : a.regained now =
    { a with credits := a.credits + 1, regain := if a.credits + 1 < 4 then some (now + 25) else none } := by
  unfold AttachHead.regained
  rw [if_pos (show a.credits < Config.maxCredits from hc)]
  rfl

theorem run_offerOldest_nil (hq : (s.att h).queue = []) (fuel : Nat) : offerOldest h fuel s = .ok () s := by
  cases fuel with
  | zero => rfl
  | succ fuel =>
    unfold offerOldest
    rw [run_getAtt_bind, hq]
    rfl

/-- R74: the oldest entry of an Attach Queue is offered, its context being sound. -/
theorem run_offerOldest {joined : Time} {rest : List (Slot × Time)} (hq : (s.att h).queue = (n, joined) :: rest)
    (hr : s.readable n) (fuel : Nat) : offerOldest h (fuel + 1) s =
      .ok () ((s.setAtt h { s.att h with queue := rest }).offers n h (s.ctx n).identity) := by
  show (getAtt h >>= _) s = _
  rw [run_getAtt_bind, hq]
  dsimp only
  rw [run_modAtt_bind, run_bind, run_contextSound (by exact hr.1) (by exact hr.2)]
  dsimp only
  rw [run_if_pos rfl]
  exact run_offer ..

theorem run_regainCredit {d : Time} (hd : (s.att h).regain = some d) : regainCredit h s =
    (if passed d s.timeBase then do
        modAtt h fun a => a.regained s.timeBase
        if (← getHead h).state.admits then offerOldest h Config.attachQueueSize
      else pure () : Act Unit) s := by
  unfold regainCredit
  rw [run_get_bind, run_getAtt_bind, hd]

/-- Settles O54. -/
theorem admissionDeadlinesPass : Obligations.AdmissionDeadlinesPass := by
  refine fun s ho => ⟨fun n d hr hc hd => ⟨fun hp => exec_running rfl ho (run_offerTimeout hr hc hd hp),
    fun hp => exec_running rfl ho ?early⟩, fun n h joined hr hc hq => ⟨fun hp => exec_running rfl ho (run_ageOut hr hc hq hp),
    fun hp => exec_running rfl ho ?young⟩, fun h d hd => ⟨fun hp => exec_running rfl ho ?waits, fun hp hlt => ?regains⟩⟩
  case early =>
    unfold offerTimeout
    rw [run_get_bind, hd]
    exact run_if_neg (by simp [hp]) ..
  case young =>
    unfold ageOut
    rw [run_get_bind, hq.found]
    exact run_if_neg (by rw [show Config.ageLimit = (4000 : Time) from rfl, hp]; decide) ..
  case waits =>
    rw [run_regainCredit hd]
    exact run_if_neg (by simp [hp]) ..
  case regains =>
    have regained : regainCredit h s = (if (s.head h).state.admits then offerOldest h 8 else pure () : Act Unit)
        (s.setAtt h { s.att h with
          credits := (s.att h).credits + 1
          regain := if (s.att h).credits + 1 < 4 then some (s.timeBase + 25) else none }) := by
      rw [run_regainCredit hd, run_if_pos hp, run_modAtt_bind, run_getHead_bind, AttachHead.regained_eq hlt]
      rfl
    refine ⟨fun hq => exec_running rfl ho (regained.trans ?_), fun n joined rest hq hin hr hc =>
      exec_running rfl ho (regained.trans ?_)⟩
    · rcases hq with hq | hq
      · split
        · exact run_offerOldest_nil (by rw [att_setAtt]; exact hq) 8
        · rfl
      · exact run_if_neg (mt (HeadState.admits_iff _).mp hq) ..
    · rw [run_if_pos ((HeadState.admits_iff _).mpr hin), run_offerOldest (n := n) (joined := joined) (rest := rest)
        (by rw [att_setAtt]; exact hq) (by exact hr) 7, att_setAtt, setAtt_setAtt]
      rfl

/-! ### The deadlines of presence and quality -/

theorem run_presenceDeadline_passed {d : Time} {modes : List PresenceMode} (hr : s.readable n)
    (hd : (s.ctx n).presence.deadline = some d) (hp : passed d s.timeBase = true) (hm : (s.ctx n).presence.mode ∈ modes)
    (work : Act Unit) : presenceDeadline n modes work s = work s := by
  unfold presenceDeadline
  dsimp only
  rw [run_get_bind, hd]
  dsimp only
  rw [run_if_pos (by simp [hp, hm]), run_withSound hr.1 hr.2]

theorem run_presenceDeadline_waits {d : Time} (hd : (s.ctx n).presence.deadline = some d) (hp : passed d s.timeBase = false)
    (modes : List PresenceMode) (work : Act Unit) : presenceDeadline n modes work s = .ok () s := by
  unfold presenceDeadline
  dsimp only
  rw [run_get_bind, hd]
  exact run_if_neg (by simp [hp]) ..

/-- R82: a call that is dropped leaves its handset LOST. -/
def State.droppedLost (s : State) (n : Slot) (cause : Nat) : State :=
  (s.dropped n cause).setCtx n ((s.ctx n).unstaged.settled .lost (s.ctx n).serving
    (windowOf .grace 120000 s.timeBase (s.ctx n).presence.missed))

theorem run_dropCall_lost {β : Type} (hs : s.TablesRead) (hc : (s.ctx n).state.inCall = true) (cause : DropCause)
    (g : Unit → Act β) : (dropCall n cause >>= fun _ => enter n .lost >>= g) s = g () (s.droppedLost n cause.code) := by
  have frame := SameButCalls.dropped s n cause.code
  have facts : (s.ctx n).unstaged.serving = (s.ctx n).serving ∧ (s.ctx n).unstaged.presence = (s.ctx n).presence := by
    rw [HandsetCtx.unstaged_eq]
    exact ⟨rfl, rfl⟩
  rw [run_bind, DropCause.run_dropCall hs]
  dsimp only
  rw [run_enter_bind, State.entered_lost, frame.ctx, frame.timeBase, HandsetCtx.left_of_inCall hc, facts.1, facts.2]
  rfl

theorem run_callPresenceExpired (hs : s.TablesRead) (hc : (s.ctx n).state.inCall = true) : callPresenceExpired n s =
    .ok () ((s.droppedLost n 4).emit .lost .none n.val (headCode (s.ctx n).serving) 4) := by
  unfold callPresenceExpired
  rw [run_dropCall_lost hs hc, run_getCtx_bind, run_note, State.droppedLost, ctx_setCtx]
  rfl

theorem run_graceExpired (hc : (s.ctx n).state = .lost) : graceExpired n s = .ok ()
    ((s.setCtx n ((s.ctx n).away .provisioned)).emit .lostExpired .none n.val (headCode (s.ctx n).serving) 0) := by
  unfold graceExpired
  dsimp only
  rw [run_getCtx_bind, run_enter_bind, State.entered_provisioned, HandsetCtx.left_of_outside (by rw [hc]; rfl), run_note]

theorem run_endHoldoff {d : Time} (hr : s.readable n) (hd : (s.ctx n).quality.holdoff = some d) : endHoldoff n s = .ok ()
    (if passed d s.timeBase then s.setCtx n { s.ctx n with quality := { (s.ctx n).quality with holdoff := none } } else s) := by
  unfold endHoldoff
  rw [run_get_bind, hd]
  by_cases hp : passed d s.timeBase = true
  · rw [if_pos hp]
    exact (run_if_pos hp ..).trans (run_withSound hr.1 hr.2 _)
  · rw [if_neg hp]
    exact run_if_neg hp ..

/-- Settles O55, by the mode of the presence context. -/
theorem presenceDeadlinesPass : Obligations.PresenceDeadlinesPass := by
  intro s n ho hr c p e dozes grouped
  refine ⟨fun d hd hp => ?_, fun d hd hp => ⟨fun hm hc => ?window, fun hm hc hs => ?call, fun hm hc => ?grace⟩,
    fun d hd => exec_running rfl ho (run_endHoldoff hr hd)⟩
  · exact ⟨exec_running rfl ho (run_presenceDeadline_waits hd hp ..), exec_running rfl ho (run_presenceDeadline_waits hd hp ..),
      exec_running rfl ho (run_presenceDeadline_waits hd hp ..)⟩
  case window =>
    have outside : c.state.inCall = false := (by decide : ∀ st ∈ [HandsetState.idle, .doze], st.inCall = false) _ hc
    have runs {t : State} (ht : expire n s = .ok () t) : exec (.windowDeadline n) s = s.ends t :=
      exec_running rfl ho ((run_presenceDeadline_passed hr hd hp hm _).trans ht)
    refine ⟨fun hmiss => runs (run_expire_lost outside hmiss), fun hmiss hdz => ?restarts, fun hmiss hdoze hno =>
      runs ((run_expire_left hdoze hmiss hno).trans ?_)⟩
    case restarts =>
      simp only [List.mem_cons, List.not_mem_nil, or_false] at hc
      rcases hc with hc | hc
      · rw [if_pos hc]
        exact runs (run_expire_idle (by rw [show (s.ctx n).state = _ from hc]; decide) hmiss)
      · have awake : ¬ c.state = .idle := by rw [hc]; decide
        rw [if_neg awake]
        exact runs (run_expire_doze hc hmiss (hdz.resolve_left awake))
    · rw [State.dozeRefused_setCtx]
      simp only [State.terms, emit_params, tell_params]
      rfl
  case call =>
    refine exec_running rfl ho ((run_presenceDeadline_passed hr hd hp ?_ _).trans (run_callPresenceExpired hs.tablesRead hc))
    rw [show (s.ctx n).presence.mode = _ from hm]
    decide
  case grace =>
    refine exec_running rfl ho ((run_presenceDeadline_passed hr hd hp ?_ _).trans (run_graceExpired hc))
    rw [show (s.ctx n).presence.mode = _ from hm]
    decide

/-! ### The deadlines of handover -/

/-- R157: the end of a media hold. -/
theorem run_endHold {t : Handover} (hs : s.TablesRead) (detail : MediaEnd) (media : Option Head) :
    endHold e t detail media s = .ok () (s.holdEnded e t media detail.code) := by
  have called : ({ s.ctx t.slot with media := media, hoFail := 0 } : HandsetCtx).calling .active s.timeBase =
      { (s.ctx t.slot).calling .active s.timeBase with media := media, hoFail := 0 } := rfl
  unfold endHold State.holdEnded
  rw [run_freeEntry_bind, run_enterWith_bind, State.entered_calling _ _ (by decide) rfl, run_bind, Handover.channels_eq]
  rw [show (s.setEntry e .empty).timeBase = s.timeBase from rfl, ctx_setEntry, called,
    run_releaseAll _ _ ((hs.setEntry e rfl).setCtx ..)]
  rfl

/-- Settles O56. -/
theorem handoverDeadlinesPass : Obligations.HandoverDeadlinesPass := by
  intro s n e t ho hr ht c
  obtain ⟨-, -, entry, rfl⟩ := id ht
  have held : s.txnOf e = some t := by
    unfold State.txnOf
    rw [entry]
  refine ⟨fun hp hd hs => exec_running rfl ho ?hold, fun hp hd hs => exec_running rfl ho ?orphan, fun hd =>
    ⟨exec_running rfl ho (run_phaseDeadline_waits held hd ..), exec_running rfl ho (run_phaseDeadline_waits held hd ..)⟩⟩
  case hold =>
    have run := run_phaseDeadline_passed hr entry hd fun t => do endHold e t .late (← getCtx t.slot).serving
    rw [hp] at run
    refine run.trans ?_
    rw [run_getCtx_bind]
    exact run_endHold hs.tablesRead .late _
  case orphan =>
    have run := run_phaseDeadline_passed hr entry hd fun t => do
      dropCall t.slot .orphanTimeout
      enter t.slot .lost
    rw [hp] at run
    exact run.trans (run_dropCall_lost (g := pure) hs.tablesRead ht.inCall .orphanTimeout)

end Sys2Proof.Machine
end

section
/-! SUPPORT. HEAD_STATUS, drains and restores, and the failure of a head. -/

namespace Sys2Proof.Machine

variable {s t u : State} {n : Slot} {h : Head} {e : EntryNo}

/-! ### States whose contexts, pools and entries all read without fault -/

theorem State.undamaged.of_sameButCalls (hs : s.undamaged) (hf : SameButCalls s t) (ht : t.TablesRead) : t.undamaged where
  contexts n := ⟨(hf.rebuilding n).trans (hs.contexts n).1, (congrArg HandsetCtx.ctxParityBad (hf.ctx n)).trans (hs.contexts n).2⟩
  pools := ht.pools
  entries := ht.entries

theorem State.undamaged.setCtx (hs : s.undamaged) (n : Slot) {c : HandsetCtx} (hc : c.ctxParityBad = false) :
    (s.setCtx n c).undamaged where
  contexts m := by
    refine ⟨(hs.contexts m).1, ?_⟩
    by_cases hm : m = n
    · rw [hm, ctx_setCtx, hc]
    · rw [ctx_setCtx_ne _ _ hm]
      exact (hs.contexts m).2
  pools := hs.pools
  entries := hs.entries

theorem State.undamaged.setAtt (hs : s.undamaged) (h : Head) (a : AttachHead) : (s.setAtt h a).undamaged :=
  ⟨hs.contexts, hs.pools, hs.entries⟩

theorem State.undamaged.setHead (hs : s.undamaged) (h : Head) {c : HeadCtx} (hc : c.poolParityBad = false) :
    (s.setHead h c).undamaged := hs.of_sameButCalls (.setHead ..) (hs.tablesRead.setHead h hc)

theorem State.undamaged.setEntry (hs : s.undamaged) (e : EntryNo) {x : TableEntry} (hx : x.parityBad = false) :
    (s.setEntry e x).undamaged := hs.of_sameButCalls (.setEntry ..) (hs.tablesRead.setEntry e hx)

theorem State.undamaged.emit (hs : s.undamaged) (k : EventKind) (v : Severity) (a b d : Nat) : (s.emit k v a b d).undamaged :=
  hs.of_sameButCalls (.emit ..) (hs.tablesRead.emit ..)

theorem State.undamaged.takeDirective (hs : s.undamaged) (d : Directive) : (s.takeDirective d).undamaged :=
  hs.of_sameButCalls (.takeDirective ..) (hs.tablesRead.takeDirective d)

theorem HandsetCtx.left_ctxParityBad (c : HandsetCtx) : c.left.ctxParityBad = c.ctxParityBad := by
  obtain ⟨_, _, _, _, _, e⟩ := HandsetCtx.left_frame c
  rw [e]

/-! ### Work on each item of a list -/

/-- Work on each item of a list, each of which answers a next state and keeps what the next one needs. -/
theorem run_forEach_foldl {α : Type} {P : State → Prop} {f : α → Act Unit} {g : State → α → State}
    (step : ∀ u x, P u → f x u = .ok () (g u x) ∧ P (g u x)) (xs : List α) (hs : P s) :
    forEach xs f s = .ok () (xs.foldl g s) ∧ P (xs.foldl g s) := by
  induction xs generalizing s with
  | nil => exact ⟨rfl, hs⟩
  | cons x rest ih =>
    obtain ⟨run, kept⟩ := step s x hs
    obtain ⟨runs, keeps⟩ := ih kept
    refine ⟨?_, keeps⟩
    show (f x >>= fun _ => forEach rest f) s = _
    rw [run_bind, run]
    exact runs

theorem foldl_head {α : Type} {g : State → α → State} (hg : ∀ u y, (g u y).head h = u.head h) (xs : List α) (s : State) :
    (xs.foldl g s).head h = s.head h := by
  induction xs generalizing s with
  | nil => rfl
  | cons y rest ih => exact (ih _).trans (hg s y)

/-! ### Closures that do not count -/

theorem closed_head (s : State) (reason : Nat) (e : EntryNo) (x : Head) : (s.closed reason e).head x = s.head x := by
  unfold State.closed
  cases (s.entry e).txn with
  | none => rfl
  | some t => simp

theorem State.undamaged.closed (hs : s.undamaged) (reason : Nat) (e : EntryNo) : (s.closed reason e).undamaged := by
  unfold State.closed
  cases (s.entry e).txn with
  | none => exact hs
  | some t => exact ((hs.setEntry e rfl).setCtx t.slot (by exact (hs.contexts t.slot).2)).emit ..

theorem Origin.state_mem (o : Origin) : o.state ∈ [HandsetState.active, .pinned] := by cases o <;> decide

/-- R162: a closure in a sweep. -/
theorem run_withTxn_closeUncounted (hs : s.undamaged) (e : EntryNo) (reason : FailReason) :
    withTxn e (fun _ => closeUncounted e reason) s = .ok () (s.closed reason.code e) := by
  unfold withTxn State.closed
  rw [run_get_bind]
  cases ht : (s.entry e).txn with
  | none =>
    rw [show s.txnOf e = none from ht]
    rfl
  | some t =>
    rw [show s.txnOf e = some t from ht]
    dsimp only
    rw [run_withSound (hs.contexts t.slot).1 (hs.contexts t.slot).2]
    unfold closeUncounted
    rw [run_bind, run_useEntry (hs.entries e)]
    dsimp only
    rw [run_get_bind, show s.txnOf e = some t from ht]
    dsimp only
    rw [run_freeEntry_bind, run_enter_bind, State.entered_calling _ _ t.origin.state_mem rfl]
    rfl

theorem run_closures (hs : s.undamaged) (reason : FailReason) (es : List EntryNo) :
    forEach es (fun e => withTxn e fun _ => closeUncounted e reason) s =
      .ok () (es.foldl (fun u e => u.closed reason.code e) s) ∧ (es.foldl (fun u e => u.closed reason.code e) s).undamaged :=
  run_forEach_foldl (fun _ e hu => ⟨run_withTxn_closeUncounted hu e reason, hu.closed ..⟩) es hs

theorem unwaited_head (s : State) (h x : Head) : (s.unwaited h).head x = s.head x := foldl_head (fun u e => closed_head u 6 e x) _ s

theorem State.undamaged.unwaited (hs : s.undamaged) (h : Head) : (s.unwaited h).undamaged :=
  (run_closures hs .targetUnavailable _).2

/-- R131. -/
theorem run_closeReserving (hs : s.undamaged) (h : Head) : closeReserving h s = .ok () (s.unwaited h) :=
  (run_closures hs .targetUnavailable _).1

/-! ### Attach Queues -/

/-- R79: the slots of an emptied Attach Queue, one after the other. -/
theorem run_emptyQueue (hs : s.undamaged) (h : Head) (reselect : Bool) :
    emptyQueue h reselect s = .ok () (s.emptied h reselect) ∧ (s.emptied h reselect).undamaged := by
  unfold emptyQueue State.emptied
  rw [run_getAtt_bind, run_modAtt_bind]
  refine run_forEach_foldl (P := State.undamaged) (fun u q hu => ?_) (s.att h).queue (hs.setAtt h _)
  have moved : (u.setCtx q.1 ((u.ctx q.1).left.away .provisioned)).undamaged := hu.setCtx q.1
    ((HandsetCtx.left_ctxParityBad _).trans (hu.contexts q.1).2)
  rw [run_withSound (hu.contexts q.1).1 (hu.contexts q.1).2, run_enter_bind, State.entered_provisioned]
  cases reselect with
  | false => exact ⟨rfl, moved⟩
  | true => exact ⟨rfl, moved.takeDirective _⟩

theorem emptied_head (s : State) (h : Head) (reselect : Bool) (x : Head) : (s.emptied h reselect).head x = s.head x := by
  refine (foldl_head (fun u q => ?_) _ _).trans (head_setAtt ..)
  dsimp only
  split <;> simp

/-- R74: the offer to the slot at the front of an Attach Queue. -/
def State.offersNext (s : State) (h : Head) (q : Slot × Time) : State :=
  (s.setAtt h { s.att h with queue := (s.att h).queue.tail }).offers q.1 h (s.ctx q.1).identity

theorem offersNext_att (s : State) (h : Head) (q : Slot × Time) : (s.offersNext h q).att h = { s.att h with
    credits := (s.att h).credits - 1, queue := (s.att h).queue.tail
    regain := some ((s.att h).regain.getD (s.timeBase + 25)) } := by
  unfold State.offersNext State.offers State.reply
  dsimp only
  rw [att_takeDirective, att_setCtx, att_setAtt, att_setAtt]
  rfl

theorem offersNext_head (s : State) (h : Head) (q : Slot × Time) (x : Head) : (s.offersNext h q).head x = s.head x := by
  unfold State.offersNext State.offers State.reply
  dsimp only
  rw [head_takeDirective]
  rfl

theorem State.undamaged.offersNext (hs : s.undamaged) (h : Head) (q : Slot × Time) : (s.offersNext h q).undamaged := by
  unfold State.offersNext State.offers State.reply
  refine State.undamaged.takeDirective (State.undamaged.setCtx ((hs.setAtt ..).setAtt ..) q.1 ?_) _
  exact (HandsetCtx.left_ctxParityBad _).trans (hs.contexts q.1).2

/-- R74: the oldest entries of an Attach Queue are offered while there are credits. -/
theorem run_serveQueue (fuel : Nat) (hs : s.undamaged) (hf : (s.att h).credits ≤ fuel) : serveQueue h fuel s =
    .ok () (((s.att h).queue.take (s.att h).credits).foldl (fun u q => u.offersNext h q) s) := by
  induction fuel generalizing s with
  | zero => rw [Nat.le_zero.mp hf]; rfl
  | succ fuel ih =>
    show (getAtt h >>= _) s = _
    rw [run_getAtt_bind]
    by_cases hc : 0 < (s.att h).credits ∧ (s.att h).queue ≠ []
    · obtain ⟨some_credit, waiting⟩ := hc
      obtain ⟨⟨n, joined⟩, rest, hq⟩ := List.exists_cons_of_ne_nil waiting
      have att := offersNext_att s h (n, joined)
      have next : offerOldest h (s.att h).queue.length s = .ok () (s.offersNext h (n, joined)) := by
        rw [hq, List.length_cons, run_offerOldest hq (hs.contexts n), State.offersNext, hq]
        rfl
      have kept : (s.offersNext h (n, joined)).undamaged := hs.offersNext ..
      rw [run_if_pos ⟨some_credit, waiting⟩, run_bind, next]
      dsimp only
      rw [ih kept (by rw [att]; exact Nat.sub_le_of_le_add hf), att, hq]
      obtain ⟨k, hk⟩ : ∃ k, (s.att h).credits = k + 1 := ⟨_, (Nat.succ_pred_eq_of_pos some_credit).symm⟩
      rw [hk]
      rfl
    · refine (run_if_neg hc ..).trans ?_
      rcases not_and_or.mp hc with hz | hz
      · rw [Nat.eq_zero_of_not_pos hz]
        rfl
      · rw [not_not.mp hz, List.take_nil]
        rfl

theorem refilled_eq (s : State) (h : Head) : s.refilled h =
    ((s.att h).queue.take 4).foldl (fun u q => u.offersNext h q) (s.setAtt h { s.att h with credits := 4, regain := none }) := rfl

theorem run_refillCredits (hs : s.undamaged) (h : Head) : refillCredits h s = .ok () (s.refilled h) := by
  unfold refillCredits
  rw [run_modAtt_bind, refilled_eq]
  refine (run_serveQueue Config.attachQueueSize (hs.setAtt ..) ?_).trans ?_
  · rw [att_setAtt]
    exact (by decide : Config.maxCredits ≤ Config.attachQueueSize)
  · rw [att_setAtt]
    rfl

theorem refilled_head (s : State) (h x : Head) : (s.refilled h).head x = s.head x :=
  (foldl_head (fun u q => offersNext_head u h q x) _ _).trans (head_setAtt ..)

theorem State.undamaged.refilled (hs : s.undamaged) (h : Head) : (s.refilled h).undamaged := by
  rw [refilled_eq]
  generalize (s.att h).queue.take 4 = qs
  have from_start := hs.setAtt h { s.att h with credits := 4, regain := none }
  generalize s.setAtt h { s.att h with credits := 4, regain := none } = u at from_start
  induction qs generalizing u with
  | nil => exact from_start
  | cons q rest ih => exact ih _ (from_start.offersNext h q)

/-! ### Changes of head state -/

theorem run_enterInService (hs : s.undamaged) (h : Head) (l : Option Time) : enterInService h l s =
    .ok () ((s.setHead h { s.head h with liveness := l }).inService h (s.head h).state.code) := by
  unfold enterInService State.inService
  rw [run_getHead_bind, run_modHead_bind, run_note_bind, head_setHead, setHead_setHead]
  exact run_refillCredits ((hs.setHead h (by exact hs.pools h)).emit ..) h

theorem inService_head (s : State) (h : Head) (left : Nat) : (s.inService h left).head h = { s.head h with state := .inService } := by
  unfold State.inService
  rw [refilled_head, head_emit, head_setHead]

theorem State.undamaged.inService (hs : s.undamaged) (h : Head) (left : Nat) : (s.inService h left).undamaged :=
  ((hs.setHead h (by exact hs.pools h)).emit ..).refilled h

theorem run_enterDegraded (hs : s.undamaged) (h : Head) : enterDegraded h s = .ok () (s.degraded h (s.head h).state.code) := by
  unfold enterDegraded State.degraded
  rw [run_bind, run_usePool (hs.pools h)]
  dsimp only
  rw [run_getHead_bind, run_modHead_bind, run_note_bind]
  exact run_closeReserving ((hs.setHead h (by exact hs.pools h)).emit ..) h

/-! ### HEAD_STATUS -/

/-- R48: a HEAD_STATUS at the front of its queue is taken and leaves it. -/
theorem exec_headStatus {w : Bool} (ho : s.op = .running) (hq : s.uplink.head? = some (.headStatus h w))
    (hw : s.uplinkWaits = false) (ht : takeHeadStatus h w s = .ok () t) : exec .headStatus s = s.endsMessage t := by
  rw [exec_work (c := .headStatus) rfl]
  refine perform_ok ?_
  unfold dispatchUplink
  rw [run_whenRunning ho, run_get_bind]
  cases hu : s.uplink with
  | nil =>
    rw [hu] at hq
    cases hq
  | cons m rest =>
    rw [hu] at hq
    cases hq
    dsimp only
    rw [run_if_pos ⟨rfl, by simp [hw]⟩]
    unfold takeUplink
    simp only [run_bind, ht]
    rfl

/-- R126: the head with the status time and the warning of a HEAD_STATUS. -/
def HeadCtx.reported (x : HeadCtx) (now : Time) (w : Bool) : HeadCtx := { x with lastStatus := now, warning := w }

/-- R126: what a HEAD_STATUS does after its fields are set, by the state of the head. -/
theorem run_takeHeadStatus (w : Bool) : takeHeadStatus h w s = (match (s.head h).state with
    | .absent => if 1 ≤ (s.head h).capacity then comeUp h w else pure ()
    | .failed => comeUp h w
    | .inService => do
      refreshLiveness h
      if w then enterDegraded h
    | .degraded => do
      refreshLiveness h
      if !w then enterInService h (← getHead h).liveness
    | .draining => refreshLiveness h
    | .outOfService => pure () : Act Unit) (s.setHead h ((s.head h).reported s.timeBase w)) := by
  unfold takeHeadStatus
  rw [run_get_bind, run_modHead_bind, run_getHead_bind, head_setHead]
  rfl

/-- R126: a head comes up, and goes on to DEGRADED when it warns. -/
theorem run_comeUp (hs : s.undamaged) (h : Head) (w : Bool) : comeUp h w s = .ok ()
    (let up := (s.setHead h { s.head h with liveness := some (s.timeBase + 3000) }).inService h (s.head h).state.code
      if w = true then up.degraded h 1 else up) := by
  have live := hs.setHead h (c := { s.head h with liveness := some (s.timeBase + 3000) }) (by exact hs.pools h)
  unfold comeUp
  rw [run_get_bind, run_bind, run_enterInService hs]
  cases w with
  | false => rfl
  | true =>
    refine (run_if_pos rfl ..).trans ((run_enterDegraded (live.inService h _) h).trans ?_)
    rw [inService_head]
    rfl

theorem run_refreshLiveness_bind {β : Type} (s : State) (h : Head) (g : Unit → Act β) : (refreshLiveness h >>= g) s =
    g () (s.setHead h { s.head h with liveness := some (s.timeBase + 3000) }) := rfl

/-- A head that comes into service with the deadline it has. -/
theorem run_enterInService_same (hs : s.undamaged) (h : Head) : enterInService h (s.head h).liveness s =
    .ok () (s.inService h (s.head h).state.code) := by
  rw [run_enterInService hs]
  exact congrArg (fun v : State => EStateM.Result.ok () (v.inService h _)) (setHead_self s h)

/-- R126: the head of a HEAD_STATUS, its liveness deadline refreshed. -/
def State.alive (s : State) (h : Head) (w : Bool) : State :=
  s.setHead h { (s.head h).reported s.timeBase w with liveness := some (s.timeBase + 3000) }

theorem State.undamaged.reported (hs : s.undamaged) (h : Head) (w : Bool) :
    (s.setHead h ((s.head h).reported s.timeBase w)).undamaged := hs.setHead h (by exact hs.pools h)

theorem State.undamaged.alive (hs : s.undamaged) (h : Head) (w : Bool) : (s.alive h w).undamaged :=
  hs.setHead h (by exact hs.pools h)

theorem alive_eq (s : State) (h : Head) (w : Bool) :
    (s.setHead h ((s.head h).reported s.timeBase w)).setHead h
      { (s.setHead h ((s.head h).reported s.timeBase w)).head h with liveness := some (s.timeBase + 3000) } = s.alive h w := by
  rw [head_setHead, setHead_setHead]
  rfl

theorem alive_state (s : State) (h : Head) (w : Bool) : ((s.alive h w).head h).state = (s.head h).state := by
  unfold State.alive
  rw [head_setHead]
  rfl

theorem run_comeUp_reported (hs : s.undamaged) (h : Head) (w : Bool) :
    comeUp h w (s.setHead h ((s.head h).reported s.timeBase w)) = .ok ()
      (if w = true then ((s.alive h w).inService h (s.head h).state.code).degraded h 1
        else (s.alive h w).inService h (s.head h).state.code) := by
  rw [run_comeUp (hs.reported h w), show (s.setHead h ((s.head h).reported s.timeBase w)).timeBase = s.timeBase from rfl,
    alive_eq, head_setHead]
  rfl

theorem run_takeHeadStatus_comes (hs : s.undamaged) (w : Bool)
    (hc : (s.head h).state = .absent ∧ 1 ≤ (s.head h).capacity ∨ (s.head h).state = .failed) : takeHeadStatus h w s = .ok ()
      (if w = true then ((s.alive h w).inService h (s.head h).state.code).degraded h 1
        else (s.alive h w).inService h (s.head h).state.code) := by
  have up := run_comeUp_reported hs h w
  rw [run_takeHeadStatus]
  rcases hc with ⟨hst, hcap⟩ | hst
  · rw [hst] at up ⊢
    dsimp only
    rw [run_if_pos hcap, up]
  · rw [hst] at up ⊢
    exact up

theorem run_takeHeadStatus_unused (w : Bool)
    (hc : (s.head h).state = .outOfService ∨ (s.head h).state = .absent ∧ (s.head h).capacity = 0) :
    takeHeadStatus h w s = .ok () (s.setHead h ((s.head h).reported s.timeBase w)) := by
  rw [run_takeHeadStatus]
  rcases hc with hst | ⟨hst, hcap⟩
  · rw [hst]
    rfl
  · rw [hst]
    exact run_if_neg (by omega) ..

theorem run_takeHeadStatus_refreshes {w : Bool} (hc : (s.head h).state = .draining ∨ (s.head h).state = .inService ∧ w = false ∨
    (s.head h).state = .degraded ∧ w = true) : takeHeadStatus h w s = .ok () (s.alive h w) := by
  rw [run_takeHeadStatus, ← alive_eq]
  rcases hc with hst | ⟨hst, rfl⟩ | ⟨hst, rfl⟩ <;> rw [hst] <;> rfl

theorem run_takeHeadStatus_recovers (hs : s.undamaged) (hst : (s.head h).state = .degraded) :
    takeHeadStatus h false s = .ok () ((s.alive h false).inService h 2) := by
  have run := run_enterInService_same (hs.alive h false) h
  rw [alive_state, hst, ← alive_eq] at run
  rw [run_takeHeadStatus, hst, ← alive_eq]
  exact run

theorem run_takeHeadStatus_degrades (hs : s.undamaged) (hst : (s.head h).state = .inService) :
    takeHeadStatus h true s = .ok () ((s.alive h true).degraded h 1) := by
  have run := run_enterDegraded (hs.alive h true) h
  rw [alive_state, hst, ← alive_eq] at run
  rw [run_takeHeadStatus, hst, ← alive_eq]
  exact run

/-- Settles O51, by the state of the head. -/
theorem headStatusIsTaken : Obligations.HeadStatusIsTaken := by
  intro s h w ho hq hw hs x b live
  have runs {t : State} (ht : takeHeadStatus h w s = .ok () t) : exec .headStatus s = s.endsMessage t :=
    exec_headStatus ho hq hw ht
  refine ⟨fun hc => runs (run_takeHeadStatus_unused w hc), fun hc => runs (run_takeHeadStatus_refreshes hc),
    fun hc => ?comes, fun hst hwf => ?recovers, fun hst hwt => ?degrades⟩
  case comes =>
    have up := run_takeHeadStatus_comes hs w hc
    exact ⟨fun hwf => runs (up.trans (by rw [if_neg (by simp [hwf])]; rfl)), fun hwt => runs (up.trans (by rw [if_pos hwt]; rfl))⟩
  case recovers =>
    subst hwf
    exact runs (run_takeHeadStatus_recovers hs hst)
  case degrades =>
    subst hwt
    exact runs (run_takeHeadStatus_degrades hs hst)

/-! ### DRAIN_HEAD and RESTORE_HEAD -/

theorem run_startDrain (hs : s.undamaged) (h : Head) :
    let a := ((s.setHead h { s.head h with state := .draining, waitQ := [] }).unwaited h).emptied h true
    startDrain h s = .ok () (if (s.head h).inUse = 0 then a.drained h else a) := by
  have draining := hs.setHead h (c := { s.head h with state := .draining, waitQ := [] }) (by exact hs.pools h)
  have unwaited := draining.unwaited h
  obtain ⟨run, emptied⟩ := run_emptyQueue unwaited h true
  intro a
  have head : a.head h = { s.head h with state := .draining, waitQ := [] } := by
    rw [emptied_head, unwaited_head, head_setHead]
  unfold startDrain
  rw [run_modHead_bind, run_bind, show (s.head h).ineligible .draining = { s.head h with state := .draining, waitQ := [] } from rfl,
    run_closeReserving draining]
  dsimp only
  rw [run_bind, run]
  dsimp only
  rw [run_bind, run_usePool (emptied.pools h)]
  dsimp only
  rw [run_judgeDrain, head]
  refine congrArg (EStateM.Result.ok ()) ?_
  by_cases hz : (s.head h).inUse = 0
  · rw [if_pos hz]
    exact if_pos ⟨rfl, hz⟩
  · rw [if_neg hz]
    exact if_neg fun x => hz x.2

theorem run_restoreDraining (hs : s.undamaged) (h : Head) : restoreDraining h s = .ok ()
    (if (s.head h).warning = true then (s.inService h (s.head h).state.code).degraded h 1
      else s.inService h (s.head h).state.code) := by
  unfold restoreDraining
  rw [run_getHead_bind, run_bind, run_enterInService_same hs]
  dsimp only
  rw [run_getHead_bind, inService_head]
  by_cases hw : (s.head h).warning = true
  · rw [if_pos hw, if_pos hw, run_enterDegraded (hs.inService h _), inService_head]
    rfl
  · rw [if_neg hw, if_neg hw]
    rfl

/-- Settles O52, by the state of the head. -/
theorem headsDrainAndRestore : Obligations.HeadsDrainAndRestore := by
  refine ⟨fun s h hr hs => ?drain, fun s h hr hs => ?restore⟩
  case drain =>
    intro x
    have runs {t : State} (ht : takeDrainHead h s = .ok () t) : exec .drainHead s = s.endsRequest t :=
      exec_commandFor hr ((run_handleRequest_noSlot rfl).trans ht)
    refine ⟨fun hc => ?_, fun hst hz => runs ?_, fun hc => runs ?_⟩
    · intro a
      have drains : takeDrainHead h s = .ok () (if x.inUse = 0 then a.drained h else a) := by
        unfold takeDrainHead
        rw [run_getHead_bind]
        simp only [List.mem_cons, List.not_mem_nil, or_false] at hc
        rcases hc with hc | hc <;> rw [show (s.head h).state = _ from hc] <;> exact run_startDrain hs h
      exact ⟨fun hpos => runs (drains.trans (by rw [if_neg (Nat.ne_of_gt hpos)])),
        fun hz => runs (drains.trans (by rw [if_pos hz]))⟩
    · unfold takeDrainHead
      rw [run_getHead_bind, show (s.head h).state = _ from hst]
      dsimp only
      rw [if_pos hz]
      rfl
    · unfold takeDrainHead
      rw [run_getHead_bind]
      rcases hc with hc | ⟨hst, hcap⟩
      · simp only [List.mem_cons, List.not_mem_nil, or_false] at hc
        rcases hc with hc | hc | hc <;> rw [show (s.head h).state = _ from hc] <;> rfl
      · rw [show (s.head h).state = _ from hst]
        dsimp only
        rw [if_neg hcap]
        rfl
  case restore =>
    intro x
    have runs {t : State} (ht : takeRestoreHead h s = .ok () t) : exec .restoreHead s = s.endsRequest t :=
      exec_commandFor hr ((run_handleRequest_noSlot rfl).trans ht)
    have restores (hst : x.state = .draining) : takeRestoreHead h s =
        .ok () (if x.warning = true then (s.inService h 3).degraded h 1 else s.inService h 3) := by
      have run := run_restoreDraining hs h
      rw [show (s.head h).state = _ from hst] at run
      unfold takeRestoreHead
      rw [run_getHead_bind, show (s.head h).state = _ from hst]
      exact run
    refine ⟨fun hst => runs ?_, fun hst hw => runs ((restores hst).trans (by rw [if_neg (by simp [hw])])),
      fun hst hw => runs ((restores hst).trans (by rw [if_pos hw])), fun hst hz => runs ?_, fun hc => runs ?_⟩
    · unfold takeRestoreHead restoreAbsent
      rw [run_getHead_bind, show (s.head h).state = _ from hst]
      dsimp only
      rw [run_modHead, HeadCtx.applyStaged_eq]
    · unfold takeRestoreHead
      rw [run_getHead_bind, show (s.head h).state = _ from hst]
      dsimp only
      rw [if_pos hz]
      rfl
    · unfold takeRestoreHead
      rw [run_getHead_bind]
      rcases hc with hc | ⟨hst, hcap⟩
      · simp only [List.mem_cons, List.not_mem_nil, or_false] at hc
        rcases hc with hc | hc | hc <;> rw [show (s.head h).state = _ from hc] <;> rfl
      · rw [show (s.head h).state = _ from hst]
        dsimp only
        rw [if_neg hcap]
        rfl

/-! ### The failure of a head -/

theorem run_declareFailed (hs : s.undamaged) (h : Head) : declareFailed h s = .ok () (s.declaredFailed h) := by
  unfold declareFailed State.declaredFailed HeadCtx.fail
  rw [run_bind, run_usePool (hs.pools h)]
  dsimp only
  rw [run_getHead_bind, run_modHead_bind, HeadCtx.applyStaged_eq, HeadCtx.allocated_eq]
  by_cases hf : (s.head h).failures < 3
  · rw [if_pos hf, if_pos hf, if_pos hf]
    rfl
  · rw [if_neg hf, if_neg hf, if_neg hf]
    rfl

theorem State.undamaged.declaredFailed (hs : s.undamaged) (h : Head) : (s.declaredFailed h).undamaged := by
  unfold State.declaredFailed
  dsimp only
  split
  · exact (hs.setHead h (by exact hs.pools h)).emit ..
  · refine State.undamaged.emit (State.undamaged.setHead hs h ?_) ..
    exact (HeadCtx.unstaged_poolParityBad { s.head h with liveness := none, pool := emptyPool, waitQ := [] }).trans (hs.pools h)

theorem HandsetCtx.unstaged_ctxParityBad (c : HandsetCtx) : c.unstaged.ctxParityBad = c.ctxParityBad := by
  rw [HandsetCtx.unstaged_eq]

theorem State.undamaged.holdEnded {t : Handover} (hs : s.undamaged) (e : EntryNo) (media : Option Head) (detail : Nat) :
    (s.holdEnded e t media detail).undamaged := by
  have called : ((s.setEntry e .empty).setCtx t.slot
      { (s.ctx t.slot).calling .active s.timeBase with media := media, hoFail := 0 }).undamaged :=
    (hs.setEntry e rfl).setCtx t.slot (by exact (hs.contexts t.slot).2)
  exact (called.of_sameButCalls (.releasedAll ..) (called.tablesRead.releasedAll ..)).emit ..

/-- R160: the end of the media hold of a table entry whose source has failed. -/
def State.holdFails (s : State) (e : EntryNo) : State :=
  match (s.entry e).txn with
  | none => s
  | some t => s.holdEnded e t (s.ctx t.slot).media 3

theorem run_holdFails (hs : s.undamaged) (e : EntryNo) : (withTxn e fun t => do
      useEntry e
      endHold e t .sourceFailed (← getCtx t.slot).media : Act Unit) s = .ok () (s.holdFails e) ∧
    (s.holdFails e).undamaged := by
  unfold withTxn State.holdFails
  rw [run_get_bind]
  cases ht : (s.entry e).txn with
  | none =>
    rw [show s.txnOf e = none from ht]
    exact ⟨rfl, hs⟩
  | some t =>
    rw [show s.txnOf e = some t from ht]
    dsimp only
    rw [run_withSound (hs.contexts t.slot).1 (hs.contexts t.slot).2, run_bind, run_useEntry (hs.entries e)]
    dsimp only
    rw [run_getCtx_bind]
    exact ⟨run_endHold hs.tablesRead .sourceFailed _, hs.holdEnded ..⟩

/-- R129, R130: the transactions of a failed head. -/
def State.closedForFailure (s : State) (h : Head) : State :=
  (s.txnsWhere fun t => t.source == h && t.phase == .switched).foldl State.holdFails
    ((s.txnsWhere fun t => t.target == some h && (t.phase == .reserving || t.phase == .commanded)).foldl
      (fun u e => u.closed 5 e) s)

theorem run_closeForFailure (hs : s.undamaged) (h : Head) :
    closeForFailure h s = .ok () (s.closedForFailure h) ∧ (s.closedForFailure h).undamaged := by
  obtain ⟨targeted, closed⟩ := run_closures hs .targetFailed
    (s.txnsWhere fun t => t.target == some h && (t.phase == .reserving || t.phase == .commanded))
  obtain ⟨holding, ended⟩ := run_forEach_foldl (g := State.holdFails) (fun _ e hu => run_holdFails hu e)
    (s.txnsWhere fun t => t.source == h && t.phase == .switched) closed
  refine ⟨?_, ended⟩
  unfold closeForFailure
  dsimp only
  rw [run_get_bind, run_bind, targeted]
  exact holding

/-! ### The calls of a failed head -/

/-- R130: a call whose serving head has failed. -/
theorem run_orphanCall (hs : s.TablesRead) (hc : (s.ctx n).state.inCall = true) (h : Head) :
    orphanCall h n s = .ok () (s.orphaned h n) := by
  unfold orphanCall State.orphaned
  rw [run_bind, run_slotEntry_openTxn hs]
  cases hx : s.openTxn n with
  | some p =>
    obtain ⟨e, t⟩ := p
    dsimp only
    by_cases hp : t.phase = .orphaned
    · rw [if_pos hp]
      exact run_if_neg (not_not.mpr hp) ..
    · have held : (s.entry e).txn = some t := by
        unfold State.openTxn at hx
        obtain ⟨q, -, hq⟩ := Option.bind_eq_some_iff.mp hx
        obtain ⟨y, hy, heq⟩ := Option.map_eq_some_iff.mp hq
        cases heq
        exact hy
      have kept : (s.withdrawn e t).entry e = s.entry e := by
        unfold State.withdrawn
        split <;> rfl
      rw [if_neg hp, run_if_pos hp]
      unfold orphanInPlace
      rw [run_get_bind, run_bind, run_withdrawWait]
      dsimp only
      rw [run_bind, run_modTxn (t := t) (by unfold State.txnOf; rw [kept]; exact held), kept]
      dsimp only
      rw [run_modCtx_bind, Handover.channels_eq, run_releaseAll _ _ (((hs.withdrawn e t).setEntry e
        (by exact hs.entries e)).setCtx ..), ctx_setEntry, (SameButCalls.withdrawn s e t).ctx]
      rfl
  | none =>
    dsimp only
    rw [run_bind, run_seekEntry hs.entries, show ((List.finRange 32).find? fun e => (s.txnOf e).isNone) = s.vacantEntry from rfl]
    cases s.vacantEntry with
    | some e =>
      dsimp only
      unfold openOrphan
      dsimp only
      rw [run_get_bind, run_putTxn_bind, run_enterWith_bind, State.entered_moving _ _ rfl, HandsetState.origin_eq]
      rfl
    | none => exact run_dropCall_lost (g := pure) hs hc .headFailed

theorem State.TablesRead.orphaned (hs : s.TablesRead) (h : Head) (n : Slot) : (s.orphaned h n).TablesRead := by
  unfold State.orphaned
  dsimp only
  split
  · next e t _ =>
    split
    · exact hs
    · exact State.TablesRead.releasedAll n t.named (((hs.withdrawn e t).setEntry e (by exact hs.entries e)).setCtx ..)
  · split
    · exact ((hs.setEntry _ rfl).setCtx ..).emit ..
    · exact (hs.dropped n 5).setCtx ..

/-- R130: the other contexts stand as they were, and the slot's own stays sound. -/
theorem orphaned_frame (s : State) (h : Head) (n : Slot) : ∃ c, c.ctxParityBad = (s.ctx n).ctxParityBad ∧
    ∀ m, (s.orphaned h n).ctx m = (if m = n then c else s.ctx m) ∧ (s.orphaned h n).rebuilding m = s.rebuilding m := by
  have placed {u v : State} {c : HandsetCtx} (hu : SameButCalls s u) (hv : SameButCalls (u.setCtx n c) v) (m : Slot) :
      v.ctx m = (if m = n then c else s.ctx m) ∧ v.rebuilding m = s.rebuilding m := by
    refine ⟨?_, (hv.rebuilding m).trans (hu.rebuilding m)⟩
    rw [hv.ctx]
    split
    · next hm => rw [hm, ctx_setCtx]
    · next hm => rw [ctx_setCtx_ne _ _ hm, hu.ctx]
  unfold State.orphaned
  dsimp only
  split
  · split
    · refine ⟨s.ctx n, rfl, fun m => ⟨?_, rfl⟩⟩
      split
      · next hm => rw [hm]
      · rfl
    · exact ⟨{ s.ctx n with channel := none }, rfl, placed ((SameButCalls.withdrawn ..).trans (.setEntry ..)) (.releasedAll ..)⟩
  · split
    · next e _ => exact ⟨_, by rfl, placed (.setEntry s e _) (.emit ..)⟩
    · exact ⟨_, (by exact HandsetCtx.unstaged_ctxParityBad _), placed (.dropped ..) (.refl ((s.dropped n 5).setCtx n _))⟩

theorem State.undamaged.orphaned (hs : s.undamaged) (h : Head) (n : Slot) : (s.orphaned h n).undamaged where
  contexts m := by
    obtain ⟨c, parity, frame⟩ := orphaned_frame s h n
    obtain ⟨ctx, rebuilding⟩ := frame m
    refine ⟨rebuilding.trans (hs.contexts m).1, ?_⟩
    rw [ctx]
    split
    · exact parity.trans (hs.contexts n).2
    · exact (hs.contexts m).2
  pools := (hs.tablesRead.orphaned h n).pools
  entries := (hs.tablesRead.orphaned h n).entries

theorem run_orphanSweep (h : Head) {ns : List Slot} (hn : ns.Nodup) (hs : s.undamaged)
    (hc : ∀ n ∈ ns, (s.ctx n).state.inCall = true) :
    forEach ns (fun n => withSound n (orphanCall h n)) s = .ok () (ns.foldl (fun u n => u.orphaned h n) s) := by
  induction ns generalizing s with
  | nil => rfl
  | cons n rest ih =>
    obtain ⟨fresh, nodup⟩ := List.nodup_cons.mp hn
    obtain ⟨c, -, frame⟩ := orphaned_frame s h n
    show (withSound n (orphanCall h n) >>= fun _ => forEach rest _) s = _
    rw [run_bind, run_withSound (hs.contexts n).1 (hs.contexts n).2, run_orphanCall hs.tablesRead (hc n List.mem_cons_self)]
    refine ih nodup (hs.orphaned h n) fun m hm => ?_
    have other : m ≠ n := fun heq => fresh (heq ▸ hm)
    rw [(frame m).1, if_neg other]
    exact hc m (List.mem_cons_of_mem _ hm)

/-- The calls that a head serves. -/
def State.servedBy (s : State) (h : Head) : List Slot := s.slotsWhere fun c => c.state.inCall && c.serving == some h

theorem headFails_eq (s : State) (h : Head) : s.headFails h =
    ((((s.declaredFailed h).emptied h false).closedForFailure h).servedBy h).foldl (fun u n => u.orphaned h n)
      (((s.declaredFailed h).emptied h false).closedForFailure h) := rfl

theorem servedBy_nodup (s : State) (h : Head) : (s.servedBy h).Nodup := by
  unfold State.servedBy State.slotsWhere
  exact List.Nodup.filter _ (List.nodup_finRange 1024)

theorem inCall_of_mem_servedBy (hn : n ∈ s.servedBy h) : (s.ctx n).state.inCall = true := by
  have test := (List.mem_filter.mp hn).2
  rw [Bool.and_eq_true] at test
  exact test.1

theorem run_failHead (hs : s.undamaged) (h : Head) : failHead h s = .ok () (s.headFails h) := by
  obtain ⟨empties, emptied⟩ := run_emptyQueue (hs.declaredFailed h) h false
  obtain ⟨closes, closed⟩ := run_closeForFailure emptied h
  rw [headFails_eq]
  unfold failHead
  rw [run_bind, run_declareFailed hs]
  dsimp only
  rw [run_bind, empties]
  dsimp only
  rw [run_bind, closes]
  dsimp only
  unfold orphanCalls
  dsimp only
  rw [run_get_bind]
  exact run_orphanSweep h (servedBy_nodup ..) closed fun n hn => inCall_of_mem_servedBy hn

/-- Settles O53. -/
theorem headFailureEndsWork : Obligations.HeadFailureEndsWork := by
  intro s h d ho hd
  refine ⟨fun hp => exec_running rfl ho ?_, fun hp hs => exec_running rfl ho ?_⟩
  all_goals
    unfold livenessTimeout
    rw [run_get_bind, hd]
  · exact run_if_neg (by simp [hp]) ..
  · exact (run_if_pos hp ..).trans (run_failHead hs h)

end Sys2Proof.Machine
end

section
/-! SUPPORT. Fatal faults: containment, and the entry to HALTED. -/

namespace Sys2Proof.Machine

variable {s t : State} {n : Slot} {h : Head} {e : EntryNo} {ident : Identity} {c : Instr} {f : FaultyStructure}

/-! ### What the entry to HALTED cuts off -/

/-- Log entry 3: the directive that was being written, in its slot or by its producer word, has been taken by memory, or not. -/
theorem State.cutDirective_cases (s : State) : ∃ k, s.cutDirective = { s with free := k } ∨ ∃ d rest, s.dirOut = d :: rest ∧
    (s.dirSent = false ∧ s.cutDirective = { s with free := k, mem := s.mem.writeAll s.dirSlotAddr d.bytes, dirSent := true } ∨
      s.dirSent = true ∧ s.cutDirective = { s with
        free := k, mem := s.mem.writeAll 0x100 (leBytes 4 (nextPosition s.dirCount s.dirProd))
        dirProd := nextPosition s.dirCount s.dirProd, dirOut := rest, dirSent := false }) := by
  unfold State.cutDirective
  by_cases hidle : s.dirOut = [] ∨ s.op = .halted
  · rw [if_pos hidle]
    exact ⟨s.free, .inl rfl⟩
  · rw [if_neg hidle]
    obtain ⟨k, taken | given⟩ := s.cutOff_cases fun s => if s.dirSent then s.directiveCounted else s.directiveInSlot
    · refine ⟨k, .inr ?_⟩
      rw [taken]
      cases hd : s.dirOut with
      | nil => exact absurd (.inl hd) hidle
      | cons d rest =>
        refine ⟨d, rest, rfl, ?_⟩
        cases hs : s.dirSent with
        | false =>
          refine .inl ⟨rfl, ?_⟩
          unfold State.directiveInSlot
          rw [if_neg (by simp), hd]
          dsimp only
          rw [if_neg (by simp [hs])]
        | true =>
          refine .inr ⟨rfl, ?_⟩
          unfold State.directiveCounted
          rw [if_pos rfl, hd]
          dsimp only
          rw [if_pos hs]
          rfl
    · exact ⟨k, .inl given⟩

/-- What the cut of an event leaves: its ring in some state, all else as it was. -/
theorem State.cutEvent_frame (s : State) : ∃ m ep out sent k, s.cutEvent = { s with
    mem := m, evProd := ep, evOut := out, evSent := sent, free := k } ∧ (Memory.wf s.mem → Memory.wf m) ∧
    (s.evOut = [] → ep = s.evProd ∧ m = s.mem) := by
  unfold State.cutEvent
  by_cases hidle : s.evOut = []
  · rw [if_pos hidle]
    exact ⟨_, _, _, _, _, rfl, id, fun _ => ⟨rfl, rfl⟩⟩
  · rw [if_neg hidle]
    obtain ⟨k, taken | given⟩ := s.cutOff_cases fun s => if s.evSent then s.eventCounted else s.eventInSlot
    · rw [taken]
      cases he : s.evOut with
      | nil => exact absurd he hidle
      | cons v rest =>
        cases hs : s.evSent with
        | false =>
          refine ⟨s.mem.writeAll s.evSlotAddr v.bytes, s.evProd, s.evOut, true, k, ?_, Memory.wf_writeAll _ _ _, nofun⟩
          unfold State.eventInSlot
          rw [if_neg (by simp), he]
          dsimp only
          rw [if_neg (by simp [hs])]
        | true =>
          refine ⟨s.mem.writeAll evProdWord (leBytes 4 (nextPosition s.evCount s.evProd)), nextPosition s.evCount s.evProd, rest,
            false, k, ?_, Memory.wf_writeAll _ _ _, nofun⟩
          unfold State.eventCounted
          rw [if_pos rfl, he]
          dsimp only
          rw [if_pos hs]
    · rw [given]
      exact ⟨_, _, _, _, _, rfl, id, fun _ => ⟨rfl, rfl⟩⟩

theorem Memory.wf_refuseUnanswered (hm : Memory.wf s.mem) : Memory.wf s.refuseUnanswered.mem := by
  have written (w : RecordWrite) : Memory.wf (s.recordWritten w) := by
    cases w <;> exact Memory.wf_writeEnabled _ _ _ hm
  show Memory.wf s.cutRecordWrite.mem
  unfold State.cutRecordWrite
  cases s.recordWrite with
  | none => exact hm
  | some w =>
    obtain ⟨k, e | e⟩ := s.cutOff_cases fun s => { s with mem := s.recordWritten w } <;> dsimp only <;> rw [e]
    · exact written w
    · exact hm

/-- The directive that was being written is as it was, or memory has taken it in its slot or by its producer word; the
directives, the producer position and the memory that it leaves. -/
def State.directiveCut (s : State) (out : List Directive) (prod : Nat) (m : Memory) : Prop :=
  out = s.dirOut ∧ prod = s.dirProd ∧ m = s.mem ∨ ∃ d rest, s.dirOut = d :: rest ∧
    (s.dirSent = false ∧ out = s.dirOut ∧ prod = s.dirProd ∧
        m = s.mem.writeAll ((s.map.map RegionMap.directiveBase).getD 0 + 32 * s.dirProd) d.bytes ∨
      s.dirSent = true ∧ out = rest ∧ prod = (s.dirProd + 1) % s.dirCount ∧
        m = s.mem.writeAll 0x100 (leBytes 4 ((s.dirProd + 1) % s.dirCount)))

/-- What the cut of the ring writes leaves of memory and of the rings. -/
structure State.RingsCut (u v : State) : Prop where
  wf : Memory.wf u.mem → Memory.wf v.mem
  directive : ∃ m, u.directiveCut v.dirOut v.dirProd m ∧ (u.evOut = [] → v.evProd = u.evProd ∧ v.mem = m)

theorem State.ringsCut_of_directive {u v : State} (hw : Memory.wf u.mem → Memory.wf v.mem)
    (hd : u.directiveCut v.dirOut v.dirProd v.mem) (he : v.evOut = u.evOut ∧ v.evProd = u.evProd) : u.RingsCut v.cutEvent := by
  obtain ⟨m, ep, out, sent, k, event, sound, still⟩ := v.cutEvent_frame
  rw [event]
  exact ⟨fun h => sound (hw h), v.mem, hd, fun hq => ⟨(still (he.1.trans hq)).1.trans he.2, (still (he.1.trans hq)).2⟩⟩

theorem State.ringsCut (u : State) : u.RingsCut u.cutRings := by
  rw [State.cutRings_eq]
  obtain ⟨k, given | ⟨d, rest, hd, ⟨hs, given⟩ | ⟨hs, given⟩⟩⟩ := u.cutDirective_cases <;> rw [given] <;>
    refine State.ringsCut_of_directive ?_ ?_ ⟨rfl, rfl⟩
  · exact id
  · exact .inl ⟨rfl, rfl, rfl⟩
  · dsimp only
    exact Memory.wf_writeAll _ _ _
  · dsimp only
    exact .inr ⟨d, rest, hd, .inl ⟨hs, rfl, rfl, rfl⟩⟩
  · dsimp only
    exact Memory.wf_writeAll _ _ _
  · dsimp only
    exact .inr ⟨d, rest, hd, .inr ⟨hs, rfl, rfl, rfl⟩⟩

/-- R189, R20: the part once what was in progress has ended, before the event HALTED and the status block. -/
structure State.CutShort (s u : State) : Prop where
  frame : ∃ m k dp d ds ep out sent, u = { s with
    mem := m, free := k, cpPort := s.cpPort.afterReset, rlcPort := s.rlcPort.afterReset, heldCp := none, heldRlc := none
    merge := none, recordWrite := none, dirProd := dp, dirOut := d, dirSent := ds, evProd := ep, evOut := out, evSent := sent
    op := .halted }
  wf : Memory.wf s.mem → Memory.wf u.mem
  directive : ∃ m, s.directiveCut u.dirOut u.dirProd m ∧ (s.recordWrite = none → s.evOut = [] → u.evProd = s.evProd ∧ u.mem = m)

/-- A cut of the directive being written, from a state that differs in memory: the memory it leaves differs likewise. -/
theorem State.directiveCut.of_mem {u : State} {out : List Directive} {prod : Nat} {m : Memory} (hd : u.directiveCut out prod m)
    (hu : u.dirOut = s.dirOut ∧ u.dirProd = s.dirProd ∧ u.dirSent = s.dirSent ∧ u.map = s.map) :
    ∃ m', s.directiveCut out prod m' ∧ (u.mem = s.mem → m = m') := by
  obtain ⟨outs, prods, sent, map⟩ := hu
  have count : u.dirCount = s.dirCount := by
    unfold State.dirCount
    rw [map]
  rcases hd with ⟨ho, hp, hm⟩ | ⟨d, rest, hd, ⟨hs, ho, hp, hm⟩ | ⟨hs, ho, hp, hm⟩⟩
  · exact ⟨s.mem, .inl ⟨ho.trans outs, hp.trans prods, rfl⟩, fun h => hm.trans h⟩
  · refine ⟨_, .inr ⟨d, rest, outs.symm.trans hd, .inl ⟨sent.symm.trans hs, ho.trans outs, hp.trans prods, rfl⟩⟩, fun h => ?_⟩
    rw [hm, h, map, prods]
  · rw [prods, count] at hp hm
    exact ⟨_, .inr ⟨d, rest, outs.symm.trans hd, .inr ⟨sent.symm.trans hs, ho, hp, rfl⟩⟩, fun h => by rw [hm, h]⟩

theorem State.cutShort (s : State) : s.CutShort { State.cutRings (State.refuseUnanswered s) with op := .halted } := by
  have sound := Memory.wf_refuseUnanswered (s := s)
  obtain ⟨m0, k0, unanswered, untouched⟩ := s.refuseUnanswered_frame
  obtain ⟨wf, m1, directive, still⟩ := s.refuseUnanswered.ringsCut
  obtain ⟨m, dp, d, ds, ep, out, sent, k, rings⟩ := SameButRings.cutRings s.refuseUnanswered
  rw [rings] at wf directive still ⊢
  rw [unanswered] at sound wf directive still ⊢
  obtain ⟨m2, directive2, same⟩ := State.directiveCut.of_mem (s := s) directive ⟨rfl, rfl, rfl, rfl⟩
  exact ⟨⟨_, _, _, _, _, _, _, _, rfl⟩, fun h => wf (sound h), m2, directive2, fun hr he =>
    ⟨(still he).1, (still he).2.trans (same (untouched hr))⟩⟩

/-! ### The fatal fault -/

theorem run_fatalFault_contained (hp : s.fatalPending = false) (f : FaultyStructure) (e : Nat) :
    fatalFault f e s = .ok () (s.faulted f.code e) := by
  unfold fatalFault
  rw [run_get_bind, if_neg (by simp [hp])]
  rfl

theorem run_fatalFault_halts (hp : s.fatalPending = true) (f : FaultyStructure) (e : Nat) :
    fatalFault f e s = .error () (s.enterHalted f e) := by
  unfold fatalFault
  rw [run_get_bind, if_pos hp]
  rfl

theorem enterHalted_op (s : State) (f : FaultyStructure) (e : Nat) : (s.enterHalted f e).op = .halted := by
  unfold State.enterHalted State.haltEvent
  split <;> rfl

/-! ### Work that halts -/

/-- The work ends in HALTED. -/
def HaltsAt {α : Type} (a : Act α) (s : State) : Prop := ∃ t, a s = .error () t ∧ t.op = .halted

theorem HaltsAt.bind {α β : Type} {a : Act α} (ha : HaltsAt a s) (g : α → Act β) : HaltsAt (a >>= g) s := by
  obtain ⟨t, run, halted⟩ := ha
  exact ⟨t, by rw [run_bind, run], halted⟩

theorem HaltsAt.after {α β : Type} {a : Act α} {x : α} {g : α → Act β} (ha : a s = .ok x t) (hg : HaltsAt (g x) t) :
    HaltsAt (a >>= g) s := by
  obtain ⟨u, run, halted⟩ := hg
  exact ⟨u, by rw [run_bind, ha]; exact run, halted⟩

theorem HaltsAt.of_eq {α : Type} {a b : Act α} (hb : HaltsAt b t) (hab : a s = b t) : HaltsAt a s := by
  obtain ⟨u, run, halted⟩ := hb
  exact ⟨u, hab.trans run, halted⟩

theorem haltsAt_fatalFault (hp : s.fatalPending = true) (f : FaultyStructure) (e : Nat) : HaltsAt (fatalFault f e) s :=
  ⟨_, run_fatalFault_halts hp f e, enterHalted_op s f e⟩

theorem haltsAt_useEntry (hp : s.fatalPending = true) (he : (s.entry e).parityBad = true) : HaltsAt (useEntry e) s :=
  (haltsAt_fatalFault (s := s.setEntry e { s.entry e with parityBad := false }) hp .transactionTable e.val).of_eq (by
    unfold useEntry
    rw [run_get_bind, run_if_pos he]
    rfl)

theorem haltsAt_usePool (hp : s.fatalPending = true) (hh : (s.head h).poolParityBad = true) : HaltsAt (usePool h) s :=
  (haltsAt_fatalFault (s := s.setHead h { s.head h with poolParityBad := false }) hp .channelPool h.val).of_eq (by
    unfold usePool
    rw [run_getHead_bind, run_if_pos hh]
    rfl)

/-- Work on each item of a list halts at the first item at which it does not pass over. -/
theorem haltsAt_forEach {α : Type} {g : α → Act Unit} {xs : List α} (each : ∀ x ∈ xs, g x s = .ok () s ∨ HaltsAt (g x) s)
    {y : α} (hy : y ∈ xs) (hg : HaltsAt (g y) s) : HaltsAt (forEach xs g) s := by
  induction xs with
  | nil => cases hy
  | cons x rest ih =>
    rcases each x List.mem_cons_self with hx | hx
    · refine HaltsAt.after hx (ih (fun z hz => each z (List.mem_cons_of_mem _ hz)) ?_)
      refine (List.mem_cons.mp hy).resolve_left ?_
      rintro rfl
      obtain ⟨t, run, -⟩ := hg
      rw [hx] at run
      cases run
    · exact hx.bind _

/-- A command whose work halts ends in HALTED, with ATTN asserted. -/
theorem halts_of_work {a : Act Unit} (hc : workOf c = some a) (ha : HaltsAt a s) : s.halts c := by
  obtain ⟨t, run, halted⟩ := ha
  obtain ⟨m, l, settled, level, -⟩ := State.settle_cases s t
  refine ⟨State.settle s t, ?_, ?_⟩
  · rw [exec_work hc]
    unfold perform
    rw [run]
  · rw [settled]
    refine ⟨halted, level.trans ?_⟩
    unfold State.attnLevel
    rw [halted]

theorem HaltsAt.whenRunning {a : Act Unit} (ho : s.op = .running) (ha : HaltsAt a s) : HaltsAt (whenRunning a) s :=
  ha.of_eq (run_whenRunning ho a)

/-! ### Faults that a message meets -/

theorem run_dispatchUplink_takes {m : UplinkMsg} (ho : s.op = .running) (hq : s.uplink.head? = some m)
    (hw : s.uplinkWaits = false) : dispatchUplink m.kind s =
      (takeUplink m >>= fun taken => if taken then popUplink else pure ()) s := by
  unfold dispatchUplink
  rw [run_whenRunning ho, run_get_bind]
  cases hu : s.uplink with
  | nil =>
    rw [hu] at hq
    cases hq
  | cons x rest =>
    rw [hu] at hq
    cases hq
    exact run_if_pos ⟨rfl, by simp [hw]⟩ ..

/-- A message whose taking halts. -/
theorem halts_of_takeUplink {body : HandsetMsg} (ho : s.op = .running) (hq : s.uplink.head? = some (.handset h ident body))
    (hw : s.uplinkWaits = false) (ht : HaltsAt (takeUplink (.handset h ident body)) s) : s.halts (commandOf body) :=
  halts_of_work (workOf_commandOf body) ((ht.bind _).of_eq (run_dispatchUplink_takes ho hq hw))

/-- R186: a map entry read with a parity fault. -/
theorem run_lookupIdentity_faulty (hm : (s.mapLookup ident).map (fun e => (e.slot, e.parityBad)) = some (n, true)) :
    lookupIdentity ident s = (fatalFault .identityMap n.val >>= fun _ => pure (some n))
      { s with idMap := mapFound s.idMap n } := by
  unfold lookupIdentity
  rw [run_get_bind]
  cases hl : s.mapLookup ident with
  | none =>
    rw [hl] at hm
    cases hm
  | some e =>
    rw [hl] at hm
    obtain ⟨rfl, bad⟩ := Prod.mk.inj (Option.some.inj hm)
    exact run_if_pos bad ..

/-- R184, R186: what a slot with a faulty context holds cannot be found where a table entry or a pool reads with a second
fault. -/
theorem haltsAt_endFaulty (hp : s.fatalPending = true)
    (hbad : (∃ e, (s.entry e).parityBad = true) ∨ ∃ x, (s.head x).poolParityBad = true) (n : Slot) :
    HaltsAt (endFaulty n) s := by
  unfold endFaulty
  have entries (e : EntryNo) : useEntry e s = .ok () s ∨ HaltsAt (useEntry e) s := by
    cases he : (s.entry e).parityBad with
    | false => exact .inl (run_useEntry he)
    | true => exact .inr (haltsAt_useEntry hp he)
  have pools (x : Head) : usePool x s = .ok () s ∨ HaltsAt (usePool x) s := by
    cases hx : (s.head x).poolParityBad with
    | false => exact .inl (run_usePool hx)
    | true => exact .inr (haltsAt_usePool hp hx)
  by_cases table : ∃ e, (s.entry e).parityBad = true
  · obtain ⟨e, he⟩ := table
    exact (haltsAt_forEach (fun e _ => entries e) (List.mem_finRange e) (haltsAt_useEntry hp he)).bind _
  · obtain ⟨x, hx⟩ := hbad.resolve_left table
    refine HaltsAt.after (run_readTable fun e => ?_) ?_
    · simpa using not_exists.mp table e
    · exact (haltsAt_forEach (fun x _ => pools x) (List.mem_finRange x) (haltsAt_usePool hp hx)).bind _

/-- R188: an entry of a phase whose deadline has passed, read with a second fault. -/
theorem haltsAt_phaseDeadline {t : Handover} (he : s.entry e = { txn := some t, parityBad := true })
    (hd : passed t.deadline s.timeBase = true) (hp : s.fatalPending = true) (g : Handover → Act Unit) :
    HaltsAt (phaseDeadline e t.phase g) s := by
  have run : phaseDeadline e t.phase g s = (useEntry e >>= fun _ => withSound t.slot (g t)) s := by
    unfold phaseDeadline State.txnOf
    rw [run_get_bind, he]
    exact run_if_pos ⟨rfl, hd⟩ ..
  exact ((haltsAt_useEntry hp (by rw [he])).bind _).of_eq run

theorem txnsWhere_eq_nil {p : Handover → Bool} (hp : ∀ e t, (s.entry e).txn = some t → p t = false) : s.txnsWhere p = [] := by
  have none : (List.finRange 32).filterMap (fun e => match s.txnOf e with
      | some t => if p t then some (e, t.slot) else none
      | none => none) = [] := by
    rw [List.filterMap_eq_nil_iff]
    intro e _
    cases ht : s.txnOf e with
    | none => rfl
    | some t => exact if_neg (by simp [hp e t ht])
  exact congrArg (fun es : List (EntryNo × Slot) => (es.foldr placeBySlot []).map Prod.fst) none

/-- R132, R186: a drain at a head that no transaction waits for and whose Attach Queue is empty, up to the read of its pool. -/
theorem run_startDrain_quiet (hu : s.untargeted h) (hq : (s.att h).queue = []) : startDrain h s =
    (usePool h >>= fun _ => judgeDrain h) (s.setHead h { s.head h with state := .draining, waitQ := [] }) := by
  have closes : closeReserving h (s.setHead h { s.head h with state := .draining, waitQ := [] }) =
      .ok () (s.setHead h { s.head h with state := .draining, waitQ := [] }) := by
    unfold closeReserving
    rw [run_get_bind, txnsWhere_eq_nil]
    · rfl
    · intro e t ht
      have away := hu e t ht
      simpa using away
  have empty : { s.att h with queue := [] } = s.att h := by rw [← hq]
  have empties : emptyQueue h true (s.setHead h { s.head h with state := .draining, waitQ := [] }) =
      .ok () (s.setHead h { s.head h with state := .draining, waitQ := [] }) := by
    unfold emptyQueue
    rw [run_getAtt_bind, run_modAtt_bind, att_setHead, empty, hq]
    exact congrArg (EStateM.Result.ok ()) (setAtt_self (s.setHead h { s.head h with state := .draining, waitQ := [] }) h)
  unfold startDrain
  rw [run_modHead_bind, show (s.head h).ineligible .draining = { s.head h with state := .draining, waitQ := [] } from rfl,
    run_bind, closes]
  dsimp only
  rw [run_bind, empties]

/-! ### The statement -/

/-- R189: the event HALTED takes a free slot, or is lost. -/
theorem haltEvent_cases (u : State) (f : FaultyStructure) (e : Nat) : ∃ out lost,
    u.haltEvent f e = { u with evOut := out, evSent := false, eventsLost := lost } ∧
    (unread u.evCount u.evProd u.evCons + 1 < u.evCount → lost = u.eventsLost ∧ out = [u.event .halted .fatal 0xFFFF f.code e]) ∧
    (¬ unread u.evCount u.evProd u.evCons + 1 < u.evCount → out = [] ∧ lost = satInc u.eventsLost) := by
  unfold State.haltEvent
  by_cases hroom : u.evUnread + 1 < u.evCount
  · rw [if_pos hroom]
    exact ⟨_, _, rfl, fun _ => ⟨rfl, rfl⟩, fun hno => absurd hroom hno⟩
  · rw [if_neg hroom]
    exact ⟨_, _, rfl, fun hyes => absurd hyes hroom, fun _ => ⟨rfl, rfl⟩⟩

theorem faulted_head (s : State) (f e : Nat) (x : Head) : (s.faulted f e).head x = s.head x := head_emit ..

theorem faulted_ctx (s : State) (f e : Nat) (n : Slot) : (s.faulted f e).ctx n = s.ctx n := ctx_emit ..

theorem run_usePool_contained (hp : s.fatalPending = false) (hh : (s.head h).poolParityBad = true) : usePool h s =
    .ok () ((s.setHead h { s.head h with poolParityBad := false }).faulted 3 h.val) := by
  unfold usePool
  rw [run_getHead_bind, run_if_pos hh, run_modHead_bind]
  exact run_fatalFault_contained (by exact hp) .channelPool h.val

theorem run_lookupIdentity_contained (hm : (s.mapLookup ident).map (fun e => (e.slot, e.parityBad)) = some (n, true))
    (hp : s.fatalPending = false) : lookupIdentity ident s =
      .ok (some n) (State.faulted { s with idMap := mapFound s.idMap n } 1 n.val) := by
  rw [run_lookupIdentity_faulty hm, run_bind, run_fatalFault_contained (by exact hp)]
  rfl

theorem faulted_rebuilding (s : State) (f e : Nat) (n : Slot) : (s.faulted f e).rebuilding n = s.rebuilding n :=
  (SameButCalls.emit { s with contained := true, fatalPending := true } ..).rebuilding n

/-- R61, R97: a message of a BARRED slot changes nothing. -/
theorem heard_barred (hc : (s.ctx n).state = .barred) : s.heard n = s := by
  have seen : (s.ctx n).seen s.timeBase = s.ctx n := by
    unfold HandsetCtx.seen
    rw [if_pos (.inl hc), if_neg (by rw [hc]; decide)]
  unfold State.heard
  rw [seen, setCtx_self]

/-- A message whose slot the map gives, the context being sound. -/
theorem run_takeUplink_found {body : HandsetMsg} (hl : lookupIdentity ident s = .ok (some n) t) (hr : t.readable n) :
    takeUplink (.handset h ident body) s = (handleMessage n h ident body t.timeBase >>= fun _ => pure true) t := by
  have found : takeUplink (.handset h ident body) s = (do
      let now := (← get).timeBase
      if ← contextSound n (some (.uplink (.handset h ident body) now)) then
        handleMessage n h ident body now
        return true
      else return false : Act Bool) t := by
    refine (run_bind ..).trans ?_
    rw [hl]
  rw [found, run_get_bind, run_bind, run_contextSound hr.1 hr.2]
  rfl

/-- R59, R186: a message of a BARRED slot whose map entry reads with a first fault. -/
theorem run_takeUplink_contained {body : HandsetMsg}
    (hm : (s.mapLookup ident).map (fun e => (e.slot, e.parityBad)) = some (n, true)) (hp : s.fatalPending = false)
    (hr : s.readable n) (hc : (s.ctx n).state = .barred) (hb : ∀ x, body ≠ .attach x) :
    takeUplink (.handset h ident body) s = .ok true (State.faulted { s with idMap := mapFound s.idMap n } 1 n.val) := by
  have ctx : (State.faulted { s with idMap := mapFound s.idMap n } 1 n.val).ctx n = s.ctx n := faulted_ctx ..
  have rebuilding : (State.faulted { s with idMap := mapFound s.idMap n } 1 n.val).rebuilding n = s.rebuilding n :=
    faulted_rebuilding ..
  have found := run_lookupIdentity_contained hm hp
  generalize State.faulted { s with idMap := mapFound s.idMap n } 1 n.val = v at ctx rebuilding found ⊢
  have barred : (v.ctx n).state = .barred := by rw [ctx, hc]
  rw [run_takeUplink_found found ⟨rebuilding.trans hr.1, by rw [ctx]; exact hr.2⟩, run_bind,
    run_handleMessage_sighting hb (by rw [heard_barred barred, barred]; decide), heard_barred barred]
  rfl

/-- R80, R186: a CALL_REQUEST at a head whose pool reads with a second fault. -/
theorem haltsAt_takeBody_callRequest (hp : s.fatalPending = true) (hc : (s.ctx n).state ∈ [HandsetState.idle, .doze])
    (hh : (s.head h).poolParityBad = true) (r : Bool) : HaltsAt (takeBody n h r .callRequest) s := by
  refine HaltsAt.of_eq ?_ (run_takeBody_callRequest hc r)
  unfold takeCallRequest newCallChannel
  refine HaltsAt.of_eq (t := s.setCtx n { s.ctx n with serving := some h }) ?_ (run_modCtx_bind ..)
  exact HaltsAt.bind (HaltsAt.bind (haltsAt_usePool (by exact hp) (by exact hh)) _) _

theorem run_bind_done (a : Act Unit) (s : State) : (a >>= fun _ => pure ()) s = a s := by
  rw [run_bind]
  cases a s <;> rfl

/-- R13: the end of the scan, the fault of one map entry waiting. -/
theorem run_endScan_fault (hf : s.scanFatals = [n]) (hp : s.fatalPending = false) {last : Slot} (hl : last.val = 1023) :
    endScan s = .ok () (State.faulted { s.scanGoesOn last with scanFatals := [] } 1 n.val) := by
  have going : s.scanGoesOn last = State.emit { s with
      op := .running, startup := .none, scrubPtr := 0
      scrubDeadline := some (s.timeBase + BitVec.ofNat 32 (2 ^ (s.params.globalBytes[2].toNat % 4))) }
      .started .none 0xFFFF (s.countState .provisioned) (s.countState .quarantined) := dif_neg (by omega)
  have pending : (s.scanGoesOn last).fatalPending = false := by
    rw [going]
    exact (takeEvent_fatalPending ..).trans hp
  unfold endScan
  rw [run_modify_bind, run_get_bind, run_note_bind, run_modify_bind]
  refine (congrArg (fun l => forEach l (fun n : Slot => fatalFault .identityMap n.val) _) hf).trans ?_
  have fault := run_fatalFault_contained (s := { s.scanGoesOn last with scanFatals := [] }) pending .identityMap n.val
  rw [going] at fault ⊢
  exact (run_bind_done ..).trans fault

/-- Settles O57: the fault itself, then each read that finds one. -/
theorem fatalFaultsContainAndHalt : Obligations.FatalFaultsContainAndHalt := by
  refine ⟨fun s f e hp => run_fatalFault_contained hp f e, fun s f e hp => ⟨_, run_fatalFault_halts hp f e, ?halted⟩,
    fun s h ident body n ho hq hw hm => ⟨fun hp => ?mapHalts, fun hp hr hc hb => ?mapContained⟩,
    fun s h ident n hd hc hbad hp => ?callHalts, fun s h hr hin hu hq hbad => ?drains,
    fun s e t ho he hd hp => ?deadlines, fun s h ident n ho hq hw hm hr hpar hp hbad => ?keepaliveHalts,
    fun s n ho hs hmark hf hp => ?scan⟩
  case halted =>
    obtain ⟨⟨m, k, dp, d, ds, ep, out, sent, frame⟩, wf, m1, directive, still⟩ := s.cutShort
    unfold State.enterHalted
    generalize ({ State.cutRings (State.refuseUnanswered s) with op := .halted } : State) = u at frame wf directive still ⊢
    obtain ⟨events, lost, event, room, full⟩ := haltEvent_cases u f e
    have status (hm : Memory.wf s.mem) (i : Nat) (hi : i < 128) := State.writeStatus_statusBlock (s := u.haltEvent f e)
      (by rw [event]; exact wf hm) hi
    have outside (hm : Memory.wf s.mem) {a : Nat} (ha : a < 0x180 ∨ 0x200 ≤ a) :=
      Memory.readByte_writeStatus_outside (s := u.haltEvent f e) (by rw [event]; exact wf hm) ha
    obtain ⟨m2, written, -⟩ := (u.haltEvent f e).writeStatus_eq
    rw [written] at status outside ⊢
    rw [event] at status outside ⊢
    subst frame
    exact ⟨rfl, rfl, rfl, rfl, rfl, rfl, rfl, rfl, rfl, rfl, rfl, rfl, rfl, rfl, rfl, rfl, rfl, rfl, hp, rfl, rfl, rfl, rfl, rfl,
      rfl, room, full, status, m1, directive, fun hm hrw hev => ⟨(still hrw hev).1, fun a ha =>
        (outside hm ha).trans (congrArg (fun x : Memory => x.readByte a) (still hrw hev).2)⟩⟩
  case mapHalts =>
    refine halts_of_takeUplink ho hq hw ?_
    unfold takeUplink
    exact (((haltsAt_fatalFault (s := { s with idMap := mapFound s.idMap n }) hp .identityMap n.val).bind _).of_eq
      (run_lookupIdentity_faulty hm)).bind _
  case mapContained =>
    rw [exec_work (workOf_commandOf body)]
    refine perform_ok ?_
    refine (run_dispatchUplink_takes ho hq hw).trans ?_
    rw [run_bind, run_takeUplink_contained hm hp hr hc hb]
    rfl
  case callHalts =>
    obtain ⟨ho, hq, hw, hm, hr⟩ := hd
    have idle : ((s.heard n).ctx n).state ∈ [HandsetState.idle, .doze] := by rwa [heard_ctx_state]
    refine halts_of_work rfl (HaltsAt.of_eq (HaltsAt.bind (HaltsAt.of_eq ?_ 
      (run_handleMessage_body (body := .callRequest) (fun _ => nofun) ?_)) _) (run_dispatchUplink ho hq rfl hw hm hr.1 hr.2))
    · exact haltsAt_takeBody_callRequest (s := s.heard n) hp idle hbad false
    · exact (by decide : ∀ st ∈ [HandsetState.idle, .doze], st ∉ [HandsetState.vacant, .barred, .quarantined, .lost]) _ idle
  case drains =>
    have drained : handleRequest (.drainHead h) s = startDrain h s := by
      refine (run_handleRequest_noSlot rfl).trans ?_
      show takeDrainHead h s = _
      unfold takeDrainHead
      rw [run_getHead_bind, hin]
    refine ⟨fun hp => ?halts, fun hp hpos => ?contained⟩
    case halts =>
      obtain ⟨ho, hrq, hrw, hn⟩ := hr
      refine halts_of_work (workOf_commandFor (.drainHead h)) (HaltsAt.of_eq ?_ (run_dispatchRequest ho hrq rfl hrw hn))
      refine HaltsAt.bind (HaltsAt.of_eq (HaltsAt.bind (haltsAt_usePool ?_ ?_) _) (drained.trans (run_startDrain_quiet hu hq))) _
      · exact hp
      · rw [head_setHead]
        exact hbad
    case contained =>
      refine exec_commandFor hr ((drained.trans (run_startDrain_quiet hu hq)).trans ?_)
      rw [run_bind, run_usePool_contained (by exact hp) (by rw [head_setHead]; exact hbad), head_setHead, setHead_setHead]
      dsimp only
      rw [run_judgeDrain, faulted_head, head_setHead]
      exact congrArg (EStateM.Result.ok ()) (if_neg fun x => (Nat.ne_of_gt hpos) x.2)
  case deadlines =>
    have halts (g : Handover → Act Unit) : HaltsAt (whenRunning (phaseDeadline e t.phase g)) s :=
      (haltsAt_phaseDeadline he hd hp g).whenRunning ho
    refine ⟨fun hph => halts_of_work rfl ?_, fun hph => halts_of_work rfl ?_, fun hph => halts_of_work rfl ?_,
      fun hph => halts_of_work rfl ?_⟩
    all_goals
      rw [hph] at halts
      exact halts _
  case keepaliveHalts =>
    refine halts_of_takeUplink ho hq hw ?_
    unfold takeUplink
    refine HaltsAt.after (run_lookupIdentity hm) ?_
    dsimp only
    refine HaltsAt.after (run_get ..) (HaltsAt.bind ?_ _)
    have run : contextSound n (some (.uplink (.handset h ident .keepalive) s.timeBase)) s = _ := run_get_bind ..
    refine HaltsAt.of_eq ?_ (run.trans (run_if_neg (by simp [hr]) ..))
    refine HaltsAt.of_eq ?_ ((run_getCtx_bind ..).trans (run_if_pos hpar ..))
    refine HaltsAt.of_eq (t := s.setCtx n { s.ctx n with ctxParityBad := false }) ?_ (run_modCtx_bind ..)
    have ended : HaltsAt (endFaulty n) (s.setCtx n { s.ctx n with ctxParityBad := false }) :=
      haltsAt_endFaulty (s := s.setCtx n { s.ctx n with ctxParityBad := false }) hp hbad n
    exact ended.bind _
  case scan =>
    rw [exec_work (c := .scanRecordRead) rfl]
    refine perform_ok ?_
    unfold scanRead
    rw [run_get_bind, ho, hs]
    have taken : scanRecord 1023 s = .ok () (s.setCtx 1023
        { scannedCtx (s.recordImage 1023) with state := .quarantined, poisoned := true }) := by
      unfold scanRecord
      rw [run_get_bind]
      exact run_if_pos (by simpa [Reading.marked_eq, ownReading] using hmark) ..
    dsimp only
    rw [run_bind, taken]
    exact run_endScan_fault (by exact hf) (by exact hp) rfl

end Sys2Proof.Machine
end

section
/-! SUPPORT. The scrub, and the reads of a context rebuild. -/

namespace Sys2Proof.Machine

variable {s t : State} {n : Slot} {h : Head} {ident : Identity}

/-! ### The scrub -/

theorem unansweredBeats_idle (ho : s.cpPort.outstanding = none) (n : Slot) : s.unansweredBeats n = [] := by
  unfold State.unansweredBeats
  rw [ho]

theorem run_scrubDue {d : Time} (hd : s.scrubDeadline = some d) (hr : s.scrubRead = none) : scrubDue s =
    (if passed d s.timeBase then modify fun s => { s with scrubDeadline := none, scrubRead := some (s.scrubStart s.scrubPtr) }
      else pure () : Act Unit) s := by
  unfold scrubDue
  rw [run_get_bind, hd, hr]

/-- R180: the pointer moves on. -/
theorem nextScrub_eq (s : State) : s.nextScrub = { s with
    scrubPtr := ⟨(s.scrubPtr.val + 1) % 1024, Nat.mod_lt _ (by decide)⟩, scrubRead := none
    scrubDeadline := some (s.timeBase + BitVec.ofNat 32 (2 ^ (s.params.globalBytes[2].toNat % 4))) } := rfl

theorem run_scrubDone {r : ScrubRead} (hr : s.scrubRead = some r) : scrubDone s = .ok () { s.checked r.reading with
    scrubPtr := ⟨(s.scrubPtr.val + 1) % 1024, Nat.mod_lt _ (by decide)⟩, scrubRead := none
    scrubDeadline := some (s.timeBase + BitVec.ofNat 32 (2 ^ (s.params.globalBytes[2].toNat % 4))) } := by
  obtain ⟨m, c, f, k, e, l, checked⟩ := SameButFindings.checked s r.reading
  unfold scrubDone
  rw [run_get_bind, hr]
  dsimp only
  rw [run_checkReading_bind, run_modify, nextScrub_eq, checked]
  rfl

/-! ### A context that is found faulty -/

theorem rebuilding_false (hr : s.rebuilding n = false) {r : Rebuild} (hm : r ∈ s.rebuilds) : r.slot ≠ n := by
  unfold State.rebuilding at hr
  simpa using List.any_eq_false.mp hr r hm

/-- R185: an event joins the rebuild that has just begun. -/
theorem run_waitForRebuild_begun (hr : s.rebuilding n = false) (dropped : Bool) (w : Waiter) :
    waitForRebuild n (some w) { s with rebuilds := s.rebuilds ++ [{ slot := n, dropped := dropped, waiting := [] }] } =
      .ok () { s with rebuilds := s.rebuilds ++ [{ slot := n, dropped := dropped, waiting := [w] }] } := by
  have others : s.rebuilds.map (fun r => if r.slot = n then { r with waiting := r.waiting ++ [w] } else r) = s.rebuilds := by
    refine (List.map_congr_left fun r hm => ?_).trans (List.map_id _)
    rw [if_neg (rebuilding_false hr hm)]
    rfl
  unfold waitForRebuild
  refine congrArg (fun l : List Rebuild => EStateM.Result.ok () { s with rebuilds := l }) ?_
  rw [List.map_append, others]
  simp

/-- R184: a slot that holds nothing elsewhere, the table and the pools reading without fault. -/
theorem run_endFaulty_idle (he : s.entryOfSlot n = none) (hc : s.channelsOfSlot n none = []) (ht : s.TablesRead) :
    endFaulty n s = .ok false ((s.unqueued n).setCtx n (s.ctx n).dropTimers) := by
  unfold endFaulty
  rw [run_bind, run_readTable ht.entries]
  dsimp only
  rw [run_bind, run_forEach fun x _ => run_usePool (ht.pools x)]
  dsimp only
  rw [run_get_bind, he]
  simp only [Option.map_none, hc]
  rfl

/-- A context that is found faulty, its fault taken as found and its timers dropped. -/
def HandsetCtx.foundFaulty (c : HandsetCtx) : HandsetCtx :=
  { c with ctxParityBad := false, offerDeadline := none, presence := .idle, quality := { c.quality with holdoff := none }
           txn := none, channel := none }

theorem run_then_pure {α : Type} {a : Act Unit} (ha : a s = .ok () t) (x : α) : (a >>= fun _ => pure x) s = .ok x t := by
  rw [run_bind, ha]
  rfl

/-- R184, R185: a block finds a context faulty; the slot holds nothing elsewhere, and its rebuild begins. -/
theorem run_contextSound_begins (hr : s.rebuilding n = false) (hp : (s.ctx n).ctxParityBad = true)
    (he : s.entryOfSlot n = none) (hc : s.channelsOfSlot n none = []) (ht : s.TablesRead) (w : Waiter) :
    contextSound n (some w) s = .ok false { (s.unqueued n).setCtx n (s.ctx n).foundFaulty with
      rebuilds := s.rebuilds ++ [{ slot := n, dropped := false, waiting := [w] }] } := by
  have ended := run_endFaulty_idle (s := s.setCtx n { s.ctx n with ctxParityBad := false }) he hc (ht.setCtx ..)
  rw [ctx_setCtx] at ended
  have cleared : ((s.setCtx n { s.ctx n with ctxParityBad := false }).unqueued n).setCtx n
      (HandsetCtx.dropTimers { s.ctx n with ctxParityBad := false }) = (s.unqueued n).setCtx n (s.ctx n).foundFaulty :=
    setCtx_setCtx (s := s.unqueued n) ..
  rw [cleared] at ended
  have begun := run_waitForRebuild_begun (s := (s.unqueued n).setCtx n (s.ctx n).foundFaulty) hr false w
  unfold contextSound
  rw [run_get_bind, run_if_neg (by simp [hr]), run_getCtx_bind, run_if_pos hp, run_modCtx_bind, run_bind, ended]
  dsimp only
  rw [run_modify_bind]
  exact run_then_pure begun false

/-- R184: a KEEPALIVE that meets a faulty context waits for its rebuild. -/
theorem exec_keepalive_waits (ho : s.op = .running) (hq : s.uplink.head? = some (.handset h ident .keepalive))
    (hw : s.uplinkWaits = false) (hm : (s.mapLookup ident).map (fun e => (e.slot, e.parityBad)) = some (n, false))
    (hs : contextSound n (some (.uplink (.handset h ident .keepalive) s.timeBase)) s = .ok false t) :
    exec .keepalive s = s.ends t := by
  have waits : takeUplink (.handset h ident .keepalive) s = .ok false t := by
    unfold takeUplink
    refine (run_bind ..).trans ?_
    rw [run_lookupIdentity hm]
    dsimp only
    rw [run_get_bind, run_bind, hs]
    rfl
  rw [exec_work (c := .keepalive) rfl]
  refine perform_ok ((run_dispatchUplink_takes ho hq hw).trans ?_)
  rw [run_bind, waits]
  rfl

/-! ### The rebuild -/

/-- What a rebuild sets of the slot of a state that the check of its reading has left. -/
def State.rebuiltAs (u : State) (n : Slot) (dropped : Bool) (c : HandsetCtx) (m : List MapEntry) (st : HandsetState) : State :=
  State.emit (State.setCtx { u with rebuilds := [], idMap := m } n { c with state := st, poisoned := (u.ctx n).poisoned })
    .contextFault .uncorrected n.val st.code (if dropped then 1 else 0)

/-- The reading of a rebuild. -/
def State.rebuildReading (s : State) (n : Slot) (overtaken : List Nat) : Reading :=
  { readingOf n .rebuild (s.recordImage n) [0, 1, 2, 3] with overtaken := overtaken }

theorem afterRebuild_eq (s : State) (n : Slot) (dropped : Bool) (overtaken : List Nat) : s.afterRebuild n dropped overtaken =
    let r := s.rebuildReading n overtaken
    let u := s.checked r
    let kept := ((s.mapEntryOf n).map MapEntry.identity).getD 0
    let c := scannedCtx (correctedBytes (s.recordImage n))
    if r.spoilt then u.rebuiltAs n dropped { scannedCtx (u.recordImage n) with identity := kept } s.idMap .quarantined
    else if (u.ctx n).poisoned then u.rebuiltAs n dropped { c with identity := kept } s.idMap .quarantined
    else if c.identity = 0 then u.rebuiltAs n dropped c (mapRemove s.idMap n) .vacant
    else if (s.mapLookup c.identity).any fun x => x.slot != n then u.rebuiltAs n dropped c (mapRemove s.idMap n) .quarantined
    else u.rebuiltAs n dropped c (mapSet s.idMap n c.identity) .provisioned := rfl

/-- The state, the identity and the map of a rebuild, by the first row that applies (R185). -/
theorem rebuildRow_eq (s : State) (n : Slot) (d : Bool) (ident : Identity) : s.rebuildRow n d ident =
    if d then (.quarantined, ((s.mapEntryOf n).map MapEntry.identity).getD 0, s.idMap)
    else if ident = 0 then (.vacant, 0, mapRemove s.idMap n)
    else if (s.mapLookup ident).any fun x => x.slot != n then (.quarantined, ident, mapRemove s.idMap n)
    else (.provisioned, ident, mapSet s.idMap n ident) := by
  unfold State.rebuildRow
  cases s.mapLookup ident with
  | none => rfl
  | some e =>
    by_cases he : e.slot = n <;> simp [he]

/-- The fields that a rebuild takes, as the check has left memory. -/
def State.rebuiltFields (u : State) (n : Slot) (r : Reading) : HandsetCtx :=
  scannedCtx (if r.bad then u.recordImage n else r.provisioned)

theorem rebuilt_emit (u : State) (n : Slot) (r : Reading) (dropped : Bool) :
    let row := u.rebuildRow n ((u.ctx n).poisoned || r.bad) (u.rebuiltFields n r).identity
    let v := State.rebuilt { u with rebuilds := [] } n r
    v.emit .contextFault .uncorrected n.val (v.ctx n).state.code (if dropped then 1 else 0) =
      u.rebuiltAs n dropped { u.rebuiltFields n r with identity := row.2.1 } row.2.2 row.1 := by
  intro row v
  have state : (v.ctx n).state = row.1 := congrArg HandsetCtx.state (ctx_setCtx ..)
  rw [state]
  rfl

/-- R185: the rebuilt context, its identity and map entry, and CONTEXT_FAULT, by the first row that applies. -/
theorem afterRebuild_rebuilt (s : State) (n : Slot) (dropped : Bool) (overtaken : List Nat) :
    let r := s.rebuildReading n overtaken
    let v := State.rebuilt { s.checked r with rebuilds := [] } n r
    v.emit .contextFault .uncorrected n.val (v.ctx n).state.code (if dropped then 1 else 0) =
      s.afterRebuild n dropped overtaken := by
  have findings := SameButFindings.checked s (s.rebuildReading n overtaken)
  have mapEntry : (s.checked (s.rebuildReading n overtaken)).mapEntryOf n = s.mapEntryOf n := by
    unfold State.mapEntryOf
    rw [findings.idMap]
  intro r v
  refine (rebuilt_emit (s.checked r) n r dropped).trans ?_
  dsimp only
  rw [rebuildRow_eq, mapEntry, findings.mapLookup, findings.idMap, afterRebuild_eq]
  dsimp only
  by_cases bad : r.spoilt
  · have isBad : r.bad = true := (Reading.bad_iff_spoilt r).mpr bad
    rw [if_pos bad, if_pos (by simp [isBad])]
    unfold State.rebuiltFields
    rw [if_pos isBad]
  · have isGood : r.bad = false := by
      rw [Bool.eq_false_iff]
      exact mt (Reading.bad_iff_spoilt r).mp bad
    have fields : (s.checked r).rebuiltFields n r = scannedCtx (correctedBytes (s.recordImage n)) := by
      unfold State.rebuiltFields
      rw [if_neg (by simp [isGood])]
      rfl
    rw [if_neg bad, fields, isGood, Bool.or_false]
    by_cases poisoned : ((s.checked r).ctx n).poisoned = true
    · rw [if_pos poisoned, if_pos poisoned]
    · rw [if_neg poisoned, if_neg poisoned]
      by_cases zero : (scannedCtx (correctedBytes (s.recordImage n))).identity = 0
      · rw [if_pos zero, if_pos zero, ← zero]
      · rw [if_neg zero, if_neg zero]
        split <;> rfl

/-- R184, R185: the read of a rebuild, up to the events that waited for it. -/
theorem run_rebuildRead {dropped : Bool} {waiting : List Waiter}
    (hr : s.rebuilds = [{ slot := n, dropped := dropped, waiting := waiting }]) : rebuildRead n s =
      forEach waiting (resume n) (s.afterRebuild n dropped (s.unansweredBeats n)) := by
  have findings := SameButFindings.checked s (s.rebuildReading n (s.unansweredBeats n))
  have none_left : (s.checked (s.rebuildReading n (s.unansweredBeats n))).rebuilds.filter (fun x => x.slot != n) = [] := by
    obtain ⟨m, c, f, k, e, l, checked⟩ := findings
    rw [checked]
    show s.rebuilds.filter _ = []
    rw [hr]
    simp
  unfold rebuildRead
  rw [run_get_bind, hr]
  simp only [List.find?_cons, beq_self_eq_true]
  unfold finishRebuild
  dsimp only
  rw [run_get_bind]
  show (checkReading (s.rebuildReading n (s.unansweredBeats n)) >>= fun _ => _) s = _
  rw [run_checkReading_bind, run_modify_bind, none_left, run_getCtx_bind, run_report_bind]
  exact congrArg (forEach waiting (resume n)) (afterRebuild_rebuilt ..)

theorem exec_rebuildReadDone {dropped : Bool} {waiting : List Waiter} (ho : s.op = .running)
    (hr : s.rebuilds = [{ slot := n, dropped := dropped, waiting := waiting }])
    (ht : forEach waiting (resume n) (s.afterRebuild n dropped (s.unansweredBeats n)) = .ok () t) :
    exec (.rebuildReadDone n) s = s.ends t := exec_running rfl ho ((run_rebuildRead hr).trans ht)

/-- Settles O58. -/
theorem scrubAndRebuildRead : Obligations.ScrubAndRebuildRead := by
  refine ⟨fun s d ho hd hr => ⟨fun hp => exec_running rfl ho ?_, fun hp hout => exec_running rfl ho ?_⟩,
    fun s r ho hr => exec_running rfl ho (run_scrubDone hr),
    fun s h ident n ho hq hw hm hr hp he hc ht hs => exec_keepalive_waits ho hq hw hm
      (run_contextSound_begins hr hp he hc ⟨hs, ht⟩ _), fun s n dropped ho hout hr => ?rebuild⟩
  · rw [run_scrubDue hd hr]
    exact run_if_neg (by simp [hp]) ..
  · rw [run_scrubDue hd hr, run_if_pos hp, run_modify]
    unfold State.scrubStart
    rw [unansweredBeats_idle hout]
  case rebuild =>
    have ended : exec (.rebuildReadDone n) s = s.ends (s.afterRebuild n dropped []) := by
      refine exec_rebuildReadDone ho hr ?_
      rw [unansweredBeats_idle hout]
      rfl
    rw [afterRebuild_eq] at ended
    dsimp only at ended
    intro image r u poisoned ends c
    refine ⟨fun hb => ?_, fun hb hp => ?_, fun hb hp => ⟨fun hi => ?_, fun hi hx => ?_, fun hi hx => ?_⟩⟩
    · rw [if_pos (by exact hb)] at ended
      exact ended
    · rw [if_neg (by exact hb), if_pos (by exact hp)] at ended
      exact ended
    all_goals rw [if_neg (by exact hb), if_neg (by exact (Bool.eq_false_iff.mp hp))] at ended
    · rw [if_pos (by exact hi)] at ended
      exact ended
    · obtain ⟨x, hx, other⟩ := hx
      rw [if_neg (by exact hi), if_pos (by rw [show s.mapLookup _ = _ from hx]; simpa using other)] at ended
      exact ended
    · rw [if_neg (by exact hi), if_neg] at ended
      · exact ended
      · cases hl : s.mapLookup c.identity with
        | none => simp
        | some x => simpa using hx x hl

end Sys2Proof.Machine
end

section
/-! SUPPORT. Writes of handset records: the bytes they enable, how they are sorted, the ones that are refused, and the ones
that are sent to memory. -/

namespace Sys2Proof.Machine

variable {s t : State} {c : Instr} {x : Transaction} {n : Slot} {w : List (Option Byte)} {d : List Byte}

/-! ### The bytes of a write -/

theorem anyEnabled_iff {lo hi : Nat} : anyEnabled w lo hi = true ↔ ∃ i b, lo ≤ i ∧ i < hi ∧ w[i]? = some (some b) := by
  unfold anyEnabled
  rw [List.any_eq_true]
  constructor
  · rintro ⟨o, ho, hs⟩
    obtain ⟨k, hk⟩ := List.mem_iff_getElem?.mp ho
    obtain ⟨b, rfl⟩ := Option.isSome_iff_exists.mp hs
    rw [List.getElem?_drop, List.getElem?_take] at hk
    split at hk
    · exact ⟨lo + k, b, by omega, by assumption, hk⟩
    · cases hk
  · rintro ⟨i, b, hlo, hhi, hb⟩
    refine ⟨some b, List.mem_iff_getElem?.mpr ⟨i - lo, ?_⟩, rfl⟩
    rw [List.getElem?_drop, List.getElem?_take, show lo + (i - lo) = i by omega, if_pos hhi, hb]

theorem anyEnabled_eq_false_iff {lo hi : Nat} :
    anyEnabled w lo hi = false ↔ ∀ i b, lo ≤ i → i < hi → w[i]? ≠ some (some b) := by
  rw [← Bool.not_eq_true, anyEnabled_iff]
  push Not
  rfl

/-- A run within one that has no enabled byte has none. -/
theorem anyEnabled_within {lo hi lo' hi' : Nat} (h : anyEnabled w lo hi = false) (hl : lo ≤ lo') (hh : hi' ≤ hi) :
    anyEnabled w lo' hi' = false := by
  rw [anyEnabled_eq_false_iff] at h ⊢
  exact fun i b h1 h2 => h i b (hl.trans h1) (h2.trans_le hh)

theorem join_eq_none {i : Nat} (h : ∀ b, w[i]? ≠ some (some b)) : (w[i]?).join = none := by
  cases hw : w[i]? with
  | none => rfl
  | some o =>
    cases o with
    | none => rfl
    | some b => exact absurd hw (h b)

theorem getElem?_bytesFor {addr size i : Nat} (hi : i < size) : (bytesFor x addr size)[i]? = some (writtenAt x (addr + i)) := by
  unfold bytesFor
  rw [List.getElem?_map, List.getElem?_range hi]
  rfl

/-! ### The record a write falls in -/

@[simp] theorem takeAtPort_handsetAddr (s : State) (x : Transaction) (n : Slot) :
    (s.takeAtPort x).handsetAddr n = s.handsetAddr n := by
  unfold State.handsetAddr; rw [takeAtPort_map]

@[simp] theorem takeAtPort_headAddr (s : State) (x : Transaction) (h : Head) :
    (s.takeAtPort x).headAddr h = s.headAddr h := by
  unfold State.headAddr; rw [takeAtPort_map]

@[simp] theorem takeAtPort_ctx (s : State) (x : Transaction) (n : Slot) : (s.takeAtPort x).ctx n = s.ctx n := ctx_setPort ..

@[simp] theorem takeAtPort_rebuilding (s : State) (x : Transaction) (n : Slot) :
    (s.takeAtPort x).rebuilding n = s.rebuilding n := by
  unfold State.rebuilding State.takeAtPort; rw [setPort_rebuilds]

@[simp] theorem takeAtPort_mapLookup (s : State) (x : Transaction) (ident : Identity) :
    (s.takeAtPort x).mapLookup ident = s.mapLookup ident := by
  unfold State.mapLookup State.takeAtPort; rw [setPort_idMap]

theorem toSlot?_val (n : Slot) : toSlot? n.val = some n := dif_pos n.isLt

theorem toHead?_val (h : Head) : toHead? h.val = some h := dif_pos h.isLt

/-- R22: a CP transaction that lies in the Handset Record Array. -/
structure State.OnHandsets (s : State) (c : Instr) (x : Transaction) : Prop where
  carried : s.carries c x
  running : s.op = .running
  region : classify s.map x = some .handsetArray
  cp : x.initiator = .cp

theorem State.OnHandsets.exec (h : s.OnHandsets c x) (ht : takeHandsetRecord x (s.takeAtPort x) = .ok () t) :
    exec c s = s.ends t := by
  obtain ⟨⟨hx, hwf, ho, hw⟩, hop, hr, hi⟩ := h
  refine exec_taken hx hwf ho ?_
  rw [run_takeTransaction_running hw (by simpa using hop) (by simpa using hr)]
  exact (run_onlyFor hi _).trans ht

/-- R22: a CP write that lies in the Handset Record Array. -/
theorem State.OnHandsets.exec_write (h : s.OnHandsets c x) (hread : x.isRead = false)
    (ht : takeHandsetWrite x (s.takeAtPort x) = .ok () t) : Machine.exec c s = s.ends t := by
  refine h.exec ?_
  unfold takeHandsetRecord
  rw [if_neg (by simp [hread])]
  exact ht

/-- A transaction answered from the port is answered as if from the state before it. -/
theorem State.OnHandsets.answers (h : s.OnHandsets c x) (a : Answer) :
    (s.takeAtPort x).answered x.initiator a = s.answered .cp a := by
  rw [State.takeAtPort_answered, h.cp]

theorem State.writesRecord_on (h : s.writesRecord c x n) : s.OnHandsets c x :=
  let ⟨hc, ho, hr, _, hi, _⟩ := h
  ⟨hc, ho, hr, hi⟩

/-- R22: a CP write whose bytes lie in one record is sorted by them. -/
theorem exec_writesRecord (h : s.writesRecord c x n) (ht : sortHandsetWrite n x (s.takeAtPort x) = .ok () t) :
    exec c s = s.ends t := by
  obtain ⟨-, -, -, hread, -, hn⟩ := id h
  refine (State.writesRecord_on h).exec_write hread ?_
  unfold takeHandsetWrite
  rw [run_get_bind, takeAtPort_handsetAddr, hn]
  dsimp only
  rw [toSlot?_val]
  exact ht

theorem exec_writesRecord_refused (h : s.writesRecord c x n)
    (ht : sortHandsetWrite n x (s.takeAtPort x) = refuse x.initiator (s.takeAtPort x)) :
    exec c s = s.ends (s.answered .cp .refused) := by
  rw [← (State.writesRecord_on h).answers]
  exact exec_writesRecord h (ht.trans (run_refuse ..))

/-! ### The sorting (R27) -/

/-- R27: a write that reaches the check bytes, a live byte other than the media head, or the media head with a provisioned byte,
is refused. -/
theorem run_sortHandsetWrite_refused (h : let w := s.recordBytes x n
    anyEnabled w 56 64 ∨ anyEnabled w 32 35 ∨ anyEnabled w 36 56 ∨ (anyEnabled w 35 36 ∧ anyEnabled w 0 32)) :
    sortHandsetWrite n x s = refuse x.initiator s := by
  unfold sortHandsetWrite
  rw [run_get_bind]
  by_cases hb : (anyEnabled (s.recordBytes x n) 56 64 || anyEnabled (s.recordBytes x n) 32 mediaOffset ||
      anyEnabled (s.recordBytes x n) (mediaOffset + 1) 56) = true
  · exact run_if_pos hb ..
  · simp only [Bool.or_eq_true, not_or] at hb
    obtain ⟨⟨h1, h2⟩, h3⟩ := hb
    refine (run_if_neg (by simp only [Bool.or_eq_true, not_or]; exact ⟨⟨h1, h2⟩, h3⟩) ..).trans ?_
    obtain ⟨hm, hp⟩ := ((h.resolve_left h1).resolve_left h2).resolve_left h3
    obtain ⟨i, b, hlo, hhi, hw⟩ := anyEnabled_iff.mp hm
    obtain rfl : i = 35 := by omega
    have media : ((s.recordBytes x n)[mediaOffset]?).join = some b := congrArg Option.join hw
    rw [media]
    exact run_if_pos hp ..

/-- R27: a write of the media head byte alone. -/
theorem run_sortHandsetWrite_media {v : Byte} (hv : (s.recordBytes x n)[35]? = some (some v))
    (hw : ∀ i, i < 64 → i ≠ 35 → (s.recordBytes x n)[i]? = some none) :
    sortHandsetWrite n x s = takeMediaHead n x v s := by
  have off {lo hi : Nat} (hh : hi ≤ 64) (ha : hi ≤ 35 ∨ 35 < lo) : anyEnabled (s.recordBytes x n) lo hi = false :=
    anyEnabled_eq_false_iff.mpr fun i b h1 h2 => by simp [hw i (by omega) (by omega)]
  have media : ((s.recordBytes x n)[mediaOffset]?).join = some v := congrArg Option.join hv
  unfold sortHandsetWrite
  rw [run_get_bind]
  refine (run_if_neg (by
    rw [off (by decide) (by decide), off (by decide) (by decide), off (by decide) (by decide)]; simp) ..).trans ?_
  rw [media]
  exact run_if_neg (by rw [off (by decide) (by decide)]; simp) ..

/-- R27: a write of the provisioned half alone, with no rebuild of the slot in progress. -/
theorem run_sortHandsetWrite_provisioned (hw : anyEnabled (s.recordBytes x n) 32 64 = false) (hr : s.rebuilding n = false) :
    sortHandsetWrite n x s = takeProvisioned n x (s.recordBytes x n) s := by
  have media : ((s.recordBytes x n)[mediaOffset]?).join = none :=
    join_eq_none fun b => anyEnabled_eq_false_iff.mp hw _ b (by decide) (by decide)
  unfold sortHandsetWrite
  rw [run_get_bind]
  refine (run_if_neg (by
    rw [anyEnabled_within hw (by decide) (by decide), anyEnabled_within hw (by decide) (by decide),
      anyEnabled_within hw (by decide) (by decide)]; simp) ..).trans ?_
  rw [media]
  exact run_if_neg (by simp [hr]) ..

/-! ### The identity check (R29) -/

theorem run_identityHeld_free (h : s.identityFree n w d) : identityHeld n w d s = .ok false s := by
  unfold identityHeld
  by_cases ha : anyEnabled w 0 5 = true
  · rw [if_pos ha, run_bind]
    cases hm : s.mapLookup (BitVec.ofNat 40 (fieldAt d 0 5)) with
    | none =>
      rw [run_lookupIdentity_none hm]
      rfl
    | some e =>
      obtain ⟨slot, bad⟩ := h ha e hm
      rw [run_lookupIdentity (n := n) (by rw [hm, Option.map_some, slot, bad])]
      show EStateM.Result.ok (n != n) s = _
      rw [bne_self_eq_false]
  · rw [if_neg ha]
    rfl

theorem run_identityHeld_taken {e : MapEntry} (ha : anyEnabled w 0 5 = true)
    (hm : s.mapLookup (BitVec.ofNat 40 (fieldAt d 0 5)) = some e) (hn : e.slot ≠ n) (hp : e.parityBad = false) :
    identityHeld n w d s = .ok true s := by
  unfold identityHeld
  rw [if_pos ha, run_bind, run_lookupIdentity (n := e.slot) (by rw [hm, Option.map_some, hp])]
  show EStateM.Result.ok (e.slot != n) s = _
  rw [bne_iff_ne.mpr hn]

/-- R30: the write that goes to memory. -/
def sentWrite (n : Slot) (w : List (Option Byte)) (d : List Byte) : RecordWrite :=
  .handset n (downstreamBytes w d) (provisionedBeats.filter (beatTouched w)) (changeOf w d)

theorem run_finishProvisioned_free (h : s.identityFree n w d) : finishProvisioned n w d s =
    .ok () { s with merge := none, recordWrite := some (sentWrite n w d) } := by
  unfold finishProvisioned
  rw [run_bind, run_identityHeld_free h]
  rfl

theorem run_finishProvisioned_taken {e : MapEntry} (ha : anyEnabled w 0 5 = true)
    (hm : s.mapLookup (BitVec.ofNat 40 (fieldAt d 0 5)) = some e) (hn : e.slot ≠ n) (hp : e.parityBad = false) :
    finishProvisioned n w d s = .ok () (State.answered { s with merge := none } .cp .refused) := by
  unfold finishProvisioned
  rw [run_bind, run_identityHeld_taken ha hm hn hp]
  rfl

/-! ### A provisioned write (R28) -/

theorem noPartial_iff : provisionedBeats.any (beatPartial w) = false ↔ ∀ b < 4, beatPartial w b = false := by
  rw [← Bool.not_eq_true, List.any_eq_true]
  constructor
  · intro h b hb
    rw [← Bool.not_eq_true]
    exact fun hp => h ⟨b, by unfold provisionedBeats; simp; omega, hp⟩
  · rintro h ⟨b, hb, hp⟩
    rw [h b (by unfold provisionedBeats at hb; simp at hb; omega)] at hp
    cases hp

theorem run_takeProvisioned_poisoned (hp : (s.ctx n).poisoned = true) (hf : fullRewrite w = false) :
    takeProvisioned n x w s = refuse x.initiator s := by
  unfold takeProvisioned
  rw [run_getCtx_bind]
  exact run_if_pos (by simp [hp, hf]) ..

theorem run_takeProvisioned_partial (hp : (s.ctx n).poisoned = false ∨ fullRewrite w = true)
    (hb : ∃ b < 4, beatPartial w b = true) : takeProvisioned n x w s = .ok ()
      { s with scrubRead := s.scrubRead.map fun r => r.overtakenBy n w, merge := some (.handset n x) } := by
  have partly : provisionedBeats.any (beatPartial w) = true := by
    rw [← Bool.not_eq_false, noPartial_iff]
    obtain ⟨b, hlt, hb⟩ := hb
    exact fun h => by simp [h b hlt] at hb
  unfold takeProvisioned
  rw [run_getCtx_bind]
  refine (run_if_neg (by rcases hp with hp | hp <;> simp [hp]) ..).trans ((run_if_pos partly ..).trans ?_)
  rfl

theorem run_takeProvisioned_whole (hp : (s.ctx n).poisoned = false ∨ fullRewrite w = true)
    (hb : ∀ b < 4, beatPartial w b = false) : takeProvisioned n x w s =
      (do finishProvisioned n w (w.map fun b : Option Byte => b.getD 0)
          if (← get).recordWrite.isSome then noteTaken n w) s := by
  have whole : ¬ provisionedBeats.any (beatPartial w) = true := by simp [noPartial_iff.mpr hb]
  unfold takeProvisioned
  rw [run_getCtx_bind]
  exact (run_if_neg (by rcases hp with hp | hp <;> simp [hp]) ..).trans (run_if_neg whole ..)

/-- Settles O24, by the record numbers and then by the sort of the write. -/
theorem handsetWriteRefusals : Obligations.HandsetWriteRefusals := by
  intro s c x hc ho hr hread hi
  have on : s.OnHandsets c x := ⟨hc, ho, hr, hi⟩
  refine ⟨fun hnone => ?_, fun ⟨p, q, hp, hq, hne⟩ => ?_, fun n hn => ?_⟩
  · rw [← on.answers]
    refine on.exec_write hread ?_
    unfold takeHandsetWrite
    rw [run_get_bind, hnone]
    rfl
  · rw [← on.answers]
    refine on.exec_write hread ?_
    unfold takeHandsetWrite
    rw [run_get_bind, takeAtPort_handsetAddr]
    have member {p : Nat × Byte} (hp : p ∈ enabled x) : (p.1 - s.handsetAddr 0) / 64 ∈
        recordNumbers (recordOffsets (s.handsetAddr 0) 64 ((enabled x).map Prod.fst)) := by
      unfold recordNumbers recordOffsets
      rw [List.mem_dedup, List.map_map, List.map_map]
      exact List.mem_map.mpr ⟨p, hp, rfl⟩
    have mp := member hp
    have mq := member hq
    generalize recordNumbers (recordOffsets (s.handsetAddr 0) 64 ((enabled x).map Prod.fst)) = l at mp mq ⊢
    match l, mp, mq with
    | [r], mp, mq => exact absurd ((List.mem_singleton.mp mp).trans (List.mem_singleton.mp mq).symm) hne
    | _ :: _ :: _, _, _ => exact run_refuse ..
  · refine ⟨fun h => exec_writesRecord_refused hn (run_sortHandsetWrite_refused (by simpa [State.recordBytes] using h)),
      fun hw hre hp hf => exec_writesRecord_refused hn ?_, fun hw hre hp hb ha hnone hm hsome hmerge => ?_⟩
    · rw [run_sortHandsetWrite_provisioned (by simpa [State.recordBytes] using hw) (by simpa using hre)]
      exact run_takeProvisioned_poisoned (by simpa using hp) (by simpa [State.recordBytes] using hf)
    · rw [← on.answers]
      refine exec_writesRecord hn ?_
      have bytes : (s.takeAtPort x).recordBytes x n = s.recordBytes x n := by simp [State.recordBytes]
      obtain ⟨e, he⟩ := Option.isSome_iff_exists.mp hsome
      obtain ⟨slot, sound⟩ := hm e he
      rw [run_sortHandsetWrite_provisioned (by rw [bytes]; exact hw) (by simpa using hre), bytes,
        run_takeProvisioned_whole (by simpa using hp) hb, run_bind, run_finishProvisioned_taken ha (by simpa using he) slot sound,
        hi]
      have idle : ({ s.takeAtPort x with merge := none } : State) = s.takeAtPort x := by
        have : (s.takeAtPort x).merge = none := (setPort_merge ..).trans hmerge
        rw [← this]
      have quiet : ((s.takeAtPort x).answered .cp .refused).recordWrite = none :=
        (setPort_recordWrite ..).trans ((setPort_recordWrite ..).trans hnone)
      dsimp only
      rw [idle, run_get_bind, quiet]
      rfl

end Sys2Proof.Machine
end

section
/-! SUPPORT. Provisioned writes: the bytes that go to memory, the change that is handed over, and merges. -/

namespace Sys2Proof.Machine

variable {s t : State} {c : Instr} {x : Transaction} {n : Slot} {w : List (Option Byte)} {d : List Byte}

/-! ### The write that goes to memory (R30) -/

theorem getElem?_downstreamBytes {i : Nat} (hi : i < 64) : (downstreamBytes w d)[i]? = some (
    if i < 32 then if beatTouched w (i / 8) then some (byteAt d i) else none
    else if 56 ≤ i ∧ i < 60 then if beatTouched w (i - 56) then some (checkByte (beatAt d (8 * (i - 56)))) else none
    else if i = markerOffset ∧ fullRewrite w then some 0 else none) := by
  unfold downstreamBytes
  rw [List.getElem?_map, List.getElem?_range hi]
  rfl

theorem sentBytes_downstreamBytes (w : List (Option Byte)) (d : List Byte) : SentBytes w d (downstreamBytes w d) where
  length := by simp [downstreamBytes]
  data b hb j hj := by
    rw [getElem?_downstreamBytes (by omega), if_pos (by omega), show (8 * b + j) / 8 = b by omega]
  live i hlo hhi := by
    rw [getElem?_downstreamBytes (by omega), if_neg (by omega), if_neg (by omega),
      if_neg (by simp only [markerOffset]; omega)]
  check b hb := by
    rw [getElem?_downstreamBytes (by omega), if_neg (by omega), if_pos (by omega), show 56 + b - 56 = b by omega]
  marker := by
    rw [getElem?_downstreamBytes (by omega), if_neg (by omega), if_neg (by omega)]
    simp [markerOffset]
  rest i hlo hhi := by
    rw [getElem?_downstreamBytes (by omega), if_neg (by omega), if_neg (by omega),
      if_neg (by simp only [markerOffset]; omega)]

/-- R29: the policy that the low two bits of a byte name. -/
theorem policyOf_eq (b : Byte) : policyOf b = if b &&& 3 = 0 then .auto else if b &&& 3 = 1 then .manual else .locked := by
  have low : (b &&& 3).toNat = b.toNat % 4 := by
    rw [BitVec.toNat_and]
    exact Nat.and_two_pow_sub_one_eq_mod b.toNat 2
  have named (k : Nat) (hk : k < 256) : b &&& 3 = BitVec.ofNat 8 k ↔ b.toNat % 4 = k := by
    rw [← low, BitVec.toNat_eq, BitVec.toNat_ofNat, Nat.mod_eq_of_lt hk]
  have auto := named 0 (by decide)
  have manual := named 1 (by decide)
  unfold policyOf
  simp only [show (0 : Byte) = BitVec.ofNat 8 0 from rfl, show (1 : Byte) = BitVec.ofNat 8 1 from rfl, auto, manual]
  have bound : b.toNat % 4 < 4 := Nat.mod_lt _ (by decide)
  generalize b.toNat % 4 = k at bound ⊢
  interval_cases k <;> rfl

theorem namedFields_changeOf (w : List (Option Byte)) (d : List Byte) : NamedFields w d (changeOf w d) where
  identity := rfl
  cls := rfl
  group := rfl
  policy := by rw [← policyOf_eq]; rfl
  code := rfl
  priority := rfl
  full := rfl

/-! ### A merge (R31) -/

theorem length_leBytes (k v : Nat) : (leBytes k v).length = k := by
  induction k generalizing v with
  | zero => rfl
  | succ k ih => exact congrArg (· + 1) (ih _)

theorem byteAt_append {l r : List Byte} {i : Nat} (h : i < l.length) : byteAt (l ++ r) i = byteAt l i := by
  unfold byteAt
  rw [List.getD_eq_getElem?_getD, List.getD_eq_getElem?_getD, List.getElem?_append_left h]

theorem byteAt_append_right {l r : List Byte} {i : Nat} (h : l.length ≤ i) : byteAt (l ++ r) i = byteAt r (i - l.length) := by
  unfold byteAt
  rw [List.getD_eq_getElem?_getD, List.getD_eq_getElem?_getD, List.getElem?_append_right h]

/-- A byte of a run of beats is the byte of its beat. -/
theorem byteAt_beats (f : Nat → Beat) (l : List Nat) {i : Nat} (h : i < 8 * l.length) :
    byteAt (l.flatMap fun b => beatBytes (f b)) i = byteAt (beatBytes (f (l.getD (i / 8) 0))) (i % 8) := by
  induction l generalizing i with
  | nil => simp at h
  | cons b rest ih =>
    have eight : (beatBytes (f b)).length = 8 := length_leBytes ..
    rw [List.flatMap_cons]
    by_cases hi : i < 8
    · rw [byteAt_append (by omega), show i / 8 = 0 by omega, show i % 8 = i by omega]
      rfl
    · rw [byteAt_append_right (by omega), eight, ih (by simp at h; omega),
        show i / 8 = (i - 8) / 8 + 1 by omega, show (i - 8) % 8 = i % 8 by omega]
      rfl

/-- R31: the record after a merge is the write laid over the corrected record. -/
theorem mergedBytes_eq (n : Slot) (image : List Byte) (w : List (Option Byte)) :
    mergedBytes (mergeReading n image w) w = overlaid w (correctedBytes image) := by
  unfold mergedBytes overlaid
  refine List.map_congr_left fun i hi => ?_
  have bound : i < 32 := List.mem_range.mp hi
  have beat : [0, 1, 2, 3].getD (i / 8) 0 = i / 8 := by
    have : i / 8 < 4 := by omega
    generalize i / 8 = k at this ⊢
    interval_cases k <;> rfl
  unfold correctedBytes
  rw [byteAt_beats _ _ (by simp; omega), beat, Reading.data_eq]
  rfl

theorem SameButFindings.merge (h : SameButFindings s t) : t.merge = s.merge := by
  obtain ⟨m, c, f, k, e, l, rfl⟩ := h; rfl

theorem State.identityFree_of (h : s.identityFree n w d) (hf : SameButFindings s t) : t.identityFree n w d :=
  fun ha e he => h ha e (by rwa [hf.mapLookup] at he)

/-- R31: a merge whose beats read well, of a record that is not poisoned or is rewritten in full. -/
theorem run_finishMerge (hb : ¬ (mergeReading n (s.recordImage n) (s.recordBytes x n)).spoilt)
    (hp : ((s.checked (mergeReading n (s.recordImage n) (s.recordBytes x n))).ctx n).poisoned = false ∨
      fullRewrite (s.recordBytes x n) = true) : finishMerge n x s =
    finishProvisioned n (s.recordBytes x n) (overlaid (s.recordBytes x n) (correctedBytes (s.recordImage n)))
      (s.checked (mergeReading n (s.recordImage n) (s.recordBytes x n))) := by
  unfold finishMerge
  rw [run_get_bind, run_checkReading_bind]
  refine (run_if_neg (mt (Reading.bad_iff_spoilt _).mp hb) ..).trans ?_
  rw [run_getCtx_bind, mergedBytes_eq]
  exact run_if_neg (by rcases hp with hp | hp <;> simp [hp]) ..

/-- R31: a merge that is refused by what its reading finds. -/
theorem run_finishMerge_refused (h : (mergeReading n (s.recordImage n) (s.recordBytes x n)).spoilt ∨
      ((s.checked (mergeReading n (s.recordImage n) (s.recordBytes x n))).ctx n).poisoned = true ∧
        fullRewrite (s.recordBytes x n) = false) : finishMerge n x s = .ok ()
    (State.answered { s.checked (mergeReading n (s.recordImage n) (s.recordBytes x n)) with merge := none } .cp .refused) := by
  unfold finishMerge
  rw [run_get_bind, run_checkReading_bind]
  by_cases hb : (mergeReading n (s.recordImage n) (s.recordBytes x n)).bad = true
  · exact run_if_pos hb ..
  · obtain ⟨hp, hf⟩ := h.resolve_left (mt (Reading.bad_iff_spoilt _).mpr hb)
    refine (run_if_neg hb ..).trans ?_
    rw [run_getCtx_bind]
    exact run_if_pos (by simp [hp, hf]) ..

theorem exec_mergeReadDone (ho : s.op = .running) (hm : s.merge = some (.handset n x)) (ht : finishMerge n x s = .ok () t) :
    exec .mergeReadDone s = s.ends t := by
  refine exec_running (c := .mergeReadDone) rfl ho ?_
  unfold mergeRead
  rw [run_get_bind, hm]
  exact ht

/-- Settles O25: a whole write is sent at once, one that leaves a beat incomplete begins a merge, and the merge is sent or refused. -/
theorem provisionedWriteIsSent : Obligations.ProvisionedWriteIsSent := by
  refine ⟨fun s c x n ⟨hn, hre, hw, hp⟩ hmerge => ?_, fun s x n ho hm => ?_⟩
  · have bytes : (s.takeAtPort x).recordBytes x n = s.recordBytes x n := by simp [State.recordBytes]
    have low : anyEnabled (s.recordBytes x n) 32 64 = false :=
      anyEnabled_eq_false_iff.mpr fun i b hlo hhi => by simp [hw i hlo hhi]
    have sorted : sortHandsetWrite n x (s.takeAtPort x) = takeProvisioned n x (s.recordBytes x n) (s.takeAtPort x) := by
      rw [run_sortHandsetWrite_provisioned (by rw [bytes]; exact low) (by simpa using hre), bytes]
    have scrub : (s.takeAtPort x).scrubRead = s.scrubRead := setPort_scrubRead ..
    have idle : ({ s.takeAtPort x with merge := none } : State) = s.takeAtPort x := by
      have : (s.takeAtPort x).merge = none := (setPort_merge ..).trans hmerge
      rw [← this]
    refine ⟨fun hb hf => ⟨_, provisionedBeats.filter (beatTouched (s.recordBytes x n)), _, sentBytes_downstreamBytes ..,
      namedFields_changeOf .., exec_writesRecord hn ?_⟩,
      fun hb => exec_writesRecord hn ?_⟩
    · rw [sorted, run_takeProvisioned_whole (by simpa using hp) hb, run_bind,
        run_finishProvisioned_free (fun ha e he => hf ha e (by simpa using he))]
      generalize s.takeAtPort x = u at scrub idle ⊢
      rw [← scrub]
      show EStateM.Result.ok () _ = _
      congr 1
      exact congrArg (fun v : State => { v with
        scrubRead := u.scrubRead.map fun r : ScrubRead => r.overtakenBy n (s.recordBytes x n)
        recordWrite := some (sentWrite n (s.recordBytes x n) ((s.recordBytes x n).map fun b : Option Byte => b.getD 0)) }) idle
    · rw [sorted, run_takeProvisioned_partial (by simpa using hp) hb, scrub]
  · intro w image r d u
    have frame : SameButFindings s u := .checked ..
    refine ⟨fun h => exec_mergeReadDone ho hm (run_finishMerge_refused h), fun hb hp hf =>
      ⟨_, provisionedBeats.filter (beatTouched (s.recordBytes x n)), _, sentBytes_downstreamBytes ..,
        namedFields_changeOf .., exec_mergeReadDone ho hm ?_⟩, fun hb hp ha ⟨e, he, hn, hs⟩ =>
      exec_mergeReadDone ho hm ?_⟩
    · rw [run_finishMerge hb hp]
      exact run_finishProvisioned_free (State.identityFree_of hf frame)
    · rw [run_finishMerge hb hp]
      exact run_finishProvisioned_taken ha ((frame.mapLookup _).trans he) hn hs

end Sys2Proof.Machine
end

section
/-! SUPPORT. Record writes in memory: the end of poison, the provisioning change at Registration, and the values of a head. -/

namespace Sys2Proof.Machine

variable {s t : State} {n : Slot} {c : ProvChange} {ident : Identity}

/-! ### The notice of a full rewrite (R33, R182) -/

theorem run_endPoison (s : State) (n : Slot) : endPoison n s = .ok () (s.unpoisoned n) := rfl

/-- Memory has taken a record's write, and the notice has ended the poison: contexts differ in POISONED alone. -/
theorem State.takenWrite_frame (s : State) (n : Slot) (out : List (Option Byte)) (c : ProvChange) :
    ∃ m p f r, s.takenWrite n out c =
      { s.setCtx n { s.ctx n with poisoned := p } with mem := m, recordWrite := none, faultList := f, scrubRead := r } := by
  have same : s = s.setCtx n { s.ctx n with poisoned := (s.ctx n).poisoned } := by
    unfold State.setCtx State.ctx
    rw [show ({ s.ctxs[n] with poisoned := s.ctxs[n].poisoned } : HandsetCtx) = s.ctxs[n] from rfl]
    simp
  unfold State.takenWrite
  dsimp only
  generalize s.mem.writeEnabled (s.handsetAddr n) out = m
  split
  · exact ⟨m, false, _, _, rfl⟩
  · refine ⟨m, (s.ctx n).poisoned, s.faultList, s.scrubRead, ?_⟩
    rw [← same]

theorem takenWrite_idMap (s : State) (n : Slot) (out : List (Option Byte)) (c : ProvChange) :
    (s.takenWrite n out c).idMap = s.idMap := by
  obtain ⟨m, p, f, r, e⟩ := s.takenWrite_frame n out c
  rw [e]
  rfl

theorem State.readable.takenWrite (h : s.readable n) (out : List (Option Byte)) (c : ProvChange) :
    (s.takenWrite n out c).readable n := by
  obtain ⟨m, p, f, r, e⟩ := s.takenWrite_frame n out c
  rw [e]
  exact ⟨h.1, (congrArg HandsetCtx.ctxParityBad (ctx_setCtx ..)).trans h.2⟩

theorem State.undamaged.takenWrite (h : s.undamaged) (n : Slot) (out : List (Option Byte)) (c : ProvChange) :
    (s.takenWrite n out c).undamaged := by
  obtain ⟨m, p, f, r, e⟩ := s.takenWrite_frame n out c
  rw [e]
  have after := h.setCtx n (c := { s.ctx n with poisoned := p }) (h.contexts n).2
  exact ⟨after.contexts, after.pools, after.entries⟩

/-- R30, R33: a record write that memory takes is handed over and answered. -/
theorem exec_recordWriteTaken {out : List (Option Byte)} {beats : List Nat} (ho : s.op = .running)
    (hw : s.recordWrite = some (.handset n out beats c)) (hr : s.readable n)
    (ht : takeChange n c (s.takenWrite n out c) = .ok () t) :
    exec .recordWriteTaken s = s.ends (t.answered .cp (.done [])) := by
  have noticed : handsetWriteTaken n c
      { s with mem := s.mem.writeEnabled (s.handsetAddr n) out, recordWrite := none } = .ok () (t.answered .cp (.done [])) := by
    have sound := hr.takenWrite out c
    have handed : (do
        if ← contextSound n (some (.change c)) then
          takeChange n c
          answer .cp (.done []) : Act Unit) (s.takenWrite n out c) = .ok () (t.answered .cp (.done [])) := by
      rw [run_bind, run_contextSound sound.1 sound.2]
      show (takeChange n c >>= fun _ => answer .cp (.done [])) _ = _
      rw [run_bind, ht]
      rfl
    unfold State.takenWrite at handed
    unfold handsetWriteTaken
    generalize s.mem.writeEnabled (s.handsetAddr n) out = m at handed ⊢
    cases hf : c.full with
    | true =>
      simp only [hf, if_true] at handed
      exact handed
    | false =>
      simp only [hf, Bool.false_eq_true, if_false] at handed
      exact handed
  refine exec_running (c := .recordWriteTaken) rfl ho ?_
  unfold recordTaken
  rw [run_get_bind, hw]
  exact noticed

/-! ### Provisioning changes (R63 to R67) -/

theorem SameButCalls.idMap (h : SameButCalls s t) : t.idMap = s.idMap := by
  obtain ⟨_, _, _, _, _, _, _, rfl⟩ := h
  rfl

theorem State.entered_vacant (s : State) (n : Slot) : s.entered n .vacant id = s.setCtx n { HandsetCtx.vacant with
    identity := (s.ctx n).left.identity, cls := (s.ctx n).left.cls, group := (s.ctx n).left.group
    code := (s.ctx n).left.code, policy := (s.ctx n).left.policy, priority := (s.ctx n).left.priority
    poisoned := (s.ctx n).left.poisoned, ctxParityBad := (s.ctx n).left.ctxParityBad } := by
  unfold State.entered HandsetCtx.entryActions HandsetCtx.left
  dsimp only [id]
  rw [HandsetCtx.applyStaged_eq]
  cases hc : (s.ctx n).state.inCall <;>
    simp [HandsetCtx.shaped, HandsetState.registered, HandsetState.inCall, qualityNotice, presenceNotice, HandsetCtx.vacant]

/-- R63, R64, R67: a slot takes an identity with the fields a change names. -/
theorem run_takeIdentity (h : c.identity.getD (s.ctx n).identity = ident) : takeIdentity n ident c s = .ok ()
    (State.setCtx { s with idMap := if ident = 0 then mapRemove s.idMap n else mapSet s.idMap n ident } n
      ((s.ctx n).renamed ident c)) := by
  have named (u : State) (hu : u.ctx n = s.ctx n) :
      (do enter n (if ident = 0 then .vacant else .provisioned)
          modCtx n fun x => { x.cacheAll c with accessFail := 0 } : Act Unit) u =
        .ok () (u.setCtx n ((s.ctx n).renamed ident c)) := by
    obtain ⟨k, g, p, q, st, left⟩ := (s.ctx n).left_frame
    rw [run_enter_bind, run_modCtx, ← h]
    by_cases hz : c.identity.getD (s.ctx n).identity = 0
    · rw [if_pos hz, State.entered_vacant, ctx_setCtx, setCtx_setCtx, hu]
      unfold HandsetCtx.renamed
      dsimp only
      rw [if_pos hz, left]
      rfl
    · rw [if_neg hz, State.entered_provisioned, ctx_setCtx, setCtx_setCtx, hu]
      unfold HandsetCtx.renamed
      dsimp only
      rw [if_neg hz, left]
      rfl
  exact named _ rfl

/-- R63: a context outside a call that takes an identity other than 0. -/
theorem HandsetCtx.renamed_outside {x : HandsetCtx} (hx : x.state.inCall = false) (hz : ident ≠ 0) :
    x.renamed ident c = x.provisionedWith ident c := by
  unfold HandsetCtx.renamed
  dsimp only
  rw [HandsetCtx.left_of_outside hx, if_neg hz]
  rfl

theorem HandsetCtx.takeFields_eq (x : HandsetCtx) (c : ProvChange) : x.takeFields c = x.fielded c := rfl

/-- R64: a teardown. -/
theorem run_tearDown (hs : s.undamaged) (h : c.identity.getD (s.ctx n).identity = ident) :
    let a := if (s.ctx n).state.inCall then s.dropped n 3 else if (s.ctx n).state = .queued then s.unqueued n else s
    let b := if (s.ctx n).state.registered then a.tell .detachOrder (a.orderDest n) n else a
    tearDown n ident c s = .ok ()
      (State.setCtx { b with idMap := if ident = 0 then mapRemove s.idMap n else mapSet s.idMap n ident } n
        ((s.ctx n).renamed ident c)) := by
  intro a b
  have kept : a.ctx n = s.ctx n ∧ a.idMap = s.idMap := by
    by_cases hc : (s.ctx n).state.inCall = true
    · have ended : a = s.dropped n 3 := if_pos hc
      rw [ended]
      exact ⟨(SameButCalls.dropped s n 3).ctx n, (SameButCalls.dropped s n 3).idMap⟩
    · by_cases hq : (s.ctx n).state = .queued
      · have ended : a = s.unqueued n := (if_neg hc).trans (if_pos hq)
        rw [ended]
        exact ⟨rfl, rfl⟩
      · have ended : a = s := (if_neg hc).trans (if_neg hq)
        rw [ended]
        exact ⟨rfl, rfl⟩
  obtain ⟨ctx_eq, map_eq⟩ := kept
  have renames (u : State) (hu : u.ctx n = s.ctx n) (hm : u.idMap = s.idMap) : takeIdentity n ident c u = .ok ()
      (State.setCtx { u with idMap := if ident = 0 then mapRemove s.idMap n else mapSet s.idMap n ident } n
        ((s.ctx n).renamed ident c)) := by
    rw [run_takeIdentity (by rw [hu]; exact h), hu, hm]
  have detached : (do
      if (s.ctx n).state.registered then orderDetach n
      takeIdentity n ident c : Act Unit) a = .ok ()
      (State.setCtx { b with idMap := if ident = 0 then mapRemove s.idMap n else mapSet s.idMap n ident } n
        ((s.ctx n).renamed ident c)) := by
    by_cases hg : (s.ctx n).state.registered = true
    · have told : b = a.tell .detachOrder (a.orderDest n) n := if_pos hg
      have frame := SameButCalls.tell a .detachOrder (a.orderDest n) n fun d => d
      rw [if_pos hg, run_bind, run_orderDetach, told]
      exact renames _ ((frame.ctx n).trans ctx_eq) (frame.idMap.trans map_eq)
    · have silent : b = a := if_neg hg
      rw [if_neg hg, silent]
      exact renames a ctx_eq map_eq
  unfold tearDown
  rw [run_getCtx_bind]
  by_cases hc : (s.ctx n).state.inCall = true
  · have not_queued : ¬ (s.ctx n).state = .queued := fun hq => by rw [hq] at hc; cases hc
    have ended : a = s.dropped n 3 := if_pos hc
    rw [ended] at detached
    refine (run_if_pos hc ..).trans ?_
    rw [run_bind, DropCause.run_dropCall hs.tablesRead]
    exact (run_if_neg not_queued ..).trans detached
  · refine (run_if_neg hc ..).trans ?_
    by_cases hq : (s.ctx n).state = .queued
    · have ended : a = s.unqueued n := (if_neg hc).trans (if_pos hq)
      rw [ended] at detached
      exact (run_if_pos hq ..).trans detached
    · have ended : a = s := (if_neg hc).trans (if_neg hq)
      rw [ended] at detached
      exact (run_if_neg hq ..).trans detached

theorem run_takeChange_quarantined (hq : (s.ctx n).state = .quarantined) : takeChange n c s = takeQuarantined n c s := by
  unfold takeChange
  rw [run_getCtx_bind]
  exact run_if_pos hq ..

theorem run_takeChange_renamed (hq : (s.ctx n).state ≠ .quarantined) (hi : c.identity = some ident)
    (hne : ident ≠ (s.ctx n).identity) : takeChange n c s =
      (if (s.ctx n).state = .vacant then takeIdentity n ident c else tearDown n ident c : Act Unit) s := by
  have named : c.identity.getD (s.ctx n).identity = ident := by rw [hi]; rfl
  unfold takeChange
  rw [run_getCtx_bind]
  refine (run_if_neg hq ..).trans ((run_if_pos (by rw [named]; exact hne) ..).trans ?_)
  rw [named]

theorem run_takeChange_same (hq : (s.ctx n).state ≠ .quarantined) (hi : c.identity.getD (s.ctx n).identity = (s.ctx n).identity) :
    takeChange n c s = (takeCode n c >>= fun _ => modCtx n fun x => x.takeFields c) s := by
  unfold takeChange
  rw [run_getCtx_bind]
  exact (run_if_neg hq ..).trans (run_if_neg (not_not.mpr hi) ..)

/-- R66: a change without an access code. -/
theorem run_takeChange_fields (hq : (s.ctx n).state ≠ .quarantined)
    (hi : c.identity.getD (s.ctx n).identity = (s.ctx n).identity) (hc : c.code = none) :
    takeChange n c s = .ok () (s.setCtx n ((s.ctx n).fielded c)) := by
  rw [run_takeChange_same hq hi]
  unfold takeCode
  rw [hc]
  rfl

/-- R65: an access code for a handset that is not barred. -/
theorem run_takeChange_code {code : BitVec 16} (hq : (s.ctx n).state ∉ [HandsetState.quarantined, .barred])
    (hi : c.identity.getD (s.ctx n).identity = (s.ctx n).identity) (hc : c.code = some code) :
    takeChange n c s = .ok () (s.setCtx n ({ s.ctx n with code := code }.fielded c)) := by
  have state : ((s.setCtx n { s.ctx n with code := code }).ctx n).state = (s.ctx n).state := by rw [ctx_setCtx]
  rw [run_takeChange_same (by simpa using fun h => hq (by simp [h])) hi]
  unfold takeCode
  rw [run_bind, hc]
  dsimp only
  rw [run_modCtx_bind, run_getCtx_bind, if_neg (by rw [state]; exact fun h => hq (by simp [h])), run_pure]
  dsimp only
  rw [run_modCtx, ctx_setCtx, setCtx_setCtx]
  rfl

/-- R65: an access code ends a bar. -/
theorem run_takeChange_unbarred {code : BitVec 16} (hb : (s.ctx n).state = .barred)
    (hi : c.identity.getD (s.ctx n).identity = (s.ctx n).identity) (hc : c.code = some code) :
    takeChange n c s =
      .ok () (s.setCtx n ({ (s.ctx n).away .provisioned with code := code, accessFail := 0 }.fielded c)) := by
  have state : ((s.setCtx n { s.ctx n with code := code }).ctx n).state = .barred := by rw [ctx_setCtx]; exact hb
  have outside : ({ s.ctx n with code := code, accessFail := 0 } : HandsetCtx).state.inCall = false := by
    dsimp only
    rw [hb]
    rfl
  rw [run_takeChange_same (by simp [hb]) hi]
  unfold takeCode
  rw [run_bind, hc]
  dsimp only
  rw [run_modCtx_bind, run_getCtx_bind, if_pos state, run_enterWith, State.entered_away _ n (by decide) (by rfl), ctx_setCtx,
    setCtx_setCtx, HandsetCtx.left_of_outside outside]
  dsimp only
  rw [run_modCtx, ctx_setCtx, setCtx_setCtx]
  rfl

/-- R135: the values of a head's record write. -/
theorem HeadCtx.provision_eq (x : HeadCtx) (capacity guard : Nat) : x.provision capacity guard =
    if x.state ∈ [HeadState.absent, .outOfService] then { x with capacity := capacity, guard := guard, staged := none }
    else if x.staged.getD (x.capacity, x.guard) = (capacity, guard) then x
    else { x with staged := some (capacity, guard) } := by
  unfold HeadCtx.provision
  simp only [List.mem_cons, List.not_mem_nil, or_false]

/-- Settles O26. -/
theorem recordWriteIsHandedOver : Obligations.RecordWriteIsHandedOver := by
  refine ⟨fun s n out beats c ho hw hr => ?_, fun s h out capacity guard ho hw => ?_⟩
  · intro u x
    refine ⟨fun ident hv hi hz hne => exec_recordWriteTaken ho hw hr ?_, fun hq hi hc =>
      exec_recordWriteTaken ho hw hr (run_takeChange_fields hq hi hc)⟩
    have outside : x.state.inCall = false := by rw [hv]; rfl
    have sound : (u.ctx n).state ≠ .quarantined := fun hq => by rw [show (u.ctx n).state = .vacant from hv] at hq; cases hq
    rw [run_takeChange_renamed sound hi hne]
    refine (run_if_pos hv ..).trans ((run_takeIdentity (by rw [hi]; rfl)).trans ?_)
    rw [if_neg hz, HandsetCtx.renamed_outside outside hz, takenWrite_idMap]
  · intro u x
    refine exec_running (c := .recordWriteTaken) rfl ho ?_
    unfold recordTaken
    rw [run_get_bind, hw, ← HeadCtx.provision_eq]
    rfl

/-- Settles O27, by the part of the change that ends something. -/
theorem provisioningChangesAct : Obligations.ProvisioningChangesAct := by
  intro s n out beats c ho hw hs u x done
  have hr := hs.contexts n
  have map_eq : u.idMap = s.idMap := takenWrite_idMap ..
  have runs {t : State} (ht : takeChange n c u = .ok () t) : done t := exec_recordWriteTaken ho hw hr ht
  refine ⟨fun ident hv hq hi hne => ?_, fun code hq hi hc => ⟨fun hb => runs (run_takeChange_code (by simpa using ⟨hq, hb⟩) hi hc),
    fun hb => runs (run_takeChange_unbarred hb hi hc)⟩, fun hq => ⟨fun hf => runs ?_, fun hf => ?_⟩⟩
  · intro a b
    rw [← map_eq]
    refine runs ?_
    rw [run_takeChange_renamed hq hi hne]
    exact (run_if_neg hv ..).trans (run_tearDown (hs.takenWrite n out c) (by rw [hi]; rfl))
  · rw [run_takeChange_quarantined hq]
    exact run_if_neg (by simp [hf]) ..
  · intro ident
    rw [← map_eq]
    refine runs ?_
    rw [run_takeChange_quarantined hq]
    exact (run_if_pos hf ..).trans (run_takeIdentity rfl)

end Sys2Proof.Machine
end

section
/-! SUPPORT. Work that does not look at the CP port: with another port it leaves the same state with that port. Media head
writes. -/

namespace Sys2Proof.Machine

variable {s t : State} {c : Instr} {x : Transaction} {n : Slot}

/-! ### The CP port replaced -/

/-- The state with another CP port. -/
def State.withCp (s : State) (p : Port) : State := { s with cpPort := p }

theorem State.takeAtPort_cp (hi : x.initiator = .cp) (s : State) :
    s.takeAtPort x = s.withCp { s.cpPort with outstanding := some x } := by
  unfold State.takeAtPort
  rw [hi]
  rfl

theorem withCp_answered (s : State) (p : Port) (a : Answer) : (s.withCp p).answered .cp a = s.answered .cp a := rfl

theorem takeEvent_withCp (s : State) (p : Port) (e : Event) : (s.withCp p).takeEvent e = (s.takeEvent e).withCp p := by
  unfold State.takeEvent
  rw [apply_ite (fun u : State => u.withCp p)]
  rfl

theorem emit_withCp (s : State) (p : Port) (k : EventKind) (v : Severity) (a b d : Nat) :
    (s.withCp p).emit k v a b d = (s.emit k v a b d).withCp p := takeEvent_withCp ..

theorem takeDirective_withCp (s : State) (p : Port) (d : Directive) :
    (s.withCp p).takeDirective d = (s.takeDirective d).withCp p := by
  unfold State.takeDirective
  dsimp only
  rw [apply_ite (fun u : State => u.withCp p), apply_ite (fun u : State => u.withCp p), ← emit_withCp]
  rfl

theorem tell_withCp (s : State) (p : Port) (k : DirectiveKind) (o : Option Head) (n : Slot) (f : Directive → Directive) :
    (s.withCp p).tell k o n f = (s.tell k o n f).withCp p := takeDirective_withCp ..

theorem granted_withCp (s : State) (p : Port) (e : EntryNo) (h : Head) (ch : Chan) :
    (s.withCp p).granted e h ch = (s.granted e h ch).withCp p := by
  unfold State.granted
  rw [show (s.withCp p).entry e = s.entry e from rfl]
  cases (s.entry e).txn with
  | none => rfl
  | some t =>
    dsimp only
    rw [← tell_withCp, ← tell_withCp]
    rfl

theorem drained_withCp (s : State) (p : Port) (h : Head) : (s.withCp p).drained h = (s.drained h).withCp p := by
  unfold State.drained
  rw [← emit_withCp]
  rfl

theorem freed_withCp (s : State) (p : Port) (h : Head) (ch : Chan) : (s.withCp p).freed h ch = (s.freed h ch).withCp p := by
  unfold State.freed
  rw [show (s.withCp p).head h = s.head h from rfl]
  dsimp only
  split
  · rw [← granted_withCp]
    rfl
  · rw [apply_ite (fun u : State => u.withCp p), ← drained_withCp]
    rfl
  · rfl

theorem released_withCp (s : State) (p : Port) (n : Slot) (h : Head) (ch : Chan) :
    (s.withCp p).released n h ch = (s.released n h ch).withCp p := by
  unfold State.released
  rw [apply_ite (fun u : State => u.withCp p), takeDirective_withCp, freed_withCp]
  rfl

theorem releasedAll_withCp (p : Port) (n : Slot) (cs : List (Head × Chan)) (s : State) :
    (s.withCp p).releasedAll n cs = (s.releasedAll n cs).withCp p := by
  induction cs generalizing s with
  | nil => rfl
  | cons q rest ih =>
    show ((s.withCp p).released n q.1 q.2).releasedAll n rest = ((s.released n q.1 q.2).releasedAll n rest).withCp p
    rw [released_withCp, ih]

theorem holdEnded_withCp (s : State) (p : Port) (e : EntryNo) (t : Handover) (media : Option Head) (detail : Nat) :
    (s.withCp p).holdEnded e t media detail = (s.holdEnded e t media detail).withCp p := by
  unfold State.holdEnded
  rw [← emit_withCp, ← releasedAll_withCp]
  rfl

/-! ### Checks of readings -/

theorem markerJudged_withCp (s : State) (p : Port) (r : Reading) :
    (s.withCp p).markerJudged r = (s.markerJudged r).withCp p := by
  unfold State.markerJudged
  dsimp only
  rw [apply_ite (fun u : State => u.withCp p), apply_ite (fun u : State => u.withCp p),
    apply_ite (fun u : State => u.withCp p), apply_ite (fun u : State => u.withCp p), ← emit_withCp]
  rfl

theorem accounted_withCp (s : State) (p : Port) (n : Slot) (b : Nat) (source : Source) :
    (s.withCp p).accounted n b source = (s.accounted n b source).withCp p := by
  unfold State.accounted
  dsimp only
  rw [apply_ite (fun u : State => u.withCp p), apply_ite (fun u : State => u.withCp p), ← emit_withCp, ← emit_withCp]
  rfl

theorem writeBack_withCp (s : State) (p : Port) (n : Slot) (b : Nat) (d : Beat) :
    (s.withCp p).writeBack n b d = (s.writeBack n b d).withCp p := rfl

theorem poisonedAt_withCp (s : State) (p : Port) (n : Slot) (b : Nat) (source : Source) :
    (s.withCp p).poisonedAt n b source = (s.poisonedAt n b source).withCp p := by
  unfold State.poisonedAt
  rw [← emit_withCp]
  rfl

theorem beatChecked_withCp (r : Reading) (p : Port) (q : State × Bool) (b : Nat) :
    State.beatChecked r (q.1.withCp p, q.2) b =
      ((State.beatChecked r q b).1.withCp p, (State.beatChecked r q b).2) := by
  obtain ⟨s, poisoned⟩ := q
  unfold State.beatChecked
  cases beatClass r.image b with
  | clean => rfl
  | correctable d =>
    cases poisoned with
    | true => rfl
    | false =>
      dsimp only
      rw [← accounted_withCp, apply_ite (fun u : State => u.withCp p)]
      rfl
  | uncorrectable =>
    cases poisoned with
    | true => rfl
    | false =>
      dsimp only
      split
      · rfl
      · rw [← poisonedAt_withCp]

theorem checked_withCp (s : State) (p : Port) (r : Reading) : (s.withCp p).checked r = (s.checked r).withCp p := by
  have beats (bs : List Nat) (q : State × Bool) : (bs.foldl (State.beatChecked r) (q.1.withCp p, q.2)).1 =
      (bs.foldl (State.beatChecked r) q).1.withCp p := by
    induction bs generalizing q with
    | nil => rfl
    | cons b rest ih =>
      rw [List.foldl_cons, List.foldl_cons, beatChecked_withCp]
      exact ih _
  unfold State.checked
  rw [markerJudged_withCp]
  exact beats r.beats (s.markerJudged r, byteAt r.image 60 != 0 || (s.ctx r.slot).poisoned)

/-! ### Media head writes (R35) -/

theorem run_slotEntry_open {e : EntryNo} {t : Handover} (ht : s.openTxn n = some (e, t)) (hp : (s.entry e).parityBad = false) :
    slotEntry n s = .ok (some (e, t)) s := by
  unfold State.openTxn at ht
  cases hx : (s.ctx n).txn with
  | none => simp [hx] at ht
  | some q =>
    obtain ⟨e', o⟩ := q
    have found : ((s.txnOf e').map fun t => (e', t)) = some (e, t) := by simpa [hx, State.txnOf] using ht
    obtain ⟨u, -, hu⟩ := Option.map_eq_some_iff.mp found
    obtain rfl : e' = e := congrArg Prod.fst hu
    rw [run_slotEntry hx hp, found]

/-- R158: the media head of a call with no hold in progress. -/
theorem run_mediaAcknowledgement_free (ht : (s.ctx n).txn = none) (h : Head) :
    mediaAcknowledgement n h s = .ok () (s.setCtx n { s.ctx n with media := some h }) := by
  unfold mediaAcknowledgement
  rw [run_bind, run_slotEntry_none ht]
  rfl

theorem run_mediaAcknowledgement_unswitched {e : EntryNo} {t : Handover} (ht : s.openTxn n = some (e, t))
    (hp : (s.entry e).parityBad = false) (hs : t.phase ≠ .switched) (h : Head) :
    mediaAcknowledgement n h s = .ok () (s.setCtx n { s.ctx n with media := some h }) := by
  unfold mediaAcknowledgement
  rw [run_bind, run_slotEntry_open ht hp]
  exact run_if_neg hs ..

/-- R157: a media acknowledgement ends the hold. -/
theorem run_mediaAcknowledgement_switched {e : EntryNo} {t : Handover} (ht : s.openTxn n = some (e, t))
    (hp : (s.entry e).parityBad = false) (hs : t.phase = .switched) (hu : s.TablesRead) (h : Head) :
    mediaAcknowledgement n h s = .ok () (s.holdEnded e t (some h) 1) := by
  unfold mediaAcknowledgement
  rw [run_bind, run_slotEntry_open ht hp]
  exact (run_if_pos hs ..).trans (run_endHold hu .acked (some h))

theorem run_takeMediaHead_other {v : Byte} (hr : s.readable n) (hv : v.toNat ≠ headCode (s.ctx n).serving) :
    takeMediaHead n x v s = refuse x.initiator s := by
  unfold takeMediaHead
  rw [run_bind, run_contextSound hr.1 hr.2]
  exact run_if_neg hv ..

theorem run_takeMediaHead_outside {v : Byte} (hr : s.readable n) (hv : v.toNat = headCode (s.ctx n).serving)
    (hc : (s.ctx n).state.inCall = false) : takeMediaHead n x v s = .ok () (s.answered x.initiator (.done [])) := by
  unfold takeMediaHead
  rw [run_bind, run_contextSound hr.1 hr.2]
  refine (run_if_pos hv ..).trans ?_
  cases (s.ctx n).serving with
  | none => rfl
  | some h => exact run_if_neg (by simp [hc]) ..

theorem run_takeMediaHead_inCall {v : Byte} {h : Head} (hr : s.readable n) (hv : v.toNat = h.val)
    (hh : (s.ctx n).serving = some h) (hc : (s.ctx n).state.inCall = true) (ht : mediaAcknowledgement n h s = .ok () t) :
    takeMediaHead n x v s = .ok () (t.answered x.initiator (.done [])) := by
  unfold takeMediaHead
  rw [run_bind, run_contextSound hr.1 hr.2]
  refine (run_if_pos (p := v.toNat = headCode (s.ctx n).serving) (by rw [hv, hh]; rfl) ..).trans ?_
  rw [hh]
  refine (run_if_pos hc ..).trans ?_
  rw [run_bind, ht]
  rfl

/-- Settles O28, by the serving head and the state of the call. -/
theorem mediaHeadWriteIsJudged : Obligations.MediaHeadWriteIsJudged := by
  intro s c x n v hn hr hv hw k
  have hi : x.initiator = .cp := hn.2.2.2.2.1
  have port := State.takeAtPort_cp hi s
  have media : sortHandsetWrite n x (s.takeAtPort x) = takeMediaHead n x v (s.takeAtPort x) := by
    have bytes : (s.takeAtPort x).recordBytes x n = s.recordBytes x n := by simp [State.recordBytes]
    exact run_sortHandsetWrite_media (by rw [bytes]; exact hv) (by rw [bytes]; exact hw)
  rw [port] at media
  have runs {t : State} (ht : takeMediaHead n x v (s.withCp { s.cpPort with outstanding := some x }) = .ok () t) :
      exec c s = s.ends t := exec_writesRecord hn (by rw [port, media]; exact ht)
  refine ⟨fun hne => runs ?_, fun he hc => runs ?_, fun h hh he => ⟨fun hc ht => runs ?_, fun hc e t ht hp =>
    ⟨fun hs => runs ?_, fun hs hu => runs ?_⟩⟩⟩
  · rw [run_takeMediaHead_other (by exact hr) (by exact hne), hi]
    rfl
  · rw [run_takeMediaHead_outside (by exact hr) (by exact he) (by exact hc), hi]
    rfl
  · have up : k.state.inCall = true := (by decide : ∀ st ∈ [HandsetState.active, .pinned], st.inCall = true) _ hc
    rw [run_takeMediaHead_inCall (by exact hr) he (by exact hh) (by exact up) (run_mediaAcknowledgement_free (by exact ht) h), hi]
    rfl
  · have up : k.state.inCall = true := by rw [hc]; rfl
    rw [run_takeMediaHead_inCall (by exact hr) he (by exact hh) (by exact up)
      (run_mediaAcknowledgement_unswitched (by exact ht) (by exact hp) hs h), hi]
    rfl
  · have up : k.state.inCall = true := by rw [hc]; rfl
    have tables : (s.withCp { s.cpPort with outstanding := some x }).TablesRead := ⟨hu.pools, hu.entries⟩
    rw [run_takeMediaHead_inCall (by exact hr) he (by exact hh) (by exact up)
      (run_mediaAcknowledgement_switched (by exact ht) (by exact hp) hs tables h), hi, holdEnded_withCp]
    rfl

end Sys2Proof.Machine
end

section
/-! SUPPORT. Composed reads of handset records, and the reads and writes of head records. -/

namespace Sys2Proof.Machine

variable {s t : State} {c : Instr} {x : Transaction} {h : Head}

/-! ### Composed reads (R23, R25) -/

theorem run_allSound {l : List Slot} (hl : ∀ n ∈ l, s.readable n) : allSound x l s = .ok true s := by
  induction l with
  | nil => rfl
  | cons n rest ih =>
    have sound := hl n (List.mem_cons_self ..)
    unfold allSound
    rw [run_bind, run_contextSound sound.1 sound.2]
    exact ih fun m hm => hl m (List.mem_cons_of_mem _ hm)

/-- The checks of the readings that cover a provisioned beat, one record after the other. -/
def State.checksOf (f : Slot → Reading) (s : State) (l : List Slot) : State :=
  l.foldl (fun u n => if (f n).beats = [] then u else u.checked (f n)) s

theorem run_checksOf (f : Slot → Reading) (l : List Slot) (s : State) :
    forEach ((l.map f).filter fun r => !r.beats.isEmpty) checkReading s = .ok () (s.checksOf f l) := by
  induction l generalizing s with
  | nil => rfl
  | cons n rest ih =>
    unfold State.checksOf
    rw [List.map_cons, List.foldl_cons]
    by_cases hb : (f n).beats = []
    · rw [List.filter_cons_of_neg (by simp [hb]), if_pos hb]
      exact ih s
    · rw [List.filter_cons_of_pos (by simp [hb]), if_neg hb]
      show (checkReading (f n) >>= fun _ => forEach ((rest.map f).filter fun r => !r.beats.isEmpty) checkReading) s = _
      rw [run_checkReading_bind]
      exact ih _

theorem checksOf_withCp (f : Slot → Reading) (l : List Slot) (s : State) (p : Port) :
    (s.withCp p).checksOf f l = (s.checksOf f l).withCp p := by
  induction l generalizing s with
  | nil => rfl
  | cons n rest ih =>
    unfold State.checksOf
    rw [List.foldl_cons, List.foldl_cons]
    by_cases hb : (f n).beats = []
    · rw [if_pos hb, if_pos hb]
      exact ih s
    · rw [if_neg hb, if_neg hb, checked_withCp]
      exact ih _

/-- The reading of a slot among the readings of several. -/
theorem find?_reading {f : Slot → Reading} (hf : ∀ n, (f n).slot = n) {l : List Slot} {n : Slot} (hn : n ∈ l) :
    (l.map f).find? (fun r => r.slot == n) = some (f n) := by
  induction l with
  | nil => cases hn
  | cons m rest ih =>
    rw [List.map_cons]
    by_cases hm : m = n
    · subst hm
      exact List.find?_cons_of_pos (by simp [hf])
    · rw [List.find?_cons_of_neg (by simpa [hf] using hm)]
      exact ih ((List.mem_cons.mp hn).resolve_left fun h => hm h.symm)

/-- The reading of one record by a CP read. -/
def State.cpReadingOf (s : State) (beats : List (Slot × Nat)) (n : Slot) : Reading :=
  cpReading n (s.recordImage n) ((beats.filter fun p => p.1 == n && decide (p.2 < 4)).map Prod.snd)

theorem State.cpReadings_eq (s : State) (beats : List (Slot × Nat)) :
    s.cpReadings beats = ((beats.map Prod.fst).dedup).map (s.cpReadingOf beats) := rfl

/-- R23: the data of a CP read, beat by beat. -/
theorem State.composed_eq (s u : State) (beats : List (Slot × Nat)) : u.composed (s.cpReadings beats) beats =
    beats.map fun p => if p.2 < 4 then correctedBeat (s.recordImage p.1) p.2
      else if p.2 < 7 then beatAt (u.ctx p.1).liveBytes (8 * (p.2 - 4)) else beatAt (s.recordImage p.1) 56 := by
  refine List.map_congr_left fun p hp => ?_
  rw [State.cpReadings_eq, find?_reading (fun _ => rfl) (List.mem_dedup.mpr (List.mem_map_of_mem hp))]
  rfl

/-- R25: what makes a CP read DONE_POISONED. -/
theorem State.cpReadings_poisoned (s : State) (beats : List (Slot × Nat)) :
    ((s.cpReadings beats).any fun r => r.marked || r.bad) = true ↔
      ∃ n ∈ (beats.map Prod.fst).dedup, byteAt (s.recordImage n) 60 ≠ 0 ∨
        ∃ b ∈ (beats.filter fun p => p.1 == n && decide (p.2 < 4)).map Prod.snd,
          beatClass (s.recordImage n) b = .uncorrectable := by
  rw [State.cpReadings_eq, List.any_map, List.any_eq_true]
  refine exists_congr fun n => and_congr_right fun _ => ?_
  rw [Function.comp_apply, Bool.or_eq_true, Reading.bad_iff_spoilt, Reading.marked_eq, bne_iff_ne]
  rfl

/-- R23, R25: the answer of a CP read, once its checks are done. -/
def State.readAs (s : State) (x : Transaction) (u : State) : State :=
  u.answered .cp (
    let data := (s.handsetBeats x).map fun p => if p.2 < 4 then correctedBeat (s.recordImage p.1) p.2
      else if p.2 < 7 then beatAt (u.ctx p.1).liveBytes (8 * (p.2 - 4)) else beatAt (s.recordImage p.1) 56
    if (s.cpReadings (s.handsetBeats x)).any fun r => r.marked || r.bad then .donePoisoned data else .done data)

theorem State.recordsRead_eq (s : State) (x : Transaction) : s.recordsRead x =
    s.readAs x (s.checksOf (s.cpReadingOf (s.handsetBeats x)) ((s.handsetBeats x).map Prod.fst).dedup) := by
  unfold State.recordsRead State.readAs
  exact congrArg (State.answered _ .cp) (if_congr (s.cpReadings_poisoned _).symm rfl rfl)

/-- R23, R25: a CP read of handset records whose contexts are sound. -/
theorem run_takeHandsetRead (hi : x.initiator = .cp) (hs : ∀ p ∈ s.handsetBeats x, s.readable p.1) :
    takeHandsetRead x s = .ok () (s.recordsRead x) := by
  have sound : ∀ n ∈ ((s.handsetBeats x).map Prod.fst).dedup, s.readable n := by
    intro n hn
    obtain ⟨p, hp, rfl⟩ := List.mem_map.mp (List.mem_dedup.mp hn)
    exact hs p hp
  have checks := run_checksOf (s.cpReadingOf (s.handsetBeats x)) ((s.handsetBeats x).map Prod.fst).dedup s
  rw [← State.cpReadings_eq] at checks
  unfold takeHandsetRead
  rw [run_get_bind, run_bind, run_allSound sound]
  show (forEach ((s.cpReadings (s.handsetBeats x)).filter fun r => !r.beats.isEmpty) checkReading >>= fun _ => _) s = _
  rw [run_bind, checks, hi, State.recordsRead_eq]
  unfold State.readAs
  rw [← State.composed_eq]
  rfl

theorem recordsRead_withCp (s : State) (p : Port) (x : Transaction) : (s.withCp p).recordsRead x = s.recordsRead x := by
  have checks : State.checksOf (s.cpReadingOf (s.handsetBeats x)) (s.withCp p) ((s.handsetBeats x).map Prod.fst).dedup =
    (s.checksOf (s.cpReadingOf (s.handsetBeats x)) ((s.handsetBeats x).map Prod.fst).dedup).withCp p := checksOf_withCp ..
  rw [State.recordsRead_eq, State.recordsRead_eq]
  exact (congrArg (State.readAs s x) checks :)

/-- Settles O22. -/
theorem handsetReadIsComposed : Obligations.HandsetReadIsComposed := by
  intro s c x hc ho hr hread hi hsound
  have on : s.OnHandsets c x := ⟨hc, ho, hr, hi⟩
  refine on.exec ?_
  unfold takeHandsetRecord
  rw [if_pos hread, State.takeAtPort_cp hi, ← recordsRead_withCp s { s.cpPort with outstanding := some x }]
  exact run_takeHandsetRead hi hsound

/-! ### Head records (R26, R36) -/

/-- R22: a CP transaction that lies in the Head Record Array. -/
theorem exec_onHeads (hc : s.carries c x) (ho : s.op = .running) (hr : classify s.map x = some .headArray)
    (hi : x.initiator = .cp) (ht : takeHeadRecord x (s.takeAtPort x) = .ok () t) : exec c s = s.ends t := by
  obtain ⟨hx, hwf, hout, hw⟩ := hc
  refine exec_taken hx hwf hout ?_
  rw [run_takeTransaction_running hw (by simpa using ho) (by simpa using hr)]
  exact (run_onlyFor hi _).trans ht

/-- R26: a CP read of head records whose Channel Pools read without fault. -/
theorem run_takeHeadRead (hp : ∀ h, (s.head h).poolParityBad = false) :
    takeHeadRead x s = .ok () (s.answered x.initiator (.done (s.headData x))) := by
  unfold takeHeadRead
  rw [run_get_bind, run_bind, run_forEach fun h _ => run_usePool (hp h)]
  rfl

/-- R26: the beat of a head record among the beats of a read. -/
theorem getElem?_headData {i b : Nat} (hi : i < x.beatCount) (ha : x.addr.toNat + 8 * i = s.headAddr h + 8 * b)
    (hb : b < 4) : (s.headData x)[i]? = some (s.headBeat h b) := by
  have place : x.addr.toNat + 8 * i - s.headAddr 0 = 32 * h.val + 8 * b := by
    rw [ha]
    unfold State.headAddr
    show _ + 32 * h.val + 8 * b - (_ + 32 * 0) = _
    omega
  have number : (32 * h.val + 8 * b) / 32 = h.val := by omega
  have offset : (32 * h.val + 8 * b) % 32 / 8 = b := by omega
  unfold State.headData recordOffsets beatAddrs
  rw [List.getElem?_map, List.getElem?_map, List.getElem?_map, List.getElem?_range hi]
  dsimp only [Option.map_some]
  rw [place, number, offset, toHead?_val]

theorem exec_writesHead (hw : s.writesHead c x h) (ht : sortHeadWrite h x (s.takeAtPort x) = .ok () t) :
    exec c s = s.ends t := by
  obtain ⟨hc, ho, hr, hread, hi, hn⟩ := hw
  refine exec_onHeads hc ho hr hi ?_
  unfold takeHeadRecord
  rw [if_neg (by simp [hread])]
  unfold takeHeadWrite
  rw [run_get_bind, takeAtPort_headAddr, hn]
  dsimp only
  rw [toHead?_val]
  exact ht

theorem run_finishHeadWrite_refused {bytes : List (Option Byte)} {capacity guard : Nat}
    (hr : 12 < capacity ∨ 4 < guard ∨ capacity < guard) :
    finishHeadWrite h bytes capacity guard s = .ok () (State.answered { s with merge := none } .cp .refused) := by
  unfold finishHeadWrite
  exact run_if_pos hr ..

theorem run_finishHeadWrite {bytes : List (Option Byte)} {capacity guard : Nat}
    (hc : capacity ≤ 12) (hg : guard ≤ 4) (hle : guard ≤ capacity) : finishHeadWrite h bytes capacity guard s =
      .ok () { s with merge := none, recordWrite := some (.head h bytes capacity guard) } := by
  unfold finishHeadWrite
  exact run_if_neg (by omega) ..

theorem byteAt_map_getD (w : List (Option Byte)) (i : Nat) :
    byteAt (w.map fun b => b.getD 0) i = ((w[i]?).join).getD 0 := by
  unfold byteAt
  rw [List.getD_eq_getElem?_getD, List.getElem?_map]
  rcases w[i]? with _ | _ | b <;> rfl

/-- R36: the write of a whole beat 0. -/
theorem run_sortHeadWrite_whole (hl : anyEnabled (bytesFor x (s.headAddr h) 32) 8 32 = false)
    (hb : beatWhole (bytesFor x (s.headAddr h) 32) 0 = true) : sortHeadWrite h x s =
      finishHeadWrite h ((bytesFor x (s.headAddr h) 32).take 8)
        ((((bytesFor x (s.headAddr h) 32)[0]?).join).getD 0).toNat
        ((((bytesFor x (s.headAddr h) 32)[1]?).join).getD 0).toNat s := by
  unfold sortHeadWrite
  rw [run_get_bind]
  refine (run_if_neg (by simp [hl]) ..).trans ((run_if_pos hb ..).trans ?_)
  rw [byteAt_map_getD, byteAt_map_getD]

/-- Settles O29: the read, the write and the merge. -/
theorem headRecordIsReadAndWritten : Obligations.HeadRecordIsReadAndWritten := by
  refine ⟨fun s c x hc ho hr hread hi hp => ?_, fun s c x h hw hmerge => ?_, fun s x h ho hm => ?_⟩
  · refine ⟨s.headData x, exec_onHeads hc ho hr hi ?_, fun i h b hlt ha hb => getElem?_headData hlt ha hb⟩
    unfold takeHeadRecord
    rw [if_pos hread, State.takeAtPort_cp hi, run_takeHeadRead (by exact hp), hi]
    rfl
  · intro w capacity guard
    have hi : x.initiator = .cp := hw.2.2.2.2.1
    have idle : ({ s.takeAtPort x with merge := none } : State) = s.takeAtPort x := by
      have : (s.takeAtPort x).merge = none := (setPort_merge ..).trans hmerge
      rw [← this]
    have refused : (s.takeAtPort x).answered .cp .refused = s.answered .cp .refused := by
      rw [State.takeAtPort_cp hi]
      rfl
    refine ⟨fun hl => ?_, fun hl hb => ⟨fun hbad => exec_writesHead hw ?_, fun hc hg hle => exec_writesHead hw ?_⟩,
      fun hl hb => exec_writesHead hw ?_⟩
    · rw [← refused]
      refine exec_writesHead hw ?_
      unfold sortHeadWrite
      rw [run_get_bind, takeAtPort_headAddr]
      refine (run_if_pos hl ..).trans ?_
      rw [hi]
      rfl
    · rw [run_sortHeadWrite_whole (by simpa using hl) (by simpa using hb), takeAtPort_headAddr,
        run_finishHeadWrite_refused hbad, idle, refused]
    · rw [run_sortHeadWrite_whole (by simpa using hl) (by simpa using hb), takeAtPort_headAddr,
        run_finishHeadWrite hc hg hle]
      generalize s.takeAtPort x = u at idle ⊢
      exact congrArg (fun v : State => EStateM.Result.ok () { v with recordWrite := some (.head h (w.take 8) capacity guard) }) idle
    · unfold sortHeadWrite
      rw [run_get_bind, takeAtPort_headAddr]
      exact (run_if_neg (by rw [Bool.not_eq_true]; exact hl) ..).trans (run_if_neg (by simpa [w] using hb) ..)
  · intro merged capacity guard
    have bytes : ((List.range 8).map fun i => (((bytesFor x (s.headAddr h) 8)[i]?).join).getD
        (byteAt (s.mem.readBytes (s.headAddr h) 8) i)) = (List.range 8).map merged := by
      refine List.map_congr_left fun i hi => ?_
      have bound : i < 8 := List.mem_range.mp hi
      rw [getElem?_bytesFor bound]
      unfold byteAt Memory.readBytes
      rw [List.getD_eq_getElem?_getD, List.getElem?_map, List.getElem?_range bound]
      rfl
    have finish : finishHeadMerge h x s = finishHeadWrite h ((List.range 8).map fun i => some (merged i)) capacity guard s := by
      unfold finishHeadMerge
      rw [run_get_bind, bytes, List.map_map]
      rfl
    have runs {t : State} (ht : finishHeadWrite h ((List.range 8).map fun i => some (merged i)) capacity guard s = .ok () t) :
        exec .headMergeReadDone s = s.ends t := by
      refine exec_running (c := .headMergeReadDone) rfl ho ?_
      unfold headMergeRead
      rw [run_get_bind, hm]
      exact finish.trans ht
    exact ⟨fun hbad => runs (run_finishHeadWrite_refused hbad), fun hc hg hle => runs (run_finishHeadWrite hc hg hle)⟩

end Sys2Proof.Machine
end

section
/-! SUPPORT. What waits for a rebuild: the state a rebuild leaves, and each kind of event handled against it. -/

namespace Sys2Proof.Machine

variable {s t v : State} {n : Slot} {h : Head} {ident : Identity} {dropped : Bool} {waiting : List Waiter}

/-! ### The state a rebuild leaves -/

/-- R175: the beats of a CP write that is under way. -/
theorem unansweredBeats_eq (hr : s.rebuilds = [{ slot := n, dropped := dropped, waiting := waiting }]) :
    s.unansweredBeats n = s.beatsUnderWay n waiting := by
  unfold State.unansweredBeats State.beatsUnderWay State.cpWaits
  rw [hr]
  cases s.cpPort.outstanding with
  | none => rfl
  | some x =>
    refine if_congr ?_ rfl rfl
    rw [List.any_cons, List.any_nil, Bool.or_false, Bool.or_eq_true, Bool.or_eq_true]
    exact or_assoc

/-- A slot that is VACANT, with no identity, PROVISIONED or QUARANTINED. -/
structure HandsetCtx.Rested (c : HandsetCtx) : Prop where
  state : c.state ∈ [HandsetState.vacant, .provisioned, .quarantined]
  unnamed : c.state = .vacant → c.identity = 0

/-- A context as a rebuild leaves it. -/
structure HandsetCtx.Rebuilt (c : HandsetCtx) : Prop extends c.Rested where
  sound : c.ctxParityBad = false
  tries : c.accessFail = 0
  alone : c.serving = none

theorem HandsetCtx.Rested.outside {c : HandsetCtx} (hc : c.Rested) : c.state.inCall = false :=
  (by decide : ∀ st ∈ [HandsetState.vacant, .provisioned, .quarantined], st.inCall = false) _ hc.state

theorem HandsetCtx.Rested.of_eq {c d : HandsetCtx} (hc : c.Rested) (hs : d.state = c.state) (hi : d.identity = c.identity) :
    d.Rested where
  state := by rw [hs]; exact hc.state
  unnamed h := by rw [hi]; exact hc.unnamed (hs ▸ h)

/-- A rebuild sets the slot's context from its record, with the identity and the state of one row. -/
theorem afterRebuild_cases (s : State) (n : Slot) (dropped : Bool) (overtaken : List Nat) :
    ∃ d i m st, s.afterRebuild n dropped overtaken = (s.checked (s.rebuildReading n overtaken)).rebuiltAs n dropped
      { scannedCtx d with identity := i } m st ∧ st ∈ [HandsetState.vacant, .provisioned, .quarantined] ∧
      (st = .vacant → i = 0) := by
  rw [afterRebuild_eq]
  dsimp only
  split_ifs with bad poisoned zero other
  · exact ⟨_, _, _, _, rfl, by simp, nofun⟩
  · exact ⟨_, _, _, _, rfl, by simp, nofun⟩
  · exact ⟨_, _, _, _, rfl, by simp, fun _ => zero⟩
  · exact ⟨_, _, _, _, rfl, by simp, nofun⟩
  · exact ⟨_, _, _, _, rfl, by simp, nofun⟩

theorem afterRebuild_ctx (s : State) (n : Slot) (dropped : Bool) (overtaken : List Nat) :
    ((s.afterRebuild n dropped overtaken).ctx n).Rebuilt := by
  obtain ⟨d, i, m, st, e, mem, unnamed⟩ := afterRebuild_cases s n dropped overtaken
  rw [e, State.rebuiltAs, (SameButCalls.emit ..).ctx, ctx_setCtx]
  exact { state := mem, unnamed := unnamed, sound := rfl, tries := rfl, alone := rfl }

/-- The check of a reading changes the context of its slot alone. -/
theorem checked_ctx_ne (s : State) (r : Reading) {m : Slot} (hm : m ≠ r.slot) : (s.checked r).ctx m = s.ctx m := by
  have emit (u : State) (k : EventKind) (v : Severity) (a b d : Nat) : (u.emit k v a b d).ctx m = u.ctx m :=
    (SameButCalls.emit ..).ctx m
  have judged : (s.markerJudged r).ctx m = s.ctx m := by
    unfold State.markerJudged
    dsimp only
    split_ifs
    · rfl
    · exact ctx_setCtx_ne _ _ hm
    · rw [emit]
      exact ctx_setCtx_ne _ _ hm
    · rfl
    · rfl
  have accounted (u : State) (b : Nat) : (u.accounted r.slot b r.source).ctx m = u.ctx m := by
    have counted : (u.findingCounted r.slot b r.source).ctx m = u.ctx m := emit ..
    rw [State.accounted_eq]
    split
    · rfl
    · split
      · exact (emit ..).trans counted
      · exact counted
  have beat (p : State × Bool) (b : Nat) : (State.beatChecked r p b).1.ctx m = p.1.ctx m := by
    obtain ⟨u, poisoned⟩ := p
    unfold State.beatChecked
    cases beatClass r.image b with
    | clean => rfl
    | correctable d =>
      cases poisoned with
      | true => rfl
      | false =>
        dsimp only
        rw [accounted]
        split <;> rfl
    | uncorrectable =>
      cases poisoned with
      | true => rfl
      | false =>
        dsimp only
        split
        · rfl
        · unfold State.poisonedAt
          rw [emit]
          exact ctx_setCtx_ne _ _ hm
  have beats (bs : List Nat) (p : State × Bool) : (bs.foldl (State.beatChecked r) p).1.ctx m = p.1.ctx m := by
    induction bs generalizing p with
    | nil => rfl
    | cons b rest ih => exact (ih _).trans (beat p b)
  exact (beats ..).trans judged

/-- What a rebuild leaves alone. -/
structure State.AfterRebuild (s : State) (n : Slot) (v : State) : Prop where
  rebuilds : v.rebuilds = []
  merge : v.merge = s.merge
  map : v.map = s.map
  others : ∀ m, m ≠ n → v.ctx m = s.ctx m

theorem afterRebuild_frame (s : State) (n : Slot) (dropped : Bool) (overtaken : List Nat) :
    s.AfterRebuild n (s.afterRebuild n dropped overtaken) := by
  obtain ⟨d, i, m, st, e, -, -⟩ := afterRebuild_cases s n dropped overtaken
  have findings := SameButFindings.checked s (s.rebuildReading n overtaken)
  have apart (k : Slot) (hk : k ≠ n) := checked_ctx_ne s (s.rebuildReading n overtaken) (m := k) hk
  rw [e]
  generalize s.checked (s.rebuildReading n overtaken) = u at findings apart
  unfold State.rebuiltAs
  refine ⟨takeEvent_rebuilds .., (takeEvent_merge ..).trans findings.merge, (takeEvent_map ..).trans ?_, fun k hk => ?_⟩
  · obtain ⟨m, c, f, k, e, l, rfl⟩ := findings
    rfl
  · rw [(SameButCalls.emit ..).ctx]
    exact (ctx_setCtx_ne _ _ hk).trans (apart k hk)

theorem State.AfterRebuild.rebuilding (hv : s.AfterRebuild n v) (m : Slot) : v.rebuilding m = false := by
  unfold State.rebuilding
  rw [hv.rebuilds]
  rfl

theorem State.AfterRebuild.handsetAddr (hv : s.AfterRebuild n v) (m : Slot) : v.handsetAddr m = s.handsetAddr m := by
  unfold State.handsetAddr
  rw [hv.map]

/-! ### Messages that waited -/

theorem HandsetCtx.Rested.sighted {c : HandsetCtx} (hc : c.Rested) (now : Time) : c.sighted now = c.sightedAt now := by
  have outside := hc.outside
  have not_barred : c.state ≠ .barred := fun hb => absurd hc.state (by rw [hb]; decide)
  unfold HandsetCtx.sighted HandsetCtx.sightedAt
  by_cases hq : c.state = .quarantined
  · simp [hq, HandsetState.inCall]
  · simp [hq, not_barred, outside]

theorem HandsetCtx.sightedAt_state (c : HandsetCtx) (now : Time) : (c.sightedAt now).state = c.state := by
  unfold HandsetCtx.sightedAt
  split <;> rfl

theorem HandsetCtx.sightedAt_identity (c : HandsetCtx) (now : Time) : (c.sightedAt now).identity = c.identity := by
  unfold HandsetCtx.sightedAt
  split <;> rfl

theorem HandsetCtx.Rested.sightedAt {c : HandsetCtx} (hc : c.Rested) (now : Time) : (c.sightedAt now).Rested :=
  hc.of_eq (c.sightedAt_state now) (c.sightedAt_identity now)

/-- R86, R167: a message of a PROVISIONED handset at its owner. -/
theorem run_takeBody_provisioned {body : HandsetMsg} (hb : ∀ code, body ≠ .attach code)
    (hc : (s.ctx n).state = .provisioned) : takeBody n h false body s = .ok () (match body with
      | .keepalive | .measurement _ | .callRequest | .dozeRequest | .callRelease => s.tell .detachOrder (some h) n
      | .access => (s.tell .channelRelease (some h) n).emit .staleAccess .none n.val h.val (s.ctx n).state.code
      | _ => s) := by
  have away : (s.ctx n).state.unattached = true := by rw [hc]; rfl
  have outside : (s.ctx n).state.inCall = false := by rw [hc]; rfl
  cases body with
  | attach code => exact absurd rfl (hb code)
  | keepalive | dozeRequest | callRequest | callRelease => exact run_takeBody_away (.inl (by simp)) away false
  | measurement m => exact run_takeBody_away (.inr ⟨m, rfl⟩) away false
  | attachConfirm => exact run_takeConfirm_ignored (by simp [hc])
  | detach => exact run_takeDetach_ignored (by simp [hc])
  | access => exact run_takeAccess_stale outside
  | revert => exact run_takeBody_outside (.inl rfl) outside false
  | channelRefused m => exact run_takeBody_outside (.inr ⟨m, rfl⟩) outside false

/-- R86: a message other than ATTACH that waited for the rebuild of its slot. -/
theorem run_handleMessage_rested {body : HandsetMsg} (hc : (s.ctx n).Rested) (hb : ∀ code, body ≠ .attach code)
    (d : Time) : handleMessage n h ident body d s = .ok () (s.unregisteredMessage n h body d) := by
  have state : ((s.setCtx n ((s.ctx n).sightedAt d)).ctx n).state = (s.ctx n).state := by
    rw [ctx_setCtx, HandsetCtx.sightedAt_state]
  have owned : handleMessage n h ident body d s = (do
      match (← getCtx n).state with
      | .vacant | .barred | .quarantined => pure ()
      | .lost =>
        recover n h body.kind
        takeBody n h true body
      | _ => takeBody n h false body : Act Unit) (s.setCtx n ((s.ctx n).sightedAt d)) := by
    unfold handleMessage
    rw [run_modCtx_bind, hc.sighted]
    cases body with
    | attach code => exact absurd rfl (hb code)
    | _ => rfl
  rw [owned, run_getCtx_bind, state]
  unfold State.unregisteredMessage
  dsimp only
  have states := hc.state
  simp only [List.mem_cons, List.not_mem_nil, or_false] at states
  rcases states with hv | hp | hq
  · rw [if_pos (by rw [hv]; decide), hv]
    rfl
  · rw [if_neg (not_not.mpr hp)]
    have taken := run_takeBody_provisioned (h := h) hb (state.trans hp)
    rw [state, hp] at taken
    rw [hp]
    refine taken.trans ?_
    cases body <;> rfl
  · rw [if_pos (by rw [hq]; decide), hq]
    rfl

theorem unregisteredMessage_ctx (s : State) (n : Slot) (h : Head) (body : HandsetMsg) (d : Time) :
    (s.unregisteredMessage n h body d).ctx n = (s.ctx n).sightedAt d := by
  unfold State.unregisteredMessage
  dsimp only
  split
  · exact ctx_setCtx ..
  · cases body <;>
      first
        | exact ctx_setCtx ..
        | exact ((SameButCalls.tell ..).ctx n).trans (ctx_setCtx ..)
        | exact (((SameButCalls.tell ..).trans (.emit ..)).ctx n).trans (ctx_setCtx ..)

/-! ### Requests that waited -/

theorem HandsetCtx.Rested.away {c : HandsetCtx} (hc : c.Rested) (hv : c.state ≠ .vacant) :
    c.state ∈ [HandsetState.provisioned, .barred, .quarantined, .queued, .offered] ∧ c.state.registered = false ∧
      c.state.forceRefusal = some .notRegistered :=
  (by decide : ∀ st ∈ [HandsetState.vacant, .provisioned, .quarantined], st ≠ .vacant →
    st ∈ [HandsetState.provisioned, .barred, .quarantined, .queued, .offered] ∧ st.registered = false ∧
      st.forceRefusal = some .notRegistered) _ hc.state hv

theorem run_takeReleaseCall_away (hc : (s.ctx n).state ∈ [HandsetState.provisioned, .barred, .quarantined, .queued, .offered]) :
    takeReleaseCall n s = .ok () (s.emit .requestRefused .none n.val 0x22 2) := by
  unfold takeReleaseCall
  rw [run_getCtx_bind]
  simp only [List.mem_cons, List.not_mem_nil, or_false] at hc
  rcases hc with hc | hc | hc | hc | hc <;> rw [hc] <;> rfl

/-- R51, R52: a request that waited for the rebuild of its slot is refused. -/
theorem run_handleRequest_rested {r : Request} (hc : (s.ctx n).Rested) (hr : r.slot? = some n) :
    handleRequest r s = .ok () (s.unregisteredRequest n r) := by
  unfold State.unregisteredRequest
  dsimp only
  by_cases hv : (s.ctx n).state = .vacant
  · rw [run_handleRequest_vacant hr hv, if_pos hv]
    cases r <;> cases hr <;> rfl
  · obtain ⟨away, unregistered, refusal⟩ := hc.away hv
    rw [run_handleRequest_slot hr hv, if_neg hv]
    cases r with
    | page m =>
      obtain rfl : m = n := Option.some.inj hr
      exact run_takePage_away away
    | releaseCall m =>
      obtain rfl : m = n := Option.some.inj hr
      exact run_takeReleaseCall_away away
    | unpin m =>
      obtain rfl : m = n := Option.some.inj hr
      exact run_takeUnpin_away away
    | detachHandset m =>
      obtain rfl : m = n := Option.some.inj hr
      exact run_takeDetachHandset_refused unregistered
    | forceHandover m target =>
      obtain rfl : m = n := Option.some.inj hr
      cases hcon : s.contained with
      | true => exact run_takeForceHandover_refused (State.forceRefusal_contained hcon)
      | false => exact run_takeForceHandover_refused (State.forceRefusal_state hcon refusal)
    | drainHead m => cases hr
    | restoreHead m => cases hr
    | clearFaultList => cases hr
    | ackFatal => cases hr

theorem unregisteredRequest_ctx (s : State) (n m : Slot) (r : Request) : (s.unregisteredRequest n r).ctx m = s.ctx m :=
  (SameButCalls.emit ..).ctx m

end Sys2Proof.Machine
end

section
/-! SUPPORT. What waits for a rebuild: provisioning changes and a transaction of the CP, and the events in their order. -/

namespace Sys2Proof.Machine

variable {s t v : State} {n : Slot} {h : Head} {ident : Identity} {dropped : Bool} {waiting : List Waiter} {c : ProvChange}
  {x : Transaction}

/-! ### Provisioning changes that waited -/

/-- R64: the teardown of a slot that is not registered, not queued and in no call. -/
theorem run_tearDown_away (hc : (s.ctx n).Rested) : tearDown n ident c s = takeIdentity n ident c s := by
  obtain ⟨not_queued, unregistered⟩ : (s.ctx n).state ≠ .queued ∧ (s.ctx n).state.registered = false :=
    (by decide : ∀ st ∈ [HandsetState.vacant, .provisioned, .quarantined],
      st ≠ .queued ∧ st.registered = false) _ hc.state
  unfold tearDown
  rw [run_getCtx_bind]
  exact (run_if_neg (by simp [hc.outside]) ..).trans
    ((run_if_neg not_queued ..).trans (run_if_neg (by simp [unregistered]) ..))

theorem HandsetCtx.renamed_rested (x : HandsetCtx) (ident : Identity) (c : ProvChange) : (x.renamed ident c).Rested := by
  unfold HandsetCtx.renamed
  dsimp only
  by_cases hz : ident = 0
  · rw [if_pos hz]
    exact ⟨List.mem_cons_self (a := HandsetState.vacant), fun _ => hz⟩
  · rw [if_neg hz]
    exact ⟨List.mem_cons_of_mem _ (List.mem_cons_self (a := HandsetState.provisioned)), nofun⟩

theorem HandsetCtx.fielded_kept (x : HandsetCtx) (c : ProvChange) :
    (x.fielded c).state = x.state ∧ (x.fielded c).identity = x.identity := by
  unfold HandsetCtx.fielded
  split
  · split <;> exact ⟨rfl, rfl⟩
  · exact ⟨rfl, rfl⟩

/-- R63 to R67: a change for a slot that is not registered. -/
theorem run_takeChange_rested (hc : (s.ctx n).Rested) (c : ProvChange) :
    takeChange n c s = .ok () (s.changed n c) ∧ ((s.changed n c).ctx n).Rested := by
  unfold State.changed
  dsimp only
  by_cases hq : (s.ctx n).state = .quarantined
  · rw [if_pos hq, run_takeChange_quarantined hq]
    by_cases hf : c.full = true
    · rw [if_pos hf, ctx_setCtx]
      exact ⟨(run_if_pos hf ..).trans (run_takeIdentity rfl), HandsetCtx.renamed_rested ..⟩
    · rw [if_neg hf, ctx_setCtx]
      have state : ((s.ctx n).recorded c).state = .quarantined := hq
      exact ⟨run_if_neg hf .., by rw [state]; decide, fun hv => by rw [state] at hv; cases hv⟩
  · rw [if_neg hq]
    by_cases hi : c.identity.getD (s.ctx n).identity = (s.ctx n).identity
    · rw [if_pos hi, ctx_setCtx]
      obtain ⟨state, identity⟩ := HandsetCtx.fielded_kept { s.ctx n with code := c.code.getD (s.ctx n).code } c
      refine ⟨?_, hc.of_eq state identity⟩
      cases hcode : c.code with
      | none => exact run_takeChange_fields hq hi hcode
      | some code =>
        have open_state : (s.ctx n).state ∉ [HandsetState.quarantined, .barred] := by
          have states := hc.state
          simp only [List.mem_cons, List.not_mem_nil, or_false] at states
          rcases states with hs | hs | hs <;> simp [hs] at hq ⊢
        exact run_takeChange_code open_state hi hcode
    · rw [if_neg hi]
      obtain ⟨ident, named⟩ : ∃ ident, c.identity = some ident := by
        cases hid : c.identity with
        | none => exact absurd (by rw [hid]; rfl) hi
        | some ident => exact ⟨ident, rfl⟩
      have new : ident ≠ (s.ctx n).identity := by rwa [named] at hi
      rw [run_takeChange_renamed hq named new, named]
      dsimp only [Option.getD_some]
      by_cases hv : (s.ctx n).state = .vacant
      · have nonzero : ident ≠ 0 := by rwa [hc.unnamed hv] at new
        rw [if_pos hv, if_pos hv, ctx_setCtx, ← HandsetCtx.renamed_outside hc.outside nonzero]
        exact ⟨run_takeIdentity (by rw [named]; rfl), HandsetCtx.renamed_rested ..⟩
      · rw [if_neg hv, if_neg hv, ctx_setCtx, run_tearDown_away hc]
        exact ⟨run_takeIdentity (by rw [named]; rfl), HandsetCtx.renamed_rested ..⟩

/-! ### The events in their order -/

/-- R185: an event that waited is handled, and leaves the slot as far from a registration as it was. -/
theorem run_resume_plain {w : Waiter} (hw : w.plain n) (hc : (s.ctx n).Rested) :
    resume n w s = .ok () (State.served n s w) ∧ ((State.served n s w).ctx n).Rested := by
  match w, hw with
  | .uplink (.handset h ident body) d, hw =>
    refine ⟨?_, ?_⟩
    · show (handleMessage n h ident body d >>= fun _ => popUplink) s = _
      rw [run_bind, run_handleMessage_rested hc hw]
      rfl
    · show ((s.unregisteredMessage n h body d).ctx n).Rested
      rw [unregisteredMessage_ctx]
      exact hc.sightedAt d
  | .request r, hw =>
    refine ⟨?_, ?_⟩
    · show (handleRequest r >>= fun _ => popRequest) s = _
      rw [run_bind, run_handleRequest_rested hc hw]
      rfl
    · show ((s.unregisteredRequest n r).ctx n).Rested
      rw [unregisteredRequest_ctx]
      exact hc
  | .change c, _ =>
    obtain ⟨changes, rested⟩ := run_takeChange_rested hc c
    refine ⟨?_, rested⟩
    show (takeChange n c >>= fun _ => answer .cp (.done [])) s = _
    rw [run_bind, changes]
    rfl

theorem run_resume_all (hw : ∀ w ∈ waiting, w.plain n) (hc : (s.ctx n).Rested) :
    forEach waiting (resume n) s = .ok () (waiting.foldl (State.served n) s) := by
  induction waiting generalizing s with
  | nil => rfl
  | cons w rest ih =>
    obtain ⟨served, rested⟩ := run_resume_plain (hw w (List.mem_cons_self ..)) hc
    show (resume n w >>= fun _ => forEach rest (resume n)) s = _
    rw [run_bind, served]
    exact ih (fun u hu => hw u (List.mem_cons_of_mem _ hu)) rested

theorem run_resume_one (w : Waiter) (ht : resume n w s = .ok () t) : forEach [w] (resume n) s = .ok () t := by
  show (resume n w >>= fun _ => forEach [] (resume n)) s = _
  rw [run_bind, ht]
  rfl

/-! ### An ATTACH that waited -/

theorem run_handleMessage_attach_at (hc : (s.ctx n).Rested) (code : BitVec 16) (d : Time) :
    handleMessage n h ident (.attach code) d s = takeAttach n h ident code (s.setCtx n ((s.ctx n).sightedAt d)) := by
  unfold handleMessage
  rw [run_modCtx_bind, hc.sighted]

theorem run_takeMatching_vacant (hc : (s.ctx n).state = .vacant) (ident : Identity) :
    takeMatching n h ident s = .ok () s := by
  unfold takeMatching
  rw [run_getCtx_bind, hc]
  rfl

/-- R70: an ATTACH with the right code, at a slot that has failed no code. -/
theorem run_takeAttach_matching {code : BitVec 16} (hc : (s.ctx n).state ∉ [HandsetState.barred, .quarantined])
    (hcode : (s.ctx n).code = code) (hf : (s.ctx n).accessFail = 0) (ident : Identity) :
    takeAttach n h ident code s = takeMatching n h ident s := by
  have same : s.setCtx n { s.ctx n with accessFail := 0 } = s := by
    rw [← hf]
    exact setCtx_self s n
  rw [run_takeAttach hc, if_pos hcode, same]

/-! ### A transaction of the CP that waited -/

theorem run_takeHandsetRecord_write (hread : x.isRead = false)
    (hn : recordNumbers (recordOffsets (s.handsetAddr 0) 64 ((enabled x).map Prod.fst)) = [n.val]) :
    takeHandsetRecord x s = sortHandsetWrite n x s := by
  unfold takeHandsetRecord
  rw [if_neg (by simp [hread])]
  unfold takeHandsetWrite
  rw [run_get_bind, hn]
  dsimp only
  rw [toSlot?_val]

/-- R28, R30: a whole provisioned write, from a state with no merge in progress. -/
theorem run_takeProvisioned_sent {w : List (Option Byte)} (hm : s.merge = none)
    (hp : (s.ctx n).poisoned = false ∨ fullRewrite w = true) (hb : ∀ b < 4, beatPartial w b = false)
    (hf : s.identityFree n w (w.map fun b => b.getD 0)) : takeProvisioned n x w s = .ok () { s with
      scrubRead := s.scrubRead.map fun r => r.overtakenBy n w
      recordWrite := some (sentWrite n w (w.map fun b => b.getD 0)) } := by
  have idle : ({ s with merge := none } : State) = s := by rw [← hm]
  rw [run_takeProvisioned_whole hp hb, run_bind, run_finishProvisioned_free hf]
  exact congrArg (fun v : State => EStateM.Result.ok () { v with
    scrubRead := s.scrubRead.map fun r : ScrubRead => r.overtakenBy n w
    recordWrite := some (sentWrite n w (w.map fun b : Option Byte => b.getD 0)) }) idle

/-- R35: a media head write at a slot with no serving head. -/
theorem run_takeMediaHead_unserved {value : Byte} (hi : x.initiator = .cp) (hr : s.readable n) (hc : (s.ctx n).serving = none) :
    takeMediaHead n x value s = .ok () (s.answered .cp (if value = 0xFF then .done [] else .refused)) := by
  have none_served : value.toNat = headCode (s.ctx n).serving ↔ value = 0xFF := by
    rw [hc, BitVec.toNat_eq]
    rfl
  by_cases hv : value = 0xFF
  · unfold takeMediaHead
    rw [run_bind, run_contextSound hr.1 hr.2, if_pos hv]
    refine (run_if_pos (none_served.mpr hv) ..).trans ?_
    rw [hc, hi]
    rfl
  · rw [run_takeMediaHead_other hr (mt none_served.mp hv), if_neg hv, hi]
    rfl

/-- Settles O59, by what waited. -/
theorem rebuildServesItsWaiter : Obligations.RebuildServesItsWaiter := by
  intro s n dropped waiting ho hr v c
  have rebuilt : c.Rebuilt := afterRebuild_ctx ..
  have frame : s.AfterRebuild n v := afterRebuild_frame ..
  have rested := rebuilt.toRested
  have runs {t : State} (ht : forEach waiting (resume n) v = .ok () t) : exec (.rebuildReadDone n) s = s.ends t :=
    exec_rebuildReadDone ho hr (by rw [unansweredBeats_eq hr]; exact ht)
  have readable : v.readable n := ⟨frame.rebuilding n, rebuilt.sound⟩
  refine ⟨fun hw => runs (run_resume_all hw rested), fun h ident code d hw => ?attach, fun x hw hx hi hmerge hrec => ?cp⟩
  case attach =>
    intro u ends
    have state : (u.ctx n).state = c.state := by rw [ctx_setCtx, HandsetCtx.sightedAt_state]
    have sighted : u.ctx n = c.sightedAt d := ctx_setCtx ..
    have kept : (c.sightedAt d).code = c.code ∧ (c.sightedAt d).accessFail = 0 := by
      unfold HandsetCtx.sightedAt
      split <;> exact ⟨rfl, rebuilt.tries⟩
    obtain ⟨codes, tries⟩ := kept
    have attaches {t : State} (ht : takeAttach n h ident code u = .ok () t) : ends t := by
      subst hw
      refine runs (run_resume_one _ ?_)
      show (handleMessage n h ident (.attach code) d >>= fun _ => popUplink) v = _
      have handled : handleMessage n h ident (.attach code) d v = .ok () t :=
        (run_handleMessage_attach_at rested code d).trans ht
      rw [run_bind, handled]
      rfl
    have judged (hq : c.state ≠ .quarantined) : (u.ctx n).state ∉ [HandsetState.barred, .quarantined] := by
      have states := rested.state
      rw [state]
      simp only [List.mem_cons, List.not_mem_nil, or_false] at states
      rcases states with hs | hs | hs <;> simp [hs] at hq ⊢
    refine ⟨fun hq => attaches (run_takeAttach_quarantined (state.trans hq) ..), fun hq hne => attaches ?_,
      fun hp he => attaches ?_, fun hv he => attaches ?_⟩
    · rw [run_takeAttach (judged hq), sighted, codes, if_neg hne, tries, if_pos (by decide)]
    · rw [run_takeAttach_matching (judged (by simp [hp])) (by rw [sighted, codes, he]) (by rw [sighted, tries])]
      exact run_takeMatching_free (by rw [state, hp]; decide) ident
    · rw [run_takeAttach_matching (judged (by simp [hv])) (by rw [sighted, codes, he]) (by rw [sighted, tries])]
      exact run_takeMatching_vacant (state.trans hv) ident
  case cp =>
    subst hw
    intro ends
    have takes {t : State} (ht : takeHandsetRecord x v = .ok () t) : ends t := runs (run_resume_one _ ht)
    refine ⟨fun hread hsound => takes ?read, fun hread hn => ?write⟩
    case read =>
      unfold takeHandsetRecord
      rw [if_pos hread]
      refine run_takeHandsetRead hi fun p hp => ⟨frame.rebuilding p.1, ?_⟩
      by_cases hpn : p.1 = n
      · rw [hpn]
        exact rebuilt.sound
      · rw [frame.others p.1 hpn]
        refine hsound p ?_ hpn
        unfold State.handsetBeats at hp ⊢
        rwa [frame.handsetAddr] at hp
    case write =>
      intro w d met
      have bytes : v.recordBytes x n = w := by
        show bytesFor x (v.handsetAddr n) 64 = _
        rw [frame.handsetAddr]
      have merging : v.merge = none := frame.merge.trans hmerge
      have writes {t : State} (ht : sortHandsetWrite n x v = .ok () t) : ends t := by
        refine takes ?_
        rw [run_takeHandsetRecord_write hread (by rw [frame.handsetAddr]; exact hn)]
        exact ht
      refine ⟨fun hl => ?provisioned, fun value hv hothers => ?media⟩
      case provisioned =>
        have sorted : sortHandsetWrite n x v = takeProvisioned n x w v := by
          rw [run_sortHandsetWrite_provisioned (by rw [bytes]; exact hl) (frame.rebuilding n), bytes]
        refine ⟨fun hp hf => writes ?_, fun hp => ⟨fun hb => writes ?_, fun hb hf =>
          ⟨_, provisionedBeats.filter (beatTouched w), _, sentBytes_downstreamBytes .., namedFields_changeOf .., writes ?_⟩⟩⟩
        · rw [sorted, run_takeProvisioned_poisoned hp hf, hi]
          rfl
        · rw [sorted, run_takeProvisioned_partial hp hb]
        · rw [sorted, run_takeProvisioned_sent merging hp hb hf]
          rfl
      case media =>
        have judged := run_takeMediaHead_unserved (value := value) hi readable rebuilt.alone
        rw [← run_sortHandsetWrite_media (by rw [bytes]; exact hv) (by rw [bytes]; exact hothers)] at judged
        exact ⟨fun he => writes (by rw [judged, if_pos he]), fun he => writes (by rw [judged, if_neg he])⟩

end Sys2Proof.Machine
end

section
/-! SUPPORT. Intake: the writes of the intake rings, sorted, taken, held and timed out. -/

namespace Sys2Proof.Machine

variable {s t : State} {c : Instr} {x : Transaction} {r : IntakeRing}

/-! ### Writes at the port -/

theorem emit_takeAtPort (s : State) (x : Transaction) (k : EventKind) (v : Severity) (a b d : Nat) :
    (s.takeAtPort x).emit k v a b d = (s.emit k v a b d).takeAtPort x := by
  unfold State.takeAtPort
  generalize hp : (s.port x.initiator) = p
  have port : (s.emit k v a b d).port x.initiator = p := by
    rw [← hp]
    unfold State.emit State.takeEvent State.port
    cases x.initiator <;> dsimp only <;> split <;> rfl
  rw [port]
  unfold State.emit State.takeEvent
  cases x.initiator <;>
  · rw [apply_ite (fun u : State => u.setPort _ { p with outstanding := some x })]
    rfl

theorem wholeSlot_iff {base : Nat} : wholeSlot base x = true ↔ oneSlot base x := by
  unfold wholeSlot
  simp only [Bool.and_eq_true, beq_iff_eq, and_assoc]

/-- R40: an intake write is sorted at its own initiator's port. -/
def sortIntake : IntakeRing → Transaction → Act Unit
  | .uplink => sortUplinkWrite
  | .request => sortRequestWrite

theorem exec_ringWrite (h : s.ringWrite c x r) (ht : sortIntake r x (s.takeAtPort x) = .ok () t) : exec c s = s.ends t := by
  obtain ⟨⟨hx, hwf, hout, hw⟩, ho, hread, hplace⟩ := h
  refine exec_taken hx hwf hout ?_
  have write : ¬ x.isRead = true := by simp [hread]
  cases r with
  | uplink =>
    obtain ⟨hr, hi⟩ := hplace
    rw [run_takeTransaction_running hw (by simpa using ho) (by simpa using hr)]
    exact (run_if_neg write ..).trans ((run_onlyFor hi _).trans ht)
  | request =>
    obtain ⟨hr, hi⟩ := hplace
    rw [run_takeTransaction_running hw (by simpa using ho) (by simpa using hr)]
    exact (run_if_neg write ..).trans ((run_onlyFor hi _).trans ht)

theorem takeAtPort_ringBase (s : State) (x : Transaction) (r : IntakeRing) :
    (s.takeAtPort x).intakeBase r = s.ringBase r := by
  cases r <;> simp [State.intakeBase, State.ringBase]

/-! ### The sorting (R40, R41) -/

theorem run_passMalformed (s : State) (r : IntakeRing) (x : Transaction) (why : MalformedReason) :
    passMalformed r x why (s.takeAtPort x) = .ok () ((s.emit .malformed .none ((x.addr.toNat - s.ringBase r) / 32)
      (match r with | .uplink => 1 | .request => 2) why.code).passed x) := by
  unfold passMalformed
  rw [run_get_bind, takeAtPort_ringBase, run_note_bind, run_pass, emit_takeAtPort, State.takeAtPort_passed]
  cases r <;> rfl

theorem run_sortIntake_empty (he : enabled x = []) : sortIntake r x s = .ok () (s.answered x.initiator (.done [])) := by
  have empty : (enabled x).isEmpty = true := by rw [he]; rfl
  cases r <;> exact run_if_pos empty ..

theorem isEmpty_enabled (he : enabled x ≠ []) : ¬ (enabled x).isEmpty = true := by
  rwa [List.isEmpty_iff]

theorem run_sortIntake_partial (he : enabled x ≠ []) (hs : ¬ oneSlot (s.intakeBase r) x) :
    sortIntake r x s = passMalformed r x .partialWrite s := by
  have not_whole : (!wholeSlot (s.intakeBase r) x) = true := by
    rw [Bool.not_eq_true', Bool.eq_false_iff]
    exact mt wholeSlot_iff.mp hs
  cases r
  · unfold sortIntake sortUplinkWrite
    refine (run_if_neg (isEmpty_enabled he) ..).trans ?_
    rw [run_get_bind]
    exact run_if_pos not_whole ..
  · unfold sortIntake sortRequestWrite
    refine (run_if_neg (isEmpty_enabled he) ..).trans ?_
    rw [run_get_bind]
    exact run_if_pos not_whole ..

theorem run_sortUplinkWrite_whole (he : enabled x ≠ []) (hs : oneSlot (s.intakeBase .uplink) x) :
    sortUplinkWrite x s = (match parseUplink (slotBytes x) with
      | .error reason => passMalformed .uplink x reason
      | .ok m => takeOrHoldUplink x m) s := by
  unfold sortUplinkWrite
  refine (run_if_neg (isEmpty_enabled he) ..).trans ?_
  rw [run_get_bind]
  exact (run_if_neg (by rw [wholeSlot_iff.mpr hs]; decide) ..).trans rfl

theorem run_sortRequestWrite_whole (he : enabled x ≠ []) (hs : oneSlot (s.intakeBase .request) x) :
    sortRequestWrite x s = (match parseRequest (slotBytes x) with
      | .error reason => passMalformed .request x reason
      | .ok m => takeOrHoldRequest x m) s := by
  unfold sortRequestWrite
  refine (run_if_neg (isEmpty_enabled he) ..).trans ?_
  rw [run_get_bind]
  exact (run_if_neg (by rw [wholeSlot_iff.mpr hs]; decide) ..).trans rfl

/-! ### Taken or held (R44, R45) -/

theorem run_takeOrHoldUplink_room (m : UplinkMsg) (hl : s.uplink.length < 32) : takeOrHoldUplink x m (s.takeAtPort x) =
    .ok () (State.passed { s with uplink := s.uplink ++ [m] } x) := by
  have queue : (s.takeAtPort x).uplink = s.uplink := setPort_uplink ..
  unfold takeOrHoldUplink
  rw [run_get_bind]
  refine (run_if_pos (show (s.takeAtPort x).uplink.length < 32 by rw [queue]; exact hl) ..).trans ?_
  rw [run_modify_bind, run_pass, queue, ← State.takeAtPort_passed { s with uplink := s.uplink ++ [m] }]
  unfold State.takeAtPort
  cases x.initiator <;> rfl

theorem run_takeOrHoldRequest_room (m : Request) (hl : s.requests.length < 8) : takeOrHoldRequest x m (s.takeAtPort x) =
    .ok () (State.passed { s with requests := s.requests ++ [m] } x) := by
  have queue : (s.takeAtPort x).requests = s.requests := setPort_requests ..
  unfold takeOrHoldRequest
  rw [run_get_bind]
  refine (run_if_pos (show (s.takeAtPort x).requests.length < 8 by rw [queue]; exact hl) ..).trans ?_
  rw [run_modify_bind, run_pass, queue, ← State.takeAtPort_passed { s with requests := s.requests ++ [m] }]
  unfold State.takeAtPort
  cases x.initiator <;> rfl

theorem run_takeOrHoldUplink_full (m : UplinkMsg) (hl : 32 ≤ s.uplink.length) : takeOrHoldUplink x m s =
    .ok () { s with heldRlc := some { write := x, item := m, deadline := s.timeBase + 2 } } := by
  unfold takeOrHoldUplink
  rw [run_get_bind]
  exact run_if_neg (show ¬ s.uplink.length < 32 by omega) ..

theorem run_takeOrHoldRequest_full (m : Request) (hl : 8 ≤ s.requests.length) : takeOrHoldRequest x m s =
    .ok () { s with heldCp := some { write := x, item := m, deadline := s.timeBase + 2 } } := by
  unfold takeOrHoldRequest
  rw [run_get_bind]
  exact run_if_neg (show ¬ s.requests.length < 8 by omega) ..

/-! ### Held writes (R46) -/

theorem run_takeHeldUplink {w : HeldUplink} (hw : s.heldRlc = some w) : takeHeldUplink s =
    .ok () (if s.uplink.length < 32 then State.passed { s with uplink := s.uplink ++ [w.item], heldRlc := none } w.write else s) := by
  unfold takeHeldUplink
  rw [run_get_bind, hw]
  by_cases hl : s.uplink.length < 32
  · rw [if_pos hl]
    exact run_if_pos hl ..
  · rw [if_neg hl]
    exact run_if_neg hl ..

theorem run_takeHeldRequest {w : HeldRequest} (hw : s.heldCp = some w) : takeHeldRequest s =
    .ok () (if s.requests.length < 8 then State.passed { s with requests := s.requests ++ [w.item], heldCp := none } w.write
      else s) := by
  unfold takeHeldRequest
  rw [run_get_bind, hw]
  by_cases hl : s.requests.length < 8
  · rw [if_pos hl]
    exact run_if_pos hl ..
  · rw [if_neg hl]
    exact run_if_neg hl ..

theorem run_uplinkHoldTimeout {w : HeldUplink} (hw : s.heldRlc = some w) (hk : s.uplinkOverrun ≤ 65535) :
    uplinkHoldTimeout s = .ok () (if passed w.deadline s.timeBase then
      (State.emit { s with heldRlc := none, uplinkOverrun := min 65535 (s.uplinkOverrun + 1) } .intakeOverrun .none
        ((w.write.addr.toNat - s.ringBase .uplink) / 32) 1 (min 65535 (s.uplinkOverrun + 1))).passed w.write else s) := by
  unfold uplinkHoldTimeout
  rw [run_get_bind, hw]
  by_cases hp : passed w.deadline s.timeBase = true
  · rw [if_pos hp, ← satInc_eq_min hk]
    exact run_if_pos hp ..
  · rw [if_neg hp]
    exact run_if_neg hp ..

theorem run_requestHoldTimeout {w : HeldRequest} (hw : s.heldCp = some w) (hk : s.requestOverrun ≤ 65535) :
    requestHoldTimeout s = .ok () (if passed w.deadline s.timeBase then
      (State.emit { s with heldCp := none, requestOverrun := min 65535 (s.requestOverrun + 1) } .intakeOverrun .none
        ((w.write.addr.toNat - s.ringBase .request) / 32) 2 (min 65535 (s.requestOverrun + 1))).passed w.write else s) := by
  unfold requestHoldTimeout
  rw [run_get_bind, hw]
  by_cases hp : passed w.deadline s.timeBase = true
  · rw [if_pos hp, ← satInc_eq_min hk]
    exact run_if_pos hp ..
  · rw [if_neg hp]
    exact run_if_neg hp ..

/-- Settles O30, by the ring. -/
theorem intakeWritesAreTaken : Obligations.IntakeWritesAreTaken := by
  refine ⟨fun s c x r hw => ?write, fun s ho hu hq => ⟨fun w hh => ?uplink, fun w hh => ?request⟩⟩
  case write =>
    intro slot code bytes
    refine ⟨fun he => ?_, fun he hs => exec_ringWrite hw ?_, fun he hs => ?_⟩
    · rw [← State.takeAtPort_answered]
      exact exec_ringWrite hw (run_sortIntake_empty he)
    · rw [run_sortIntake_partial he (by rw [takeAtPort_ringBase]; exact hs), run_passMalformed]
      rfl
    · cases r with
      | uplink =>
        have sorted : sortIntake .uplink x (s.takeAtPort x) = _ :=
          run_sortUplinkWrite_whole he (by rw [takeAtPort_ringBase]; exact hs)
        refine ⟨fun why hp => exec_ringWrite hw ?_, fun m hp => ⟨fun hl => exec_ringWrite hw ?_, fun hl => exec_ringWrite hw ?_⟩⟩
        all_goals rw [sorted, show parseUplink (slotBytes x) = _ from hp]
        · exact run_passMalformed ..
        · exact run_takeOrHoldUplink_room m hl
        · rw [show s.timeBase = (s.takeAtPort x).timeBase from (setPort_timeBase ..).symm]
          exact run_takeOrHoldUplink_full m (by rw [show (s.takeAtPort x).uplink = s.uplink from setPort_uplink ..]; exact hl)
      | request =>
        have sorted : sortIntake .request x (s.takeAtPort x) = _ :=
          run_sortRequestWrite_whole he (by rw [takeAtPort_ringBase]; exact hs)
        refine ⟨fun why hp => exec_ringWrite hw ?_, fun m hp => ⟨fun hl => exec_ringWrite hw ?_, fun hl => exec_ringWrite hw ?_⟩⟩
        all_goals rw [sorted, show parseRequest (slotBytes x) = _ from hp]
        · exact run_passMalformed ..
        · exact run_takeOrHoldRequest_room m hl
        · rw [show s.timeBase = (s.takeAtPort x).timeBase from (setPort_timeBase ..).symm]
          exact run_takeOrHoldRequest_full m (by rw [show (s.takeAtPort x).requests = s.requests from setPort_requests ..]; exact hl)
  case uplink =>
    have taken : exec (.heldWriteTaken .uplink) s = _ := exec_running rfl ho (run_takeHeldUplink hh)
    have timed : exec (.intakeHoldDeadline .uplink) s = _ := exec_running rfl ho (run_uplinkHoldTimeout hh hu)
    exact ⟨fun hl => by rw [taken, if_pos hl], fun hl => by rw [taken, if_neg (by omega)],
      fun hp => by rw [timed, if_pos hp], fun hp => by rw [timed, if_neg (by simp [hp])]⟩
  case request =>
    have taken : exec (.heldWriteTaken .request) s = _ := exec_running rfl ho (run_takeHeldRequest hh)
    have timed : exec (.intakeHoldDeadline .request) s = _ := exec_running rfl ho (run_requestHoldTimeout hh hq)
    exact ⟨fun hl => by rw [taken, if_pos hl], fun hl => by rw [taken, if_neg (by omega)],
      fun hp => by rw [timed, if_pos hp], fun hp => by rw [timed, if_neg (by simp [hp])]⟩

end Sys2Proof.Machine
end

section
/-! SUPPORT. Intake: what the slots of the intake rings are read as. -/

namespace Sys2Proof.Machine

variable {h : Head} {ident : Identity} {rest : List Byte} {kind : Byte}

/-! ### Fields of a run of bytes -/

theorem leNat_leBytes (n v : Nat) : leNat (leBytes n v) = v % 256 ^ n := by
  induction n generalizing v with
  | zero => simp [leBytes, leNat, Nat.mod_one]
  | succ n ih =>
    have low : (BitVec.ofNat 8 v).toNat = v % 256 := BitVec.toNat_ofNat ..
    rw [leBytes, leNat, ih, low, pow_succ', Nat.mod_mul]

theorem fieldAt_cons (b : Byte) (l : List Byte) (off n : Nat) : fieldAt (b :: l) (off + 1) n = fieldAt l off n := rfl

theorem fieldAt_append {l r : List Byte} {off : Nat} (n : Nat) (hl : l.length ≤ off) :
    fieldAt (l ++ r) off n = fieldAt r (off - l.length) n := by
  unfold fieldAt
  rw [List.drop_append, List.drop_eq_nil_of_le hl, List.nil_append]

theorem fieldAt_leBytes (n v : Nat) (r : List Byte) : fieldAt (leBytes n v ++ r) 0 n = v % 256 ^ n := by
  unfold fieldAt
  rw [List.drop_zero, List.take_append_of_le_length (length_leBytes n v).ge, List.take_of_length_le (length_leBytes n v).le,
    leNat_leBytes]

theorem byteAt_cons (b : Byte) (l : List Byte) (i : Nat) : byteAt (b :: l) (i + 1) = byteAt l i := rfl

/-! ### Uplink slots (R41, R42) -/

/-- An uplink slot: kind, reporting head, identity, and the rest. -/
def uplinkSlot (kind : Byte) (h : Head) (ident : Identity) (rest : List Byte) : List Byte :=
  kind :: BitVec.ofNat 8 h.val :: (leBytes 5 ident.toNat ++ rest)

theorem uplinkSlot_head (kind : Byte) (h : Head) (ident : Identity) (rest : List Byte) :
    toHead? (byteAt (uplinkSlot kind h ident rest) 1).toNat = some h := by
  have code : (BitVec.ofNat 8 h.val).toNat = h.val := by
    rw [BitVec.toNat_ofNat]
    exact Nat.mod_eq_of_lt (h.isLt.trans (by decide))
  show toHead? (BitVec.ofNat 8 h.val).toNat = _
  rw [code, toHead?_val]

theorem uplinkSlot_identity (kind : Byte) (h : Head) (ident : Identity) (rest : List Byte) :
    BitVec.ofNat 40 (fieldAt (uplinkSlot kind h ident rest) 2 5) = ident := by
  have field : fieldAt (uplinkSlot kind h ident rest) 2 5 = ident.toNat := by
    show fieldAt (leBytes 5 ident.toNat ++ rest) 0 5 = _
    rw [fieldAt_leBytes]
    exact Nat.mod_eq_of_lt ident.isLt
  rw [field, BitVec.ofNat_toNat, BitVec.setWidth_eq]

/-- A byte of the rest of an uplink slot. -/
theorem byteAt_uplinkSlot (kind : Byte) (h : Head) (ident : Identity) (rest : List Byte) (i : Nat) :
    byteAt (uplinkSlot kind h ident rest) (7 + i) = byteAt rest i := by
  rw [show 7 + i = 5 + i + 1 + 1 by omega]
  show byteAt (leBytes 5 ident.toNat ++ rest) (5 + i) = _
  rw [byteAt_append_right (by rw [length_leBytes]; omega), length_leBytes, show 5 + i - 5 = i by omega]

theorem fieldAt_uplinkSlot (kind : Byte) (h : Head) (ident : Identity) (rest : List Byte) (off n : Nat) :
    fieldAt (uplinkSlot kind h ident rest) (7 + off) n = fieldAt rest off n := by
  rw [show 7 + off = 5 + off + 1 + 1 by omega]
  show fieldAt (leBytes 5 ident.toNat ++ rest) (5 + off) n = _
  rw [fieldAt_append n (by rw [length_leBytes]; omega), length_leBytes, show 5 + off - 5 = off by omega]

/-- R41, checks 4 to 6: the message of a handset by its kind. -/
def handsetMsgOf (b : List Byte) : UplinkKind → Except MalformedReason HandsetMsg
  | .headStatus => .error .unknownKind
  | .attach => .ok (.attach (BitVec.ofNat 16 (fieldAt b 8 2)))
  | .attachConfirm => .ok .attachConfirm
  | .detach => .ok .detach
  | .keepalive => .ok .keepalive
  | .dozeRequest => .ok .dozeRequest
  | .callRequest => .ok .callRequest
  | .callRelease => .ok .callRelease
  | .access => .ok .access
  | .revert => .ok .revert
  | .measurement =>
    if (byteAt b 12).toNat < 1 ∨ 6 < (byteAt b 12).toNat then .error .badCount
    else match readSamples (rawSamples b (byteAt b 12).toNat) [] with
      | none => .error .badSample
      | some samples => .ok (.measurement samples)
  | .channelRefused => match toChan? (byteAt b 10).toNat with
    | none => .error .badChannel
    | some c => .ok (.channelRefused c)

/-- R41: a slot of a handset's message with an identity. -/
theorem parseUplink_handset {k : UplinkKind} (hk : uplinkKindOf kind.toNat = some k) (hs : k ≠ .headStatus) (hz : ident ≠ 0) :
    parseUplink (uplinkSlot kind h ident rest) =
      (handsetMsgOf (uplinkSlot kind h ident rest) k).map fun m => .handset h ident m := by
  unfold parseUplink
  rw [show byteAt (uplinkSlot kind h ident rest) 0 = kind from rfl, hk, uplinkSlot_head, uplinkSlot_identity]
  dsimp only
  rw [if_neg fun hc => hz hc.2]
  cases k with
  | headStatus => exact absurd rfl hs
  | measurement =>
    unfold handsetMsgOf
    dsimp only
    split
    · rfl
    · cases readSamples (rawSamples (uplinkSlot kind h ident rest) _) [] <;> rfl
  | channelRefused =>
    unfold handsetMsgOf
    dsimp only
    cases toChan? _ <;> rfl
  | _ => rfl

theorem parseUplink_zero {k : UplinkKind} (hk : uplinkKindOf kind.toNat = some k) (hs : k ≠ .headStatus) :
    parseUplink (uplinkSlot kind h 0 rest) = .error .zeroIdentity := by
  unfold parseUplink
  rw [show byteAt (uplinkSlot kind h 0 rest) 0 = kind from rfl, hk, uplinkSlot_head, uplinkSlot_identity]
  exact if_pos ⟨hs, rfl⟩

theorem parseUplink_headStatus : parseUplink (uplinkSlot 0x0C h ident rest) =
    .ok (.headStatus h ((byteAt rest 4).getLsbD 0)) := by
  unfold parseUplink
  rw [show uplinkKindOf (byteAt (uplinkSlot 0x0C h ident rest) 0).toNat = some .headStatus from rfl, uplinkSlot_head]
  dsimp only
  rw [if_neg (by simp), show (11 : Nat) = 7 + 4 from rfl, byteAt_uplinkSlot]

theorem parseUplink_unknown {b : List Byte} (hk : uplinkKindOf (byteAt b 0).toNat = none) :
    parseUplink b = .error .unknownKind := by
  unfold parseUplink
  rw [hk]

theorem parseUplink_badHead {head : Byte} {k : UplinkKind} (hk : uplinkKindOf kind.toNat = some k) (hh : 64 ≤ head.toNat) :
    parseUplink (kind :: head :: rest) = .error .badHead := by
  have none_named : toHead? (byteAt (kind :: head :: rest) 1).toNat = none := dif_neg (by show ¬ head.toNat < 64; omega)
  unfold parseUplink
  rw [show byteAt (kind :: head :: rest) 0 = kind from rfl, hk, none_named]

theorem uplinkKindOf_none {k : Nat} (hk : k = 0 ∨ 0x0C < k) : uplinkKindOf k = none := by
  unfold uplinkKindOf
  rw [List.find?_eq_none]
  intro kind _
  have code : 1 ≤ kind.code ∧ kind.code ≤ 0x0C := by cases kind <;> decide
  rw [beq_iff_eq]
  omega

theorem uplinkKindOf_some {k : Nat} (h1 : 1 ≤ k) (h2 : k ≤ 0x0C) : ∃ kind, uplinkKindOf k = some kind := by
  interval_cases k <;> exact ⟨_, rfl⟩

/-! ### Samples (R41, check 5) -/

theorem readSamples_of_good {samples : List (Head × Nat)} {seen : List Head} (hl : ∀ p ∈ samples, p.2 ≤ 127)
    (hn : (samples.map Prod.fst).Nodup) (hs : ∀ p ∈ samples, p.1 ∉ seen) :
    readSamples (samples.map fun p => (p.1.val, p.2)) seen = some samples := by
  induction samples generalizing seen with
  | nil => rfl
  | cons p rest ih =>
    obtain ⟨head, level⟩ := p
    rw [List.map_cons, List.nodup_cons] at hn
    obtain ⟨new, once⟩ := hn
    have low : level ≤ 127 := hl _ (List.mem_cons_self ..)
    have unseen : head ∉ seen := hs _ (List.mem_cons_self ..)
    have later : ∀ p ∈ rest, p.1 ∉ head :: seen := by
      intro p hp
      rw [List.mem_cons, not_or]
      exact ⟨fun he => new (List.mem_map.mpr ⟨p, hp, he⟩), hs p (List.mem_cons_of_mem _ hp)⟩
    rw [List.map_cons, readSamples]
    dsimp only
    rw [toHead?_val]
    dsimp only
    rw [if_neg (by simp [unseen]; omega), ih (fun p hp => hl p (List.mem_cons_of_mem _ hp)) once later]
    rfl

/-- Samples that are read are in range and name each head once. -/
theorem good_of_readSamples {raw : List (Nat × Nat)} {seen : List Head} {samples : List (Head × Nat)}
    (hr : readSamples raw seen = some samples) : (∀ p ∈ raw, p.1 < 64 ∧ p.2 ≤ 127) ∧ (raw.map Prod.fst).Nodup ∧
      ∀ p ∈ raw, ∀ head ∈ seen, p.1 ≠ head.val := by
  induction raw generalizing seen samples with
  | nil => exact ⟨nofun, List.nodup_nil, nofun⟩
  | cons p rest ih =>
    obtain ⟨head, level⟩ := p
    rw [readSamples] at hr
    by_cases hh : head < 64
    · rw [show toHead? head = some ⟨head, hh⟩ from dif_pos hh] at hr
      dsimp only at hr
      split at hr
      · cases hr
      · next good =>
        simp only [Bool.or_eq_true, decide_eq_true_eq, List.contains_iff_mem, not_or] at good
        obtain ⟨low, unseen⟩ := good
        obtain ⟨samples', hr', -⟩ := Option.map_eq_some_iff.mp hr
        obtain ⟨ranges, once, apart⟩ := ih hr'
        refine ⟨fun q hq => ?_, List.nodup_cons.mpr ⟨fun hmem => ?_, once⟩, fun q hq x hx => ?_⟩
        · rcases List.mem_cons.mp hq with rfl | hq
          · exact ⟨hh, by omega⟩
          · exact ranges q hq
        · obtain ⟨q, hq, same⟩ := List.mem_map.mp hmem
          exact apart q hq ⟨head, hh⟩ (List.mem_cons_self ..) same
        · rcases List.mem_cons.mp hq with rfl | hq
          · rintro rfl
            exact unseen hx
          · exact apart q hq x (List.mem_cons_of_mem _ hx)
    · rw [show toHead? head = none from dif_neg hh] at hr
      cases hr

/-- The samples laid out in pairs of bytes. -/
theorem map_range_pairs (raw : List (Byte × Byte)) (rest : List Byte) :
    ((List.range raw.length).map fun i => (byteAt (raw.flatMap (fun p => [p.1, p.2]) ++ rest) (2 * i),
      byteAt (raw.flatMap (fun p => [p.1, p.2]) ++ rest) (2 * i + 1))) = raw := by
  induction raw with
  | nil => rfl
  | cons p tail ih =>
    rw [List.length_cons, List.range_succ_eq_map, List.map_cons, List.map_map]
    refine congrArg (p :: ·) (Eq.trans (List.map_congr_left fun i _ => ?_) ih)
    rw [Function.comp_apply, show 2 * i.succ = 2 * i + 1 + 1 by omega]
    rfl

theorem rawSamples_uplinkSlot (b : Vector Byte 5) (count : Byte) (c : Vector Byte 3) (raw : List (Byte × Byte)) :
    rawSamples (uplinkSlot kind h ident
      (b.toList ++ count :: (c.toList ++ raw.flatMap (fun p => [p.1, p.2]) ++ rest))) raw.length =
      raw.map fun p => (p.1.toNat, p.2.toNat) := by
  have five : b.toList.length = 5 := b.length_toList
  have three : c.toList.length = 3 := c.length_toList
  have skip (i : Nat) : byteAt (uplinkSlot kind h ident
      (b.toList ++ count :: (c.toList ++ raw.flatMap (fun p => [p.1, p.2]) ++ rest))) (16 + i) =
        byteAt (raw.flatMap (fun p => [p.1, p.2]) ++ rest) i := by
    rw [show 16 + i = 7 + (9 + i) by omega, byteAt_uplinkSlot, byteAt_append_right (by omega), five,
      show 9 + i - 5 = 3 + i + 1 by omega, byteAt_cons, List.append_assoc, byteAt_append_right (by omega), three,
      show 3 + i - 3 = i by omega]
  unfold rawSamples
  conv_rhs => rw [← map_range_pairs raw rest, List.map_map]
  refine List.map_congr_left fun i _ => ?_
  rw [Function.comp_apply, skip, show 17 + 2 * i = 16 + (2 * i + 1) by omega, skip]

theorem byteAt_count (b : Vector Byte 5) (count : Byte) (tail : List Byte) :
    byteAt (uplinkSlot kind h ident (b.toList ++ count :: tail)) 12 = count := by
  have five : b.toList.length = 5 := b.length_toList
  rw [show (12 : Nat) = 7 + 5 from rfl, byteAt_uplinkSlot, byteAt_append_right (by omega), five]
  rfl

/-! ### Request slots (R43) -/

/-- A request slot: kind, slot and head. -/
def requestSlot (kind b1 head : Byte) (slot : BitVec 16) (rest : List Byte) : List Byte :=
  kind :: b1 :: (leBytes 2 slot.toNat ++ head :: rest)

theorem requestSlot_slot (kind b1 head : Byte) (slot : BitVec 16) (rest : List Byte) :
    fieldAt (requestSlot kind b1 head slot rest) 2 2 = slot.toNat := by
  show fieldAt (leBytes 2 slot.toNat ++ head :: rest) 0 2 = _
  rw [fieldAt_leBytes]
  exact Nat.mod_eq_of_lt slot.isLt

theorem requestSlot_head (kind b1 head : Byte) (slot : BitVec 16) (rest : List Byte) :
    byteAt (requestSlot kind b1 head slot rest) 4 = head := rfl

theorem requestKindOf_none {k : Nat} (hk : k < 0x21 ∨ 0x29 < k) : requestKindOf k = none := by
  unfold requestKindOf
  rw [List.find?_eq_none]
  intro kind _
  have code : 0x21 ≤ kind.code ∧ kind.code ≤ 0x29 := by cases kind <;> decide
  rw [beq_iff_eq]
  omega

/-- R43: what a request slot is read as, by its kind. -/
theorem parseRequest_slot (kind b1 head : Byte) (slot : BitVec 16) (rest : List Byte) :
    parseRequest (requestSlot kind b1 head slot rest) =
      (let onSlot (f : Slot → Request) : Except MalformedReason Request :=
        (toSlot? slot.toNat).elim (.error .badSlot) fun n => .ok (f n)
      let onHead (f : Head → Except MalformedReason Request) : Except MalformedReason Request :=
        (toHead? head.toNat).elim (.error .badHead) f
      match requestKindOf kind.toNat with
      | none => .error .unknownKind
      | some .page => onSlot .page
      | some .releaseCall => onSlot .releaseCall
      | some .unpin => onSlot .unpin
      | some .detachHandset => onSlot .detachHandset
      | some .drainHead => onHead fun x => .ok (.drainHead x)
      | some .restoreHead => onHead fun x => .ok (.restoreHead x)
      | some .clearFaultList => .ok .clearFaultList
      | some .ackFatal => .ok .ackFatal
      | some .forceHandover => onHead fun x => onSlot fun n => .forceHandover n x) := by
  unfold parseRequest
  rw [requestSlot_slot, requestSlot_head, show byteAt (requestSlot kind b1 head slot rest) 0 = kind from rfl]
  dsimp only
  cases toSlot? slot.toNat <;> cases toHead? head.toNat <;> rcases requestKindOf kind.toNat with _ | _ | _ <;> rfl

/-! ### The statement, part by part -/

theorem toHead?_none {k : Nat} (hk : 64 ≤ k) : toHead? k = none := dif_neg (by omega)

theorem toSlot?_none {k : Nat} (hk : 1024 ≤ k) : toSlot? k = none := dif_neg (by omega)

theorem parseUplink_attach (hz : ident ≠ 0) (code : BitVec 16) (b : Byte) :
    parseUplink (uplinkSlot 0x01 h ident (b :: (leBytes 2 code.toNat ++ rest))) = .ok (.handset h ident (.attach code)) := by
  have field : fieldAt (uplinkSlot 0x01 h ident (b :: (leBytes 2 code.toNat ++ rest))) 8 2 = code.toNat := by
    refine (fieldAt_uplinkSlot 0x01 h ident _ 1 2).trans ?_
    rw [fieldAt_cons, fieldAt_leBytes]
    exact Nat.mod_eq_of_lt code.isLt
  rw [parseUplink_handset (k := .attach) rfl (by decide) hz]
  unfold handsetMsgOf
  dsimp only
  rw [field, BitVec.ofNat_toNat, BitVec.setWidth_eq]
  rfl

theorem parseUplink_channelRefused (hz : ident ≠ 0) (b0 b1 b2 ch : Byte) :
    parseUplink (uplinkSlot 0x0B h ident (b0 :: b1 :: b2 :: ch :: rest)) = match toChan? ch.toNat with
      | none => .error .badChannel
      | some c => .ok (.handset h ident (.channelRefused c)) := by
  rw [parseUplink_handset (k := .channelRefused) rfl (by decide) hz]
  unfold handsetMsgOf
  dsimp only
  rw [show (10 : Nat) = 7 + 3 from rfl, byteAt_uplinkSlot, show byteAt (b0 :: b1 :: b2 :: ch :: rest) 3 = ch from rfl]
  cases toChan? ch.toNat <;> rfl

/-- R41, R42: a MEASUREMENT slot, by its count and its samples. -/
theorem parseUplink_measurement (hz : ident ≠ 0) (b : Vector Byte 5) (count : Byte) (tail : List Byte) :
    parseUplink (uplinkSlot 0x08 h ident (b.toList ++ count :: tail)) =
      if count.toNat < 1 ∨ 6 < count.toNat then .error .badCount
      else match readSamples (rawSamples (uplinkSlot 0x08 h ident (b.toList ++ count :: tail)) count.toNat) [] with
        | none => .error .badSample
        | some samples => .ok (.handset h ident (.measurement samples)) := by
  rw [parseUplink_handset (k := .measurement) rfl (by decide) hz]
  unfold handsetMsgOf
  dsimp only
  rw [byteAt_count]
  split
  · rfl
  · cases readSamples _ [] <;> rfl

theorem measurementsAreRead (hz : ident ≠ 0) (b : Vector Byte 5) (count : Byte) (c : Vector Byte 3)
    (raw : List (Byte × Byte)) :
    let sent := parseUplink (uplinkSlot 0x08 h ident
      (b.toList ++ count :: (c.toList ++ raw.flatMap (fun p => [p.1, p.2]) ++ rest)))
    (count.toNat < 1 ∨ 6 < count.toNat → sent = .error .badCount) ∧
    (1 ≤ raw.length → raw.length ≤ 6 → count.toNat = raw.length →
      ((∃ p ∈ raw, 64 ≤ p.1.toNat ∨ 127 < p.2.toNat) ∨ ¬ (raw.map Prod.fst).Nodup → sent = .error .badSample) ∧
      ∀ samples : List (Head × Nat), raw.map (fun p => (p.1.toNat, p.2.toNat)) = samples.map (fun p => (p.1.val, p.2)) →
        (∀ p ∈ samples, p.2 ≤ 127) → (samples.map Prod.fst).Nodup →
        sent = .ok (.handset h ident (.measurement samples))) := by
  intro sent
  have read := parseUplink_measurement (h := h) hz b count (c.toList ++ raw.flatMap (fun p => [p.1, p.2]) ++ rest)
  refine ⟨fun hc => read.trans (if_pos hc), fun h1 h6 hc => ?_⟩
  rw [if_neg (by omega), hc, rawSamples_uplinkSlot] at read
  refine ⟨fun hbad => ?_, fun samples hs hl hn => ?_⟩
  · have unread : readSamples (raw.map fun p => (p.1.toNat, p.2.toNat)) [] = none := by
      rw [Option.eq_none_iff_forall_ne_some]
      intro samples hr
      obtain ⟨ranges, once, -⟩ := good_of_readSamples hr
      rcases hbad with ⟨p, hp, hrange⟩ | hdup
      · have := ranges _ (List.mem_map_of_mem hp)
        dsimp only at this
        omega
      · rw [List.map_map] at once
        refine hdup (List.Nodup.of_map BitVec.toNat ?_)
        rw [List.map_map]
        exact once
    rw [unread] at read
    exact read
  · rw [hs, readSamples_of_good hl hn fun p _ => List.not_mem_nil] at read
    exact read

/-- R43: the requests of a slot, of a head and of neither. -/
theorem requestsAreRead (kind b1 head : Byte) (slot : BitVec 16) (rest : List Byte) :
    let sent := parseRequest (kind :: b1 :: (leBytes 2 slot.toNat ++ head :: rest))
    (∀ n : Slot, slot.toNat = n.val →
      (kind = 0x21 → sent = .ok (.page n)) ∧ (kind = 0x22 → sent = .ok (.releaseCall n)) ∧
      (kind = 0x24 → sent = .ok (.unpin n)) ∧ (kind = 0x25 → sent = .ok (.detachHandset n)) ∧
      ∀ h : Head, head.toNat = h.val → kind = 0x23 → sent = .ok (.forceHandover n h)) ∧
    (∀ h : Head, head.toNat = h.val →
      (kind = 0x26 → sent = .ok (.drainHead h)) ∧ (kind = 0x27 → sent = .ok (.restoreHead h))) ∧
    (kind = 0x28 → sent = .ok .clearFaultList) ∧ (kind = 0x29 → sent = .ok .ackFatal) ∧
    (1024 ≤ slot.toNat → kind ∈ [(0x21 : Byte), 0x22, 0x24, 0x25] ∨ kind = 0x23 ∧ head.toNat < 64 → sent = .error .badSlot) ∧
    (64 ≤ head.toNat → kind ∈ [(0x23 : Byte), 0x26, 0x27] → sent = .error .badHead) ∧
    (kind.toNat < 0x21 ∨ 0x29 < kind.toNat → sent = .error .unknownKind) := by
  intro sent
  have read : sent = _ := parseRequest_slot kind b1 head slot rest
  refine ⟨fun n hn => ?slots, fun h hh => ?heads, ?faults, ?fatal, fun hs hk => ?badSlot, fun hh hk => ?badHead, fun hk => ?unknown⟩
  case slots =>
    have named : toSlot? slot.toNat = some n := by rw [hn, toSlot?_val]
    refine ⟨?_, ?_, ?_, ?_, fun h hh => ?_⟩
    case refine_5 =>
      rintro rfl
      rw [read, named, hh, toHead?_val]
      rfl
    all_goals
      rintro rfl
      rw [read, named]
      rfl
  case heads =>
    constructor <;>
    · rintro rfl
      rw [read, hh, toHead?_val]
      rfl
  case faults =>
    rintro rfl
    rw [read]
    rfl
  case fatal =>
    rintro rfl
    rw [read]
    rfl
  case badSlot =>
    rcases hk with hk | ⟨rfl, hh⟩
    · simp only [List.mem_cons, List.not_mem_nil, or_false] at hk
      rw [read, toSlot?_none hs]
      rcases hk with rfl | rfl | rfl | rfl <;> rfl
    · rw [read, toSlot?_none hs, show toHead? head.toNat = some ⟨head.toNat, hh⟩ from dif_pos hh]
      rfl
  case badHead =>
    simp only [List.mem_cons, List.not_mem_nil, or_false] at hk
    rw [read, toHead?_none hh]
    rcases hk with rfl | rfl | rfl <;> rfl
  case unknown =>
    rw [read, requestKindOf_none hk]

/-- Settles O31, slot by slot. -/
theorem intakeSlotsAreRead : Obligations.IntakeSlotsAreRead := by
  refine ⟨fun h ident rest => ?uplink, fun kind head rest h1 h2 hh => ?badHead, requestsAreRead⟩
  case badHead =>
    obtain ⟨k, hk⟩ := uplinkKindOf_some h1 h2
    exact parseUplink_badHead hk hh
  case uplink =>
    intro slot
    have plain {kind : Byte} {k : UplinkKind} {m : HandsetMsg} (hz : ident ≠ 0) (hk : uplinkKindOf kind.toNat = some k)
        (hs : k ≠ .headStatus) (hm : handsetMsgOf (slot kind rest) k = .ok m) :
        parseUplink (slot kind rest) = .ok (.handset h ident m) := by
      refine (parseUplink_handset hk hs hz).trans ?_
      rw [show handsetMsgOf (uplinkSlot kind h ident rest) k = _ from hm]
      rfl
    refine ⟨fun hz => ⟨plain hz (k := .attachConfirm) rfl (by decide) rfl, plain hz (k := .detach) rfl (by decide) rfl,
      plain hz (k := .keepalive) rfl (by decide) rfl, plain hz (k := .dozeRequest) rfl (by decide) rfl,
      plain hz (k := .callRequest) rfl (by decide) rfl, plain hz (k := .callRelease) rfl (by decide) rfl,
      plain hz (k := .access) rfl (by decide) rfl, plain hz (k := .revert) rfl (by decide) rfl,
      parseUplink_attach hz, fun ch b0 b1 b2 => ?_⟩, fun hz b0 b1 b2 ch hc => ?_, fun hz => measurementsAreRead hz,
      fun b0 b1 b2 b3 b4 => parseUplink_headStatus, fun kind hk hz => ?_, fun kind hk => parseUplink_unknown ?_⟩
    · have code : (BitVec.ofNat 8 ch.val).toNat = ch.val := by
        rw [BitVec.toNat_ofNat]
        exact Nat.mod_eq_of_lt (ch.isLt.trans (by decide))
      have named : toChan? (BitVec.ofNat 8 ch.val).toNat = some ch := by
        rw [code]
        exact dif_pos ch.isLt
      refine (parseUplink_channelRefused hz ..).trans ?_
      rw [named]
    · have unnamed : toChan? ch.toNat = none := dif_neg (by omega)
      refine (parseUplink_channelRefused hz ..).trans ?_
      rw [unnamed]
    · subst hz
      have known : ∃ k, uplinkKindOf kind.toNat = some k ∧ k ≠ .headStatus := by
        simp only [List.mem_cons, List.not_mem_nil, or_false] at hk
        rcases hk with rfl | rfl | rfl | rfl | rfl | rfl | rfl | rfl | rfl | rfl | rfl <;> exact ⟨_, rfl, by decide⟩
      obtain ⟨k, hk, hs⟩ := known
      exact parseUplink_zero hk hs
    · have code : kind.toNat = 0 ∨ 0x0C < kind.toNat := hk.imp (congrArg BitVec.toNat) BitVec.lt_def.mp
      exact uplinkKindOf_none code

end Sys2Proof.Machine
end

section
/-! SUPPORT. Layouts: each record as its fields in order, and what its fields hold. -/

namespace Sys2Proof.Machine

/-! ### Fields in order (R202) -/

/-- The bytes of a record whose fields, each with its width, stand in order. -/
def layout (fs : List (Nat × Nat)) : List Byte := fs.flatMap fun f => leBytes f.1 f.2

/-- The field at its offset holds its value, as far as its width goes. -/
theorem fieldAt_layout_mod {fs : List (Nat × Nat)} {widths : List Nat} {off n v : Nat} (hw : fs.map Prod.fst = widths)
    (i : Nat) (hf : fs[i]? = some (n, v)) (ho : (widths.take i).sum = off) : fieldAt (layout fs) off n = v % 256 ^ n := by
  subst ho
  induction fs generalizing i widths with
  | nil => simp at hf
  | cons f rest ih =>
    subst hw
    unfold layout
    rw [List.flatMap_cons]
    cases i with
    | zero =>
      obtain rfl : f = (n, v) := Option.some.inj hf
      exact fieldAt_leBytes ..
    | succ i =>
      have width : (leBytes f.1 f.2).length = f.1 := length_leBytes ..
      rw [List.map_cons, List.take_succ_cons, List.sum_cons, fieldAt_append n (by omega), width, Nat.add_sub_cancel_left]
      exact ih rfl i hf

theorem fieldAt_layout {fs : List (Nat × Nat)} {widths : List Nat} {off n v : Nat} (hw : fs.map Prod.fst = widths) (i : Nat)
    (hf : fs[i]? = some (n, v)) (ho : (widths.take i).sum = off) (hv : v < 256 ^ n) : fieldAt (layout fs) off n = v := by
  rw [fieldAt_layout_mod hw i hf ho, Nat.mod_eq_of_lt hv]

theorem length_layout {fs : List (Nat × Nat)} {widths : List Nat} {k : Nat} (hw : fs.map Prod.fst = widths)
    (hk : widths.sum = k) : (layout fs).length = k := by
  subst hw hk
  unfold layout
  rw [List.length_flatMap]
  congr 1
  exact List.map_congr_left fun f _ => length_leBytes ..

theorem leBytes_byte (b : Byte) : leBytes 1 b.toNat = [b] := by
  simp [leBytes]

theorem leBytes_zero (k : Nat) : leBytes k 0 = List.replicate k 0 := by
  induction k with
  | zero => rfl
  | succ k ih =>
    rw [leBytes, List.replicate_succ]
    exact congrArg _ ih

/-! ### Codes in a byte -/

theorem elim_lt {N k b : Nat} (o : Option (Fin N)) (hN : N ≤ b) (hk : k < b) : o.elim k Fin.val < b := by
  cases o with
  | none => exact hk
  | some x => exact x.isLt.trans_le hN

theorem bit_le (b : Bool) (i : Nat) : bit b i ≤ 2 ^ i := by
  unfold bit
  split
  · exact le_rfl
  · exact Nat.zero_le _

/-! ### Directives and events (R194, R196) -/

def Directive.fields (d : Directive) : List (Nat × Nat) :=
  [(1, d.kind.code), (1, d.dest.elim 0xFE Fin.val), (5, d.identity.toNat), (1, if d.suspect then 1 else 0),
    (2, d.slot.elim 0xFFFF Fin.val), (1, d.channel.elim 0xFF Fin.val), (1, d.targetHead.elim 0xFF Fin.val),
    (1, d.targetChan.elim 0xFF Fin.val), (1, d.reason.toNat), (2, d.backoff), (1, d.mode.toNat), (1, d.period.toNat),
    (1, d.group.toNat), (13, 0)]

theorem Directive.bytes_eq (d : Directive) : d.bytes = layout d.fields := by
  have suspect : bit d.suspect 0 = if d.suspect then 1 else 0 := rfl
  unfold Directive.bytes layout Directive.fields
  simp only [List.flatMap_cons, List.flatMap_nil, leBytes_byte, leBytes_zero, destCode_eq, slotCode_eq, chanCode_eq, headCode_eq,
    suspect, List.append_assoc, List.append_nil, List.cons_append, List.nil_append]

theorem directiveLayout (d : Directive) :
    let f := fieldAt d.bytes
    d.bytes.length = 32 ∧ f 0 1 = d.kind.code ∧ f 1 1 = d.dest.elim 0xFE Fin.val ∧ f 2 5 = d.identity.toNat ∧
    f 7 1 = (if d.suspect then 1 else 0) ∧ f 8 2 = d.slot.elim 0xFFFF Fin.val ∧ f 10 1 = d.channel.elim 0xFF Fin.val ∧
    f 11 1 = d.targetHead.elim 0xFF Fin.val ∧ f 12 1 = d.targetChan.elim 0xFF Fin.val ∧ f 13 1 = d.reason.toNat ∧
    f 14 2 = d.backoff % 65536 ∧ f 16 1 = d.mode.toNat ∧ f 17 1 = d.period.toNat ∧ f 18 1 = d.group.toNat ∧ f 19 13 = 0 := by
  have kind : d.kind.code < 256 := by cases d.kind <;> decide
  have suspect : (if d.suspect then 1 else 0) < 256 := by split <;> decide
  have widths : d.fields.map Prod.fst = [1, 1, 5, 1, 2, 1, 1, 1, 1, 2, 1, 1, 1, 13] := rfl
  rw [d.bytes_eq]
  exact ⟨length_layout widths (by decide +kernel),
    fieldAt_layout widths 0 rfl (by decide +kernel) kind,
    fieldAt_layout widths 1 rfl (by decide +kernel) (elim_lt _ (by decide) (by decide)),
    fieldAt_layout widths 2 rfl (by decide +kernel) d.identity.isLt,
    fieldAt_layout widths 3 rfl (by decide +kernel) suspect,
    fieldAt_layout widths 4 rfl (by decide +kernel) (elim_lt _ (by decide) (by decide)),
    fieldAt_layout widths 5 rfl (by decide +kernel) (elim_lt _ (by decide) (by decide)),
    fieldAt_layout widths 6 rfl (by decide +kernel) (elim_lt _ (by decide) (by decide)),
    fieldAt_layout widths 7 rfl (by decide +kernel) (elim_lt _ (by decide) (by decide)),
    fieldAt_layout widths 8 rfl (by decide +kernel) d.reason.isLt,
    fieldAt_layout_mod widths 9 rfl (by decide +kernel),
    fieldAt_layout widths 10 rfl (by decide +kernel) d.mode.isLt,
    fieldAt_layout widths 11 rfl (by decide +kernel) d.period.isLt,
    fieldAt_layout widths 12 rfl (by decide +kernel) (d.group.isLt.trans (by decide)),
    fieldAt_layout widths 13 rfl (by decide +kernel) (by decide)⟩

def Event.fields (e : Event) : List (Nat × Nat) :=
  [(1, e.kind.code), (1, e.severity.code), (2, e.subject.toNat), (4, e.time.toNat), (4, e.detail1.toNat), (4, e.detail2.toNat)]

theorem Event.bytes_eq (e : Event) : e.bytes = layout e.fields := by
  unfold Event.bytes layout Event.fields
  simp only [List.flatMap_cons, List.flatMap_nil, List.append_assoc, List.append_nil]

theorem eventLayout (e : Event) :
    let f := fieldAt e.bytes
    e.bytes.length = 16 ∧ f 0 1 = e.kind.code ∧ f 1 1 = e.severity.code ∧ f 2 2 = e.subject.toNat ∧ f 4 4 = e.time.toNat ∧
    f 8 4 = e.detail1.toNat ∧ f 12 4 = e.detail2.toNat := by
  have kind : e.kind.code < 256 := by cases e.kind <;> decide
  have severity : e.severity.code < 256 := by cases e.severity <;> decide
  have widths : e.fields.map Prod.fst = [1, 1, 2, 4, 4, 4] := rfl
  rw [e.bytes_eq]
  exact ⟨length_layout widths (by decide +kernel),
    fieldAt_layout widths 0 rfl (by decide +kernel) kind,
    fieldAt_layout widths 1 rfl (by decide +kernel) severity,
    fieldAt_layout widths 2 rfl (by decide +kernel) e.subject.isLt,
    fieldAt_layout widths 3 rfl (by decide +kernel) e.time.isLt,
    fieldAt_layout widths 4 rfl (by decide +kernel) e.detail1.isLt,
    fieldAt_layout widths 5 rfl (by decide +kernel) e.detail2.isLt⟩

/-! ### The status block (R199) -/

theorem State.statusBytes_eq (s : State) : s.statusBytes = layout (s.statusFields ++ [(110, 0)]) := by
  unfold State.statusBytes layout
  rw [List.flatMap_append, List.flatMap_singleton, leBytes_zero]

theorem statusLayout (s : State) (hc : s.CountersSound) (hl : s.ListsSound) :
    let f := fieldAt s.statusBytes
    let flag (b : Bool) (i : Nat) : Nat := if b then 2 ^ i else 0
    s.statusBytes.length = 128 ∧ f 0 1 = s.op.code ∧ f 1 1 = s.resetCause.code ∧
    f 2 1 = flag s.contained 0 + flag s.fatalPending 1 + flag s.mapChanged 2 + flag s.staged.isSome 3 ∧
    f 3 1 = s.faultList.length ∧ f 4 2 = s.uplinkOverrun ∧ f 6 2 = s.requestOverrun ∧ f 8 2 = s.unknownIds ∧
    f 10 2 = s.eventsLost ∧ f 12 2 = s.dirDropped ∧ f 14 2 = s.deferrals ∧ f 16 2 = s.corrected ∧ f 18 110 = 0 := by
  have op : s.op.code < 256 := by cases s.op <;> decide
  have cause : s.resetCause.code < 256 := by cases s.resetCause <;> decide
  have flags : s.statusFlags < 256 := by
    have h0 := bit_le s.contained 0
    have h1 := bit_le s.fatalPending 1
    have h2 := bit_le s.mapChanged 2
    have h3 := bit_le s.staged.isSome 3
    unfold State.statusFlags
    omega
  have word {k : Nat} (hk : k ≤ 65535) : k < 256 ^ 2 := by omega
  have widths : (s.statusFields ++ [(110, 0)]).map Prod.fst = [1, 1, 1, 1, 2, 2, 2, 2, 2, 2, 2, 110] := rfl
  rw [s.statusBytes_eq]
  exact ⟨length_layout widths (by decide +kernel),
    fieldAt_layout widths 0 rfl (by decide +kernel) op,
    fieldAt_layout widths 1 rfl (by decide +kernel) cause,
    fieldAt_layout widths 2 rfl (by decide +kernel) flags,
    fieldAt_layout widths 3 rfl (by decide +kernel) (hl.faultList.trans_lt (by decide)),
    fieldAt_layout widths 4 rfl (by decide +kernel) (word hc.uplinkOverrun),
    fieldAt_layout widths 5 rfl (by decide +kernel) (word hc.requestOverrun),
    fieldAt_layout widths 6 rfl (by decide +kernel) (word hc.unknownIds),
    fieldAt_layout widths 7 rfl (by decide +kernel) (word hc.eventsLost),
    fieldAt_layout widths 8 rfl (by decide +kernel) (word hc.dirDropped),
    fieldAt_layout widths 9 rfl (by decide +kernel) (word hc.deferrals),
    fieldAt_layout widths 10 rfl (by decide +kernel) (word hc.corrected),
    fieldAt_layout widths 11 rfl (by decide +kernel) (by decide)⟩

/-! ### Live beats (R24, R26) -/

/-- The head and the level of candidate `i`. -/
def HandsetCtx.candidateHead (c : HandsetCtx) (i : Nat) : Nat :=
  (c.quality.candidates[i]?).elim 0xFF fun x => x.head.val

def HandsetCtx.candidateLevel (c : HandsetCtx) (i : Nat) : Nat := (c.quality.candidates[i]?).elim 0 Candidate.level

theorem candidatePair_eq (c : HandsetCtx) (i : Nat) :
    candidatePair c.quality.candidates i = leBytes 1 (c.candidateHead i) ++ leBytes 1 (c.candidateLevel i) := by
  unfold candidatePair HandsetCtx.candidateHead HandsetCtx.candidateLevel
  cases c.quality.candidates[i]? <;> rfl

def HandsetCtx.liveFields (c : HandsetCtx) : List (Nat × Nat) :=
  [(1, c.state.code), (1, c.serving.elim 0xFF Fin.val), (1, c.channel.elim 0xFF Fin.val), (1, c.media.elim 0xFF Fin.val),
    (1, c.quality.level.getD 0), (1, c.flags), (1, c.txn.elim 0xFF fun p => p.1.val), (1, c.quality.candidates.length),
    (1, c.candidateHead 0), (1, c.candidateLevel 0), (1, c.candidateHead 1), (1, c.candidateLevel 1),
    (1, c.candidateHead 2), (1, c.candidateLevel 2), (1, c.candidateHead 3), (1, c.candidateLevel 3),
    (1, c.accessFail), (1, c.hoFail), (2, 0), (4, c.lastSeen.toNat)]

theorem HandsetCtx.liveBytes_eq (c : HandsetCtx) : c.liveBytes = layout c.liveFields := by
  have txn : (c.txn.map fun p => p.1.val).getD 0xFF = c.txn.elim 0xFF fun p => p.1.val := by cases c.txn <;> rfl
  have zeros : leBytes 2 0 = [0, 0] := rfl
  unfold HandsetCtx.liveBytes layout HandsetCtx.liveFields
  simp only [List.flatMap_cons, List.flatMap_nil, candidatePair_eq, chanCode_eq, headCode_eq, txn, zeros, List.append_assoc,
    List.append_nil]

theorem handsetLayout (c : HandsetCtx) (hc : c.Sound) :
    let f := fieldAt c.liveBytes
    let flag (b : Bool) (i : Nat) : Nat := if b then 2 ^ i else 0
    c.liveBytes.length = 24 ∧ f 0 1 = c.state.code ∧ f 1 1 = c.serving.elim 0xFF Fin.val ∧
    f 2 1 = c.channel.elim 0xFF Fin.val ∧ f 3 1 = c.media.elim 0xFF Fin.val ∧ f 4 1 = c.quality.level.getD 0 ∧
    f 5 1 = flag c.presence.missed 0 + flag c.presence.early 1 + flag c.staged.isSome 2 + flag c.poisoned 3 +
      flag c.quality.underRange 4 + flag c.quality.overRange 5 ∧
    f 6 1 = c.txn.elim 0xFF (fun p => p.1.val) ∧ f 7 1 = c.quality.candidates.length ∧
    (∀ i < 4, f (8 + 2 * i) 1 = (c.quality.candidates[i]?).elim 0xFF (fun x => x.head.val) ∧
      f (9 + 2 * i) 1 = (c.quality.candidates[i]?).elim 0 Candidate.level) ∧
    f 16 1 = c.accessFail ∧ f 17 1 = c.hoFail ∧ f 18 2 = 0 ∧ f 20 4 = c.lastSeen.toNat := by
  have state : c.state.code < 256 := by cases c.state <;> decide
  have level : c.quality.level.getD 0 < 256 := by
    cases hq : c.quality.level with
    | none => decide
    | some l => exact (hc.quality.level l hq).trans_lt (by decide)
  have flags : c.flags < 256 := by
    have h0 := bit_le c.presence.missed 0
    have h1 := bit_le c.presence.early 1
    have h2 := bit_le c.staged.isSome 2
    have h3 := bit_le c.poisoned 3
    have h4 := bit_le c.quality.underRange 4
    have h5 := bit_le c.quality.overRange 5
    unfold HandsetCtx.flags
    omega
  have txn : c.txn.elim 0xFF (fun p => p.1.val) < 256 := by
    cases c.txn with
    | none => decide
    | some p => exact p.1.isLt.trans (by decide)
  have candidate (i : Nat) : c.candidateHead i < 256 ∧ c.candidateLevel i < 256 := by
    unfold HandsetCtx.candidateHead HandsetCtx.candidateLevel
    cases hx : c.quality.candidates[i]? with
    | none => decide
    | some x =>
      have sound := hc.quality.list.entries x (List.mem_of_getElem? hx)
      exact ⟨x.head.isLt.trans (by decide), sound.level.trans_lt (by decide)⟩
  have widths : c.liveFields.map Prod.fst = [1, 1, 1, 1, 1, 1, 1, 1, 1, 1, 1, 1, 1, 1, 1, 1, 1, 1, 2, 4] := rfl
  rw [c.liveBytes_eq]
  refine ⟨length_layout widths (by decide +kernel),
    fieldAt_layout widths 0 rfl (by decide +kernel) state,
    fieldAt_layout widths 1 rfl (by decide +kernel) (elim_lt _ (by decide) (by decide)),
    fieldAt_layout widths 2 rfl (by decide +kernel) (elim_lt _ (by decide) (by decide)),
    fieldAt_layout widths 3 rfl (by decide +kernel) (elim_lt _ (by decide) (by decide)),
    fieldAt_layout widths 4 rfl (by decide +kernel) level,
    fieldAt_layout widths 5 rfl (by decide +kernel) flags,
    fieldAt_layout widths 6 rfl (by decide +kernel) txn,
    fieldAt_layout widths 7 rfl (by decide +kernel) (hc.quality.list.few.trans_lt (by decide)),
    fun i hi => ?_,
    fieldAt_layout widths 16 rfl (by decide +kernel) (hc.accessFail.trans_lt (by decide)),
    fieldAt_layout widths 17 rfl (by decide +kernel) (hc.hoFail.trans_lt (by decide)),
    fieldAt_layout widths 18 rfl (by decide +kernel) (by decide),
    fieldAt_layout widths 19 rfl (by decide +kernel) c.lastSeen.isLt⟩
  obtain ⟨head, level⟩ := candidate i
  interval_cases i
  · exact ⟨fieldAt_layout widths 8 rfl (by decide +kernel) head,
      fieldAt_layout widths 9 rfl (by decide +kernel) level⟩
  · exact ⟨fieldAt_layout widths 10 rfl (by decide +kernel) head,
      fieldAt_layout widths 11 rfl (by decide +kernel) level⟩
  · exact ⟨fieldAt_layout widths 12 rfl (by decide +kernel) head,
      fieldAt_layout widths 13 rfl (by decide +kernel) level⟩
  · exact ⟨fieldAt_layout widths 14 rfl (by decide +kernel) head,
      fieldAt_layout widths 15 rfl (by decide +kernel) level⟩

def headLiveFields (h : HeadCtx) (a : AttachHead) : List (Nat × Nat) :=
  let staged := h.staged.getD (h.capacity, h.guard)
  [(1, h.state.code), (1, h.freeCount), (1, h.capacity), (1, h.guard), (1, staged.1), (1, staged.2),
    (1, (if h.staged.isSome then 1 else 0) + (if h.warning then 2 else 0)), (1, h.failures), (1, h.waitQ.length),
    (1, a.queue.length), (1, a.credits), (1, 0), (4, h.lastStatus.toNat), (8, 0)]

theorem headLiveBytes_eq (h : HeadCtx) (a : AttachHead) : headLiveBytes h a = layout (headLiveFields h a) := by
  have flags : h.flags = (if h.staged.isSome then 1 else 0) + (if h.warning then 2 else 0) := rfl
  have free : h.free = h.freeCount := rfl
  have zero : leBytes 1 0 = [0] := rfl
  unfold headLiveBytes layout headLiveFields
  simp only [List.flatMap_cons, List.flatMap_nil, flags, free, zero, leBytes_zero, List.append_assoc, List.append_nil]

theorem headLayout (h : HeadCtx) (a : AttachHead) (hh : h.Sound) (ha : a.Sound) :
    let f := fieldAt (headLiveBytes h a)
    let staged := h.staged.getD (h.capacity, h.guard)
    (headLiveBytes h a).length = 24 ∧ f 0 1 = h.state.code ∧ f 1 1 = h.freeCount ∧ f 2 1 = h.capacity ∧ f 3 1 = h.guard ∧
    f 4 1 = staged.1 ∧ f 5 1 = staged.2 ∧ f 6 1 = (if h.staged.isSome then 1 else 0) + (if h.warning then 2 else 0) ∧
    f 7 1 = h.failures ∧ f 8 1 = h.waitQ.length % 256 ∧ f 9 1 = a.queue.length ∧ f 10 1 = a.credits ∧ f 11 1 = 0 ∧
    f 12 4 = h.lastStatus.toNat ∧ f 16 8 = 0 := by
  have state : h.state.code < 256 := by cases h.state <;> decide
  have capacity : h.capacity < 256 := hh.limits.atMost.trans_lt (by decide)
  have guard : h.guard < 256 := hh.limits.guardAtMost.trans_lt (by decide)
  have free : h.freeCount < 256 := (Nat.sub_le ..).trans_lt capacity
  have staged : (h.staged.getD (h.capacity, h.guard)).1 < 256 ∧ (h.staged.getD (h.capacity, h.guard)).2 < 256 := by
    cases hs : h.staged with
    | none => exact ⟨capacity, guard⟩
    | some p =>
      have limits := hh.staged p.1 p.2 hs
      exact ⟨limits.atMost.trans_lt (by decide), limits.guardAtMost.trans_lt (by decide)⟩
  have flags : (if h.staged.isSome then 1 else 0) + (if h.warning then 2 else 0) < 256 := by split <;> split <;> decide
  have widths : (headLiveFields h a).map Prod.fst = [1, 1, 1, 1, 1, 1, 1, 1, 1, 1, 1, 1, 4, 8] := rfl
  rw [headLiveBytes_eq]
  exact ⟨length_layout widths (by decide +kernel),
    fieldAt_layout widths 0 rfl (by decide +kernel) state,
    fieldAt_layout widths 1 rfl (by decide +kernel) free,
    fieldAt_layout widths 2 rfl (by decide +kernel) capacity,
    fieldAt_layout widths 3 rfl (by decide +kernel) guard,
    fieldAt_layout widths 4 rfl (by decide +kernel) staged.1,
    fieldAt_layout widths 5 rfl (by decide +kernel) staged.2,
    fieldAt_layout widths 6 rfl (by decide +kernel) flags,
    fieldAt_layout widths 7 rfl (by decide +kernel) (hh.failures.trans_lt (by decide)),
    fieldAt_layout_mod widths 8 rfl (by decide +kernel),
    fieldAt_layout widths 9 rfl (by decide +kernel) (ha.queue.trans_lt (by decide)),
    fieldAt_layout widths 10 rfl (by decide +kernel) (ha.credits.trans_lt (by decide)),
    fieldAt_layout widths 11 rfl (by decide +kernel) (by decide),
    fieldAt_layout widths 12 rfl (by decide +kernel) h.lastStatus.isLt,
    fieldAt_layout widths 13 rfl (by decide +kernel) (by decide)⟩

/-- Settles O32, record by record; the codes are closed lists. -/
theorem recordLayouts : Obligations.RecordLayouts :=
  ⟨directiveLayout, eventLayout, statusLayout, handsetLayout, headLayout, rfl, rfl, rfl, rfl, rfl, rfl, rfl, rfl, rfl, rfl⟩

end Sys2Proof.Machine
end
